-- ==== Sys2Proof/Word.lean ====
section
/-! DEFINITION. The word types of the block (spec/00_scope.md R9, R14; spec/10_state.md R23, R61). -/

namespace Sys2Proof

/-- A byte, the source's `u8` (R9). -/
abbrev Byte := BitVec 8

/-- A 32-bit host register value (R23). -/
abbrev Word := BitVec 32

/-- A 64-bit microsecond or millisecond clock value (R60, R61). -/
abbrev Time := BitVec 64

end Sys2Proof
end

