-- ==== Sys2Proof/Config.lean ====
section
/-! DEFINITION. What the spec leaves to an implementation or draws anew: constants without a body, so that a theorem
about the machine holds whatever they are (spec/93_implementation_defined.md). -/

namespace Sys2Proof.Config

/-- FREE VALUE (U1, R351; log 6). What byte `a` of buffer RAM holds after the `epoch`-th block reset while nothing has
written it: any value, the same on every read until written. -/
opaque ramFree (epoch a : Nat) : Byte

/-- FREE VALUE (U2, R66; log 11). What the `n`-th host read of an output that the running operation may write returns. -/
opaque busyRead (n : Nat) : Word

/-- FREE VALUE (I9, R303; log 9). The category of a CCP return code, away from the two points the spec fixes; the machine
uses it only through `Machine.ccpCategory`, which keeps the spec's bounds. -/
opaque ccpCategoryFree (rc : Byte) : BitVec 3

/-- FREE VALUE (I10, R300; log 10). The name of a KWP2000 negative-status code, away from the points the spec fixes. -/
opaque nrcNameFree (code : Byte) : String

end Sys2Proof.Config
end

