-- ==== Sys2Proof/Syntax.lean ====
section
/-! DEFINITION. The operations of the block: one constructor per row of spec/opcode_table.json (spec/30_encoding.md R120).
An operation has no encoded operand (R111): its operands are registers and buffers. -/

namespace Sys2Proof

/-- An operation the host can start by writing CMD (R120). -/
inductive Instr where
  /-- OPEN, 0x01: open the port and install the CAN filter (R225). -/
  | openPort
  /-- CLOSE, 0x02: stop keep-alive, release the port, engine to Uninitialized (R255). -/
  | closePort
  /-- CAP_DUMP, 0x03: move the capture buffer to the dump area (R236). -/
  | capDump
  /-- KL_ENC, 0x10: encode TXBUF as a K-Line frame into FRMBUF (R143). -/
  | klEnc
  /-- KL_PARSE, 0x11: decode the K-Line frames in FRMBUF into RXBUF (R155). -/
  | klParse
  /-- CRO_ENC, 0x20: encode TXBUF as a CRO into FRMBUF (R171). -/
  | croEnc
  /-- DTO_DEC, 0x21: decode the DTO in FRMBUF into RXBUF (R176). -/
  | dtoDec
  /-- FI_SEQ, 0x30: fast-init handshake with STARTBUF (R201). -/
  | fiSeq
  /-- TP_SEND, 0x40: transport send (R226). -/
  | tpSend
  /-- TP_RECV, 0x41: transport receive (R227). -/
  | tpRecv
  /-- TP_SR, 0x42: transport send then receive (R228). -/
  | tpSr
  /-- KWP_INIT, 0x50: KWP2000 engine init (R245). -/
  | kwpInit
  /-- KWP_EXEC, 0x51: KWP2000 execute (R250). -/
  | kwpExec
  /-- CCP_EXEC, 0x60: CCP execute (R280). -/
  | ccpExec
  deriving DecidableEq, Repr

/-- CTRL.PROTO, the transport and engine (R30, R215). The reserved value 3 can never be held (R31), so it has no
constructor. -/
inductive Proto where
  /-- 0: KWP2000 over K-Line. -/
  | kwpKline
  /-- 1: KWP2000 over CAN through the external ISO-TP service. -/
  | kwpCan
  /-- 2: CCP over CAN, single 8-byte frames. -/
  | ccpCan
  deriving DecidableEq, Repr

end Sys2Proof
end

