-- ==== Sys2Proof/Machine/State.lean ====
section
/-! DEFINITION. The state of the block as plain data (spec/10_state.md), its reasons to stop, and the state after reset
(spec/70_reset_and_hazards.md R350). The model's own fields, which no host access can read, are marked so. -/

namespace Sys2Proof.Machine

/-! ### Errors (spec/60_exceptions.md R311, R312) -/

/-- The sub-causes of TIMEOUT (R312). -/
inductive TimeoutCause where
  | klRx | fi | canRx | isotpRx | klParse | dtoShort
  deriving DecidableEq, Repr

/-- The sub-causes of PROTOCOL_VIOLATION (R312). -/
inductive ViolationCause where
  | unexpectedStatus | badFormat | malformedNeg
  deriving DecidableEq, Repr

/-- The sub-causes of ARGUMENT (R312). -/
inductive ArgumentCause where
  | klLen | ccpLen | frameLen | kaLen | startLen
  deriving DecidableEq, Repr

/-- The sub-causes of ILLEGAL_COMMAND (R312). -/
inductive IllegalCause where
  | unknownOpcode | wrongProto
  deriving DecidableEq, Repr

/-- An error with its sub-cause and the information R313 records. -/
inductive Err where
  | openingPort
  | timeout (cause : TimeoutCause) (code : Byte)
  | negativeKwp (code aux : Byte)
  | negativeCcp (code aux : Byte) (cat : BitVec 3)
  | violation (cause : ViolationCause) (code : Byte)
  | argument (cause : ArgumentCause) (code : Byte)
  | checksum (received computed : Byte)
  | notReady
  | portClosed
  | illegal (cause : IllegalCause) (opc : Byte)
  deriving DecidableEq, Repr

/-! ### STATUS and the registers (R23, R26, R29, R30) -/

/-- STATUS.KA_EXIT: why the keep-alive task last exited (R29). -/
inductive KaExit where
  | none | stopped | portClosed | timeout | negative | other
  deriving DecidableEq, Repr

/-- STATUS.FI_RESULT: the outcome of the last fast-init (R29). -/
inductive FiResult where
  | notRun | native | alternate | noResponse
  deriving DecidableEq, Repr

/-- The fields of STATUS (R26); reserved bits have no storage. -/
structure Status where
  busy : Bool
  done : Bool
  err : Bool
  errSticky : Bool
  overrun : Bool
  portOpen : Bool
  engReady : Bool
  kaRun : Bool
  kaExit : KaExit
  fiResult : FiResult
  kaActive : Bool
  deriving DecidableEq, Repr

/-- CTRL (R30). -/
structure Ctrl where
  proto : Proto
  klChkVerify : Bool
  kaEn : Bool
  deriving DecidableEq, Repr

/-- The registers only the host writes, but for CAPD_SEL, which CAP_DUMP also clears (R23, R30 to R52). -/
structure Regs where
  ctrl : Ctrl
  klTxHdr : BitVec 16
  klRxHdr : BitVec 16
  canTxId : Word
  canRxId : Word
  canRxMask : Word
  txLen : BitVec 9
  startLen : BitVec 9
  kaLen : BitVec 9
  tRxTimeout : Word
  tFiTimeout : Word
  tFiLow : Word
  tFiHigh : Word
  fiReadMax : BitVec 8
  kaPoll : Word
  kaIdle : Word
  capCfg : Word
  capdSel : Word
  deriving DecidableEq, Repr

/-- The registers operations write (R32, R33, R38 to R45, R51, R52); FRMLEN the host writes too (R41). -/
structure Outs where
  errCode : Word
  errInfo : Word
  ccpCtr : BitVec 8
  rxLen : BitVec 9
  frmLen : BitVec 10
  respStatus : BitVec 8
  dtoInfo : BitVec 16
  txWritten : BitVec 16
  capCount : Word
  capdCount : Word
  deriving DecidableEq, Repr

/-! ### Storage -/

/-- Buffer RAM as the bytes written since reset, by strictly rising address (R83, R351). -/
abbrev Memory := List Host.Cell

/-- The direction of a capture record (R52, R60). -/
inductive Dir where
  | incoming | outgoing
  deriving DecidableEq, Repr

/-- A capture record, the source's RawPacket (R60). -/
structure Record where
  dir : Dir
  bytes : List Byte
  ts : Time
  deriving DecidableEq, Repr

/-- CAP_LIVE and CAP_DUMPED, oldest record first (R60). -/
structure Capture where
  live : List Record
  dumped : List Record
  deriving DecidableEq, Repr

/-- NOW_US, LAST_ACT_US and the two read latches (R54, R55, R61, R62). -/
structure Clock where
  now : Time
  lastAct : Time
  timeHiLatch : Word
  lastActHiLatch : Word
  deriving DecidableEq, Repr

/-- The agents that use the port (R21, R57). -/
inductive Agent where
  | seq | ka
  deriving DecidableEq, Repr

/-- LINE: the line state the block last requested (R63). -/
inductive Line where
  | uart | brk | low | high
  deriving DecidableEq, Repr

/-- The levels of the `LineSet` primitive (R15). -/
inductive Level where
  | low | high | release
  deriving DecidableEq, Repr

/-- An interface primitive with its arguments (R15); `IsoTpSend` with the identifier its frames go out under (R36; log 36). -/
inductive PortCall where
  | openPort
  | closePort
  | setTimeout (ms : Word)
  | setFilters (entries : List (Word × Word))
  | read (n : Nat)
  | write (s : List Byte)
  | canWrite (id : Word) (s : List Byte)
  | canRead
  | brk (on : Bool)
  | lineSet (level : Level)
  | isoTpSend (id : Word) (s : List Byte)
  | isoTpRecv
  deriving DecidableEq, Repr

/-- MODEL'S OWN (log 21). One performed primitive: who performed it, at what clock value, and what it was. -/
structure PortEvent where
  agent : Agent
  time : Time
  call : PortCall
  deriving DecidableEq, Repr

/-- PORT_TO and LINE (R63), and the model's own record of the primitives performed, newest first (log 21). -/
structure Port where
  timeout : Word
  line : Line
  log : List PortEvent
  deriving DecidableEq, Repr

/-! ### The environment's answers (R15, R91) -/

/-- What the K-Line delivers: a byte, or a silence that lasts past the port's timeout (R87; log 4). -/
inductive LineItem where
  | byte (b : Byte)
  | gap
  deriving DecidableEq, Repr

/-- What `CanRead` or `IsoTpRecv` answers: data bytes, or TIMEOUT (R15). -/
inductive RxItem where
  | data (bs : List Byte)
  | timeout
  deriving DecidableEq, Repr

/-- MODEL'S OWN (log 3). The environment's answers that no primitive has consumed yet, and the clock readings that
busy-waits will see. -/
structure Env where
  lineIn : List LineItem
  canIn : List RxItem
  isoIn : List RxItem
  openAns : List Bool
  writeAns : List Int
  clockIn : List Time
  deriving DecidableEq, Repr

/-- One answer of the environment, as it arrives (R21 agent 4). -/
inductive Answer where
  | lineByte (b : Byte)
  | lineGap
  | can (a : RxItem)
  | iso (a : RxItem)
  | opened (ok : Bool)
  | written (n : Int)
  | reading (t : Time)
  deriving DecidableEq, Repr

/-! ### The operation sequencer (R20) and the keep-alive task (R58) -/

/-- A position inside SyncTimeout, TpSend and TpRecv, shared by the sequencer and the keep-alive task (R217, R222, R223,
R144). The names say which atomic step comes next. -/
inductive TxPos where
  /-- SyncTimeout, then the send. -/
  | syncSend
  /-- The send primitive. -/
  | send
  /-- CapPush(OUT). -/
  | capOut
  /-- SyncTimeout, then the receive. -/
  | syncRecv
  /-- The first primitive of TpRecv: `PortRead(1)` of the counter byte, `IsoTpRecv` or `CanRead`. -/
  | recv
  /-- `PortRead(2)` of the header id, counter byte `c` read. -/
  | klId (c : Byte)
  /-- `PortRead(1)` of the overflow length, counter and id read. -/
  | klLen (c i0 i1 : Byte)
  /-- `PortRead(n)` of the PDU, head `H` read. -/
  | klBody (head : List Byte) (n : Nat)
  /-- `PortRead(1)` of the checksum, head and PDU read. -/
  | klSum (head pdu : List Byte)
  /-- A whole frame is read: discard it, refuse it, or CapPush(IN) it. -/
  | klJudge (head pdu : List Byte) (cs : Byte)
  /-- `IsoTpRecv` returned a PDU: refuse it or CapPush(IN) it. -/
  | isoGot (pdu : List Byte)
  /-- `CanRead` returned a frame: refuse it or CapPush(IN) it. -/
  | canGot (frame : List Byte)
  /-- An error is about to be raised. -/
  | raise (e : Err)
  deriving DecidableEq, Repr

/-- The two fast-init strategies (R193, R194). -/
inductive Strategy where
  | native | alternate
  deriving DecidableEq, Repr

/-- A position inside FastInit (R200, R193, R194). `t` is the clock value at which the running phase's minimum ends. -/
inductive FiPos where
  /-- `PortSetTimeout(T_FI_TIMEOUT_MS)`. -/
  | setTimeout
  /-- `PortBreak(on)`, or FRMLEN of the silent native window and `LineSet(LOW)`. -/
  | low (st : Strategy)
  /-- BusyWaitUntil the end of the low window. -/
  | holdLow (st : Strategy) (t : Nat)
  /-- `PortBreak(off)` or `LineSet(HIGH)`. -/
  | high (st : Strategy) (t : Nat)
  /-- BusyWaitUntil the end of the high window. -/
  | holdHigh (st : Strategy) (t : Nat)
  /-- `LineSet(RELEASE)` of the alternate strategy. -/
  | release (t : Nat)
  /-- `PortWrite` of the init payload. -/
  | send (st : Strategy) (t : Nat)
  /-- `PortRead(1)` of response byte `k`; `last` is the byte read before it, not in FRMBUF yet. -/
  | read (st : Strategy) (k : Nat) (last : Option Byte)
  /-- FRMLEN of a window of `k` bytes, FI_RESULT and `PortSetTimeout(T_RX_TIMEOUT_MS)`; `last` as before. -/
  | close (r : FiResult) (k : Nat) (last : Option Byte)
  deriving DecidableEq, Repr

/-- What an operation still has to report when its port work is over. -/
inductive Ret where
  /-- Nothing. -/
  | unit
  /-- The received unit `U`. -/
  | data (u : List Byte)
  /-- The fast-init outcome. -/
  | fastInit (ok : Bool)
  deriving DecidableEq, Repr

/-- The step part of OP: how far the operation in progress has got (R20). -/
inductive Pos where
  /-- The operation's first line. -/
  | start
  /-- Inside StopKeepAlive: the stop request is made, the task has not been seen OFF (R264). -/
  | stopped
  /-- `PortOpen` succeeded; `PortSetTimeout` comes next (R225, R245). -/
  | opened
  /-- `CanSetFilters` comes next (R225, R245). -/
  | filter
  /-- KWP_INIT with the port open: the bus initialisation comes next (R245). -/
  | body
  /-- Inside FastInit, payload frame `F` (R200). -/
  | fi (frame : List Byte) (p : FiPos)
  /-- Inside the transport work of request `req` (R222, R223, R243). -/
  | tx (req : List Byte) (p : TxPos)
  /-- KwpTransaction has received `u` and classifies it (R243). -/
  | got (req u : List Byte)
  /-- `release LOCK` comes next. -/
  | release (r : Ret)
  /-- The output writes and `OP <- IDLE` (or the final raise) come next. -/
  | finish (r : Ret)
  /-- Error entry comes next (R330). -/
  | raise (e : Err)
  deriving DecidableEq, Repr

/-- OP when it is not IDLE: the operation code as written to CMD, and the step (R20, R25). -/
structure Op where
  code : Byte
  pos : Pos
  deriving DecidableEq, Repr

/-- LOCK, the engine-wide lock (R57). -/
inductive Lock where
  | free | seq | ka
  deriving DecidableEq, Repr

/-- A position inside the tick of the keep-alive task (R262). -/
inductive TickPos where
  /-- The open-port and idle checks, then `acquire LOCK`. -/
  | enter
  /-- Inside the transaction (R243), lock held. -/
  | tx (p : TxPos)
  /-- The transaction has received `u` and classifies it, lock held. -/
  | got (u : List Byte)
  /-- The tick is over: clear KA_ACTIVE, then stop or wait again. -/
  | ended
  /-- KaExit(code) comes next. -/
  | leave (code : KaExit)
  deriving DecidableEq, Repr

/-- KA_PHASE (R58), with the position inside a tick. -/
inductive KaPhase where
  | off
  | wait (t : Nat)
  | tick (p : TickPos)
  deriving DecidableEq, Repr

/-- KA_PHASE, KA_STOP_REQ and KA_PDU (R58, R59). -/
structure KeepAlive where
  phase : KaPhase
  stopReq : Bool
  pdu : List Byte
  deriving DecidableEq, Repr

/-! ### Schedule -/

/-- One host access (R24). -/
inductive HostAccess where
  | read (offset : BitVec 16)
  | write (offset : BitVec 16) (value : Word)
  deriving DecidableEq, Repr

/-- One event of the interleaving (R21, R93; log 1). -/
inductive Event where
  /-- The host performs an access. -/
  | host (a : HostAccess)
  /-- The sequencer runs on until its operation ends or it has to wait. -/
  | run
  /-- The sequencer performs one atomic step. -/
  | atom
  /-- The keep-alive task performs one atomic step. -/
  | task
  /-- The clock moves to `t`, if that is forward. -/
  | clock (t : Time)
  /-- The environment answers. -/
  | env (a : Answer)
  /-- The platform asserts the block reset (R350). -/
  | reset
  deriving DecidableEq, Repr

/-- The whole state. `status` to `ka` are the spec's; `env` to `epoch` and `port.log` are the model's own. -/
structure State where
  status : Status
  regs : Regs
  outs : Outs
  ram : Memory
  cap : Capture
  clock : Clock
  port : Port
  /-- OP: `none` is IDLE (R20). -/
  op : Option Op
  lock : Lock
  ka : KeepAlive
  env : Env
  /-- MODEL'S OWN (log 1): the events still to come; when it is empty the default agent of `step` moves (log 30). -/
  sched : List Event
  /-- MODEL'S OWN (log 21): what the last host read returned. -/
  hostData : Word
  /-- MODEL'S OWN (log 11): how many unspecified values host reads have drawn. -/
  draws : Nat
  /-- MODEL'S OWN (log 25): how many block resets have happened. -/
  epoch : Nat
  deriving DecidableEq, Repr

/-- Why the machine stops with a fault. The spec has no such stop: every error is reported and the block goes on. -/
inductive Fault where
  /-- Raised by `exec` when the operation in OP stands at a position its pseudocode does not have. Safe: no run from
  reset reaches it, and a claim is only lost, never gained, by stopping (log 22). -/
  | lostPosition
  deriving DecidableEq, Repr

/-- Why the machine refuses an instruction. -/
inductive Refusal where
  /-- Raised by `exec` for an operation that has no meaning yet; safe. No arm answers it any more. -/
  | notModelled (mnemonic : String)
  deriving DecidableEq, Repr

/-! ### Reset (R350) -/

/-- STATUS after reset (R350). -/
def Status.reset : Status :=
  { busy := false, done := false, err := false, errSticky := false, overrun := false, portOpen := false,
    engReady := false, kaRun := false, kaExit := .none, fiResult := .notRun, kaActive := false }

/-- The host registers after reset (R350). CAP_CFG is DESIGN CHOICE 0, unsafe (log 7). -/
def Regs.reset : Regs :=
  { ctrl := { proto := .kwpKline, klChkVerify := false, kaEn := false },
    klTxHdr := 0, klRxHdr := 0, canTxId := 0, canRxId := 0, canRxMask := 0xFFFFFFFF,
    txLen := 0, startLen := 0, kaLen := 0,
    tRxTimeout := 2000, tFiTimeout := 400, tFiLow := 25000, tFiHigh := 25000, fiReadMax := 40,
    kaPoll := 1000, kaIdle := 1500, capCfg := 0, capdSel := 0 }

/-- The output registers after reset (R350). -/
def Outs.reset : Outs :=
  { errCode := 0, errInfo := 0, ccpCtr := 0, rxLen := 0, frmLen := 0, respStatus := 0, dtoInfo := 0, txWritten := 0,
    capCount := 0, capdCount := 0 }

/-- The block right after reset (R350), before any event. NOW_US is DESIGN CHOICE 0, unsafe (log 8); the model's own
fields are empty. -/
def State.reset : State :=
  { status := .reset, regs := .reset, outs := .reset, ram := [],
    cap := { live := [], dumped := [] },
    clock := { now := 0, lastAct := 0, timeHiLatch := 0, lastActHiLatch := 0 },
    port := { timeout := 2000, line := .uart, log := [] },
    op := none, lock := .free, ka := { phase := .off, stopReq := false, pdu := [] },
    env := { lineIn := [], canIn := [], isoIn := [], openAns := [], writeAns := [], clockIn := [] },
    sched := [], hostData := 0, draws := 0, epoch := 0 }

end Sys2Proof.Machine
end

