-- ==== Sys2Proof/Machine/Flags.lean ====
section
/-! DEFINITION. The words of STATUS, CTRL, CAP_CFG, ERR_CODE and ERR_INFO (spec/10_state.md R26 to R33, R50;
spec/60_exceptions.md R311 to R313). The block has no arithmetic flags (R64). -/

namespace Sys2Proof.Machine

/-- A flag at bit `k` of a word. -/
def flagAt (b : Bool) (k : Nat) : Word := if b then BitVec.ofNat 32 (2 ^ k) else 0

/-- KA_EXIT's number (R29). -/
def KaExit.num : KaExit → Nat
  | .none => 0
  | .stopped => 1
  | .portClosed => 2
  | .timeout => 3
  | .negative => 4
  | .other => 5

/-- FI_RESULT's number (R29). -/
def FiResult.num : FiResult → Nat
  | .notRun => 0
  | .native => 1
  | .alternate => 2
  | .noResponse => 3

/-- The STATUS word (R26). -/
def Status.word (t : Status) : Word :=
  flagAt t.busy 0 ||| flagAt t.done 1 ||| flagAt t.err 2 ||| flagAt t.errSticky 3 ||| flagAt t.overrun 4
    ||| flagAt t.portOpen 5 ||| flagAt t.engReady 6 ||| flagAt t.kaRun 7
    ||| BitVec.ofNat 32 (t.kaExit.num * 2 ^ 8) ||| BitVec.ofNat 32 (t.fiResult.num * 2 ^ 12) ||| flagAt t.kaActive 14

/-- A host write to STATUS: writing 1 to bit 3 or 4 clears it, nothing else changes (R26). -/
def Status.writeClear (t : Status) (v : Word) : Status :=
  { t with errSticky := t.errSticky && !v.getLsbD 3, overrun := t.overrun && !v.getLsbD 4 }

/-- PROTO's number (R30). -/
def protoNum : Proto → Nat
  | .kwpKline => 0
  | .kwpCan => 1
  | .ccpCan => 2

/-- The CTRL word (R30). -/
def Ctrl.word (c : Ctrl) : Word :=
  BitVec.ofNat 32 (protoNum c.proto) ||| flagAt c.klChkVerify 2 ||| flagAt c.kaEn 3

/-- A host write to CTRL: PROTO is WARL, unchanged by the value 3 and while the port is open; the other fields are
written (R30, R31). -/
def Ctrl.write (c : Ctrl) (portOpen : Bool) (v : Word) : Ctrl :=
  { proto :=
      if portOpen then c.proto
      else
        match (v.extractLsb' 0 2).toNat with
        | 0 => .kwpKline
        | 1 => .kwpCan
        | 2 => .ccpCan
        | _ => c.proto
    klChkVerify := v.getLsbD 2
    kaEn := v.getLsbD 3 }

/-- CAP_CFG.DISABLE (R50). -/
def capDisable (cfg : Word) : Bool := cfg.getLsbD 31

/-- CAP_CFG.CAPACITY (R50). -/
def capCapacity (cfg : Word) : Nat := (cfg.extractLsb' 0 31).toNat

/-- The error class of an error (R311). -/
def Err.cls : Err → Nat
  | .openingPort => 0x01
  | .timeout _ _ => 0x02
  | .negativeKwp _ _ => 0x03
  | .negativeCcp _ _ _ => 0x04
  | .violation _ _ => 0x05
  | .argument _ _ => 0x06
  | .checksum _ _ => 0x07
  | .notReady => 0x08
  | .portClosed => 0x09
  | .illegal _ _ => 0x0A

/-- The sub-cause of an error (R312). -/
def Err.sub : Err → Nat
  | .timeout .klRx _ => 0x01
  | .timeout .fi _ => 0x02
  | .timeout .canRx _ => 0x03
  | .timeout .isotpRx _ => 0x04
  | .timeout .klParse _ => 0x05
  | .timeout .dtoShort _ => 0x06
  | .violation .unexpectedStatus _ => 0x01
  | .violation .badFormat _ => 0x02
  | .violation .malformedNeg _ => 0x03
  | .argument .klLen _ => 0x01
  | .argument .ccpLen _ => 0x02
  | .argument .frameLen _ => 0x03
  | .argument .kaLen _ => 0x04
  | .argument .startLen _ => 0x05
  | .checksum _ _ => 0x01
  | .illegal .unknownOpcode _ => 0x01
  | .illegal .wrongProto _ => 0x02
  | .openingPort => 0x00
  | .negativeKwp _ _ => 0x00
  | .negativeCcp _ _ _ => 0x00
  | .notReady => 0x00
  | .portClosed => 0x00

/-- ERR_INFO.CODE of an error (R313). -/
def Err.code : Err → Byte
  | .openingPort => 0
  | .timeout _ c => c
  | .negativeKwp c _ => c
  | .negativeCcp c _ _ => c
  | .violation _ c => c
  | .argument _ c => c
  | .checksum r _ => r
  | .notReady => 0
  | .portClosed => 0
  | .illegal _ opc => opc

/-- ERR_INFO.AUX of an error (R313). -/
def Err.aux : Err → Byte
  | .negativeKwp _ a => a
  | .negativeCcp _ a _ => a
  | .checksum _ computed => computed
  | .openingPort => 0
  | .timeout _ _ => 0
  | .violation _ _ => 0
  | .argument _ _ => 0
  | .notReady => 0
  | .portClosed => 0
  | .illegal _ _ => 0

/-- ERR_INFO.CAT of an error (R313). -/
def Err.cat : Err → BitVec 3
  | .negativeCcp _ _ k => k
  | .openingPort => 0
  | .timeout _ _ => 0
  | .negativeKwp _ _ => 0
  | .violation _ _ => 0
  | .argument _ _ => 0
  | .checksum _ _ => 0
  | .notReady => 0
  | .portClosed => 0
  | .illegal _ _ => 0

/-- ERR_CODE: SUB * 256 + CLASS (R330). -/
def Err.codeWord (e : Err) : Word := BitVec.ofNat 32 (e.sub * 256 + e.cls)

/-- ERR_INFO: CODE in 7:0, AUX in 15:8, CAT in 18:16 (R33, R313). -/
def Err.infoWord (e : Err) : Word := BitVec.ofNat 32 (e.cat.toNat * 65536 + e.aux.toNat * 256 + e.code.toNat)

/-- The KA_EXIT code a failed tick records: 3 TIMEOUT, 4 NEGATIVE (KWP2000), 5 for any other error (R29, R262). -/
def Err.kaExit : Err → KaExit
  | .timeout _ _ => .timeout
  | .negativeKwp _ _ => .negative
  | .openingPort => .other
  | .negativeCcp _ _ _ => .other
  | .violation _ _ => .other
  | .argument _ _ => .other
  | .checksum _ _ => .other
  | .notReady => .other
  | .portClosed => .other
  | .illegal _ _ => .other

end Sys2Proof.Machine
end

