-- ==== Sys2Proof/Machine/Ops.lean ====
section
/-! DEFINITION. The named operations over state: one update per field, buffer RAM (spec/20_memory.md R82, R83), the
capture buffer (spec/43_transport.md R218), the clock (spec/10_state.md R61), the lock (R57), and the two ends of an
operation: error entry and successful end (spec/60_exceptions.md R330, R331). -/

namespace Sys2Proof.Machine

/-! ### One update per field -/

/-- Replace STATUS. -/
def State.setStatus (s : State) (x : Status) : State := { s with status := x }
/-- Replace the host registers. -/
def State.setRegs (s : State) (x : Regs) : State := { s with regs := x }
/-- Replace the output registers. -/
def State.setOuts (s : State) (x : Outs) : State := { s with outs := x }
/-- Replace buffer RAM. -/
def State.setRam (s : State) (x : Memory) : State := { s with ram := x }
/-- Replace the capture storage. -/
def State.setCap (s : State) (x : Capture) : State := { s with cap := x }
/-- Replace the clock registers. -/
def State.setClock (s : State) (x : Clock) : State := { s with clock := x }
/-- Replace the port record. -/
def State.setPort (s : State) (x : Port) : State := { s with port := x }
/-- Replace OP. -/
def State.setOp (s : State) (x : Option Op) : State := { s with op := x }
/-- Replace LOCK. -/
def State.setLock (s : State) (x : Lock) : State := { s with lock := x }
/-- Replace the keep-alive task's state. -/
def State.setKa (s : State) (x : KeepAlive) : State := { s with ka := x }
/-- Replace the environment's pending answers. -/
def State.setEnv (s : State) (x : Env) : State := { s with env := x }
/-- Replace the schedule. -/
def State.setSched (s : State) (x : List Event) : State := { s with sched := x }
/-- Replace the value the last host read returned. -/
def State.setHostData (s : State) (x : Word) : State := { s with hostData := x }
/-- Replace the count of drawn host reads. -/
def State.setDraws (s : State) (x : Nat) : State := { s with draws := x }

/-- FRMLEN <- n (R41). -/
def State.setFrmLen (s : State) (n : Nat) : State := s.setOuts { s.outs with frmLen := BitVec.ofNat 10 n }
/-- TX_WRITTEN <- n[15:0] (R45). -/
def State.setTxWritten (s : State) (n : Int) : State := s.setOuts { s.outs with txWritten := BitVec.ofInt 16 n }
/-- KA_PHASE <- p (R58). -/
def State.setPhase (s : State) (p : KaPhase) : State := s.setKa { s.ka with phase := p }
/-- The step part of OP moves to `p` (R20). -/
def State.goto (s : State) (p : Pos) : State := s.setOp (s.op.map fun o => { o with pos := p })

/-! ### Buffer RAM (R82, R83, R351) -/

/-- The size of buffer RAM (R82). -/
def ramSize : Nat := 0x800

/-- The byte written at `a`, if any. -/
def ramFind : Memory → Nat → Option Byte
  | [], _ => none
  | (k, v) :: m, a => if a = k then some v else ramFind m a

/-- Memory with `b` written at `a`, addresses strictly rising. -/
def ramStore : Memory → Nat → Byte → Memory
  | [], a, b => [(a, b)]
  | (k, v) :: m, a, b =>
    if a < k then (a, b) :: (k, v) :: m
    else if a = k then (a, b) :: m
    else (k, v) :: ramStore m a b

/-- The canonical form of memory: addresses strictly rising and inside buffer RAM. An unlisted byte reads as no written
value, so no entry can equal it. -/
def Memory.wf : Memory → Bool
  | [] => true
  | [(k, _)] => k < ramSize
  | (k, _) :: (k', v') :: m => k < k' && Memory.wf ((k', v') :: m)

/-- One byte of buffer RAM: the written value, or the unspecified one (R351; log 6); 0 outside buffer RAM (R92; log 32). -/
def State.peek (s : State) (a : Nat) : Byte :=
  if a < ramSize then (ramFind s.ram a).getD (Config.ramFree s.epoch a) else 0

/-- Write one byte of buffer RAM; nothing outside it (R83, R92; log 32). -/
def State.poke (s : State) (a : Nat) (b : Byte) : State :=
  if a < ramSize then s.setRam (ramStore s.ram a b) else s

/-- `MemRead(addr, n)` (R83). -/
def State.memRead (s : State) (a : Nat) : Nat → List Byte
  | 0 => []
  | n + 1 => s.peek a :: s.memRead (a + 1) n

/-- `MemWrite(addr, len(v), v)` (R83). -/
def State.memWrite (s : State) (a : Nat) : List Byte → State
  | [] => s
  | b :: bs => (s.poke a b).memWrite (a + 1) bs

/-! ### Clock (R14, R61) -/

/-- `Now()` as an integer. -/
def State.nowUs (s : State) : Nat := s.clock.now.toNat

/-- The clock moves to `t` but not past `limit`, and never backwards (R61, R191; log 17). -/
def State.moveClock (s : State) (limit : Nat) (t : Time) : State :=
  let u := if t.toNat ≤ limit then t else BitVec.ofNat 64 limit
  if s.clock.now.toNat ≤ u.toNat then s.setClock { s.clock with now := u } else s

/-- LAST_ACT_US <- Now() (R247). -/
def State.touch (s : State) : State := s.setClock { s.clock with lastAct := s.clock.now }

/-! ### Capture (R218) -/

/-- The oldest records leave until at most `k` are left, `k = 0` meaning no limit (R50, R218). -/
def evict (k : Nat) (rs : List Record) : List Record := if k = 0 then rs else rs.drop (rs.length - k)

/-- `CapPush(dir, s)` (R16, R218). -/
def capPush (dir : Dir) (bs : List Byte) (s : State) : State :=
  if capDisable s.regs.capCfg then s
  else
    let live := evict (capCapacity s.regs.capCfg) (s.cap.live ++ [{ dir := dir, bytes := bs, ts := s.clock.now / 1000 }])
    (s.setCap { s.cap with live := live }).setOuts { s.outs with capCount := BitVec.ofNat 32 live.length }

/-! ### The ends of an operation -/

/-- ERROR ENTRY, the block's only exception entry (R330): report the error, release a lock the sequencer holds, end the
operation. Nothing is rolled back. -/
def raiseError (e : Err) (s : State) : State :=
  (((s.setOuts { s.outs with errCode := e.codeWord, errInfo := e.infoWord }).setLock
    (if s.lock = .seq then .free else s.lock)).setStatus
    { s.status with busy := false, done := true, err := true, errSticky := true }).setOp none

/-- SUCCESSFUL END, `OP <- IDLE` (R331). There is no return from an error: no handler runs in the block (R332). -/
def endOp (s : State) : State :=
  (s.setStatus { s.status with busy := false, done := true, err := false }).setOp none

/-- Operation start, the atomic effect of a CMD write while idle (R25). -/
def startOp (code : Byte) (s : State) : State :=
  ((s.setStatus { s.status with busy := true, done := false, err := false }).setOuts
    { s.outs with errCode := 0, errInfo := 0 }).setOp (some { code := code, pos := .start })

end Sys2Proof.Machine
end

