-- ==== Sys2Proof/Machine/Codec.lean ====
section
/-! DEFINITION. The pure functions: the K-Line codec (spec/40_kline_codec.md R140 to R151), the CCP codec
(spec/41_ccp_codec.md R170, R175), KWP2000 classification (spec/44_kwp_engine.md R241) and the status taxonomies
(spec/46_command_model.md R300, R303). -/

namespace Sys2Proof.Machine

/-- `KlChecksum(s)`: the sum of the bytes modulo 256 (R140, R104). -/
def klChecksum (bs : List Byte) : Byte := BitVec.ofNat 8 (bs.map BitVec.toNat).sum

/-- The bytes before the PDU of an encoded frame: KL-S below 127 PDU bytes, KL-L from 127 on (R101, R102, R142). -/
def klHead (hdr : BitVec 16) (n : Nat) : List Byte :=
  if n < 127 then [BitVec.ofNat 8 (0x80 + n), hdr.extractLsb' 8 8, hdr.extractLsb' 0 8]
  else [0x80, hdr.extractLsb' 8 8, hdr.extractLsb' 0 8, BitVec.ofNat 8 n]

/-- `KlEncode(hdr, D)` (R142), for 1 to 255 bytes of `D` (R141). -/
def klEncode (hdr : BitVec 16) (pdu : List Byte) : List Byte :=
  klHead hdr pdu.length ++ pdu ++ [klChecksum (klHead hdr pdu.length ++ pdu)]

/-- What KlDecode does with a frame it has read whole. -/
inductive KlVerdict where
  | foreign
  | refuse (e : Err)
  | accept
  deriving DecidableEq, Repr

/-- The receive-id filter and the opt-in checksum check on a whole frame (R144, R146, R147, R149, R150). -/
def klVerdict (rxHdr : BitVec 16) (verify : Bool) (head pdu : List Byte) (cs : Byte) : KlVerdict :=
  if (head.getD 1 0).toNat * 256 + (head.getD 2 0).toNat ≠ rxHdr.toNat then .foreign
  else if verify && cs != klChecksum (head ++ pdu) then .refuse (.checksum cs (klChecksum (head ++ pdu)))
  else .accept

/-- A whole frame as read from a byte source, and the bytes left. -/
structure KlRead where
  head : List Byte
  pdu : List Byte
  cs : Byte
  rest : List Byte
  deriving DecidableEq, Repr

/-- The reads of the PDU and the checksum from a byte source (R144, R151); `short` is the short-read error. -/
def klReadBody (short : Err) (head : List Byte) (n : Nat) (src : List Byte) : Except Err KlRead :=
  match src.drop n with
  | [] => .error short
  | cs :: rest => .ok { head := head, pdu := src.take n, cs := cs, rest := rest }

/-- The reads of one frame from a byte source, with the format checks where the failing byte is read (R103, R145, R148,
R151). -/
def klReadFrame (short : Err) : List Byte → Except Err KlRead
  | [] => .error short
  | c :: src =>
    if c.toNat < 0x80 then .error (.violation .badFormat c)
    else
      match src with
      | i0 :: i1 :: src =>
        if c = 0x80 then
          match src with
          | [] => .error short
          | len :: src =>
            if len = 0 then .error (.violation .badFormat 0x80)
            else klReadBody short [c, i0, i1, len] len.toNat src
        else klReadBody short [c, i0, i1] (c.toNat - 0x80) src
      | _ => .error short

/-- `KlDecode` over a byte source (R144): frames with another id are dropped and the next one is read. Every frame takes
at least one byte, so a bound of the source's length plus one is never the reason it ends. -/
def klDecodeFrom (short : Err) (rxHdr : BitVec 16) (verify : Bool) : Nat → List Byte → Except Err (List Byte × List Byte)
  | 0, _ => .error short
  | n + 1, src =>
    match klReadFrame short src with
    | .error e => .error e
    | .ok r =>
      match klVerdict rxHdr verify r.head r.pdu r.cs with
      | .foreign => klDecodeFrom short rxHdr verify n r.rest
      | .refuse e => .error e
      | .accept => .ok (r.pdu, r.head ++ r.pdu ++ [r.cs])

/-- `KlDecode` over a buffer: the PDU and the raw frame, or the error (R144, R155). -/
def klDecode (short : Err) (rxHdr : BitVec 16) (verify : Bool) (src : List Byte) : Except Err (List Byte × List Byte) :=
  klDecodeFrom short rxHdr verify (src.length + 1) src

/-- `CroEncode(cmd, ctr, data)` for at most 6 data bytes (R105, R170). -/
def croEncode (cmd ctr : Byte) (data : List Byte) : List Byte :=
  [cmd, ctr] ++ data ++ List.replicate (6 - data.length) 0

/-- The fields of a DTO (R106). -/
structure Dto where
  pid : Byte
  rc : Byte
  ctr : Byte
  data : List Byte
  deriving DecidableEq, Repr

/-- `DtoDecode(F)` of an 8-byte string; it checks nothing (R175). -/
def dtoDecode (f : List Byte) : Dto :=
  { pid := f.getD 0 0, rc := f.getD 1 0, ctr := f.getD 2 0, data := (f.drop 3).take 5 }

/-- DTO_INFO: `ctr * 256 + pid` (R44, R176). -/
def Dto.info (d : Dto) : BitVec 16 := BitVec.ofNat 16 (d.ctr.toNat * 256 + d.pid.toNat)

/-- The result of classifying a KWP2000 reply. -/
inductive Verdict where
  | positive
  | pending
  | error (e : Err)
  deriving DecidableEq, Repr

/-- `KwpClassify(sid, U)` (R241): the positive test first and on integers, the echoed id reported and not compared. `U`
has at least one byte wherever it is called (log 24). -/
def kwpClassify (sid : Byte) (u : List Byte) : Verdict :=
  let st := u.headD 0
  if st.toNat = sid.toNat + 0x40 then .positive
  else if st = 0x7F then
    if u.length < 3 then .error (.violation .malformedNeg 0x7F)
    else if u.getD 2 0 = 0x78 then .pending
    else .error (.negativeKwp (u.getD 2 0) (u.getD 1 0))
  else .error (.violation .unexpectedStatus st)

/-- `CCP_CATEGORY(rc)`: total into 0, 1, 2, 3, 4, 7, with the two points the spec fixes; elsewhere a FREE VALUE within
those bounds (R283, R303; log 9). -/
def ccpCategory (rc : Byte) : BitVec 3 :=
  if rc = 0x00 then 0
  else if rc = 0x33 then 4
  else
    let k := Config.ccpCategoryFree rc
    if k = 5 || k = 6 then 7 else k

/-- The default CCP category table of R303, from general knowledge: one of the tables the parameter may be. The machine
does not use it (log 9). -/
def ccpCategoryDefault (rc : Byte) : BitVec 3 :=
  let c := rc.toNat
  if c = 0 then 0
  else if c = 0x01 then 1
  else if c = 0x10 || c = 0x11 || c = 0x12 || c = 0x18 || c = 0x19 then 2
  else if 0x20 ≤ c && c ≤ 0x23 then 3
  else if 0x30 ≤ c && c ≤ 0x36 then 4
  else 7

/-- `NRC_NAME(code)`, the host-side name of a KWP2000 negative status, with the points the source fixes; elsewhere a
FREE VALUE. The block never computes it (R300; log 10). -/
def nrcName (code : Byte) : String :=
  if code = 0x11 then "SERVICE_NOT_SUPPORTED"
  else if code = 0x78 then "REQUEST_CORRECTLY_RECEIVED_RESPONSE_PENDING"
  else if code = 0xC0 then "UNKNOWN"
  else Config.nrcNameFree code

end Sys2Proof.Machine
end

