-- ==== Sys2Proof/Machine/Operands.lean ====
section
/-! DEFINITION. The operands of operations: the buffers of spec/20_memory.md R82, the PDUs and frames held in them with
their length checks (spec/46_command_model.md R295, R298), and the output writes. -/

namespace Sys2Proof.Machine

/-- TXBUF (R82). -/
def txBuf : Nat := 0x000
/-- RXBUF (R82). -/
def rxBuf : Nat := 0x100
/-- FRMBUF (R82). -/
def frmBuf : Nat := 0x200
/-- STARTBUF (R82). -/
def startBuf : Nat := 0x400
/-- KABUF (R82). -/
def kaBuf : Nat := 0x500

/-- Bits 7:0 of a length, as the ARGUMENT and TIMEOUT(DTO_SHORT) errors report it (R313). -/
def lenByte (n : Nat) : Byte := BitVec.ofNat 8 n

/-- A PDU of `n` bytes at `base`, or ARGUMENT(cause) when `n` is outside 1..255 (R141, R201, R245). -/
def pduAt (s : State) (base n : Nat) (cause : ArgumentCause) : Except Err (List Byte) :=
  if n < 1 ∨ n > 255 then .error (.argument cause (lenByte n)) else .ok (s.memRead base n)

/-- The transmit PDU of KL_ENC, TP_SEND, TP_SR and KWP_EXEC: TXBUF, TXLEN (R143, R226, R250). -/
def txPdu (s : State) : Except Err (List Byte) := pduAt s txBuf s.regs.txLen.toNat .klLen

/-- The start command of FI_SEQ and KWP_INIT: STARTBUF, STARTLEN (R201, R245). -/
def startPdu (s : State) : Except Err (List Byte) := pduAt s startBuf s.regs.startLen.toNat .startLen

/-- The keep-alive command of KWP_INIT: KABUF, KALEN (R245). -/
def kaPdu (s : State) : Except Err (List Byte) := pduAt s kaBuf s.regs.kaLen.toNat .kaLen

/-- The CCP command of CRO_ENC and CCP_EXEC: TXBUF with TXLEN 1..7 (R171, R280). -/
def ccpCommand (s : State) : Except Err (List Byte) :=
  let t := s.regs.txLen.toNat
  if t < 1 ∨ t > 7 then .error (.argument .ccpLen (lenByte t)) else .ok (s.memRead txBuf t)

/-- The CRO of a CCP command with the current counter (R171, R280). -/
def croOf (s : State) (p : List Byte) : List Byte := croEncode (p.headD 0) s.outs.ccpCtr p.tail

/-- The CCP frame TP_SEND and TP_SR transmit under PROTO 2: FRMBUF with FRMLEN = 8 (R226). -/
def ccpFrame (s : State) : Except Err (List Byte) :=
  let m := s.outs.frmLen.toNat
  if m ≠ 8 then .error (.argument .frameLen (lenByte m)) else .ok (s.memRead frmBuf 8)

/-- FRMBUF and FRMLEN receive a frame (R41). -/
def putFrame (f : List Byte) (s : State) : State := (s.memWrite frmBuf f).setFrmLen f.length

/-- RXBUF, RXLEN and RESP_STATUS receive a PDU (R40, R43, R155, R227, R243). -/
def putPdu (u : List Byte) (s : State) : State :=
  let s := s.memWrite rxBuf u
  s.setOuts { s.outs with rxLen := BitVec.ofNat 9 u.length, respStatus := u.headD 0 }

/-- RXBUF, RXLEN, RESP_STATUS and DTO_INFO receive a CCP Response (R176, R177, R280). -/
def putDto (d : Dto) (s : State) : State :=
  let s := s.memWrite rxBuf (d.rc :: d.data)
  s.setOuts { s.outs with rxLen := 6, respStatus := d.rc, dtoInfo := d.info }

end Sys2Proof.Machine
end

