-- ==== Sys2Proof/Machine/Port.lean ====
section
/-! DEFINITION. The interface primitives (spec/00_scope.md R15), each one atomic step of the agent that performs it
(spec/20_memory.md R90), with the environment's answers taken from State (R91). A primitive whose answer has not arrived
cannot be performed yet. -/

namespace Sys2Proof.Machine

/-- Record a performed primitive (log 21). -/
def logCall (a : Agent) (c : PortCall) (s : State) : State :=
  s.setPort { s.port with log := { agent := a, time := s.clock.now, call := c } :: s.port.log }

/-- `PortOpen()`: the answer, and PORT_OPEN set by a true one (R29, R216; log 14). -/
def portOpen (a : Agent) (s : State) : Option (Bool × State) :=
  match s.env.openAns with
  | [] => none
  | ok :: rest =>
    let s := (logCall a .openPort s).setEnv { s.env with openAns := rest }
    some (ok, if ok then s.setStatus { s.status with portOpen := true } else s)

/-- `PortClose()`, and PORT_OPEN cleared (R255; log 14). -/
def portClose (a : Agent) (s : State) : State :=
  (logCall a .closePort s).setStatus { s.status with portOpen := false }

/-- `PortSetTimeout(ms)`, and PORT_TO (R63, R217). -/
def portSetTimeout (a : Agent) (ms : Word) (s : State) : State :=
  let s := logCall a (.setTimeout ms) s
  s.setPort { s.port with timeout := ms }

/-- `CanSetFilters` of the one entry (CAN_RX_ID, CAN_RX_MASK) (R37, R225). -/
def canSetFilters (a : Agent) (s : State) : State :=
  logCall a (.setFilters [(s.regs.canRxId, s.regs.canRxMask)]) s

/-- What a `PortRead(n)` finds on the line. -/
inductive LineRead where
  | wait
  | timeout (rest : List LineItem)
  | bytes (bs : List Byte) (rest : List LineItem)
  deriving DecidableEq, Repr

/-- Exactly `n` bytes, or TIMEOUT at the first silence with the bytes before it lost, or not answered yet (R85, R87). -/
def lineTake : Nat → List LineItem → LineRead
  | 0, line => .bytes [] line
  | _ + 1, [] => .wait
  | _ + 1, .gap :: line => .timeout line
  | n + 1, .byte b :: line =>
    match lineTake n line with
    | .wait => .wait
    | .timeout rest => .timeout rest
    | .bytes bs rest => .bytes (b :: bs) rest

/-- The result of a blocking read. -/
inductive ReadRes where
  | wait
  | timeout (s : State)
  | bytes (bs : List Byte) (s : State)

/-- `PortRead(n)` (R15, R87). -/
def portRead (a : Agent) (n : Nat) (s : State) : ReadRes :=
  match lineTake n s.env.lineIn with
  | .wait => .wait
  | .timeout rest => .timeout ((logCall a (.read n) s).setEnv { s.env with lineIn := rest })
  | .bytes bs rest => .bytes bs ((logCall a (.read n) s).setEnv { s.env with lineIn := rest })

/-- `PortWrite(s)`: bytes_written is the environment's answer (R15, R91). -/
def portWrite (a : Agent) (f : List Byte) (s : State) : Option (Int × State) :=
  match s.env.writeAns with
  | [] => none
  | n :: rest => some (n, (logCall a (.write f) s).setEnv { s.env with writeAns := rest })

/-- `CanWrite(id, s8)` with CAN_TX_ID (R36, R222). -/
def canWrite (a : Agent) (f : List Byte) (s : State) : State := logCall a (.canWrite s.regs.canTxId f) s

/-- `CanRead()`: at most 8 data bytes (R15; log 5). -/
def canRead (a : Agent) (s : State) : ReadRes :=
  match s.env.canIn with
  | [] => .wait
  | .timeout :: rest => .timeout ((logCall a .canRead s).setEnv { s.env with canIn := rest })
  | .data bs :: rest => .bytes (bs.take 8) ((logCall a .canRead s).setEnv { s.env with canIn := rest })

/-- `IsoTpSend(s)`, the service given CAN_TX_ID as it is now (R15, R36, R267; log 36). -/
def isoTpSend (a : Agent) (p : List Byte) (s : State) : State := logCall a (.isoTpSend s.regs.canTxId p) s

/-- `IsoTpRecv()` (R15); the expected reply identifier is the filter's, installed by OPEN (R225, R365; log 36). -/
def isoTpRecv (a : Agent) (s : State) : ReadRes :=
  match s.env.isoIn with
  | [] => .wait
  | .timeout :: rest => .timeout ((logCall a .isoTpRecv s).setEnv { s.env with isoIn := rest })
  | .data bs :: rest => .bytes bs ((logCall a .isoTpRecv s).setEnv { s.env with isoIn := rest })

/-- `PortBreak(on)`, with LINE (R63, R193). -/
def portBreak (a : Agent) (on : Bool) (s : State) : State :=
  let s := logCall a (.brk on) s
  s.setPort { s.port with line := if on then .brk else .uart }

/-- `LineSet(level)`, with LINE (R63, R194). -/
def lineSet (a : Agent) (level : Level) (s : State) : State :=
  let s := logCall a (.lineSet level) s
  s.setPort { s.port with
    line := match level with
      | .low => .low
      | .high => .high
      | .release => .uart }

end Sys2Proof.Machine
end

