-- ==== Sys2Proof/Machine/Transport.lean ====
section
/-! DEFINITION. SyncTimeout, TpSend and TpRecv as positions and atomic steps, for the operation sequencer and the
keep-alive task alike (spec/43_transport.md R217, R220, R222, R223; spec/40_kline_codec.md R144, R145, R156;
spec/20_memory.md R90). -/

namespace Sys2Proof.Machine

/-- What one atomic step of the transport comes to. -/
inductive TxRes where
  /-- No step is possible: the environment has not answered. -/
  | wait
  /-- A step was taken; the transport goes on at `p`. -/
  | go (p : TxPos) (s : State)
  /-- The step that ends TpSend was taken. -/
  | sent (s : State)
  /-- The step that ends TpRecv was taken; `u` is the unit received. -/
  | got (u : List Byte) (s : State)
  /-- An error is raised: the agent's own handling of it is the step. -/
  | fail (e : Err) (s : State)

/-- The send primitive of TpSend with what its pseudocode line writes (R222); `wr` says whether the output registers are
written, which the keep-alive task does not (R266). -/
def sendStep (a : Agent) (wr : Bool) (req : List Byte) (s : State) : TxRes :=
  match s.regs.ctrl.proto with
  | .kwpKline =>
    let f := klEncode s.regs.klTxHdr req
    match portWrite a f s with
    | none => .wait
    | some (n, s) => .go .capOut (if wr then (putFrame f s).setTxWritten n else s)
  | .kwpCan => .go .capOut (isoTpSend a req s)
  | .ccpCan => .go .capOut (canWrite a req s)

/-- TX_WRITTEN <- 8, the line that follows `CanWrite`: it belongs to the step after it (R90, R222; log 13). -/
def canWritten (s : State) : State :=
  match s.regs.ctrl.proto with
  | .ccpCan => s.setTxWritten 8
  | .kwpKline => s
  | .kwpCan => s

/-- The first primitive of TpRecv (R223); on the K-Line the counter byte, refused at once below 0x80 (R148). -/
def recvStep (a : Agent) (s : State) : TxRes :=
  match s.regs.ctrl.proto with
  | .kwpKline =>
    match portRead a 1 s with
    | .wait => .wait
    | .timeout s => .go (.raise (.timeout .klRx 0)) s
    | .bytes bs s =>
      let c := bs.headD 0
      if c.toNat < 0x80 then .go (.raise (.violation .badFormat c)) s else .go (.klId c) s
  | .kwpCan =>
    match isoTpRecv a s with
    | .wait => .wait
    | .timeout s => .go (.raise (.timeout .isotpRx 0)) s
    | .bytes bs s => .go (.isoGot bs) s
  | .ccpCan =>
    match canRead a s with
    | .wait => .wait
    | .timeout s => .go (.raise (.timeout .canRx 0)) s
    | .bytes bs s => .go (.canGot bs) s

/-- A further `PortRead(n)` of a K-Line frame (R145, R151, R156). -/
def klReadStep (a : Agent) (n : Nat) (s : State) (next : List Byte → TxPos) : TxRes :=
  match portRead a n s with
  | .wait => .wait
  | .timeout s => .go (.raise (.timeout .klRx 0)) s
  | .bytes bs s => .go (next bs) s

/-- SyncTimeout: one step if PORT_TO differs from T_RX_TIMEOUT_MS, otherwise no step of its own (R217). -/
def syncStep (a : Agent) (s : State) (after : TxPos) (other : TxRes) : TxRes :=
  if s.port.timeout ≠ s.regs.tRxTimeout then .go after (portSetTimeout a s.regs.tRxTimeout s) else other

/-- One atomic step of the transport at `p`, request `req` (R144, R217, R222, R223). Pure work between two steps is done
with the step that follows it (R90; log 13). -/
def txStep (a : Agent) (wr : Bool) (req : List Byte) (p : TxPos) (s : State) : TxRes :=
  match p with
  | .syncSend => syncStep a s .send (sendStep a wr req s)
  | .send => sendStep a wr req s
  | .capOut => .sent (capPush .outgoing req (if wr then canWritten s else s))
  | .syncRecv => syncStep a s .recv (recvStep a s)
  | .recv => recvStep a s
  | .klId c =>
    klReadStep a 2 s fun bs =>
      if c = 0x80 then .klLen c (bs.getD 0 0) (bs.getD 1 0)
      else .klBody [c, bs.getD 0 0, bs.getD 1 0] (c.toNat - 0x80)
  | .klLen c i0 i1 =>
    klReadStep a 1 s fun bs =>
      if bs.headD 0 = 0 then .raise (.violation .badFormat 0x80)
      else .klBody [c, i0, i1, bs.headD 0] (bs.headD 0).toNat
  | .klBody head n => klReadStep a n s fun bs => .klSum head bs
  | .klSum head pdu => klReadStep a 1 s fun bs => .klJudge head pdu (bs.headD 0)
  | .klJudge head pdu cs =>
    match klVerdict s.regs.klRxHdr s.regs.ctrl.klChkVerify head pdu cs with
    | .foreign => recvStep a s
    | .refuse e => .fail e s
    | .accept => .got pdu (capPush .incoming pdu (if wr then putFrame (head ++ pdu ++ [cs]) s else s))
  | .isoGot pdu =>
    if pdu.length = 0 ∨ pdu.length > 255 then .fail (.violation .badFormat 0) s
    else .got pdu (capPush .incoming pdu s)
  | .canGot frame =>
    if frame.length < 8 then .fail (.timeout .canRx (lenByte frame.length)) s
    else .got frame (capPush .incoming frame (if wr then putFrame frame s else s))
  | .raise e => .fail e s

end Sys2Proof.Machine
end

