-- ==== Sys2Proof/Machine/KeepAlive.lean ====
section
/-! DEFINITION. The keep-alive task (spec/44_kwp_engine.md R260 to R267): its wait, its tick, its exit, each as atomic
steps (spec/20_memory.md R90). -/

namespace Sys2Proof.Machine

/-- `KaExit(code)` (R260). -/
def kaLeave (code : KaExit) (s : State) : State :=
  (s.setStatus { s.status with kaExit := code, kaRun := false, kaActive := false }).setKa
    { s.ka with phase := .off, stopReq := false }

/-- The clock value at which a wait of KA_POLL_MS starting now ends (R245, R261, R262). -/
def kaWake (s : State) : Nat := s.nowUs + s.regs.kaPoll.toNat * 1000

/-- The end of a tick: KA_ACTIVE cleared, then stop on request or wait again (R262). -/
def kaEndTick (s : State) : State :=
  if s.ka.stopReq then kaLeave .stopped s
  else (s.setStatus { s.status with kaActive := false }).setPhase (.wait (kaWake s))

/-- The idle test of a tick, strict and in microseconds (R262). -/
def kaIdle (s : State) : Bool := s.nowUs - s.clock.lastAct.toNat > s.regs.kaIdle.toNat * 1000

/-- The task's `release LOCK`, going on at `p`. -/
def kaRelease (s : State) (p : TickPos) : State := (s.setLock .free).setPhase (.tick p)

/-- One atomic step of the tick's transaction at `p` (R243 with wr = 0, R262): every error is caught, the lock released
and the reason kept for KaExit. -/
def kaTx (p : TxPos) (s : State) : Option State :=
  match txStep .ka false s.ka.pdu p s with
  | .wait => none
  | .go q s => some (s.setPhase (.tick (.tx q)))
  | .sent s => some (s.setPhase (.tick (.tx .recv)))
  | .got u s => some (s.setPhase (.tick (.got u)))
  | .fail e s => some (kaRelease s (.leave e.kaExit))

/-- One atomic step of the task inside a tick (R262; log 16). -/
def tickStep (p : TickPos) (s : State) : Option State :=
  match p with
  | .enter =>
    if !s.status.portOpen then some (kaLeave .portClosed s)
    else if kaIdle s then
      if s.lock = .free then some ((s.setLock .ka).setPhase (.tick (.tx .syncSend))) else none
    else some (kaEndTick s)
  | .tx p => kaTx p s
  | .got u =>
    match kwpClassify (s.ka.pdu.headD 0) u with
    | .positive => some (kaRelease s.touch .ended)
    | .pending => kaTx .recv s
    | .error e => some (kaRelease s (.leave e.kaExit))
  | .ended => some (kaEndTick s)
  | .leave code => some (kaLeave code s)

/-- One atomic step of the keep-alive task, or none where it has none (R260). -/
def kaStep (s : State) : Option State :=
  match s.ka.phase with
  | .off => none
  | .wait t =>
    if s.ka.stopReq then some (kaLeave .stopped s)
    else if t ≤ s.nowUs then
      some ((s.setStatus { s.status with kaActive := true }).setPhase (.tick .enter))
    else none
  | .tick p => tickStep p s

/-- The task's turn: its step, or nothing where it has none. -/
def taskTurn (s : State) : State := (kaStep s).getD s

end Sys2Proof.Machine
end

