-- ==== Sys2Proof/Machine/Sequencer.lean ====
section
/-! DEFINITION. How the operation sequencer advances OP (spec/10_state.md R20; spec/20_memory.md R90): one atomic step,
and the run of an operation from where it stands until it ends or has to wait (log 1, 28). -/

namespace Sys2Proof.Machine

/-- What one atomic step of the sequencer comes to. -/
inductive Micro where
  /-- A step was taken. -/
  | go (s : State)
  /-- No step is possible until the environment answers or the clock moves. -/
  | waitEnv
  /-- No step is possible until the keep-alive task moves (R57, R264). -/
  | waitTask
  /-- The operation has no such position (log 22). -/
  | lost

/-- `acquire LOCK`, going on at `p` (R57). -/
def acquireThen (s : State) (p : Pos) : Micro :=
  if s.lock = .free then .go ((s.setLock .seq).goto p) else .waitTask

/-- `release LOCK`, going on at `p`. -/
def releaseTo (s : State) (p : Pos) : State := (s.setLock .free).goto p

/-- One atomic step of the sequencer's transport work; an error goes to `onFail`. -/
def seqTxWith (wr : Bool) (req : List Byte) (p : TxPos) (s : State) (onSent : State → Micro)
    (onGot : List Byte → State → Micro) (onFail : Err → State → Micro) : Micro :=
  match txStep .seq wr req p s with
  | .wait => .waitEnv
  | .go q s => .go (s.goto (.tx req q))
  | .sent s => onSent s
  | .got u s => onGot u s
  | .fail e s => onFail e s

/-- The same where an error is reported (R330). -/
def seqTx (req : List Byte) (p : TxPos) (s : State) (onSent : State → Micro) (onGot : List Byte → State → Micro) : Micro :=
  seqTxWith true req p s onSent onGot fun e s => .go (raiseError e s)

/-- Run an operation, given its atomic step, for at most the given number of atomic steps: until it ends, or until it
waits for the environment. While it waits for the keep-alive task, the task moves (R57, R264; log 28). -/
def runOp (f : Pos → State → Micro) : Nat → State → Host.Outcome State Fault Refusal
  | 0, s => .next s
  | n + 1, s =>
    match s.op with
    | none => .next s
    | some o =>
      match f o.pos s with
      | .go t => runOp f n t
      | .waitEnv => .next s
      | .waitTask =>
        match kaStep s with
        | some t => runOp f n t
        | none => .next s
      | .lost => .fault .lostPosition

/-- The answers waiting in the environment's read queues and the clock readings. -/
def Env.pending (e : Env) : Nat := e.lineIn.length + e.canIn.length + e.isoIn.length + e.clockIn.length

/-- Enough atomic steps for any operation to end or to use up the environment's answers (log 28). -/
def runBudget (s : State) : Nat := 2 * s.env.pending + 64

end Sys2Proof.Machine
end

