-- ==== Sys2Proof/Machine/CcpOps.lean ====
section
/-! DEFINITION. The CCP engine: CCP_EXEC (spec/45_ccp_engine.md R280 to R283). -/

namespace Sys2Proof.Machine

/-- CCP_CTR advances by one modulo 256, in the step after the CAN write (R282; log 34). -/
def bumpCtr (s : State) : State := s.setOuts { s.outs with ccpCtr := s.outs.ccpCtr + 1 }

/-- The classification by return code: 0x00 is success, any other code is raised with its category (R283). -/
def ccpEnd (f : List Byte) (s : State) : State :=
  let d := dtoDecode f
  let s := putDto d s
  if d.rc ≠ 0x00 then raiseError (.negativeCcp d.rc d.ctr (ccpCategory d.rc)) s else endOp s

/-- The CRO into FRMBUF and its length into FRMLEN: between the lock acquire and SyncTimeout, so with the step that follows
the acquire (R90, R280; log 13). -/
def ccpBuffer (cro : List Byte) (q : TxPos) (s : State) : State := if q = .syncSend then putFrame cro s else s

/-- CCP_EXEC (R280). The CRO is read at the acquire, the step before the CAN write or its SyncTimeout (R282). -/
def stepCcpExec (p : Pos) (s : State) : Micro :=
  match p with
  | .start =>
    if s.regs.ctrl.proto ≠ .ccpCan then .go (raiseError (.illegal .wrongProto 0x60) s)
    else if !s.status.portOpen then .go (raiseError .portClosed s)
    else
      match ccpCommand s with
      | .error e => .go (raiseError e s)
      | .ok c => acquireThen s (.tx (croOf s c) .syncSend)
  | .tx req q =>
    seqTx req q (ccpBuffer req q s) (fun s => .go ((bumpCtr s).goto (.tx req .recv))) (fun u s => .go (s.goto (.release (.data u))))
  | .release r => .go (releaseTo s (.finish r))
  | .finish (.data f) => .go (ccpEnd f s)
  | _ => .lost

/-- CCP_EXEC (R280). -/
def execCcpExec (s : State) : Host.Outcome State Fault Refusal := runOp stepCcpExec (runBudget s) s

end Sys2Proof.Machine
end

