-- ==== Sys2Proof/Machine/CodecOps.lean ====
section
/-! DEFINITION. The codec operations KL_ENC, KL_PARSE (spec/40_kline_codec.md R143, R155), CRO_ENC and DTO_DEC
(spec/41_ccp_codec.md R171, R176). None uses a primitive, the lock or the capture buffer, so each is one atomic step, its
end or its error included (spec/20_memory.md R90). -/

namespace Sys2Proof.Machine

/-- KL_ENC (R143). -/
def stepKlEnc (p : Pos) (s : State) : Micro :=
  match p with
  | .start =>
    match txPdu s with
    | .error e => .go (raiseError e s)
    | .ok d => .go (endOp (putFrame (klEncode s.regs.klTxHdr d) s))
  | _ => .lost

/-- KL_ENC (R143). -/
def execKlEnc (s : State) : Host.Outcome State Fault Refusal := runOp stepKlEnc (runBudget s) s

/-- The bytes KL_PARSE reads: FRMBUF, FRMLEN (R155). -/
def parseSource (s : State) : List Byte := s.memRead frmBuf s.outs.frmLen.toNat

/-- KL_PARSE (R155): a short read of the buffer is TIMEOUT(KL_PARSE). -/
def stepKlParse (p : Pos) (s : State) : Micro :=
  match p with
  | .start =>
    if s.outs.frmLen.toNat > 512 then .go (raiseError (.argument .frameLen (lenByte s.outs.frmLen.toNat)) s)
    else
      match klDecode (.timeout .klParse 0) s.regs.klRxHdr s.regs.ctrl.klChkVerify (parseSource s) with
      | .error e => .go (raiseError e s)
      | .ok (d, _) => .go (endOp (putPdu d s))
  | _ => .lost

/-- KL_PARSE (R155). -/
def execKlParse (s : State) : Host.Outcome State Fault Refusal := runOp stepKlParse (runBudget s) s

/-- CRO_ENC (R171): the counter is read, not written. -/
def stepCroEnc (p : Pos) (s : State) : Micro :=
  match p with
  | .start =>
    match ccpCommand s with
    | .error e => .go (raiseError e s)
    | .ok c => .go (endOp (putFrame (croOf s c) s))
  | _ => .lost

/-- CRO_ENC (R171). -/
def execCroEnc (s : State) : Host.Outcome State Fault Refusal := runOp stepCroEnc (runBudget s) s

/-- DTO_DEC (R176): no classification; a short frame is TIMEOUT(DTO_SHORT), an over-long one ARGUMENT(FRAME_LEN). -/
def stepDtoDec (p : Pos) (s : State) : Micro :=
  match p with
  | .start =>
    let m := s.outs.frmLen.toNat
    if m < 8 then .go (raiseError (.timeout .dtoShort (lenByte m)) s)
    else if m > 8 then .go (raiseError (.argument .frameLen (lenByte m)) s)
    else .go (endOp (putDto (dtoDecode (s.memRead frmBuf 8)) s))
  | _ => .lost

/-- DTO_DEC (R176). -/
def execDtoDec (s : State) : Host.Outcome State Fault Refusal := runOp stepDtoDec (runBudget s) s

end Sys2Proof.Machine
end

