-- ==== Sys2Proof/Machine/FastInit.lean ====
section
/-! DEFINITION. The fast-init sequence generator as positions and atomic steps, and FI_SEQ (spec/42_fast_init.md R190 to
R201). -/

namespace Sys2Proof.Machine

/-- What one atomic step of FastInit comes to. -/
inductive FiRes where
  /-- No step is possible. -/
  | wait
  /-- A step was taken; the sequence goes on at `p`. -/
  | go (p : FiPos) (s : State)
  /-- The step that ends the sequence was taken; `ok` is false for NO_RESPONSE. -/
  | done (ok : Bool) (s : State)

/-- The last clock value the block allows in a phase whose minimum ends at `t`: less than 1 ms over (R191; log 17). -/
def holdLimit (t : Nat) : Nat := t + 999

/-- One re-read of the clock inside BusyWaitUntil(t), going on at `after` (R14, R191); `self` is the waiting position. -/
def holdStep (t : Nat) (self after : FiPos) (s : State) : FiRes :=
  if t ≤ s.nowUs then .go after s
  else
    match s.env.clockIn with
    | [] => .wait
    | c :: rest =>
      let s := (s.setEnv { s.env with clockIn := rest }).moveClock (holdLimit t) c
      .go (if t ≤ s.nowUs then after else self) s

/-- Response byte `k - 1`, if there is one that no write has stored yet, into FRMBUF (R196). -/
def fiStore (k : Nat) (last : Option Byte) (s : State) : State :=
  match last with
  | some b => s.poke (frmBuf + (k - 1)) b
  | none => s

/-- What follows a response window of `k` bytes: the outcome, or the other strategy (R197, R198, R200). -/
def fiWindowEnd (st : Strategy) (k : Nat) (last : Option Byte) : FiPos :=
  if 1 ≤ k then .close (match st with | .native => .native | .alternate => .alternate) k last
  else
    match st with
    | .native => .low .alternate
    | .alternate => .close .noResponse 0 none

/-- The next read of a response window, unless FI_READ_MAX bytes are read (R196, R200). -/
def fiWindow (st : Strategy) (k : Nat) (last : Option Byte) (s : State) : FiPos :=
  if k < s.regs.fiReadMax.toNat then .read st k last else fiWindowEnd st k last

/-- One atomic step of FastInit(F) (R193, R194, R200). What a line writes after its primitive belongs to the step that
follows (R90; log 13): a response byte goes to FRMBUF with the next read, the count to FRMLEN with the next primitive. -/
def fiStep (frame : List Byte) (p : FiPos) (s : State) : FiRes :=
  match p with
  | .setTimeout => .go (.low .native) (portSetTimeout .seq s.regs.tFiTimeout s)
  | .low st =>
    .go (.holdLow st (s.nowUs + s.regs.tFiLow.toNat))
      (match st with | .native => portBreak .seq true s | .alternate => lineSet .seq .low (s.setFrmLen 0))
  | .holdLow st t => holdStep t (.holdLow st t) (.high st t) s
  | .high st _ =>
    .go (.holdHigh st (s.nowUs + s.regs.tFiHigh.toNat))
      (match st with | .native => portBreak .seq false s | .alternate => lineSet .seq .high s)
  | .holdHigh st t =>
    holdStep t (.holdHigh st t) (match st with | .native => .send st t | .alternate => .release t) s
  | .release t => .go (.send .alternate t) (lineSet .seq .release s)
  | .send st _ =>
    match portWrite .seq frame s with
    | none => .wait
    | some (n, s) => .go (fiWindow st 0 none s) (s.setTxWritten n)
  | .read st k last =>
    match portRead .seq 1 (fiStore k last s) with
    | .wait => .wait
    | .timeout s => .go (fiWindowEnd st k none) s
    | .bytes bs s => .go (fiWindow st (k + 1) (some (bs.headD 0)) s) s
  | .close r k last =>
    let s := (fiStore k last s).setFrmLen k
    .done (r != .noResponse) (portSetTimeout .seq s.regs.tRxTimeout (s.setStatus { s.status with fiResult := r }))

/-- One atomic step of the sequencer inside FastInit, going on by `k` when it returns. -/
def seqFi (frame : List Byte) (p : FiPos) (s : State) (k : Bool → State → State) : Micro :=
  match fiStep frame p s with
  | .wait => .waitEnv
  | .go q s => .go (s.goto (.fi frame q))
  | .done ok s => .go (k ok s)

/-- The latest value the clock may take now: inside a hold phase, and until the payload is written, less than 1 ms over
the phase's minimum (R191, R192, R370; log 17). -/
def clockLimit (s : State) : Nat :=
  match s.op with
  | some { code := _, pos := .fi _ (.holdLow _ t) } => holdLimit t
  | some { code := _, pos := .fi _ (.high _ t) } => holdLimit t
  | some { code := _, pos := .fi _ (.holdHigh _ t) } => holdLimit t
  | some { code := _, pos := .fi _ (.release t) } => holdLimit t
  | some { code := _, pos := .fi _ (.send _ t) } => holdLimit t
  | _ => 2 ^ 64

/-- FI_SEQ (R201). -/
def stepFiSeq (p : Pos) (s : State) : Micro :=
  match p with
  | .start =>
    if s.regs.ctrl.proto ≠ .kwpKline then .go (raiseError (.illegal .wrongProto 0x30) s)
    else if !s.status.portOpen then .go (raiseError .portClosed s)
    else
      match startPdu s with
      | .error e => .go (raiseError e s)
      | .ok d => acquireThen s (.fi (klEncode s.regs.klTxHdr d) .setTimeout)
  | .fi frame q => seqFi frame q s fun ok s => s.goto (.release (.fastInit ok))
  | .release r => .go (releaseTo s (.finish r))
  | .finish (.fastInit false) => .go (raiseError (.timeout .fi 0) s)
  | .finish (.fastInit true) => .go (endOp s)
  | _ => .lost

/-- FI_SEQ (R201). -/
def execFiSeq (s : State) : Host.Outcome State Fault Refusal := runOp stepFiSeq (runBudget s) s

end Sys2Proof.Machine
end

