-- ==== Sys2Proof/Machine/PortOps.lean ====
section
/-! DEFINITION. The port and capture control operations OPEN, CAP_DUMP (spec/43_transport.md R225, R236) and CLOSE
(spec/44_kwp_engine.md R255), with StopKeepAlive (R264). -/

namespace Sys2Proof.Machine

/-- `PortOpen()` and what a failing answer raises (R225, R245). -/
def openStep (s : State) : Micro :=
  match portOpen .seq s with
  | none => .waitEnv
  | some (ok, s) => .go (s.goto (if ok then .opened else .raise .openingPort))

/-- StopKeepAlive at an operation's first line: the stop request is a step of its own, since the task must see it before
the sequencer goes on (R264; log 33); `k` where there is no task. -/
def stopThen (s : State) (k : Micro) : Micro :=
  if s.ka.phase = .off then k else .go ((s.setKa { s.ka with stopReq := true }).goto .stopped)

/-- The rest of StopKeepAlive: the sequencer takes no step until the task is OFF (R264). -/
def stoppedThen (s : State) (k : Micro) : Micro := if s.ka.phase = .off then k else .waitTask

/-- OPEN (R225). -/
def stepOpen (p : Pos) (s : State) : Micro :=
  match p with
  | .start => if s.status.portOpen then .go (endOp s) else openStep s
  | .opened =>
    .go ((portSetTimeout .seq s.regs.tRxTimeout s).goto
      (if s.regs.ctrl.proto = .kwpKline then .finish .unit else .filter))
  | .filter => .go ((canSetFilters .seq s).goto (.finish .unit))
  | .finish _ => .go (endOp s)
  | .raise e => .go (raiseError e s)
  | _ => .lost

/-- OPEN (R225). -/
def execOpen (s : State) : Host.Outcome State Fault Refusal := runOp stepOpen (runBudget s) s

/-- ENG_READY <- 0 (R240, R255). -/
def unready (s : State) : State := s.setStatus { s.status with engReady := false }

/-- CLOSE after the task has stopped: `PortClose()` if the port is open (R255). ENG_READY falls in the step that clears
PORT_OPEN, so that ENG_READY = 1 never stands without PORT_OPEN = 1 (R240; log 14). -/
def closeBody (s : State) : Micro :=
  if s.status.portOpen then .go ((unready (portClose .seq s)).goto (.finish .unit))
  else .go (endOp (unready s))

/-- CLOSE (R255). -/
def stepClose (p : Pos) (s : State) : Micro :=
  match p with
  | .start => stopThen s (closeBody s)
  | .stopped => stoppedThen s (closeBody s)
  | .finish _ => .go (endOp (unready s))
  | _ => .lost

/-- CLOSE (R255). -/
def execClose (s : State) : Host.Outcome State Fault Refusal := runOp stepClose (runBudget s) s

/-- The one atomic step of CAP_DUMP, but for the end of the operation (R96, R236). -/
def dumpCapture (s : State) : State :=
  ((s.setCap { live := [], dumped := s.cap.live }).setOuts
    { s.outs with capCount := 0, capdCount := BitVec.ofNat 32 s.cap.live.length }).setRegs
    { s.regs with capdSel := 0 }

/-- CAP_DUMP (R236). -/
def stepCapDump (p : Pos) (s : State) : Micro :=
  match p with
  | .start => .go (endOp (dumpCapture s))
  | _ => .lost

/-- CAP_DUMP (R236). -/
def execCapDump (s : State) : Host.Outcome State Fault Refusal := runOp stepCapDump (runBudget s) s

end Sys2Proof.Machine
end

