-- ==== Sys2Proof/Machine/KwpOps.lean ====
section
/-! DEFINITION. The KWP2000 engine: KWP_INIT (spec/44_kwp_engine.md R245) and KWP_EXEC (R243, R250). -/

namespace Sys2Proof.Machine

/-- The checks of KWP_INIT, before anything changes (R245, R320). -/
def initChecks (s : State) : Except Err Unit :=
  if s.regs.ctrl.proto = .ccpCan then .error (.illegal .wrongProto 0x50)
  else
    match (if s.regs.ctrl.proto = .kwpKline then startPdu s else .ok []) with
    | .error e => .error e
    | .ok _ =>
      match (if s.regs.ctrl.kaEn then kaPdu s else .ok []) with
      | .error e => .error e
      | .ok _ => .ok ()

/-- The end of KWP_INIT: Ready, and the keep-alive task started when KA_EN = 1 (R245, R260). -/
def initEnd (s : State) : State :=
  if s.regs.ctrl.kaEn then
    endOp ((s.setStatus { s.status with engReady := true, kaRun := true }).setKa
      { phase := .wait (kaWake s), stopReq := false, pdu := s.memRead kaBuf s.regs.kaLen.toNat })
  else endOp (s.setStatus { s.status with engReady := true })

/-- The encoded start command (R195, R245). -/
def startFrame (s : State) : List Byte := klEncode s.regs.klTxHdr (s.memRead startBuf s.regs.startLen.toNat)

/-- KWP_INIT with the port open: on the K-Line acquire the lock for the bus initialisation; over CAN nothing more is done
on the bus (R245). -/
def initBody (s : State) : Micro :=
  if s.regs.ctrl.proto = .kwpKline then acquireThen s (.fi (startFrame s) .setTimeout) else .go (initEnd s)

/-- KWP_INIT once no keep-alive task exists: open the port if needed (R245). -/
def initOpen (s : State) : Micro := if s.status.portOpen then initBody s else openStep s

/-- KWP_INIT (R245): the fast-init's outcome and every error of the blind read are swallowed, and the blind read writes
no buffer but the capture record. -/
def stepKwpInit (p : Pos) (s : State) : Micro :=
  match p with
  | .start =>
    match initChecks s with
    | .error e => .go (raiseError e s)
    | .ok _ => stopThen s (initOpen s)
  | .stopped => stoppedThen s (initOpen s)
  | .opened =>
    .go ((portSetTimeout .seq s.regs.tRxTimeout s).goto (if s.regs.ctrl.proto = .kwpCan then .filter else .body))
  | .filter => .go ((canSetFilters .seq s).goto .body)
  | .body => initBody s
  | .fi frame q => seqFi frame q s fun _ s => s.goto (.tx [] .syncRecv)
  | .tx req q =>
    seqTxWith false req q s (fun _ => .lost) (fun _ s => .go (s.goto (.release .unit)))
      (fun _ s => .go (releaseTo s (.finish .unit)))
  | .release r => .go (releaseTo s (.finish r))
  | .finish _ => .go (initEnd s)
  | .raise e => .go (raiseError e s)
  | _ => .lost

/-- KWP_INIT (R245). -/
def execKwpInit (s : State) : Host.Outcome State Fault Refusal := runOp stepKwpInit (runBudget s) s

/-- KWP_EXEC (R250) over KwpTransaction with wr = 1 (R243): a pending reply is read past with no new request (R242),
LAST_ACT_US is written on a positive one only (R247). -/
def stepKwpExec (p : Pos) (s : State) : Micro :=
  match p with
  | .start =>
    if s.regs.ctrl.proto = .ccpCan then .go (raiseError (.illegal .wrongProto 0x51) s)
    else if !s.status.engReady then .go (raiseError .notReady s)
    else
      match txPdu s with
      | .error e => .go (raiseError e s)
      | .ok u => acquireThen s (.tx u .syncSend)
  | .tx req q => seqTx req q s (fun s => .go (s.goto (.tx req .recv))) (fun u s => .go (s.goto (.got req u)))
  | .got req u =>
    let s := putPdu u s
    match kwpClassify (req.headD 0) u with
    | .positive => .go (releaseTo s.touch (.finish .unit))
    | .pending => seqTx req .recv s (fun _ => .lost) (fun _ _ => .lost)
    | .error e => .go (raiseError e s)
  | .finish _ => .go (endOp s)
  | _ => .lost

/-- KWP_EXEC (R250). -/
def execKwpExec (s : State) : Host.Outcome State Fault Refusal := runOp stepKwpExec (runBudget s) s

end Sys2Proof.Machine
end

