-- ==== Sys2Proof/Machine/TransportOps.lean ====
section
/-! DEFINITION. The transport operations TP_SEND, TP_RECV and TP_SR (spec/43_transport.md R226 to R230). -/

namespace Sys2Proof.Machine

/-- The checks of TP_SEND and TP_SR and the unit they send (R226): the port first, then the length (R320). -/
def sendUnit (s : State) : Except Err (List Byte) :=
  if !s.status.portOpen then .error .portClosed
  else
    match s.regs.ctrl.proto with
    | .kwpKline => txPdu s
    | .kwpCan => txPdu s
    | .ccpCan => ccpFrame s

/-- The output writes of TP_RECV and TP_SR: RXBUF, RXLEN and RESP_STATUS under PROTO 0 and 1 (R227). -/
def recvOutputs (r : Ret) (s : State) : State :=
  match r, s.regs.ctrl.proto with
  | .data u, .kwpKline => putPdu u s
  | .data u, .kwpCan => putPdu u s
  | _, _ => s

/-- TP_SEND (R226). -/
def stepTpSend (p : Pos) (s : State) : Micro :=
  match p with
  | .start =>
    match sendUnit s with
    | .error e => .go (raiseError e s)
    | .ok u => acquireThen s (.tx u .send)
  | .tx req q => seqTx req q s (fun s => .go (s.goto (.release .unit))) (fun _ _ => .lost)
  | .release r => .go (releaseTo s (.finish r))
  | .finish _ => .go (endOp s)
  | _ => .lost

/-- TP_SEND (R226). -/
def execTpSend (s : State) : Host.Outcome State Fault Refusal := runOp stepTpSend (runBudget s) s

/-- TP_RECV (R227). -/
def stepTpRecv (p : Pos) (s : State) : Micro :=
  match p with
  | .start =>
    if !s.status.portOpen then .go (raiseError .portClosed s) else acquireThen s (.tx [] .syncRecv)
  | .tx req q => seqTx req q s (fun _ => .lost) (fun u s => .go (s.goto (.release (.data u))))
  | .release r => .go (releaseTo s (.finish r))
  | .finish r => .go (endOp (recvOutputs r s))
  | _ => .lost

/-- TP_RECV (R227). -/
def execTpRecv (s : State) : Host.Outcome State Fault Refusal := runOp stepTpRecv (runBudget s) s

/-- TP_SR (R228): the lock is held from the send to the end of the receive. -/
def stepTpSr (p : Pos) (s : State) : Micro :=
  match p with
  | .start =>
    match sendUnit s with
    | .error e => .go (raiseError e s)
    | .ok u => acquireThen s (.tx u .send)
  | .tx req q =>
    seqTx req q s (fun s => .go (s.goto (.tx req .syncRecv))) (fun u s => .go (s.goto (.release (.data u))))
  | .release r => .go (releaseTo s (.finish r))
  | .finish r => .go (endOp (recvOutputs r s))
  | _ => .lost

/-- TP_SR (R228). -/
def execTpSr (s : State) : Host.Outcome State Fault Refusal := runOp stepTpSr (runBudget s) s

end Sys2Proof.Machine
end

