-- ==== Sys2Proof/Machine/Dispatch.lean ====
section
/-! DEFINITION. The meaning of each operation: the sequencer runs it from where OP stands until it ends or has to wait. -/

namespace Sys2Proof.Machine

def exec (i : Instr) (s : State) : Host.Outcome State Fault Refusal :=
  match i with
  | .openPort => Sys2Proof.Machine.execOpen s
  | .closePort => Sys2Proof.Machine.execClose s
  | .capDump => Sys2Proof.Machine.execCapDump s
  | .klEnc => Sys2Proof.Machine.execKlEnc s
  | .klParse => Sys2Proof.Machine.execKlParse s
  | .croEnc => Sys2Proof.Machine.execCroEnc s
  | .dtoDec => Sys2Proof.Machine.execDtoDec s
  | .fiSeq => Sys2Proof.Machine.execFiSeq s
  | .tpSend => Sys2Proof.Machine.execTpSend s
  | .tpRecv => Sys2Proof.Machine.execTpRecv s
  | .tpSr => Sys2Proof.Machine.execTpSr s
  | .kwpInit => Sys2Proof.Machine.execKwpInit s
  | .kwpExec => Sys2Proof.Machine.execKwpExec s
  | .ccpExec => Sys2Proof.Machine.execCcpExec s

end Sys2Proof.Machine
end

