-- ==== Sys2Proof/WellFormed.lean ====
section
/-! DEFINITION. The checks the spec puts on what the block is given: command words, the PROTO an operation is allowed under,
PDU and command lengths, and the shape of wire frames (spec/30_encoding.md R100 to R106, R120 to R124). -/

namespace Sys2Proof

/-- Every operation is well formed: its encoding has no field besides the code (R111). -/
def Instr.wellFormed (_ : Instr) : Bool := true

/-- The "PROTO allowed" column of R120. -/
def Instr.allowedUnder (p : Proto) : Instr → Bool
  | .fiSeq => p == .kwpKline
  | .kwpInit => p == .kwpKline || p == .kwpCan
  | .kwpExec => p == .kwpKline || p == .kwpCan
  | .ccpExec => p == .ccpCan
  | .openPort => true
  | .closePort => true
  | .capDump => true
  | .klEnc => true
  | .klParse => true
  | .croEnc => true
  | .dtoDec => true
  | .tpSend => true
  | .tpRecv => true
  | .tpSr => true

/-- A command word whose operation code R122 does not list as illegal. Transcribed from R122's own list of ranges, not from
the table the decoder follows. -/
def cmdWordOk (w : Word) : Bool :=
  let c := (w.extractLsb' 0 8).toNat
  !(c == 0 || (0x04 ≤ c && c ≤ 0x0F) || (0x12 ≤ c && c ≤ 0x1F) || (0x22 ≤ c && c ≤ 0x2F) || (0x31 ≤ c && c ≤ 0x3F)
    || (0x43 ≤ c && c ≤ 0x4F) || (0x52 ≤ c && c ≤ 0x5F) || 0x61 ≤ c)

/-- The PDU length domain of the K-Line codec and the KWP2000 engine: 1..255 bytes (R107, R141). -/
def pduLenOk (n : Nat) : Bool := 1 ≤ n && n ≤ 255

/-- The CCP command length domain: a command code and at most 6 data bytes (R170, R295). -/
def ccpLenOk (n : Nat) : Bool := 1 ≤ n && n ≤ 7

/-- The data bytes of one CAN frame: at most 8 (R15). -/
def canDataOk (bs : List Byte) : Bool := bs.length ≤ 8

/-- The integer sum of the bytes of a string, the `sum(s)` of R9. -/
def byteSum (bs : List Byte) : Nat := (bs.map BitVec.toNat).sum

/-- A frame with the shape the encoder emits: KL-S with 1..126 PDU bytes or KL-L with 127..255, the counted length true and
the last byte the sum of all earlier ones modulo 256 (R101, R102, R104). -/
def klFrameOk : List Byte → Bool
  | c :: h :: l :: rest =>
    let body := (c :: h :: l :: rest).dropLast
    let sumOk := (c :: h :: l :: rest).getLastD 0 == BitVec.ofNat 8 (byteSum body)
    if c == 0x80 then
      match rest with
      | n :: more => 127 ≤ n.toNat && more.length == n.toNat + 1 && sumOk
      | [] => false
    else
      0x81 ≤ c.toNat && c.toNat ≤ 0xFE && rest.length == (c.toNat - 0x80) + 1 && sumOk
  | _ => false

/-- A CCP frame, CRO or DTO, is 8 bytes (R105, R106). -/
def ccpFrameOk (bs : List Byte) : Bool := bs.length == 8

end Sys2Proof
end

