-- ==== Sys2Proof/Decode.lean ====
section
/-! DEFINITION. The operation encoding (spec/30_encoding.md R120 to R122): a decoder of the CMD word, total and refusing by
name, and the encoder written from the same table. -/

namespace Sys2Proof

/-- Why a CMD word names no operation (R122). -/
inductive DecodeRefusal where
  /-- The operation code is not in the table of R120; the block reports it as ILLEGAL_COMMAND(UNKNOWN_OPCODE). -/
  | unknownOpcode (code : Byte)
  deriving DecidableEq, Repr

/-- The operation code OPC of a CMD word: bits 7:0; bits 31:8 are ignored (R120). -/
def opcodeOf (w : Word) : Byte := w.extractLsb' 0 8

/-- The operation an operation code names (R120). -/
def decodeCode (c : Byte) : Except DecodeRefusal Instr :=
  match c.toNat with
  | 0x01 => .ok .openPort
  | 0x02 => .ok .closePort
  | 0x03 => .ok .capDump
  | 0x10 => .ok .klEnc
  | 0x11 => .ok .klParse
  | 0x20 => .ok .croEnc
  | 0x21 => .ok .dtoDec
  | 0x30 => .ok .fiSeq
  | 0x40 => .ok .tpSend
  | 0x41 => .ok .tpRecv
  | 0x42 => .ok .tpSr
  | 0x50 => .ok .kwpInit
  | 0x51 => .ok .kwpExec
  | 0x60 => .ok .ccpExec
  | _ => .error (.unknownOpcode c)

/-- The decoder: the operation a host write of `w` to CMD starts (R120: match value OPC, mask 0x000000FF). -/
def decode (w : Word) : Except DecodeRefusal Instr := decodeCode (opcodeOf w)

/-- The operation code of an operation (R120). -/
def opcode : Instr → Byte
  | .openPort => 0x01
  | .closePort => 0x02
  | .capDump => 0x03
  | .klEnc => 0x10
  | .klParse => 0x11
  | .croEnc => 0x20
  | .dtoDec => 0x21
  | .fiSeq => 0x30
  | .tpSend => 0x40
  | .tpRecv => 0x41
  | .tpSr => 0x42
  | .kwpInit => 0x50
  | .kwpExec => 0x51
  | .ccpExec => 0x60

/-- The encoder: the CMD word that starts an operation, as the host script `CMD <MNEMONIC>` writes it (R126). -/
def encode (i : Instr) : Word := (opcode i).zeroExtend 32

/-- The operation the decoder reads from the `nbits` low bits of `w`, every bit above them 0: the CMD word is one 32-bit
register write, so no byte order comes in (R125). -/
def decodeTableWord (nbits w : Nat) : Option Instr :=
  match decode (BitVec.ofNat 32 (w % 2 ^ nbits)) with
  | .ok i => some i
  | .error _ => none

end Sys2Proof
end

