-- ==== Sys2Proof/Machine/HostAccess.lean ====
section
/-! DEFINITION. The host interface: the register map (spec/10_state.md R23), reads and writes of every register (R24 to
R56), and host accesses while an operation runs (R65, R66). -/

namespace Sys2Proof.Machine

/-- The registers of the map of R23. -/
inductive HostReg where
  | cmd | status | ctrl | errCode | errInfo | klTxHdr | klRxHdr | canTxId | canRxId | canRxMask | ccpCtr
  | txLen | rxLen | frmLen | startLen | kaLen | respStatus | dtoInfo | txWritten
  | tRxTimeout | tFiTimeout | tFiLow | tFiHigh | fiReadMax | kaPoll | kaIdle
  | capCfg | capCount | capdCount | capdSel | capdDir | capdLen | capdTsLo | capdTsHi
  | timeLo | timeHi | lastActLo | lastActHi
  /-- BUFRAM[a] (R56). -/
  | bufram (a : Nat)
  /-- CAPD_DATA[i] (R53). -/
  | capdData (i : Nat)
  deriving DecidableEq, Repr

/-- The register at a byte offset; none where the map has none or the offset is misaligned (R23, R24, R80, R81). -/
def regAt (offset : BitVec 16) : Option HostReg :=
  match offset.toNat with
  | 0x000 => some .cmd
  | 0x004 => some .status
  | 0x008 => some .ctrl
  | 0x00C => some .errCode
  | 0x010 => some .errInfo
  | 0x014 => some .klTxHdr
  | 0x018 => some .klRxHdr
  | 0x01C => some .canTxId
  | 0x020 => some .canRxId
  | 0x024 => some .canRxMask
  | 0x028 => some .ccpCtr
  | 0x02C => some .txLen
  | 0x030 => some .rxLen
  | 0x034 => some .frmLen
  | 0x038 => some .startLen
  | 0x03C => some .kaLen
  | 0x040 => some .respStatus
  | 0x044 => some .dtoInfo
  | 0x048 => some .txWritten
  | 0x04C => some .tRxTimeout
  | 0x050 => some .tFiTimeout
  | 0x054 => some .tFiLow
  | 0x058 => some .tFiHigh
  | 0x05C => some .fiReadMax
  | 0x060 => some .kaPoll
  | 0x064 => some .kaIdle
  | 0x068 => some .capCfg
  | 0x06C => some .capCount
  | 0x070 => some .capdCount
  | 0x074 => some .capdSel
  | 0x078 => some .capdDir
  | 0x07C => some .capdLen
  | 0x080 => some .capdTsLo
  | 0x084 => some .capdTsHi
  | 0x088 => some .timeLo
  | 0x08C => some .timeHi
  | 0x090 => some .lastActLo
  | 0x094 => some .lastActHi
  | n =>
    if n % 4 = 0 ∧ 0x1000 ≤ n ∧ n ≤ 0x2FFC then some (.bufram ((n - 0x1000) / 4))
    else if n % 4 = 0 ∧ 0x3000 ≤ n ∧ n ≤ 0x33FC then some (.capdData ((n - 0x3000) / 4))
    else none

/-- The dumped record CAPD_SEL selects, when `CAPD_SEL < CAPD_COUNT` (R52). -/
def selected (s : State) : Option Record :=
  if s.regs.capdSel.toNat < s.outs.capdCount.toNat then s.cap.dumped[s.regs.capdSel.toNat]? else none

/-- CAPD_DIR's bit 0: 0 for IN, 1 for OUT (R52). -/
def dirBit : Dir → Word
  | .incoming => 0
  | .outgoing => 1

/-- The current value of a register (R23, R52, R53); for TIME_LO and LAST_ACT_LO without the latching (R54, R55). -/
def regValue (r : HostReg) (s : State) : Word :=
  match r with
  | .cmd => 0
  | .status => s.status.word
  | .ctrl => s.regs.ctrl.word
  | .errCode => s.outs.errCode
  | .errInfo => s.outs.errInfo
  | .klTxHdr => s.regs.klTxHdr.setWidth 32
  | .klRxHdr => s.regs.klRxHdr.setWidth 32
  | .canTxId => s.regs.canTxId
  | .canRxId => s.regs.canRxId
  | .canRxMask => s.regs.canRxMask
  | .ccpCtr => s.outs.ccpCtr.setWidth 32
  | .txLen => s.regs.txLen.setWidth 32
  | .rxLen => s.outs.rxLen.setWidth 32
  | .frmLen => s.outs.frmLen.setWidth 32
  | .startLen => s.regs.startLen.setWidth 32
  | .kaLen => s.regs.kaLen.setWidth 32
  | .respStatus => s.outs.respStatus.setWidth 32
  | .dtoInfo => s.outs.dtoInfo.setWidth 32
  | .txWritten => s.outs.txWritten.setWidth 32
  | .tRxTimeout => s.regs.tRxTimeout
  | .tFiTimeout => s.regs.tFiTimeout
  | .tFiLow => s.regs.tFiLow
  | .tFiHigh => s.regs.tFiHigh
  | .fiReadMax => s.regs.fiReadMax.setWidth 32
  | .kaPoll => s.regs.kaPoll
  | .kaIdle => s.regs.kaIdle
  | .capCfg => s.regs.capCfg
  | .capCount => s.outs.capCount
  | .capdCount => s.outs.capdCount
  | .capdSel => s.regs.capdSel
  | .capdDir => match selected s with | some r => dirBit r.dir | none => 0
  | .capdLen => match selected s with | some r => BitVec.ofNat 32 (r.bytes.length % 512) | none => 0
  | .capdTsLo => match selected s with | some r => r.ts.extractLsb' 0 32 | none => 0
  | .capdTsHi => match selected s with | some r => r.ts.extractLsb' 32 32 | none => 0
  | .timeLo => s.clock.now.extractLsb' 0 32
  | .timeHi => s.clock.timeHiLatch
  | .lastActLo => s.clock.lastAct.extractLsb' 0 32
  | .lastActHi => s.clock.lastActHiLatch
  | .bufram a => (s.peek a).setWidth 32
  | .capdData i => match selected s with | some r => (r.bytes.getD i 0).setWidth 32 | none => 0

/-- The FRMBUF and FRMLEN outputs. -/
def isFrameOut : HostReg → Bool
  | .frmLen => true
  | .bufram a => frmBuf ≤ a && a < startBuf
  | _ => false

/-- The RXBUF, RXLEN and RESP_STATUS outputs. -/
def isPduOut : HostReg → Bool
  | .rxLen => true
  | .respStatus => true
  | .bufram a => rxBuf ≤ a && a < frmBuf
  | _ => false

/-- The outputs that an operation may write under a PROTO, by the operations' own rules (R41, R45, R66; log 12). -/
def mayWrite (i : Instr) (p : Proto) (r : HostReg) : Bool :=
  match i with
  | .openPort => false
  | .closePort => false
  | .capDump => false
  | .klEnc => isFrameOut r
  | .klParse => isPduOut r
  | .croEnc => isFrameOut r
  | .dtoDec => isPduOut r || r == .dtoInfo
  | .fiSeq => isFrameOut r || r == .txWritten
  | .tpSend => (p == .kwpKline && isFrameOut r) || (p != .kwpCan && r == .txWritten)
  | .tpRecv => (p != .kwpCan && isFrameOut r) || (p != .ccpCan && isPduOut r)
  | .tpSr => (p != .kwpCan && (isFrameOut r || r == .txWritten)) || (p != .ccpCan && isPduOut r)
  | .kwpInit => p == .kwpKline && (isFrameOut r || r == .txWritten)
  | .kwpExec => isPduOut r || (p == .kwpKline && (isFrameOut r || r == .txWritten))
  | .ccpExec => isFrameOut r || isPduOut r || r == .txWritten || r == .ccpCtr || r == .dtoInfo

/-- The bits an output register has; the others read 0 whatever happens (R24). -/
def outMask : HostReg → Word
  | .rxLen => 0x1FF
  | .frmLen => 0x3FF
  | .txWritten => 0xFFFF
  | .dtoInfo => 0xFFFF
  | _ => 0xFF

/-- Whether a read of `r` returns any value: BUSY, and the running operation may write `r` (R66). -/
def readIsFree (r : HostReg) (s : State) : Bool :=
  s.status.busy &&
    match s.op with
    | none => false
    | some o =>
      match decodeCode o.code with
      | .error _ => false
      | .ok i => mayWrite i s.regs.ctrl.proto r

/-- The latching of the high word by a read of a low word (R54, R55); no other read changes anything (R89). -/
def latch (r : HostReg) (s : State) : State :=
  match r with
  | .timeLo => s.setClock { s.clock with timeHiLatch := s.clock.now.extractLsb' 32 32 }
  | .lastActLo => s.setClock { s.clock with lastActHiLatch := s.clock.lastAct.extractLsb' 32 32 }
  | _ => s

/-- A host read of a register. -/
def readReg (r : HostReg) (s : State) : State :=
  if readIsFree r s then (s.setHostData (Config.busyRead s.draws &&& outMask r)).setDraws (s.draws + 1)
  else latch r (s.setHostData (regValue r s))

/-- A host read (R24): unmapped and misaligned offsets read 0. -/
def hostRead (offset : BitVec 16) (s : State) : State :=
  match regAt offset with
  | none => s.setHostData 0
  | some r => readReg r s

/-- A CAN identifier register keeps no bit 30:29 (R36). -/
def canIdMask : Word := 0x9FFFFFFF

/-- A host write to a register while no operation runs (R23 to R56): read-only registers ignore it. -/
def writeReg (r : HostReg) (v : Word) (s : State) : State :=
  match r with
  | .cmd => startOp (opcodeOf v) s
  | .status => s.setStatus (s.status.writeClear v)
  | .ctrl => s.setRegs { s.regs with ctrl := s.regs.ctrl.write s.status.portOpen v }
  | .klTxHdr => s.setRegs { s.regs with klTxHdr := v.extractLsb' 0 16 }
  | .klRxHdr => s.setRegs { s.regs with klRxHdr := v.extractLsb' 0 16 }
  | .canTxId => s.setRegs { s.regs with canTxId := v &&& canIdMask }
  | .canRxId => s.setRegs { s.regs with canRxId := v &&& canIdMask }
  | .canRxMask => s.setRegs { s.regs with canRxMask := v }
  | .txLen => s.setRegs { s.regs with txLen := v.extractLsb' 0 9 }
  | .frmLen => s.setOuts { s.outs with frmLen := v.extractLsb' 0 10 }
  | .startLen => s.setRegs { s.regs with startLen := v.extractLsb' 0 9 }
  | .kaLen => s.setRegs { s.regs with kaLen := v.extractLsb' 0 9 }
  | .tRxTimeout => s.setRegs { s.regs with tRxTimeout := v }
  | .tFiTimeout => s.setRegs { s.regs with tFiTimeout := v }
  | .tFiLow => s.setRegs { s.regs with tFiLow := v }
  | .tFiHigh => s.setRegs { s.regs with tFiHigh := v }
  | .fiReadMax => s.setRegs { s.regs with fiReadMax := v.extractLsb' 0 8 }
  | .kaPoll => s.setRegs { s.regs with kaPoll := v }
  | .kaIdle => s.setRegs { s.regs with kaIdle := v }
  | .capCfg => s.setRegs { s.regs with capCfg := v }
  | .capdSel => s.setRegs { s.regs with capdSel := v }
  | .bufram a => s.poke a (v.extractLsb' 0 8)
  | .errCode | .errInfo | .ccpCtr | .rxLen | .respStatus | .dtoInfo | .txWritten | .capCount | .capdCount | .capdDir
  | .capdLen | .capdTsLo | .capdTsHi | .timeLo | .timeHi | .lastActLo | .lastActHi | .capdData _ => s

/-- A host write (R24, R65): while BUSY, STATUS and CAPD_SEL alone take it and any other offset sets OVERRUN. -/
def hostWrite (offset : BitVec 16) (v : Word) (s : State) : State :=
  match regAt offset with
  | some .status => writeReg .status v s
  | some .capdSel => writeReg .capdSel v s
  | r =>
    if s.status.busy then s.setStatus { s.status with overrun := true }
    else
      match r with
      | some r => writeReg r v s
      | none => s

/-- One host access (R24). -/
def hostStep (a : HostAccess) (s : State) : State :=
  match a with
  | .read offset => hostRead offset s
  | .write offset v => hostWrite offset v s

end Sys2Proof.Machine
end

