-- ==== Sys2Proof/Machine/Interleave.lean ====
section
/-! DEFINITION. The steps of the agents other than a whole run of the sequencer: one atomic step of it, the environment's
answers, the clock, the platform's reset (spec/10_state.md R21; spec/70_reset_and_hazards.md R350, R352), and what the
sequencer fetches (R20, R25). -/

namespace Sys2Proof.Machine

/-- One atomic step of each operation (R20, R90). -/
def opStep (i : Instr) : Pos → State → Micro :=
  match i with
  | .openPort => stepOpen
  | .closePort => stepClose
  | .capDump => stepCapDump
  | .klEnc => stepKlEnc
  | .klParse => stepKlParse
  | .croEnc => stepCroEnc
  | .dtoDec => stepDtoDec
  | .fiSeq => stepFiSeq
  | .tpSend => stepTpSend
  | .tpRecv => stepTpRecv
  | .tpSr => stepTpSr
  | .kwpInit => stepKwpInit
  | .kwpExec => stepKwpExec
  | .ccpExec => stepCcpExec

/-- The FETCH: the operation whose code OP holds (R20, R25); none when OP is IDLE. -/
def fetch (s : State) : Option (Except DecodeRefusal Instr) := s.op.map fun o => decodeCode o.code

/-- An operation code that names no operation: the operation ends at once with ILLEGAL_COMMAND(UNKNOWN_OPCODE) (R122). -/
def illegalOp : DecodeRefusal → State → State
  | .unknownOpcode c, s => raiseError (.illegal .unknownOpcode c) s

/-- One atomic step of the sequencer, or nothing where it has none (R20). -/
def seqAtom (s : State) : Host.Outcome State Fault Refusal :=
  match s.op with
  | none => .next s
  | some o =>
    match decodeCode o.code with
    | .error r => .next (illegalOp r s)
    | .ok i =>
      match opStep i o.pos s with
      | .go t => .next t
      | .waitEnv => .next s
      | .waitTask => .next s
      | .lost => .fault .lostPosition

/-- An answer of the environment arrives (R21, R91). -/
def deliver (a : Answer) (s : State) : State :=
  match a with
  | .lineByte b => s.setEnv { s.env with lineIn := s.env.lineIn ++ [.byte b] }
  | .lineGap => s.setEnv { s.env with lineIn := s.env.lineIn ++ [.gap] }
  | .can x => s.setEnv { s.env with canIn := s.env.canIn ++ [x] }
  | .iso x => s.setEnv { s.env with isoIn := s.env.isoIn ++ [x] }
  | .opened ok => s.setEnv { s.env with openAns := s.env.openAns ++ [ok] }
  | .written n => s.setEnv { s.env with writeAns := s.env.writeAns ++ [n] }
  | .reading t => s.setEnv { s.env with clockIn := s.env.clockIn ++ [t] }

/-- A step of the clock agent (R61), within the block's hold precision (R191, R192). -/
def clockStep (t : Time) (s : State) : State := s.moveClock (clockLimit s) t

/-- The block reset (R350, R352): every register and internal state to its reset value, NOW_US unchanged, LAST_ACT_US set
to it, buffer RAM unspecified anew, no primitive performed. The environment, the schedule and the model's own records
are not the block's and stay (log 25). -/
def blockReset (s : State) : State :=
  { State.reset with
    clock := { now := s.clock.now, lastAct := s.clock.now, timeHiLatch := 0, lastActHiLatch := 0 }
    port := { State.reset.port with log := s.port.log }
    env := s.env
    sched := s.sched
    hostData := s.hostData
    draws := s.draws
    epoch := s.epoch + 1 }

end Sys2Proof.Machine
end

