-- ==== Sys2Proof/Machine/Step.lean ====
section
/-! DEFINITION. One step of the machine: the next event of the schedule, or the default agent when there is none
(spec/20_memory.md R93; log 1, 30). -/

namespace Sys2Proof.Machine

/-- The sequencer runs: it fetches the operation OP holds and executes it; an illegal code ends at once (R20, R122). -/
def seqRun (s : State) : Host.Outcome State Fault Refusal :=
  match fetch s with
  | none => .next s
  | some (.error r) => .next (illegalOp r s)
  | some (.ok i) => exec i s

/-- One scheduled event (R21). -/
def eventStep (e : Event) (s : State) : Host.Outcome State Fault Refusal :=
  match e with
  | .host a => .next (hostStep a s)
  | .run => seqRun s
  | .atom => seqAtom s
  | .task => .next (taskTurn s)
  | .clock t => .next (clockStep t s)
  | .env a => .next (deliver a s)
  | .reset => .next (blockReset s)

/-- One step of the machine. With no event scheduled the sequencer runs if an operation is in progress, otherwise the
keep-alive task takes its turn. -/
def step (s : State) : Host.Outcome State Fault Refusal :=
  match s.sched with
  | e :: rest => eventStep e (s.setSched rest)
  | [] => if s.op.isSome then seqRun s else .next (taskTurn s)

/-- The state after the host has written the word `w` to CMD (R25), the sequencer being the next agent to move, so that
the very next step fetches and runs that operation (log 2). -/
def State.withFetchWord (s : State) (nbits w : Nat) : State :=
  (startOp (opcodeOf (BitVec.ofNat 32 (w % 2 ^ nbits))) s).setSched (.run :: s.sched)

end Sys2Proof.Machine
end

