-- ==== Sys2Proof/Safety.lean ====
section
/-! DEFINITION. What counts as a safe state of the block, in the terms the claims use: the agreement of the status bits
with the internal state (spec/10_state.md R26, R29, R58), the engine lock (R57), the capture counts (R51, R52), the line
(spec/42_fast_init.md R203), the hold precision (R191), and the positions an operation can stand at; and the words in
which the claims say what an operation leaves alone. -/

namespace Sys2Proof.Machine

/-- The positions of the transport that belong to its send. -/
def TxPos.sends : TxPos → Bool
  | .syncSend => true
  | .send => true
  | .capOut => true
  | _ => false

/-- The positions an operation's pseudocode has. -/
def posOk (i : Instr) (p : Pos) : Bool :=
  match i, p with
  | _, .start => true
  | .openPort, .opened => true
  | .openPort, .filter => true
  | .openPort, .finish _ => true
  | .openPort, .raise _ => true
  | .closePort, .stopped => true
  | .closePort, .finish _ => true
  | .fiSeq, .fi _ _ => true
  | .fiSeq, .release (.fastInit _) => true
  | .fiSeq, .finish (.fastInit _) => true
  | .tpSend, .tx _ q => q.sends
  | .tpSend, .release _ => true
  | .tpSend, .finish _ => true
  | .tpRecv, .tx _ q => !q.sends
  | .tpRecv, .release _ => true
  | .tpRecv, .finish _ => true
  | .tpSr, .tx _ _ => true
  | .tpSr, .release _ => true
  | .tpSr, .finish _ => true
  | .kwpInit, .stopped => true
  | .kwpInit, .opened => true
  | .kwpInit, .filter => true
  | .kwpInit, .body => true
  | .kwpInit, .fi _ _ => true
  | .kwpInit, .tx _ q => !q.sends
  | .kwpInit, .release _ => true
  | .kwpInit, .finish _ => true
  | .kwpInit, .raise _ => true
  | .kwpExec, .tx _ _ => true
  | .kwpExec, .got _ _ => true
  | .kwpExec, .finish _ => true
  | .ccpExec, .tx _ _ => true
  | .ccpExec, .release (.data _) => true
  | .ccpExec, .finish (.data _) => true
  | _, _ => false

/-- The byte strings a position of the transport carries have the lengths the wire formats give them, and a counter byte
that was accepted is not below 0x80 (R82, R103, R148). -/
def TxPos.sized : TxPos → Bool
  | .klId c => 0x80 ≤ c.toNat
  | .klBody head n => head.length ≤ 4 && pduLenOk n
  | .klSum head pdu => head.length ≤ 4 && pduLenOk pdu.length
  | .klJudge head pdu _ => head.length ≤ 4 && pduLenOk pdu.length
  | .canGot frame => canDataOk frame
  | _ => true

/-- What an operation still has to report fits its buffer (R82). -/
def Ret.sized : Ret → Bool
  | .data u => pduLenOk u.length
  | _ => true

/-- No byte string a position carries runs past the buffer it is for (R82). -/
def Pos.sized : Pos → Bool
  | .tx req p => p.sized && (!p.sends || pduLenOk req.length)
  | .got _ u => pduLenOk u.length
  | .fi _ (.read _ k _) => k < 255
  | .fi _ (.close _ k _) => k ≤ 255
  | .release r => r.sized
  | .finish r => r.sized
  | _ => true

/-- The same for the keep-alive task. -/
def KaPhase.sized : KaPhase → Bool
  | .tick (.tx p) => p.sized
  | .tick (.got u) => pduLenOk u.length
  | _ => true

/-- The positions at which the sequencer holds the engine lock. -/
def Pos.locked : Pos → Bool
  | .fi _ _ => true
  | .tx _ _ => true
  | .got _ _ => true
  | .release _ => true
  | _ => false

/-- The positions at which no keep-alive task exists: once StopKeepAlive is over, or past a check that the port was closed
(R245, R255, R264). -/
def aloneAt (i : Instr) (p : Pos) : Bool :=
  match i, p with
  | .kwpInit, .start => false
  | .kwpInit, .stopped => false
  | .kwpInit, _ => true
  | .closePort, .finish _ => true
  | .openPort, .opened => true
  | .openPort, .filter => true
  | _, _ => false

/-- The positions at which the port is open: an operation that uses the port is past its check of it, or has opened it
(R225, R226, R245). -/
def portUpAt (i : Instr) (p : Pos) : Bool :=
  match i, p with
  | .openPort, .start => false
  | .openPort, .raise _ => false
  | .openPort, _ => true
  | .kwpInit, .start => false
  | .kwpInit, .stopped => false
  | .kwpInit, .raise _ => false
  | .kwpInit, _ => true
  | .fiSeq, p => p != .start
  | .tpSend, p => p != .start
  | .tpRecv, p => p != .start
  | .tpSr, p => p != .start
  | .kwpExec, p => p != .start
  | .ccpExec, p => p != .start
  | _, _ => false

/-- The sequencer is inside its locked region. -/
def seqInside (s : State) : Bool :=
  match s.op with
  | some o => o.pos.locked
  | none => false

/-- The keep-alive task is inside its locked region. -/
def kaInside (s : State) : Bool :=
  match s.ka.phase with
  | .tick (.tx _) => true
  | .tick (.got _) => true
  | _ => false

/-- The task exists (R58). -/
def KaPhase.exists : KaPhase → Bool
  | .off => false
  | _ => true

/-- The task is inside a tick (R58). -/
def KaPhase.ticking : KaPhase → Bool
  | .tick _ => true
  | _ => false

/-- The line state the block has requested at a position of FastInit (R193, R194). -/
def FiPos.line : FiPos → Line
  | .holdLow .native _ => .brk
  | .holdLow .alternate _ => .low
  | .high .native _ => .brk
  | .high .alternate _ => .low
  | .holdHigh .alternate _ => .high
  | .release _ => .high
  | _ => .uart

/-- The line state the block has requested (R63, R203). -/
def lineNow (s : State) : Line :=
  match s.op with
  | some { code := _, pos := .fi _ p } => p.line
  | _ => .uart

/-- The checks on registers an operation has made at its first line and that stay true while it runs, because the host's
writes are rejected while BUSY: its PROTO (R123), and KWP_INIT's keep-alive length (R245). -/
def checkedBy (r : Regs) (i : Instr) : Bool :=
  i.allowedUnder r.ctrl.proto &&
    match i with
    | .kwpInit => !r.ctrl.kaEn || pduLenOk r.kaLen.toNat
    | _ => true

/-- A position of the transport belongs to the transport PROTO selects (R223). -/
def TxPos.fits (p : Proto) : TxPos → Bool
  | .klId _ => p == .kwpKline
  | .klLen _ _ _ => p == .kwpKline
  | .klBody _ _ => p == .kwpKline
  | .klSum _ _ => p == .kwpKline
  | .klJudge _ _ _ => p == .kwpKline
  | .isoGot _ => p == .kwpCan
  | .canGot _ => p == .ccpCan
  | _ => true

/-- The same for a position of an operation; the fast-init is the K-Line's (R215, R245). -/
def Pos.fits (p : Proto) : Pos → Bool
  | .tx _ q => q.fits p
  | .fi _ _ => p == .kwpKline
  | _ => true

/-- Where OP's operation can stand: an operation at a position of its own and of its transport, past its first line only
with its checks made; an illegal code at its start only. -/
def opOk (r : Regs) (o : Op) : Bool :=
  match decodeCode o.code with
  | .ok i => posOk i o.pos && o.pos.sized && o.pos.fits r.ctrl.proto && (o.pos == .start || checkedBy r i)
  | .error _ => o.pos == .start

/-- The invariant of the block: what holds after reset and is kept by every step. -/
structure State.Inv (s : State) : Prop where
  /-- Buffer RAM is in canonical form and inside 0x000..0x7FF (R82). -/
  ram : Memory.wf s.ram = true
  /-- BUSY is 1 exactly while OP is not IDLE (R26). -/
  busy : s.status.busy = s.op.isSome
  /-- While BUSY neither DONE nor ERR is set (R25). -/
  running : s.status.busy = true → s.status.done = false ∧ s.status.err = false
  /-- ERR implies DONE (R27, R330). -/
  errDone : s.status.err = true → s.status.done = true
  /-- ERR_CODE is 0 exactly when ERR is 0 (R25, R32). -/
  errCode : s.status.err = true ↔ s.outs.errCode ≠ 0
  /-- ERR_INFO is 0 while ERR is 0 (R25, R33, R331). -/
  errInfo : s.status.err = false → s.outs.errInfo = 0
  /-- OP stands at a position its operation has. -/
  pos : ∀ o, s.op = some o → opOk s.regs o = true
  /-- KA_RUN is 1 exactly while the task exists (R58). -/
  kaRun : s.status.kaRun = s.ka.phase.exists
  /-- KA_ACTIVE is 1 exactly while the task is in a tick (R58). -/
  kaActive : s.status.kaActive = s.ka.phase.ticking
  /-- ENG_READY implies PORT_OPEN (R240). -/
  ready : s.status.engReady = true → s.status.portOpen = true
  /-- A Ready engine is a KWP2000 engine: its PROTO is 0 or 1 (R245, R281). -/
  kwp : s.status.engReady = true → s.regs.ctrl.proto ≠ .ccpCan
  /-- A task exists only in a Ready engine. -/
  task : s.ka.phase.exists = true → s.status.engReady = true
  /-- The task has a command of 1 to 255 bytes (R59). -/
  command : s.ka.phase.exists = true → 1 ≤ s.ka.pdu.length ∧ s.ka.pdu.length ≤ 255
  /-- No byte string the task carries runs past the formats (R82). -/
  kaSized : s.ka.phase.sized = true
  /-- A stop request stands only while the task exists (R260, R264). -/
  stop : s.ka.stopReq = true → s.ka.phase.exists = true
  /-- The sequencer holds the lock exactly inside its locked region (R57). -/
  lockSeq : s.lock = .seq ↔ seqInside s = true
  /-- The task holds the lock exactly inside its transaction (R57). -/
  lockKa : s.lock = .ka ↔ kaInside s = true
  /-- The sequencer works on the port without the lock, and starts a task, only while no task exists (R246). -/
  alone : ∀ o i, s.op = some o → decodeCode o.code = .ok i → aloneAt i o.pos = true → s.ka.phase = .off
  /-- The sequencer works on an open port only (R225, R320). -/
  portUp : ∀ o i, s.op = some o → decodeCode o.code = .ok i → portUpAt i o.pos = true → s.status.portOpen = true
  /-- CAP_COUNT counts CAP_LIVE (R51). -/
  capCount : s.outs.capCount = BitVec.ofNat 32 s.cap.live.length
  /-- CAPD_COUNT counts CAP_DUMPED (R52). -/
  capdCount : s.outs.capdCount = BitVec.ofNat 32 s.cap.dumped.length
  /-- The reserved bits 30:29 of the CAN identifiers read 0 (R24, R36). -/
  canIds : s.regs.canTxId &&& 0x60000000 = 0 ∧ s.regs.canRxId &&& 0x60000000 = 0
  /-- LAST_ACT_US is never ahead of the clock (R61, R62). -/
  lastAct : s.clock.lastAct.toNat ≤ s.clock.now.toNat
  /-- The reserved bits of ERR_CODE and ERR_INFO read 0 (R24, R32, R33). -/
  errWords : s.outs.errCode &&& 0xFFFF0000#32 = 0 ∧ s.outs.errInfo &&& 0xFFF80000#32 = 0
  /-- LINE is what the running phase of FastInit has requested, and UART outside FastInit (R63, R203). -/
  line : s.port.line = lineNow s
  /-- Inside a hold phase the clock is less than 1 ms over the phase's minimum (R191, R192). -/
  precise : s.nowUs ≤ clockLimit s
  /-- While the sequencer waits inside StopKeepAlive the stop request stands until the task is gone (R264). -/
  stopping : ∀ c, s.op = some { code := c, pos := .stopped } → s.ka.phase.exists = true → s.ka.stopReq = true

/-! ### What an operation leaves alone -/

/-- The bytes of buffer RAM outside `[a, a + n)` are as before. -/
def SameOutside (s t : State) (a n : Nat) : Prop := ∀ b, b < a ∨ a + n ≤ b → t.peek b = s.peek b

/-- Every byte of buffer RAM is as before. -/
def SameRam (s t : State) : Prop := ∀ b, t.peek b = s.peek b

/-- The bytes `bs` stand in buffer RAM from `a` on. -/
def HoldsAt (t : State) (a : Nat) (bs : List Byte) : Prop := t.memRead a bs.length = bs

/-- The model's own fields that no operation changes. -/
def SameOwn (s t : State) : Prop :=
  t.hostData = s.hostData ∧ t.sched = s.sched ∧ t.draws = s.draws ∧ t.epoch = s.epoch

/-- An operation that reaches nothing outside the block leaves the clock, the port, the environment's answers, the lock
and the keep-alive task as they were. -/
def NoTraffic (s t : State) : Prop :=
  t.clock = s.clock ∧ t.port = s.port ∧ t.env = s.env ∧ t.lock = s.lock ∧ t.ka = s.ka

/-- STATUS after the successful end of an operation (R331). -/
def Status.ended (x : Status) : Status := { x with busy := false, done := true, err := false }

/-- STATUS after error entry (R330). -/
def Status.failed (x : Status) : Status := { x with busy := false, done := true, err := true, errSticky := true }

/-- The operation `i` has just been started in `s` (R25). -/
def Started (i : Instr) (s : State) : Prop := s.op = some { code := opcode i, pos := .start }

/-- An operation has ended with STATUS `x`: OP is IDLE, the lock is as it was, and the host's registers and the model's
own fields are untouched. -/
def EndsAs (x : Status) (s t : State) : Prop :=
  t.status = x ∧ t.op = none ∧ t.lock = s.lock ∧ t.regs = s.regs ∧ SameOwn s t

/-- `t` is `s` after the operation ended at once by `raise e`, nothing else changed (R320, R330): what a check made before
any primitive, any lock acquisition and any output leaves. -/
def RaisedOnly (e : Err) (s t : State) : Prop :=
  t.status = s.status.failed ∧ t.outs = { s.outs with errCode := e.codeWord, errInfo := e.infoWord } ∧ t.op = none
    ∧ t.regs = s.regs ∧ SameOwn s t ∧ t.cap = s.cap ∧ t.clock = s.clock ∧ t.port = s.port ∧ t.env = s.env
    ∧ t.ka = s.ka ∧ t.lock = (if s.lock = .seq then .free else s.lock) ∧ SameRam s t

/-- The record of primitives after the sequencer performed `cs`, in that order, at clock value `now` (log 21). -/
def madeCalls (now : Time) (cs : List PortCall) (log : List PortEvent) : List PortEvent :=
  (cs.map fun c => { agent := .seq, time := now, call := c }).reverse ++ log

/-- The same for the keep-alive task. -/
def taskCalls (now : Time) (cs : List PortCall) (log : List PortEvent) : List PortEvent :=
  (cs.map fun c => { agent := .ka, time := now, call := c }).reverse ++ log

/-- What SyncTimeout performs (R217). -/
def syncCalls (s : State) : List PortCall :=
  if s.port.timeout = s.regs.tRxTimeout then [] else [.setTimeout s.regs.tRxTimeout]

/-- The `PortRead` calls of one encoded frame with `n` PDU bytes (R145). -/
def frameReads (n : Nat) : List PortCall :=
  if n < 127 then [.read 1, .read 2, .read n, .read 1] else [.read 1, .read 2, .read 1, .read n, .read 1]

/-- What stands in front of `n` PDU bytes in a K-Line frame the decoder takes: counter and id, or the long form's
marker, id and length (R103). -/
def klHeadFor (head : List Byte) (n : Nat) : Prop :=
  (∃ c i0 i1 : Byte, head = [c, i0, i1] ∧ 0x81 ≤ c.toNat ∧ n = c.toNat - 0x80)
    ∨ ∃ i0 i1 l : Byte, head = [0x80, i0, i1, l] ∧ 1 ≤ l.toNat ∧ n = l.toNat

/-- The id a K-Line head carries, high byte first (R84, R146). -/
def headId (head : List Byte) : Nat := (head.getD 1 0).toNat * 256 + (head.getD 2 0).toNat

/-- The live capture buffer after a unit was captured at clock value `now`, in the words of R218. -/
def pushed (cfg : Word) (now : Time) (dir : Dir) (bs : List Byte) (live : List Record) : List Record :=
  if cfg.getLsbD 31 then live
  else
    let all := live ++ [{ dir := dir, bytes := bs, ts := now / 1000 }]
    let k := (cfg.extractLsb' 0 31).toNat
    if k = 0 then all else all.drop (all.length - k)

/-- The same for several units, the first captured first. -/
def pushedAll (cfg : Word) (now : Time) : List (Dir × List Byte) → List Record → List Record
  | [], live => live
  | u :: us, live => pushedAll cfg now us (pushed cfg now u.1 u.2 live)

/-- CAP_COUNT once CAP_LIVE is `live`: it keeps its value while capture is disabled (R218). -/
def countOf (s : State) (live : List Record) : Word :=
  if s.regs.capCfg.getLsbD 31 then s.outs.capCount else BitVec.ofNat 32 live.length

/-- A hold window of `w` microseconds that began at `start` ends at `stop`: not early, less than 1 ms late, and at once if
it is empty (R191; log 17). -/
def Held (w : Word) (start stop : Time) : Prop :=
  start.toNat + w.toNat ≤ stop.toNat ∧ stop.toNat < start.toNat + w.toNat + 1000 ∧ (w = 0 → stop = start)

/-- The clock reading that ends such a window (R14). -/
def holdReads (w : Word) (stop : Time) : List Time := if w = 0 then [] else [stop]

/-- What the K-Line delivers in a response window that ends with the bytes `bs`: a silence, unless the limit is reached
(R196). -/
def windowItems (readMax : Nat) (bs : List Byte) : List LineItem :=
  bs.map .byte ++ if bs.length < readMax then [.gap] else []

/-- The bytes outside `[a, a + n)` and outside `[b, b + m)` are as before. -/
def SameOutside2 (s t : State) (a n b m : Nat) : Prop :=
  ∀ x, (x < a ∨ a + n ≤ x) → (x < b ∨ b + m ≤ x) → t.peek x = s.peek x

/-! ### The checks of the operations (R320) -/

/-- ARGUMENT(cause) for a length outside `lo..hi` (R313). -/
def lenCheck (lo hi n : Nat) (cause : ArgumentCause) : Option Err :=
  if n < lo ∨ hi < n then some (.argument cause (BitVec.ofNat 8 n)) else none

/-- PORT_CLOSED, or the next check. -/
def portCheck (s : State) (next : Option Err) : Option Err := if s.status.portOpen then next else some .portClosed

/-- The error the checks of an operation report, made in the order of R320 before any primitive, lock or output:
WRONG_PROTO, the state checks, the ARGUMENT checks. -/
def firstCheck (i : Instr) (s : State) : Option Err :=
  if i.allowedUnder s.regs.ctrl.proto = false then some (.illegal .wrongProto (opcode i))
  else
    match i with
    | .openPort => none
    | .closePort => none
    | .capDump => none
    | .klEnc => lenCheck 1 255 s.regs.txLen.toNat .klLen
    | .klParse => lenCheck 0 512 s.outs.frmLen.toNat .frameLen
    | .croEnc => lenCheck 1 7 s.regs.txLen.toNat .ccpLen
    | .dtoDec =>
      if s.outs.frmLen.toNat < 8 then some (.timeout .dtoShort (BitVec.ofNat 8 s.outs.frmLen.toNat))
      else lenCheck 8 8 s.outs.frmLen.toNat .frameLen
    | .fiSeq => portCheck s (lenCheck 1 255 s.regs.startLen.toNat .startLen)
    | .tpSend =>
      portCheck s (if s.regs.ctrl.proto = .ccpCan then lenCheck 8 8 s.outs.frmLen.toNat .frameLen
        else lenCheck 1 255 s.regs.txLen.toNat .klLen)
    | .tpRecv => portCheck s none
    | .tpSr =>
      portCheck s (if s.regs.ctrl.proto = .ccpCan then lenCheck 8 8 s.outs.frmLen.toNat .frameLen
        else lenCheck 1 255 s.regs.txLen.toNat .klLen)
    | .kwpInit =>
      match (if s.regs.ctrl.proto = .kwpKline then lenCheck 1 255 s.regs.startLen.toNat .startLen else none) with
      | some e => some e
      | none => if s.regs.ctrl.kaEn then lenCheck 1 255 s.regs.kaLen.toNat .kaLen else none
    | .kwpExec => if s.status.engReady then lenCheck 1 255 s.regs.txLen.toNat .klLen else some .notReady
    | .ccpExec => portCheck s (lenCheck 1 7 s.regs.txLen.toNat .ccpLen)

/-! ### The host's registers -/

/-- The bits of a register that its fields occupy (R23, R36); every other bit is reserved. -/
def fieldMask : HostReg → Word
  | .cmd => 0
  | .status => 0x000077FF
  | .ctrl => 0x0000000F
  | .errCode => 0x0000FFFF
  | .errInfo => 0x0007FFFF
  | .klTxHdr => 0x0000FFFF
  | .klRxHdr => 0x0000FFFF
  | .canTxId => 0x9FFFFFFF
  | .canRxId => 0x9FFFFFFF
  | .canRxMask => 0xFFFFFFFF
  | .ccpCtr => 0x000000FF
  | .txLen => 0x000001FF
  | .rxLen => 0x000001FF
  | .frmLen => 0x000003FF
  | .startLen => 0x000001FF
  | .kaLen => 0x000001FF
  | .respStatus => 0x000000FF
  | .dtoInfo => 0x0000FFFF
  | .txWritten => 0x0000FFFF
  | .fiReadMax => 0x000000FF
  | .capdDir => 0x00000001
  | .capdLen => 0x000001FF
  | .bufram _ => 0x000000FF
  | .capdData _ => 0x000000FF
  | .tRxTimeout => 0xFFFFFFFF
  | .tFiTimeout => 0xFFFFFFFF
  | .tFiLow => 0xFFFFFFFF
  | .tFiHigh => 0xFFFFFFFF
  | .kaPoll => 0xFFFFFFFF
  | .kaIdle => 0xFFFFFFFF
  | .capCfg => 0xFFFFFFFF
  | .capCount => 0xFFFFFFFF
  | .capdCount => 0xFFFFFFFF
  | .capdSel => 0xFFFFFFFF
  | .capdTsLo => 0xFFFFFFFF
  | .capdTsHi => 0xFFFFFFFF
  | .timeLo => 0xFFFFFFFF
  | .timeHi => 0xFFFFFFFF
  | .lastActLo => 0xFFFFFFFF
  | .lastActHi => 0xFFFFFFFF

/-- The registers whose reads R66 leaves open while an operation that may write them runs. -/
def openOutput : HostReg → Bool
  | .rxLen => true
  | .frmLen => true
  | .respStatus => true
  | .dtoInfo => true
  | .txWritten => true
  | .ccpCtr => true
  | .bufram a => 0x100 ≤ a && a < 0x400
  | _ => false

/-! ### Runs -/

/-- The events `es` happen one after the other; a fault or a refusal ends them. -/
def runEvents : List Event → State → Host.Outcome State Fault Refusal
  | [], s => .next s
  | e :: es, s =>
    match eventStep e s with
    | .next t => runEvents es t
    | .fault r => .fault r
    | .refused r => .refused r

/-- The sequencer can take no step in `s` until the environment answers, the clock moves, or a keep-alive task that has
no step either can go on. -/
def SeqWaits (s : State) : Prop :=
  ∃ o i, s.op = some o ∧ decodeCode o.code = .ok i
    ∧ (opStep i o.pos s = .waitEnv ∨ opStep i o.pos s = .waitTask ∧ kaStep s = none)

/-- The states the block can reach from reset, whatever the environment answers, whatever the interleaving, and whatever
value the clock has at reset (R61, R91, R93). -/
inductive Reachable : State → Prop where
  /-- Reset, with any oracle, any schedule and any clock value. -/
  | init (env : Env) (sched : List Event) (now : Time) :
      Reachable { State.reset with
        env := env, sched := sched,
        clock := { now := now, lastAct := now, timeHiLatch := 0, lastActHiLatch := 0 } }
  /-- One step. -/
  | step (s t : State) : Reachable s → Sys2Proof.Machine.step s = .next t → Reachable t

end Sys2Proof.Machine
end

