-- ==== Sys2Proof/Certificates/Slice0/Obligations.lean ====
section
/-! DEFINITION. The statements for the provers: the encoding, the host interface, reset, the whole machine, the codec
functions, the operations, and the keep-alive task. A docstring names the rules of spec/ a statement formalises and, where
it rests on a choice of the model, the log entry. -/

open Sys2Proof Sys2Proof.Machine

/-! ### The operation encoding -/

/-- R120, R126: the fourteen CMD words written out bit by bit from the table, one with bits 31:8 set, decode to the
operations they stand for; two codes beside the table are refused by name. -/
def Obligations.DecodeWrittenWords : Prop :=
  decode 0b00000000000000000000000000000001#32 = .ok .openPort
    ∧ decode 0b00000000000000000000000000000010#32 = .ok .closePort
    ∧ decode 0b00000000000000000000000000000011#32 = .ok .capDump
    ∧ decode 0b00000000000000000000000000010000#32 = .ok .klEnc
    ∧ decode 0b00000000000000000000000000010001#32 = .ok .klParse
    ∧ decode 0b00000000000000000000000000100000#32 = .ok .croEnc
    ∧ decode 0b00000000000000000000000000100001#32 = .ok .dtoDec
    ∧ decode 0b00000000000000000000000000110000#32 = .ok .fiSeq
    ∧ decode 0b00000000000000000000000001000000#32 = .ok .tpSend
    ∧ decode 0b00000000000000000000000001000001#32 = .ok .tpRecv
    ∧ decode 0b00000000000000000000000001000010#32 = .ok .tpSr
    ∧ decode 0b00000000000000000000000001010000#32 = .ok .kwpInit
    ∧ decode 0b00000000000000000000000001010001#32 = .ok .kwpExec
    ∧ decode 0b00000000000000000000000001100000#32 = .ok .ccpExec
    ∧ decode 0b11111111111111111111111101010001#32 = .ok .kwpExec
    ∧ decode 0b00000000000000000000000000000100#32 = .error (.unknownOpcode 0x04)
    ∧ decode 0b00000000000000000000000001111111#32 = .error (.unknownOpcode 0x7F)

/-- R120: the operation is selected by `value[7:0]` alone: a word decodes to `i` exactly when, under the mask 0x000000FF,
it is the word `encode i`, for every word and every operation. -/
def Obligations.DecodeByMask : Prop := ∀ (w : Word) (i : Instr), decode w = .ok i ↔ w &&& 0x000000FF#32 = encode i

/-- R122: a CMD write of a code outside the table starts an operation (BUSY = 1) that the sequencer's next run ends at once
with ILLEGAL_COMMAND(UNKNOWN_OPCODE), changing nothing else; and no other code is refused. -/
def Obligations.IllegalCodeEnds : Prop :=
  (∀ w : Word, cmdWordOk w = true ↔ ∃ i, decode w = .ok i)
    ∧ ∀ (s : State) (w : Word), s.op = none → s.status.busy = false → cmdWordOk w = false →
      (hostStep (.write 0x000 w) s).status.busy = true
        ∧ ∃ t, seqRun (hostStep (.write 0x000 w) s) = .next t
          ∧ RaisedOnly (.illegal .unknownOpcode (opcodeOf w)) s t
          ∧ t.outs.errCode = 0x010A ∧ t.outs.errInfo = (w.extractLsb' 0 8).setWidth 32

/-- R123: an operation started under a PROTO its row of R120 does not allow ends at once with
ILLEGAL_COMMAND(WRONG_PROTO, OPC), changing nothing else. The first clause is the column "PROTO allowed" of R120. -/
def Obligations.WrongProtoEnds : Prop :=
  (∀ (i : Instr) (p : Proto), i.allowedUnder p = false ↔
      (i = .fiSeq ∧ (p = .kwpCan ∨ p = .ccpCan)) ∨ (i = .kwpInit ∧ p = .ccpCan) ∨ (i = .kwpExec ∧ p = .ccpCan)
        ∨ (i = .ccpExec ∧ (p = .kwpKline ∨ p = .kwpCan)))
    ∧ ∀ (i : Instr) (s : State), Started i s → i.allowedUnder s.regs.ctrl.proto = false →
      ∃ t, exec i s = .next t ∧ RaisedOnly (.illegal .wrongProto (opcode i)) s t
        ∧ t.outs.errCode = 0x020A ∧ t.outs.errInfo = (opcode i).setWidth 32

/-- R320, R298, R313: the checks of every operation are made in the order of R320, and the first that fails is the one
error reported, before any primitive, any lock acquisition and any output. -/
def Obligations.ChecksInOrder : Prop :=
  ∀ (i : Instr) (s : State) (e : Err), Started i s → firstCheck i s = some e →
    ∃ t, exec i s = .next t ∧ RaisedOnly e s t

/-- R20, R25, R93: a step is the next scheduled event; the sequencer's run is `exec` of the operation whose code OP
holds; so is the default step while an operation is in progress (log 30), and the first step after the CMD write that
`withFetchWord` stands for (log 2). -/
def Obligations.StepRunsDecoded : Prop :=
  (∀ (s : State) (e : Event) (rest : List Event), s.sched = e :: rest → step s = eventStep e (s.setSched rest))
    ∧ (∀ (s : State) (o : Op) (i : Instr), s.op = some o → decodeCode o.code = .ok i → eventStep .run s = exec i s)
    ∧ (∀ (s : State) (o : Op) (i : Instr), s.sched = [] → s.op = some o → decodeCode o.code = .ok i → step s = exec i s)
    ∧ ∀ (s : State) (nbits w : Nat) (i : Instr), decodeTableWord nbits w = some i →
      step (s.withFetchWord nbits w) = exec i (startOp (opcode i) s)

/-! ### The host interface -/

/-- R25: a CMD write while idle starts the operation whose code is `value[7:0]`, atomically and with nothing else changed;
while BUSY it is the overrun of R65; a read of CMD returns 0. -/
def Obligations.CmdStartsOperation : Prop :=
  ∀ (s : State) (v : Word),
    (s.op = none → s.status.busy = false →
      hostStep (.write 0x000 v) s =
        { s with
          status := { s.status with busy := true, done := false, err := false }
          outs := { s.outs with errCode := 0, errInfo := 0 }
          op := some { code := v.extractLsb' 0 8, pos := .start } })
      ∧ (s.status.busy = true → hostStep (.write 0x000 v) s = { s with status := { s.status with overrun := true } })
      ∧ (hostStep (.read 0x000) s).hostData = 0

/-- R65: while BUSY a write to any offset other than STATUS and CAPD_SEL only sets OVERRUN; STATUS takes its bits 3 and 4,
CAPD_SEL the value. While not BUSY a write takes effect in the step it occurs, whatever the keep-alive task is doing: it
does to the register at the offset what it does with the task OFF. That an unmapped, misaligned or read-only offset counts
as any other offset while BUSY is the model's reading (log 23, DEDUCED). -/
def Obligations.BusyWritesRejected : Prop :=
  ∀ (s : State) (off : BitVec 16) (v : Word),
    (s.status.busy = true → off ≠ 0x004 → off ≠ 0x074 →
      hostStep (.write off v) s = { s with status := { s.status with overrun := true } })
      ∧ hostStep (.write 0x004 v) s =
        { s with status := { s.status with
            errSticky := s.status.errSticky && !v.getLsbD 3, overrun := s.status.overrun && !v.getLsbD 4 } }
      ∧ hostStep (.write 0x074 v) s = { s with regs := { s.regs with capdSel := v } }
      ∧ (s.status.busy = false → ∀ k : KeepAlive,
        hostStep (.write off v) s = (hostStep (.write off v) { s with ka := k }).setKa s.ka)

/-- R28: ERR_STICKY and OVERRUN, once set, stay set over every step of the machine but the block reset and a host write of
1 to the bit, which clears it. -/
def Obligations.StickyBits : Prop :=
  (∀ s t : State, step s = .next t →
      (s.status.errSticky = true → t.status.errSticky = true ∨ (∃ rest, s.sched = .reset :: rest)
        ∨ ∃ v rest, s.sched = .host (.write 0x004 v) :: rest ∧ v.getLsbD 3 = true)
        ∧ (s.status.overrun = true → t.status.overrun = true ∨ (∃ rest, s.sched = .reset :: rest)
          ∨ ∃ v rest, s.sched = .host (.write 0x004 v) :: rest ∧ v.getLsbD 4 = true))
    ∧ ∀ (s : State) (v : Word) (rest : List Event), s.sched = .host (.write 0x004 v) :: rest →
      ∃ t, step s = .next t ∧ (v.getLsbD 3 = true → t.status.errSticky = false)
        ∧ (v.getLsbD 4 = true → t.status.overrun = false)

/-- R31: a CTRL write of PROTO = 3, or while the port is open, leaves PROTO and writes the other fields; and no step but a
CTRL write with the port closed, or the block reset, changes PROTO, so that it is fixed for the life of an open port. -/
def Obligations.CtrlProtoLegal : Prop :=
  (∀ (s : State) (v : Word), s.status.busy = false →
      (hostStep (.write 0x008 v) s).regs =
        { s.regs with ctrl :=
          { proto :=
              if s.status.portOpen = true ∨ v.extractLsb' 0 2 = 3#2 then s.regs.ctrl.proto
              else if v.extractLsb' 0 2 = 0#2 then .kwpKline
              else if v.extractLsb' 0 2 = 1#2 then .kwpCan
              else .ccpCan
            klChkVerify := v.getLsbD 2
            kaEn := v.getLsbD 3 } })
    ∧ ∀ s t : State, step s = .next t → t.regs.ctrl.proto ≠ s.regs.ctrl.proto →
      (∃ rest, s.sched = .reset :: rest)
        ∨ s.status.portOpen = false ∧ s.status.busy = false ∧ ∃ v rest, s.sched = .host (.write 0x008 v) :: rest

/-- R22, R23, R24, R89, with the words of R26, R29 and R30: in every state a host read of STATUS and of CTRL gives each field
at its bit. While no operation runs: every offset of the table reads the state's own field; a write to a read-write offset
changes that field alone, and reads back in its fields; a write to a read-only offset changes nothing; and a write to one
register leaves what every other reads, but for CMD, and CAPD_SEL, which selects what the read-out registers show. -/
def Obligations.RegisterReadBack : Prop :=
  (∀ s : State,
      (∃ w, w = (hostStep (.read 0x004) s).hostData
          ∧ w.getLsbD 0 = s.status.busy ∧ w.getLsbD 1 = s.status.done ∧ w.getLsbD 2 = s.status.err
          ∧ w.getLsbD 3 = s.status.errSticky ∧ w.getLsbD 4 = s.status.overrun ∧ w.getLsbD 5 = s.status.portOpen
          ∧ w.getLsbD 6 = s.status.engReady ∧ w.getLsbD 7 = s.status.kaRun
          ∧ w.extractLsb' 8 3 = (match s.status.kaExit with
              | .none => 0#3 | .stopped => 1#3 | .portClosed => 2#3 | .timeout => 3#3 | .negative => 4#3 | .other => 5#3)
          ∧ w.getLsbD 11 = false
          ∧ w.extractLsb' 12 2 = (match s.status.fiResult with
              | .notRun => 0#2 | .native => 1#2 | .alternate => 2#2 | .noResponse => 3#2)
          ∧ w.getLsbD 14 = s.status.kaActive ∧ w.extractLsb' 15 17 = 0#17)
        ∧ ∃ w, w = (hostStep (.read 0x008) s).hostData
          ∧ w.extractLsb' 0 2 = (match s.regs.ctrl.proto with | .kwpKline => 0#2 | .kwpCan => 1#2 | .ccpCan => 2#2)
          ∧ w.getLsbD 2 = s.regs.ctrl.klChkVerify ∧ w.getLsbD 3 = s.regs.ctrl.kaEn ∧ w.extractLsb' 4 28 = 0#28)
    ∧ (∀ s : State, s.status.busy = false →
      (∀ p ∈ [(0x00C#16, s.outs.errCode), (0x010#16, s.outs.errInfo), (0x014#16, s.regs.klTxHdr.setWidth 32),
          (0x018#16, s.regs.klRxHdr.setWidth 32), (0x01C#16, s.regs.canTxId), (0x020#16, s.regs.canRxId),
          (0x024#16, s.regs.canRxMask), (0x028#16, s.outs.ccpCtr.setWidth 32), (0x02C#16, s.regs.txLen.setWidth 32),
          (0x030#16, s.outs.rxLen.setWidth 32), (0x034#16, s.outs.frmLen.setWidth 32),
          (0x038#16, s.regs.startLen.setWidth 32), (0x03C#16, s.regs.kaLen.setWidth 32),
          (0x040#16, s.outs.respStatus.setWidth 32), (0x044#16, s.outs.dtoInfo.setWidth 32),
          (0x048#16, s.outs.txWritten.setWidth 32), (0x04C#16, s.regs.tRxTimeout), (0x050#16, s.regs.tFiTimeout),
          (0x054#16, s.regs.tFiLow), (0x058#16, s.regs.tFiHigh), (0x05C#16, s.regs.fiReadMax.setWidth 32),
          (0x060#16, s.regs.kaPoll), (0x064#16, s.regs.kaIdle), (0x068#16, s.regs.capCfg), (0x06C#16, s.outs.capCount),
          (0x070#16, s.outs.capdCount), (0x074#16, s.regs.capdSel)], (hostStep (.read p.1) s).hostData = p.2)
        ∧ (∀ v : Word, ∀ p ∈ [(0x014#16, { s.regs with klTxHdr := v.extractLsb' 0 16 }),
            (0x018#16, { s.regs with klRxHdr := v.extractLsb' 0 16 }), (0x01C#16, { s.regs with canTxId := v &&& 0x9FFFFFFF }),
            (0x020#16, { s.regs with canRxId := v &&& 0x9FFFFFFF }), (0x024#16, { s.regs with canRxMask := v }),
            (0x02C#16, { s.regs with txLen := v.extractLsb' 0 9 }), (0x038#16, { s.regs with startLen := v.extractLsb' 0 9 }),
            (0x03C#16, { s.regs with kaLen := v.extractLsb' 0 9 }), (0x04C#16, { s.regs with tRxTimeout := v }),
            (0x050#16, { s.regs with tFiTimeout := v }), (0x054#16, { s.regs with tFiLow := v }),
            (0x058#16, { s.regs with tFiHigh := v }), (0x05C#16, { s.regs with fiReadMax := v.extractLsb' 0 8 }),
            (0x060#16, { s.regs with kaPoll := v }), (0x064#16, { s.regs with kaIdle := v }),
            (0x068#16, { s.regs with capCfg := v }), (0x074#16, { s.regs with capdSel := v })],
            hostStep (.write p.1 v) s = { s with regs := p.2 })
        ∧ (∀ v : Word, hostStep (.write 0x034 v) s = { s with outs := { s.outs with frmLen := v.extractLsb' 0 10 } })
        ∧ (∀ v : Word, ∀ off ∈ [0x00C#16, 0x010#16, 0x028#16, 0x030#16, 0x040#16, 0x044#16, 0x048#16, 0x06C#16, 0x070#16,
            0x078#16, 0x07C#16, 0x080#16, 0x084#16, 0x088#16, 0x08C#16, 0x090#16, 0x094#16],
            hostStep (.write off v) s = s)
        ∧ ∀ a : Nat, a < 2048 →
          (hostStep (.read (BitVec.ofNat 16 (0x1000 + 4 * a))) s).hostData = (s.peek a).setWidth 32
            ∧ ∀ v : Word, ∃ t, t = hostStep (.write (BitVec.ofNat 16 (0x1000 + 4 * a)) v) s
              ∧ t = { s with ram := t.ram } ∧ t.peek a = v.extractLsb' 0 8 ∧ ∀ b : Nat, b ≠ a → t.peek b = s.peek b)
    ∧ ∀ (s : State) (off : BitVec 16) (r : HostReg) (v : Word), s.status.busy = false → regAt off = some r →
      ((r ∈ [HostReg.klTxHdr, .klRxHdr, .canTxId, .canRxId, .canRxMask, .txLen, .frmLen, .startLen, .kaLen, .tRxTimeout,
            .tFiTimeout, .tFiLow, .tFiHigh, .fiReadMax, .kaPoll, .kaIdle, .capCfg, .capdSel] ∨ ∃ a, r = .bufram a) →
          (hostStep (.read off) (hostStep (.write off v) s)).hostData = v &&& fieldMask r)
        ∧ ((r ∈ [HostReg.errCode, .errInfo, .ccpCtr, .rxLen, .respStatus, .dtoInfo, .txWritten, .capCount, .capdCount,
            .capdDir, .capdLen, .capdTsLo, .capdTsHi, .timeLo, .timeHi, .lastActLo, .lastActHi] ∨ ∃ i, r = .capdData i) →
          hostStep (.write off v) s = s)
        ∧ ∀ (off' : BitVec 16) (r' : HostReg), regAt off' = some r' → r' ≠ r → r ≠ .cmd → r ≠ .capdSel →
          (hostStep (.read off') (hostStep (.write off v) s)).hostData = (hostStep (.read off') s).hostData

/-- R24: offsets outside the map read 0, and ignore writes while no operation runs; a reserved bit of a register reads 0,
and writes that agree on the register's fields do the same (the bits of CMD are those of R25). -/
def Obligations.ReservedBitsReadZero : Prop :=
  ∀ (s : State) (off : BitVec 16), s.Inv →
    (regAt off = none →
        (hostStep (.read off) s).hostData = 0
          ∧ (s.status.busy = false → ∀ v : Word, hostStep (.write off v) s = s))
      ∧ (off.toNat % 4 ≠ 0 → regAt off = none)
      ∧ ∀ r : HostReg, regAt off = some r →
        (hostStep (.read off) s).hostData &&& ~~~(fieldMask r) = 0
          ∧ (r ≠ .cmd → ∀ v w : Word, v &&& fieldMask r = w &&& fieldMask r →
            hostStep (.write off v) s = hostStep (.write off w) s)

/-- R66, R89 (log 11, log 12): a host read returns the register's current value and changes nothing but the model's record
of it, the latches of R54 and R55 apart, unless BUSY is 1 and the register is an output the running operation may write:
then it returns a value the model draws. And the outputs an operation is not said to write it does not write. -/
def Obligations.BusyReads : Prop :=
  (∀ (s : State) (off : BitVec 16) (r : HostReg), regAt off = some r →
      (s.status.busy = false ∨ openOutput r = false → r ≠ .timeLo → r ≠ .lastActLo →
          hostStep (.read off) s = { s with hostData := regValue r s })
        ∧ ∀ (o : Op) (i : Instr), s.op = some o → decodeCode o.code = .ok i → s.status.busy = true →
          (mayWrite i s.regs.ctrl.proto r = false → (hostStep (.read off) s).hostData = regValue r s)
            ∧ (mayWrite i s.regs.ctrl.proto r = true →
              hostStep (.read off) s = { s with hostData := Config.busyRead s.draws &&& outMask r, draws := s.draws + 1 }))
    ∧ ∀ (i : Instr) (o : Op) (s t : State) (r : HostReg), s.Inv → s.op = some o → decodeCode o.code = .ok i →
      exec i s = .next t → openOutput r = true → mayWrite i s.regs.ctrl.proto r = false → regValue r t = regValue r s

/-- R54, R55: a read of TIME_LO returns NOW_US[31:0] and latches NOW_US[63:32], and TIME_HI then reads that latch whatever
happens in between, short of another read of TIME_LO or the block reset: the two reads give one consistent 64-bit value.
The same of LAST_ACT_LO and LAST_ACT_HI. R61: no step moves the clock backwards. -/
def Obligations.ClockReads : Prop :=
  (∀ s t : State, step s = .next t → s.clock.now.toNat ≤ t.clock.now.toNat)
    ∧ (∀ s : State, (hostStep (.read 0x088) s).hostData = s.clock.now.extractLsb' 0 32
      ∧ (hostStep (.read 0x088) s).clock = { s.clock with timeHiLatch := s.clock.now.extractLsb' 32 32 }
      ∧ ∀ (es : List Event) (u : State), (∀ e ∈ es, e ≠ .host (.read 0x088) ∧ e ≠ .reset) →
        runEvents es (hostStep (.read 0x088) s) = .next u →
        (hostStep (.read 0x08C) u).hostData = s.clock.now.extractLsb' 32 32)
    ∧ ∀ s : State, (hostStep (.read 0x090) s).hostData = s.clock.lastAct.extractLsb' 0 32
      ∧ (hostStep (.read 0x090) s).clock = { s.clock with lastActHiLatch := s.clock.lastAct.extractLsb' 32 32 }
      ∧ ∀ (es : List Event) (u : State), (∀ e ∈ es, e ≠ .host (.read 0x090) ∧ e ≠ .reset) →
        runEvents es (hostStep (.read 0x090) s) = .next u →
        (hostStep (.read 0x094) u).hostData = s.clock.lastAct.extractLsb' 32 32

/-- R52, R53, R237: with CAPD_SEL = i the read-out registers show record i of the dump, also while an operation runs, and
they read 0 when CAPD_SEL is not below CAPD_COUNT. -/
def Obligations.DumpReadout : Prop :=
  ∀ s : State, s.Inv → s.cap.dumped.length < 2 ^ 32 →
    (∀ (i : Nat) (rec : Record), s.cap.dumped[i]? = some rec → rec.bytes.length ≤ 255 →
        ∃ t, t = hostStep (.write 0x074 (BitVec.ofNat 32 i)) s
          ∧ (hostStep (.read 0x070) t).hostData = BitVec.ofNat 32 s.cap.dumped.length
          ∧ (hostStep (.read 0x078) t).hostData = (match rec.dir with | .incoming => 0#32 | .outgoing => 1#32)
          ∧ (hostStep (.read 0x07C) t).hostData = BitVec.ofNat 32 rec.bytes.length
          ∧ (hostStep (.read 0x080) t).hostData = rec.ts.extractLsb' 0 32
          ∧ (hostStep (.read 0x084) t).hostData = rec.ts.extractLsb' 32 32
          ∧ ∀ j : Nat, j < 256 → (hostStep (.read (BitVec.ofNat 16 (0x3000 + 4 * j))) t).hostData =
            (if h : j < rec.bytes.length then rec.bytes[j].setWidth 32 else 0#32))
      ∧ ∀ (v : Word) (off : BitVec 16), s.cap.dumped.length ≤ v.toNat →
        (off ∈ [0x078#16, 0x07C#16, 0x080#16, 0x084#16] ∨ ∃ j : Nat, j < 256 ∧ off = BitVec.ofNat 16 (0x3000 + 4 * j)) →
        (hostStep (.read off) (hostStep (.write 0x074 v) s)).hostData = 0

/-! ### Reset -/

/-- R350, R351, R23: what the host reads after the block reset, and the internal state after it. CAP_CFG, whose reset value
the spec leaves to the model (log 7), is not among them; the clock's own value is unchanged (log 8), and buffer RAM is
unspecified anew (log 6, log 25). -/
def Obligations.ResetValues : Prop :=
  ∀ s : State, ∃ t, eventStep .reset s = .next t
    ∧ (∀ p ∈ [(0x000#16, 0#32), (0x004#16, 0#32), (0x008#16, 0#32), (0x00C#16, 0#32), (0x010#16, 0#32), (0x014#16, 0#32),
        (0x018#16, 0#32), (0x01C#16, 0#32), (0x020#16, 0#32), (0x024#16, 0xFFFFFFFF#32), (0x028#16, 0#32),
        (0x02C#16, 0#32), (0x030#16, 0#32), (0x034#16, 0#32), (0x038#16, 0#32), (0x03C#16, 0#32), (0x040#16, 0#32),
        (0x044#16, 0#32), (0x048#16, 0#32), (0x04C#16, 2000#32), (0x050#16, 400#32), (0x054#16, 25000#32),
        (0x058#16, 25000#32), (0x05C#16, 40#32), (0x060#16, 1000#32), (0x064#16, 1500#32), (0x06C#16, 0#32),
        (0x070#16, 0#32), (0x074#16, 0#32), (0x078#16, 0#32), (0x07C#16, 0#32), (0x080#16, 0#32), (0x084#16, 0#32),
        (0x3000#16, 0#32), (0x33FC#16, 0#32)], (hostStep (.read p.1) t).hostData = p.2)
    ∧ t.op = none ∧ t.lock = .free ∧ t.ka = { phase := .off, stopReq := false, pdu := [] }
    ∧ t.cap = { live := [], dumped := [] }
    ∧ t.clock = { now := s.clock.now, lastAct := s.clock.now, timeHiLatch := 0, lastActHiLatch := 0 }
    ∧ t.port.timeout = 2000 ∧ t.port.line = .uart
    ∧ ∀ a : Nat, a < 0x800 → t.peek a = Config.ramFree (s.epoch + 1) a

/-- R352: a reset while an operation runs or the keep-alive task exists abandons them: no error is reported, the lock is
free, the task no longer exists, and the block performs no primitive, so that the line stays as the environment has it and
the port is not closed. -/
def Obligations.ResetAbandons : Prop :=
  ∀ s : State, ∃ t, eventStep .reset s = .next t ∧ t.op = none ∧ t.status.busy = false
    ∧ t.status.err = false ∧ t.status.errSticky = false ∧ t.outs.errCode = 0 ∧ t.outs.errInfo = 0
    ∧ t.lock = .free ∧ t.ka.phase = .off ∧ t.status.kaRun = false ∧ t.port.log = s.port.log ∧ t.env = s.env

/-- The invariant holds in the reset state, with any answers of the environment, any schedule and any clock value (R61,
R91, R93), and after every block reset (R350). -/
def Obligations.InvAtReset : Prop :=
  (∀ (env : Env) (sched : List Event) (now : Time),
      State.Inv { State.reset with
        env := env, sched := sched
        clock := { now := now, lastAct := now, timeHiLatch := 0, lastActHiLatch := 0 } })
    ∧ State.reset.Inv ∧ ∀ s t : State, eventStep .reset s = .next t → t.Inv

/-! ### The whole machine -/

/-- Every step keeps the invariant of Safety.lean (R24, R26, R27, R32, R33, R36, R51, R52, R57 to R63, R82, R191, R203,
R240, R246, R264, R331): from every state that has it, not only from those a run reaches. -/
def Obligations.StepKeepsInv : Prop := ∀ s t : State, s.Inv → step s = .next t → t.Inv

/-- R314, R330: no step of the block stops: every error is reported or handled, so a state with the invariant always has a
next state. -/
def Obligations.StepNeverStops : Prop := ∀ s : State, s.Inv → ∃ t, step s = .next t

/-- R90, R93: the run of an operation is nothing but atomic steps, the sequencer's and (while the sequencer waits for it)
the keep-alive task's, each of them an event of the interleaving (log 1, log 28). -/
def Obligations.RunIsAtomic : Prop :=
  ∀ (i : Instr) (o : Op) (s t : State), s.op = some o → decodeCode o.code = .ok i → exec i s = .next t →
    ∃ es : List Event, (∀ e ∈ es, e = .atom ∨ e = .task) ∧ runEvents es s = .next t

/-- R90, R264, R265: a run stops only at the operation's end, or where the sequencer has no step until the environment
answers or the clock moves, itself or through the keep-alive task it waits for: the run's step bound is never the reason
(log 28). -/
def Obligations.ExecEndsOrWaits : Prop :=
  ∀ (i : Instr) (o : Op) (s t : State), s.Inv → s.op = some o → decodeCode o.code = .ok i → exec i s = .next t →
    t.op = none ∨ SeqWaits t

/-- R330, R311, R312, R313: error entry writes ERR_CODE = SUB * 256 + CLASS with a listed class and sub-cause and ERR_INFO
from R313, frees a lock the sequencer holds, writes BUSY, DONE, ERR and ERR_STICKY, ends the operation, and changes nothing
else. -/
def Obligations.ErrorEntry : Prop :=
  ∀ (e : Err) (s : State),
    raiseError e s =
        { s with
          outs := { s.outs with errCode := e.codeWord, errInfo := e.infoWord }
          lock := if s.lock = .seq then .free else s.lock
          status := { s.status with busy := false, done := true, err := true, errSticky := true }
          op := none }
      ∧ e.codeWord = BitVec.ofNat 32 (e.sub * 256 + e.cls)
      ∧ (e.cls, e.sub) ∈ [(0x01, 0x00), (0x02, 0x01), (0x02, 0x02), (0x02, 0x03), (0x02, 0x04), (0x02, 0x05), (0x02, 0x06),
        (0x03, 0x00), (0x04, 0x00), (0x05, 0x01), (0x05, 0x02), (0x05, 0x03), (0x06, 0x01), (0x06, 0x02), (0x06, 0x03),
        (0x06, 0x04), (0x06, 0x05), (0x07, 0x01), (0x08, 0x00), (0x09, 0x00), (0x0A, 0x01), (0x0A, 0x02)]
      ∧ e.infoWord.extractLsb' 0 8 = e.code ∧ e.infoWord.extractLsb' 8 8 = e.aux ∧ e.infoWord.extractLsb' 16 3 = e.cat

/-- R27, R94, R311, R330, R331: the step in which BUSY falls, other than by the block reset, sets DONE, leaves OP IDLE and
the lock not with the sequencer, and leaves either ERR and ERR_STICKY with a listed error code, or ERR = 0 with ERR_CODE
and ERR_INFO 0; and no step writes ERR_CODE with anything but 0 or a listed code. -/
def Obligations.OperationEnds : Prop :=
  (∀ s t : State, s.Inv → step s = .next t → s.status.busy = true → t.status.busy = false →
      (∀ rest, s.sched ≠ .reset :: rest) →
      t.status.done = true ∧ t.op = none ∧ t.lock ≠ .seq
        ∧ (t.status.err = true → t.status.errSticky = true ∧ t.outs.errCode ≠ 0)
        ∧ (t.status.err = false → t.outs.errCode = 0 ∧ t.outs.errInfo = 0))
    ∧ ∀ s t : State, step s = .next t → t.outs.errCode ≠ s.outs.errCode →
      t.outs.errCode ∈ [0x0000#32, 0x0001#32, 0x0102#32, 0x0202#32, 0x0302#32, 0x0402#32, 0x0502#32, 0x0602#32, 0x0003#32,
        0x0004#32, 0x0105#32, 0x0205#32, 0x0305#32, 0x0106#32, 0x0206#32, 0x0306#32, 0x0406#32, 0x0506#32, 0x0107#32,
        0x0008#32, 0x0009#32, 0x010A#32, 0x020A#32]

/-- R57, R93, R230: while one agent holds the lock no atomic step of the other reaches the port, and the lock is taken only
when it is free. -/
def Obligations.LockExcludes : Prop :=
  ∀ (s t : State) (e : Event), s.Inv → eventStep e s = .next t →
    (s.lock = .seq → e = .task → t.port = s.port) ∧ (s.lock = .ka → e = .atom → t.port = s.port)
      ∧ (e ≠ .run → t.lock ≠ s.lock → s.lock = .free ∨ t.lock = .free)

/-- R247: the atomic step that classifies a reply POSITIVE, in a KWP_EXEC or in the keep-alive task's transaction, writes
LAST_ACT_US with the clock value at that step; and nothing else but the block reset writes it. A run is made of atomic
steps (RunIsAtomic). -/
def Obligations.LastActivity : Prop :=
  (∀ (s t : State) (e : Event), eventStep e s = .next t → e ≠ .run → e ≠ .reset → t.clock.lastAct ≠ s.clock.lastAct →
      t.clock.lastAct = s.clock.now
        ∧ ((e = .atom ∧ ∃ c req u, s.op = some { code := c, pos := .got req u } ∧ decodeCode c = .ok .kwpExec
            ∧ kwpClassify (req.headD 0) u = .positive)
          ∨ (e = .task ∧ ∃ u, s.ka.phase = .tick (.got u) ∧ kwpClassify (s.ka.pdu.headD 0) u = .positive)))
    ∧ (∀ (s : State) (c : Byte) (req u : List Byte), s.op = some { code := c, pos := .got req u } →
      decodeCode c = .ok .kwpExec → kwpClassify (req.headD 0) u = .positive →
      ∃ t, eventStep .atom s = .next t ∧ t.clock = { s.clock with lastAct := s.clock.now })
    ∧ ∀ (s : State) (u : List Byte), s.ka.phase = .tick (.got u) → kwpClassify (s.ka.pdu.headD 0) u = .positive →
      ∃ t, eventStep .task s = .next t ∧ t.clock = { s.clock with lastAct := s.clock.now }

/-- R38, R282: CCP_CTR changes only in CCP_EXEC, in the atomic step after the CAN write returned, by one modulo 256; nothing
else but the block reset writes it (log 34). -/
def Obligations.CounterOnlyByCcpExec : Prop :=
  ∀ (s t : State) (e : Event), eventStep e s = .next t → e ≠ .run → e ≠ .reset → t.outs.ccpCtr ≠ s.outs.ccpCtr →
    e = .atom ∧ (∃ c req, s.op = some { code := c, pos := .tx req .capOut } ∧ decodeCode c = .ok .ccpExec)
      ∧ t.outs.ccpCtr = s.outs.ccpCtr + 1

/-- R29, R216, R240: PORT_OPEN rises only at an OPEN or KWP_INIT whose PortOpen succeeded and falls only at a CLOSE;
ENG_READY rises only at the end of a KWP_INIT, with the port open, and falls only at a CLOSE; the block reset clears
both. -/
def Obligations.EngineTransitions : Prop :=
  ∀ (s t : State) (e : Event), s.Inv → eventStep e s = .next t → e ≠ .run → e ≠ .reset →
    (t.status.portOpen ≠ s.status.portOpen →
        e = .atom ∧ ∃ o i, s.op = some o ∧ decodeCode o.code = .ok i
          ∧ ((t.status.portOpen = true ∧ (i = .openPort ∨ i = .kwpInit) ∧ s.env.openAns.head? = some true)
            ∨ (t.status.portOpen = false ∧ i = .closePort)))
      ∧ (t.status.engReady ≠ s.status.engReady →
        e = .atom ∧ ∃ o i, s.op = some o ∧ decodeCode o.code = .ok i
          ∧ ((t.status.engReady = true ∧ i = .kwpInit ∧ t.op = none ∧ t.status.err = false ∧ t.status.portOpen = true)
            ∨ (t.status.engReady = false ∧ i = .closePort)))

/-- R297, R82: no step but a host write and the block reset changes a byte of TXBUF, STARTBUF, KABUF or of the RAM that has
no block use. -/
def Obligations.CommandsUntouched : Prop :=
  ∀ s t : State, s.Inv → step s = .next t → (∀ off v rest, s.sched ≠ .host (.write off v) :: rest) →
    (∀ rest, s.sched ≠ .reset :: rest) → ∀ b : Nat, b < 0x100 ∨ 0x400 ≤ b → t.peek b = s.peek b

/-- R191, R192, R193, R194: the low and the high window of the fast-init begin at the step that changes the line level, last
at least their register's microseconds and less than 1 ms more (log 17); and the payload is written less than 1 ms after
the high window's minimum. -/
def Obligations.HoldPrecision : Prop :=
  ∀ (s t : State) (e : Event) (c : Byte) (f : List Byte) (st : Strategy) (d : Nat), s.Inv → eventStep e s = .next t →
    e ≠ .run → e ≠ .reset →
    (s.op = some { code := c, pos := .fi f (.low st) } → e = .atom →
        t.op = some { code := c, pos := .fi f (.holdLow st (s.nowUs + s.regs.tFiLow.toNat)) }
          ∧ t.port.line = (match st with | .native => .brk | .alternate => .low))
      ∧ (s.op = some { code := c, pos := .fi f (.holdLow st d) } → t.op ≠ s.op →
        t.op = some { code := c, pos := .fi f (.high st d) } ∧ d ≤ t.nowUs ∧ t.nowUs < d + 1000)
      ∧ (s.op = some { code := c, pos := .fi f (.high st d) } → e = .atom →
        s.nowUs < d + 1000
          ∧ t.op = some { code := c, pos := .fi f (.holdHigh st (s.nowUs + s.regs.tFiHigh.toNat)) }
          ∧ t.port.line = (match st with | .native => .uart | .alternate => .high))
      ∧ (s.op = some { code := c, pos := .fi f (.holdHigh st d) } → t.op ≠ s.op →
        t.op = some { code := c, pos := .fi f (match st with | .native => .send st d | .alternate => .release d) }
          ∧ d ≤ t.nowUs ∧ t.nowUs < d + 1000)
      ∧ (s.op = some { code := c, pos := .fi f (.send st d) } → t.port.log ≠ s.port.log →
        t.port.log = { agent := .seq, time := s.clock.now, call := .write f } :: s.port.log ∧ s.nowUs < d + 1000)

/-! ### The codec functions -/

/-- R101, R102, R104, R142, R153: the bytes of an encoded K-Line frame, its length, its checksum, and the boundary between
the forms: 126 bytes give counter 0xFE, 127 bytes give counter 0x80 and length byte 127. -/
def Obligations.KlEncodeForms : Prop :=
  ∀ (hdr : BitVec 16) (d : List Byte), 1 ≤ d.length → d.length ≤ 255 →
    klFrameOk (klEncode hdr d) = true
      ∧ (d.length < 127 → ∃ cs, klEncode hdr d =
          [BitVec.ofNat 8 (0x80 + d.length), hdr.extractLsb' 8 8, hdr.extractLsb' 0 8] ++ d ++ [cs])
      ∧ (127 ≤ d.length → ∃ cs, klEncode hdr d =
          [0x80, hdr.extractLsb' 8 8, hdr.extractLsb' 0 8, BitVec.ofNat 8 d.length] ++ d ++ [cs])
      ∧ (klEncode hdr d).getLast? = some (BitVec.ofNat 8 (byteSum (klEncode hdr d).dropLast))
      ∧ (klEncode hdr d).length = (if d.length < 127 then d.length + 4 else d.length + 5)
      ∧ (d.length = 126 → (klEncode hdr d)[0]? = some 0xFE)
      ∧ (d.length = 127 → (klEncode hdr d)[0]? = some 0x80 ∧ (klEncode hdr d)[3]? = some 0x7F)

/-- R152: decoding an encoded frame returns its PDU and the frame itself, for every header id, every PDU of 1 to 255 bytes,
either verify value, and whatever follows; the last byte is the sum of all earlier ones modulo 256. -/
def Obligations.KlineRoundTrip : Prop :=
  ∀ (short : Err) (hdr : BitVec 16) (verify : Bool) (d rest : List Byte), 1 ≤ d.length → d.length ≤ 255 →
    klDecode short hdr verify (klEncode hdr d ++ rest) = .ok (d, klEncode hdr d)
      ∧ (klEncode hdr d).getLast? = some (BitVec.ofNat 8 (byteSum (klEncode hdr d).dropLast))

/-- R103, R146, R147, R149, R154: every whole frame with the expected id decodes to its n PDU bytes, the forms the encoder
never emits included, and with verify = 0 whatever its checksum byte is; every whole frame with another id is dropped,
unverified even with verify = 1, and decoding starts over with the next byte, without limit. -/
def Obligations.KlDecodeFrames : Prop :=
  ∀ (short : Err) (hdr : BitVec 16) (verify : Bool) (head d rest : List Byte) (cs : Byte), klHeadFor head d.length →
    (headId head = hdr.toNat → (verify = true → cs = BitVec.ofNat 8 (byteSum (head ++ d))) →
        klDecode short hdr verify (head ++ d ++ [cs] ++ rest) = .ok (d, head ++ d ++ [cs]))
      ∧ (headId head ≠ hdr.toNat → klDecode short hdr verify (head ++ d ++ [cs] ++ rest) = klDecode short hdr verify rest)

/-- R148, R150, R151: a counter byte below 0x80 and a zero long-form length are refused as soon as they are read, whatever
follows and whatever the id; a frame with the expected id and a wrong checksum is refused with verify = 1; and every proper
part of a frame is a short read, never malformed data. -/
def Obligations.KlDecodeRefuses : Prop :=
  ∀ (short : Err) (hdr : BitVec 16) (verify : Bool) (rest : List Byte),
    (∀ c : Byte, c.toNat < 0x80 → klDecode short hdr verify (c :: rest) = .error (.violation .badFormat c))
      ∧ (∀ i0 i1 : Byte, klDecode short hdr verify (0x80 :: i0 :: i1 :: 0x00 :: rest) = .error (.violation .badFormat 0x80))
      ∧ ∀ (head d : List Byte) (cs : Byte), klHeadFor head d.length →
        (headId head = hdr.toNat → cs ≠ BitVec.ofNat 8 (byteSum (head ++ d)) →
            klDecode short hdr true (head ++ d ++ [cs] ++ rest)
              = .error (.checksum cs (BitVec.ofNat 8 (byteSum (head ++ d)))))
          ∧ ∀ k : Nat, k < (head ++ d ++ [cs]).length →
            klDecode short hdr verify ((head ++ d ++ [cs]).take k) = .error short

/-- R241, R268, R301: the classification of a reply, as integers and with the positive test first: for sid 0xC0 and above
nothing is positive, for sid 0x3F the status 0x7F is. -/
def Obligations.Classification : Prop :=
  ∀ (sid : Byte) (u : List Byte) (st : Byte), u.head? = some st →
    (st.toNat = sid.toNat + 0x40 → kwpClassify sid u = .positive)
      ∧ (st.toNat ≠ sid.toNat + 0x40 → st = 0x7F → u.length < 3 →
        kwpClassify sid u = .error (.violation .malformedNeg 0x7F))
      ∧ (st.toNat ≠ sid.toNat + 0x40 → st = 0x7F → ∀ b1 b2 : Byte, u[1]? = some b1 → u[2]? = some b2 →
        kwpClassify sid u = (if b2 = 0x78 then .pending else .error (.negativeKwp b2 b1)))
      ∧ (st.toNat ≠ sid.toNat + 0x40 → st ≠ 0x7F → kwpClassify sid u = .error (.violation .unexpectedStatus st))
      ∧ (0xC0 ≤ sid.toNat → kwpClassify sid u ≠ .positive)

/-- R303: the category of a CCP return code is one of 0, 1, 2, 3, 4, 7, and the two points the source fixes are as it says;
elsewhere it is a free value (log 9). -/
def Obligations.CategoryBounds : Prop :=
  (∀ rc : Byte, (ccpCategory rc).toNat ∈ [0, 1, 2, 3, 4, 7]) ∧ ccpCategory 0x00 = 0 ∧ ccpCategory 0x33 = 4

/-- R218, R221, R236: CapPush keeps nothing while DISABLE = 1 and otherwise keeps at most CAPACITY records, the oldest
leaving first; pushing N units into an empty buffer of capacity 0 < k < N leaves exactly the last k in their order, and
CAP_DUMP then leaves CAP_LIVE empty. -/
def Obligations.CaptureBound : Prop :=
  (∀ (s : State) (d : Dir) (bs : List Byte),
      (s.regs.capCfg.getLsbD 31 = true → capPush d bs s = s)
        ∧ (s.regs.capCfg.getLsbD 31 = false →
          (capPush d bs s).cap = { live := pushed s.regs.capCfg s.clock.now d bs s.cap.live, dumped := s.cap.dumped }
            ∧ (capPush d bs s).outs.capCount = BitVec.ofNat 32 (capPush d bs s).cap.live.length
            ∧ (0 < (s.regs.capCfg.extractLsb' 0 31).toNat →
              (capPush d bs s).cap.live.length ≤ (s.regs.capCfg.extractLsb' 0 31).toNat)))
    ∧ ∀ (s : State) (us : List (Dir × List Byte)) (k : Nat), s.cap.live = [] → s.regs.capCfg.getLsbD 31 = false →
      (s.regs.capCfg.extractLsb' 0 31).toNat = k → 0 < k → k < us.length →
      (us.foldl (fun s u => capPush u.1 u.2 s) s).cap.live =
          (us.map fun u => { dir := u.1, bytes := u.2, ts := s.clock.now / 1000 }).drop (us.length - k)
        ∧ (us.foldl (fun s u => capPush u.1 u.2 s) s).outs.capCount = BitVec.ofNat 32 k
        ∧ (dumpCapture (us.foldl (fun s u => capPush u.1 u.2 s) s)).cap.live = []

/-! ### The codec operations -/

/-- R143: KL_ENC writes the encoded frame of TXBUF to FRMBUF and its length to FRMLEN, and ends; with TXLEN outside 1..255
it only raises ARGUMENT(KL_LEN). -/
def Obligations.KlEncCompletes : Prop :=
  ∀ s : State, Started .klEnc s →
    (1 ≤ s.regs.txLen.toNat → s.regs.txLen.toNat ≤ 255 →
        ∃ f t, f = klEncode s.regs.klTxHdr (s.memRead 0x000 s.regs.txLen.toNat) ∧ exec .klEnc s = .next t
          ∧ EndsAs s.status.ended s t ∧ NoTraffic s t ∧ t.cap = s.cap
          ∧ t.outs = { s.outs with frmLen := BitVec.ofNat 10 f.length }
          ∧ HoldsAt t 0x200 f ∧ SameOutside s t 0x200 f.length)
      ∧ (s.regs.txLen.toNat = 0 ∨ 255 < s.regs.txLen.toNat →
        ∃ t, exec .klEnc s = .next t ∧ RaisedOnly (.argument .klLen (s.regs.txLen.extractLsb' 0 8)) s t)

/-- R155: KL_PARSE decodes FRMBUF[0..FRMLEN) into RXBUF, RXLEN and RESP_STATUS, and ends; an error of the decoding, or
FRMLEN over 512, leaves every output as it was. -/
def Obligations.KlParseCompletes : Prop :=
  ∀ s : State, Started .klParse s →
    (512 < s.outs.frmLen.toNat →
        ∃ t, exec .klParse s = .next t ∧ RaisedOnly (.argument .frameLen (s.outs.frmLen.extractLsb' 0 8)) s t)
      ∧ (s.outs.frmLen.toNat ≤ 512 →
        (∀ d f, klDecode (.timeout .klParse 0) s.regs.klRxHdr s.regs.ctrl.klChkVerify
              (s.memRead 0x200 s.outs.frmLen.toNat) = .ok (d, f) →
            ∃ t, exec .klParse s = .next t ∧ EndsAs s.status.ended s t ∧ NoTraffic s t ∧ t.cap = s.cap
              ∧ t.outs = { s.outs with rxLen := BitVec.ofNat 9 d.length, respStatus := d.headD 0 }
              ∧ HoldsAt t 0x100 d ∧ SameOutside s t 0x100 d.length)
          ∧ ∀ e, klDecode (.timeout .klParse 0) s.regs.klRxHdr s.regs.ctrl.klChkVerify
              (s.memRead 0x200 s.outs.frmLen.toNat) = .error e →
            ∃ t, exec .klParse s = .next t ∧ RaisedOnly e s t)

/-- R143, R152, R155: KL_ENC, then a CMD write of KL_PARSE with KL_RX_HDR equal to KL_TX_HDR, gives back in RXBUF the PDU of
TXBUF, without error and with either value of KL_CHK_VERIFY. -/
def Obligations.KlEncThenParse : Prop :=
  ∀ s : State, Started .klEnc s → 1 ≤ s.regs.txLen.toNat → s.regs.txLen.toNat ≤ 255 → s.regs.klRxHdr = s.regs.klTxHdr →
    ∃ t u, exec .klEnc s = .next t ∧ exec .klParse (hostStep (.write 0x000 0x00000011) t) = .next u
      ∧ u.status.err = false ∧ u.status.done = true ∧ u.op = none
      ∧ u.outs.rxLen = s.regs.txLen ∧ u.memRead 0x100 s.regs.txLen.toNat = s.memRead 0x000 s.regs.txLen.toNat
      ∧ u.outs.respStatus = s.peek 0x000

/-- R170, R171: CRO_ENC writes the 8-byte CRO of the command in TXBUF with the current counter to FRMBUF, FRMLEN = 8, and
ends, the counter unchanged; with TXLEN outside 1..7 it only raises ARGUMENT(CCP_LEN). -/
def Obligations.CroEncCompletes : Prop :=
  ∀ s : State, Started .croEnc s →
    (1 ≤ s.regs.txLen.toNat → s.regs.txLen.toNat ≤ 7 →
        ∃ f t, f = [s.peek 0x000, s.outs.ccpCtr] ++ s.memRead 0x001 (s.regs.txLen.toNat - 1)
            ++ List.replicate (7 - s.regs.txLen.toNat) 0x00
          ∧ exec .croEnc s = .next t
          ∧ EndsAs s.status.ended s t ∧ NoTraffic s t ∧ t.cap = s.cap
          ∧ t.outs = { s.outs with frmLen := 8 } ∧ HoldsAt t 0x200 f ∧ SameOutside s t 0x200 8)
      ∧ (s.regs.txLen.toNat = 0 ∨ 7 < s.regs.txLen.toNat →
        ∃ t, exec .croEnc s = .next t ∧ RaisedOnly (.argument .ccpLen (s.regs.txLen.extractLsb' 0 8)) s t)

/-- R175, R176, R177: DTO_DEC writes the Response of the DTO in FRMBUF, RXLEN = 6, RESP_STATUS and DTO_INFO, and ends,
whatever the packet id, the counter and the return code; FRMLEN below 8 only raises TIMEOUT(DTO_SHORT), above 8 only
ARGUMENT(FRAME_LEN). -/
def Obligations.DtoDecCompletes : Prop :=
  ∀ s : State, Started .dtoDec s →
    (s.outs.frmLen = 8 →
        ∃ t, exec .dtoDec s = .next t ∧ EndsAs s.status.ended s t ∧ NoTraffic s t ∧ t.cap = s.cap
          ∧ t.outs = { s.outs with
              rxLen := 6, respStatus := s.peek 0x201
              dtoInfo := BitVec.ofNat 16 ((s.peek 0x202).toNat * 256 + (s.peek 0x200).toNat) }
          ∧ HoldsAt t 0x100 [s.peek 0x201, s.peek 0x203, s.peek 0x204, s.peek 0x205, s.peek 0x206, s.peek 0x207]
          ∧ SameOutside s t 0x100 6)
      ∧ (s.outs.frmLen.toNat < 8 →
        ∃ t, exec .dtoDec s = .next t ∧ RaisedOnly (.timeout .dtoShort (s.outs.frmLen.extractLsb' 0 8)) s t)
      ∧ (8 < s.outs.frmLen.toNat →
        ∃ t, exec .dtoDec s = .next t ∧ RaisedOnly (.argument .frameLen (s.outs.frmLen.extractLsb' 0 8)) s t)

/-! ### Port and capture control -/

/-- R96, R236: CAP_DUMP moves the live capture buffer to the dump area and clears it, with the counts and CAPD_SEL, and ends,
in one atomic step of the sequencer; the lock is neither taken nor needed. -/
def Obligations.CapDumpCompletes : Prop :=
  ∀ s : State, Started .capDump s →
    ∃ t, eventStep .atom s = .next t ∧ exec .capDump s = .next t ∧ t.status = s.status.ended ∧ t.op = none
      ∧ SameOwn s t ∧ NoTraffic s t ∧ SameRam s t
      ∧ t.regs = { s.regs with capdSel := 0 } ∧ t.cap = { live := [], dumped := s.cap.live }
      ∧ t.outs = { s.outs with capCount := 0, capdCount := BitVec.ofNat 32 s.cap.live.length }

/-- R225: OPEN on an open port ends with no effect; on a closed port it performs PortOpen, and on success PortSetTimeout and,
on CAN, the one filter entry, and ends; on failure it raises OPENING_PORT, with no second attempt. The last clause is the
model's choice (log 3): until the environment answers PortOpen the sequencer has no step, and OPEN waits. -/
def Obligations.OpenCompletes : Prop :=
  ∀ s : State, Started .openPort s → s.lock ≠ .seq →
    (s.status.portOpen = true →
        ∃ t, exec .openPort s = .next t ∧ EndsAs s.status.ended s t ∧ NoTraffic s t ∧ SameRam s t ∧ t.outs = s.outs
          ∧ t.cap = s.cap)
      ∧ (s.status.portOpen = false → ∀ (ok : Bool) (rest : List Bool), s.env.openAns = ok :: rest →
        ∃ t, exec .openPort s = .next t
          ∧ EndsAs (if ok then { s.status.ended with portOpen := true } else s.status.failed) s t
          ∧ SameRam s t ∧ t.cap = s.cap ∧ t.clock = s.clock ∧ t.ka = s.ka ∧ t.env = { s.env with openAns := rest }
          ∧ t.outs = (if ok then s.outs
              else { s.outs with errCode := Err.openingPort.codeWord, errInfo := Err.openingPort.infoWord })
          ∧ t.port =
            { timeout := if ok then s.regs.tRxTimeout else s.port.timeout
              line := s.port.line
              log := madeCalls s.clock.now
                (if ok then
                  [.openPort, .setTimeout s.regs.tRxTimeout]
                    ++ (if s.regs.ctrl.proto = .kwpKline then [] else [.setFilters [(s.regs.canRxId, s.regs.canRxMask)]])
                else [.openPort]) s.port.log })
      ∧ (s.status.portOpen = false → s.env.openAns = [] → exec .openPort s = .next s)

/-- R255, R264: CLOSE with no keep-alive task releases the port if it is open, makes the engine Uninitialized and ends; a
task in its wait is stopped first (KA_EXIT = STOPPED); while a task is inside a transaction that cannot go on, CLOSE waits,
BUSY, with the stop request made and the port untouched. -/
def Obligations.CloseCompletes : Prop :=
  ∀ s : State, Started .closePort s →
    (s.ka.phase = .off →
        ∃ t, exec .closePort s = .next t
          ∧ EndsAs { s.status.ended with portOpen := false, engReady := false } s t
          ∧ SameRam s t ∧ t.outs = s.outs ∧ t.cap = s.cap ∧ t.clock = s.clock ∧ t.ka = s.ka ∧ t.env = s.env
          ∧ t.port = { s.port with
              log := madeCalls s.clock.now (if s.status.portOpen then [.closePort] else []) s.port.log })
      ∧ (∀ d : Nat, s.ka.phase = .wait d →
        ∃ t, exec .closePort s = .next t
          ∧ EndsAs { s.status.ended with
              portOpen := false, engReady := false, kaRun := false, kaActive := false, kaExit := .stopped } s t
          ∧ SameRam s t ∧ t.outs = s.outs ∧ t.cap = s.cap ∧ t.clock = s.clock ∧ t.env = s.env
          ∧ t.ka = { phase := .off, stopReq := false, pdu := s.ka.pdu }
          ∧ t.port = { s.port with
              log := madeCalls s.clock.now (if s.status.portOpen then [.closePort] else []) s.port.log })
      ∧ (∀ p : TxPos, s.ka.phase = .tick (.tx p) → kaStep s = none →
        exec .closePort s = .next { s with
          ka := { s.ka with stopReq := true }, op := some { code := opcode .closePort, pos := .stopped } })

/-! ### Fast-init -/

/-- R193, R195 to R201: FI_SEQ when some byte answers the native strategy: the waveform by PortBreak, the payload by one
PortWrite, single-byte reads into FRMBUF until the limit or a silence, FI_RESULT = NATIVE, the steady timeout back, and the
end. The clock readings that end the two holds are within the precision of R191 (log 17). -/
def Obligations.FiSeqNative : Prop :=
  ∀ (s : State) (c1 c2 : Time) (cs : List Time) (n : Int) (ws : List Int) (bs : List Byte) (line : List LineItem),
    Started .fiSeq s → s.regs.ctrl.proto = .kwpKline → s.status.portOpen = true → s.lock = .free →
    1 ≤ s.regs.startLen.toNat → s.regs.startLen.toNat ≤ 255 →
    Held s.regs.tFiLow s.clock.now c1 → Held s.regs.tFiHigh c1 c2 →
    s.env.clockIn = holdReads s.regs.tFiLow c1 ++ (holdReads s.regs.tFiHigh c2 ++ cs) → s.env.writeAns = n :: ws →
    1 ≤ bs.length → bs.length ≤ s.regs.fiReadMax.toNat →
    s.env.lineIn = windowItems s.regs.fiReadMax.toNat bs ++ line →
    ∃ f t, f = klEncode s.regs.klTxHdr (s.memRead 0x400 s.regs.startLen.toNat) ∧ exec .fiSeq s = .next t
      ∧ EndsAs { s.status.ended with fiResult := .native } s t
      ∧ HoldsAt t 0x200 bs ∧ SameOutside s t 0x200 bs.length
      ∧ t.outs = { s.outs with frmLen := BitVec.ofNat 10 bs.length, txWritten := BitVec.ofInt 16 n }
      ∧ t.cap = s.cap ∧ t.ka = s.ka ∧ t.clock = { s.clock with now := c2 }
      ∧ t.env = { s.env with clockIn := cs, writeAns := ws, lineIn := line }
      ∧ t.port =
        { timeout := s.regs.tRxTimeout
          line := .uart
          log := madeCalls c2
            ([.write f] ++ List.replicate (windowItems s.regs.fiReadMax.toNat bs).length (.read 1)
              ++ [.setTimeout s.regs.tRxTimeout])
            (madeCalls c1 [.brk false]
              (madeCalls s.clock.now [.setTimeout s.regs.tFiTimeout, .brk true] s.port.log)) }

/-- R194, R197, R198, R199 to R201: FI_SEQ when no byte answers the native strategy: the alternate strategy runs at once by
LineSet, with its own holds, payload and response window; if bytes answer it FI_RESULT = ALTERNATE and the operation ends
without error, and if none does FI_RESULT = NO_RESPONSE and it raises TIMEOUT(FI). With FI_READ_MAX = 0 no read is
performed. Two points are the model's choice: LineSet(RELEASE) between the high window and the payload (log 18, DESIGN
CHOICE: R194 has it, R192 wants nothing there), and clock readings that end the holds within the precision of R191 (log 17,
DEDUCED). -/
def Obligations.FiSeqFallback : Prop :=
  ∀ (s : State) (c1 c2 c3 c4 : Time) (cs : List Time) (n1 n2 : Int) (ws : List Int) (bs : List Byte)
    (line : List LineItem),
    Started .fiSeq s → s.regs.ctrl.proto = .kwpKline → s.status.portOpen = true → s.lock = .free →
    1 ≤ s.regs.startLen.toNat → s.regs.startLen.toNat ≤ 255 →
    Held s.regs.tFiLow s.clock.now c1 → Held s.regs.tFiHigh c1 c2 →
    Held s.regs.tFiLow c2 c3 → Held s.regs.tFiHigh c3 c4 →
    s.env.clockIn = holdReads s.regs.tFiLow c1 ++ (holdReads s.regs.tFiHigh c2
      ++ (holdReads s.regs.tFiLow c3 ++ (holdReads s.regs.tFiHigh c4 ++ cs))) →
    s.env.writeAns = n1 :: n2 :: ws → bs.length ≤ s.regs.fiReadMax.toNat →
    s.env.lineIn = windowItems s.regs.fiReadMax.toNat [] ++ (windowItems s.regs.fiReadMax.toNat bs ++ line) →
    ∃ f t, f = klEncode s.regs.klTxHdr (s.memRead 0x400 s.regs.startLen.toNat) ∧ exec .fiSeq s = .next t
      ∧ EndsAs (if bs = [] then { s.status.failed with fiResult := .noResponse }
          else { s.status.ended with fiResult := .alternate }) s t
      ∧ HoldsAt t 0x200 bs ∧ SameOutside s t 0x200 bs.length
      ∧ t.outs = { s.outs with
          frmLen := BitVec.ofNat 10 bs.length, txWritten := BitVec.ofInt 16 n2
          errCode := if bs = [] then (Err.timeout .fi 0).codeWord else s.outs.errCode
          errInfo := if bs = [] then (Err.timeout .fi 0).infoWord else s.outs.errInfo }
      ∧ t.cap = s.cap ∧ t.ka = s.ka ∧ t.clock = { s.clock with now := c4 }
      ∧ t.env = { s.env with clockIn := cs, writeAns := ws, lineIn := line }
      ∧ t.port =
        { timeout := s.regs.tRxTimeout
          line := .uart
          log := madeCalls c4
            ([.lineSet .release, .write f] ++ List.replicate (windowItems s.regs.fiReadMax.toNat bs).length (.read 1)
              ++ [.setTimeout s.regs.tRxTimeout])
            (madeCalls c3 [.lineSet .high]
              (madeCalls c2
                ([.write f] ++ List.replicate (windowItems s.regs.fiReadMax.toNat []).length (.read 1)
                  ++ [.lineSet .low])
                (madeCalls c1 [.brk false]
                  (madeCalls s.clock.now [.setTimeout s.regs.tFiTimeout, .brk true] s.port.log)))) }

/-! ### The transport operations -/

/-- R220, R222, R226, R229: TP_SEND under each PROTO, the port open and the lock free: the unit it sends, its outputs, its
one OUT record, and the end. Under PROTO 0 the environment answers the PortWrite; on CAN the unit goes out under CAN_TX_ID
(R36; that IsoTpSend takes it as an argument is log 36, DEDUCED). -/
def Obligations.TpSendCompletes : Prop :=
  ∀ s : State, Started .tpSend s → s.status.portOpen = true → s.lock = .free →
    (s.regs.ctrl.proto = .kwpKline → 1 ≤ s.regs.txLen.toNat → s.regs.txLen.toNat ≤ 255 →
        ∀ (n : Int) (ws : List Int), s.env.writeAns = n :: ws →
        ∃ p f live t, p = s.memRead 0x000 s.regs.txLen.toNat ∧ f = klEncode s.regs.klTxHdr p
          ∧ live = pushed s.regs.capCfg s.clock.now .outgoing p s.cap.live ∧ exec .tpSend s = .next t
          ∧ EndsAs s.status.ended s t ∧ HoldsAt t 0x200 f ∧ SameOutside s t 0x200 f.length
          ∧ t.outs = { s.outs with
              frmLen := BitVec.ofNat 10 f.length, txWritten := BitVec.ofInt 16 n, capCount := countOf s live }
          ∧ t.cap = { s.cap with live := live } ∧ t.clock = s.clock ∧ t.ka = s.ka
          ∧ t.env = { s.env with writeAns := ws }
          ∧ t.port = { s.port with log := madeCalls s.clock.now [.write f] s.port.log })
      ∧ (s.regs.ctrl.proto = .kwpCan → 1 ≤ s.regs.txLen.toNat → s.regs.txLen.toNat ≤ 255 →
        ∃ p live t, p = s.memRead 0x000 s.regs.txLen.toNat
          ∧ live = pushed s.regs.capCfg s.clock.now .outgoing p s.cap.live ∧ exec .tpSend s = .next t
          ∧ EndsAs s.status.ended s t ∧ SameRam s t ∧ t.outs = { s.outs with capCount := countOf s live }
          ∧ t.cap = { s.cap with live := live } ∧ t.clock = s.clock ∧ t.ka = s.ka ∧ t.env = s.env
          ∧ t.port = { s.port with log := madeCalls s.clock.now [.isoTpSend s.regs.canTxId p] s.port.log })
      ∧ (s.regs.ctrl.proto = .ccpCan → s.outs.frmLen = 8 →
        ∃ p live t, p = s.memRead 0x200 8
          ∧ live = pushed s.regs.capCfg s.clock.now .outgoing p s.cap.live ∧ exec .tpSend s = .next t
          ∧ EndsAs s.status.ended s t ∧ SameRam s t
          ∧ t.outs = { s.outs with txWritten := 8, capCount := countOf s live }
          ∧ t.cap = { s.cap with live := live } ∧ t.clock = s.clock ∧ t.ka = s.ka ∧ t.env = s.env
          ∧ t.port = { s.port with log := madeCalls s.clock.now [.canWrite s.regs.canTxId p] s.port.log })

/-- R144, R156, R217, R223, R224, R227: TP_RECV over the K-Line decodes the bytes the line delivers exactly as KlDecode
decodes them as a string: what `klDecode` accepts is captured and lands in FRMBUF and RXBUF, the bytes after the accepted
frame stay on the line; what it refuses is the error reported, with no output and no record. A short read is a silence on
the line (log 4). -/
def Obligations.TpRecvDecodesKline : Prop :=
  ∀ (s : State) (bs : List Byte) (tail : List LineItem), Started .tpRecv s → s.status.portOpen = true →
    s.lock = .free → s.regs.ctrl.proto = .kwpKline → s.env.lineIn = bs.map .byte ++ tail →
    (∀ d f, klDecode (.timeout .klRx 0) s.regs.klRxHdr s.regs.ctrl.klChkVerify bs = .ok (d, f) →
        ∃ t pre post calls live, exec .tpRecv s = .next t ∧ bs = pre ++ f ++ post ∧ (∀ c ∈ calls, ∃ n, c = .read n)
          ∧ live = pushed s.regs.capCfg s.clock.now .incoming d s.cap.live
          ∧ EndsAs s.status.ended s t ∧ HoldsAt t 0x200 f ∧ HoldsAt t 0x100 d
          ∧ SameOutside2 s t 0x200 f.length 0x100 d.length
          ∧ t.outs = { s.outs with
              frmLen := BitVec.ofNat 10 f.length, rxLen := BitVec.ofNat 9 d.length, respStatus := d.headD 0
              capCount := countOf s live }
          ∧ t.cap = { s.cap with live := live } ∧ t.clock = s.clock ∧ t.ka = s.ka
          ∧ t.env = { s.env with lineIn := post.map .byte ++ tail }
          ∧ t.port =
            { timeout := s.regs.tRxTimeout, line := s.port.line
              log := madeCalls s.clock.now (syncCalls s ++ calls) s.port.log })
      ∧ ∀ e, klDecode (.timeout .klRx 0) s.regs.klRxHdr s.regs.ctrl.klChkVerify bs = .error e →
        (e = .timeout .klRx 0 → tail.head? = some .gap) →
        ∃ t calls rest, exec .tpRecv s = .next t ∧ (∀ c ∈ calls, ∃ n, c = .read n) ∧ rest <:+ s.env.lineIn
          ∧ EndsAs s.status.failed s t ∧ SameRam s t
          ∧ t.outs = { s.outs with errCode := e.codeWord, errInfo := e.infoWord }
          ∧ t.cap = s.cap ∧ t.clock = s.clock ∧ t.ka = s.ka ∧ t.env = { s.env with lineIn := rest }
          ∧ t.port =
            { timeout := s.regs.tRxTimeout, line := s.port.line
              log := madeCalls s.clock.now (syncCalls s ++ calls) s.port.log }

/-- R88, R217, R223, R227: TP_RECV over CAN. Under PROTO 1 the PDU of the ISO-TP service lands in RXBUF; a timeout, an empty
PDU and one over 255 bytes are errors. Under PROTO 2 the 8-byte frame lands in FRMBUF and RXBUF is untouched; a timeout and
a frame of fewer than 8 bytes are errors. -/
def Obligations.TpRecvCan : Prop :=
  ∀ s : State, Started .tpRecv s → s.status.portOpen = true → s.lock = .free →
    (s.regs.ctrl.proto = .kwpCan → ∀ (u : List Byte) (rest : List RxItem), s.env.isoIn = .data u :: rest →
        1 ≤ u.length → u.length ≤ 255 →
        ∃ t live, exec .tpRecv s = .next t ∧ live = pushed s.regs.capCfg s.clock.now .incoming u s.cap.live
          ∧ EndsAs s.status.ended s t ∧ HoldsAt t 0x100 u ∧ SameOutside s t 0x100 u.length
          ∧ t.outs = { s.outs with
              rxLen := BitVec.ofNat 9 u.length, respStatus := u.headD 0, capCount := countOf s live }
          ∧ t.cap = { s.cap with live := live } ∧ t.clock = s.clock ∧ t.ka = s.ka
          ∧ t.env = { s.env with isoIn := rest }
          ∧ t.port =
            { timeout := s.regs.tRxTimeout, line := s.port.line
              log := madeCalls s.clock.now (syncCalls s ++ [.isoTpRecv]) s.port.log })
      ∧ (s.regs.ctrl.proto = .ccpCan → ∀ (u : List Byte) (rest : List RxItem), s.env.canIn = .data u :: rest →
        u.length = 8 →
        ∃ t live, exec .tpRecv s = .next t ∧ live = pushed s.regs.capCfg s.clock.now .incoming u s.cap.live
          ∧ EndsAs s.status.ended s t ∧ HoldsAt t 0x200 u ∧ SameOutside s t 0x200 8
          ∧ t.outs = { s.outs with frmLen := 8, capCount := countOf s live }
          ∧ t.cap = { s.cap with live := live } ∧ t.clock = s.clock ∧ t.ka = s.ka
          ∧ t.env = { s.env with canIn := rest }
          ∧ t.port =
            { timeout := s.regs.tRxTimeout, line := s.port.line
              log := madeCalls s.clock.now (syncCalls s ++ [.canRead]) s.port.log })
      ∧ ∀ (e : Err) (call : PortCall) (env : Env),
        ((s.regs.ctrl.proto = .kwpCan ∧ call = .isoTpRecv ∧ ∃ x rest, s.env.isoIn = x :: rest
            ∧ env = { s.env with isoIn := rest }
            ∧ (x = .timeout ∧ e = .timeout .isotpRx 0
              ∨ ∃ u, x = .data u ∧ (u.length = 0 ∨ 255 < u.length) ∧ e = .violation .badFormat 0))
          ∨ (s.regs.ctrl.proto = .ccpCan ∧ call = .canRead ∧ ∃ x rest, s.env.canIn = x :: rest
            ∧ env = { s.env with canIn := rest }
            ∧ (x = .timeout ∧ e = .timeout .canRx 0
              ∨ ∃ u, x = .data u ∧ u.length < 8 ∧ e = .timeout .canRx (BitVec.ofNat 8 u.length)))) →
        ∃ t, exec .tpRecv s = .next t ∧ EndsAs s.status.failed s t ∧ SameRam s t
          ∧ t.outs = { s.outs with errCode := e.codeWord, errInfo := e.infoWord }
          ∧ t.cap = s.cap ∧ t.clock = s.clock ∧ t.ka = s.ka ∧ t.env = env
          ∧ t.port =
            { timeout := s.regs.tRxTimeout, line := s.port.line
              log := madeCalls s.clock.now (syncCalls s ++ [call]) s.port.log }

/-- R228: TP_SR sends and receives: over the K-Line FRMBUF ends with the received frame and RXBUF with its PDU; over ISO-TP
RXBUF ends with the PDU; with CCP frames FRMBUF ends with the received frame; one OUT and one IN record each. A receive that
fails is the error reported and leaves the send's effects in place, under every PROTO. The last clauses say that this is one
holding of the lock: it is taken where the send comes next, and from there no step of any agent gives it up until the unit
is received or the error is reported. -/
def Obligations.TpSrCompletes : Prop :=
  (∀ s : State, Started .tpSr s → s.status.portOpen = true → s.lock = .free →
      (s.regs.ctrl.proto = .kwpKline → 1 ≤ s.regs.txLen.toNat → s.regs.txLen.toNat ≤ 255 →
        ∀ (n : Int) (ws : List Int) (d : List Byte) (line : List LineItem), s.env.writeAns = n :: ws →
        1 ≤ d.length → d.length ≤ 255 → s.env.lineIn = (klEncode s.regs.klRxHdr d).map .byte ++ line →
        ∃ p f g live t, p = s.memRead 0x000 s.regs.txLen.toNat ∧ f = klEncode s.regs.klTxHdr p
          ∧ g = klEncode s.regs.klRxHdr d
          ∧ live = pushedAll s.regs.capCfg s.clock.now [(.outgoing, p), (.incoming, d)] s.cap.live
          ∧ exec .tpSr s = .next t ∧ EndsAs s.status.ended s t ∧ HoldsAt t 0x200 g ∧ HoldsAt t 0x100 d
          ∧ SameOutside2 s t 0x200 (max f.length g.length) 0x100 d.length
          ∧ t.outs = { s.outs with
              frmLen := BitVec.ofNat 10 g.length, txWritten := BitVec.ofInt 16 n, rxLen := BitVec.ofNat 9 d.length
              respStatus := d.headD 0, capCount := countOf s live }
          ∧ t.cap = { s.cap with live := live } ∧ t.clock = s.clock ∧ t.ka = s.ka
          ∧ t.env = { s.env with writeAns := ws, lineIn := line }
          ∧ t.port =
            { timeout := s.regs.tRxTimeout, line := s.port.line
              log := madeCalls s.clock.now ([.write f] ++ syncCalls s ++ frameReads d.length) s.port.log })
      ∧ (s.regs.ctrl.proto = .kwpCan → 1 ≤ s.regs.txLen.toNat → s.regs.txLen.toNat ≤ 255 →
        ∀ (d : List Byte) (rest : List RxItem), s.env.isoIn = .data d :: rest → 1 ≤ d.length → d.length ≤ 255 →
        ∃ p live t, p = s.memRead 0x000 s.regs.txLen.toNat
          ∧ live = pushedAll s.regs.capCfg s.clock.now [(.outgoing, p), (.incoming, d)] s.cap.live
          ∧ exec .tpSr s = .next t ∧ EndsAs s.status.ended s t ∧ HoldsAt t 0x100 d ∧ SameOutside s t 0x100 d.length
          ∧ t.outs = { s.outs with
              rxLen := BitVec.ofNat 9 d.length, respStatus := d.headD 0, capCount := countOf s live }
          ∧ t.cap = { s.cap with live := live } ∧ t.clock = s.clock ∧ t.ka = s.ka
          ∧ t.env = { s.env with isoIn := rest }
          ∧ t.port =
            { timeout := s.regs.tRxTimeout, line := s.port.line
              log := madeCalls s.clock.now ([.isoTpSend s.regs.canTxId p] ++ syncCalls s ++ [.isoTpRecv]) s.port.log })
      ∧ (s.regs.ctrl.proto = .ccpCan → s.outs.frmLen = 8 →
        ∀ (d : List Byte) (rest : List RxItem), s.env.canIn = .data d :: rest → d.length = 8 →
        ∃ p live t, p = s.memRead 0x200 8
          ∧ live = pushedAll s.regs.capCfg s.clock.now [(.outgoing, p), (.incoming, d)] s.cap.live
          ∧ exec .tpSr s = .next t ∧ EndsAs s.status.ended s t ∧ HoldsAt t 0x200 d ∧ SameOutside s t 0x200 8
          ∧ t.outs = { s.outs with txWritten := 8, capCount := countOf s live }
          ∧ t.cap = { s.cap with live := live } ∧ t.clock = s.clock ∧ t.ka = s.ka
          ∧ t.env = { s.env with canIn := rest }
          ∧ t.port =
            { timeout := s.regs.tRxTimeout, line := s.port.line
              log := madeCalls s.clock.now ([.canWrite s.regs.canTxId p] ++ syncCalls s ++ [.canRead]) s.port.log })
      ∧ (s.regs.ctrl.proto = .kwpKline → 1 ≤ s.regs.txLen.toNat → s.regs.txLen.toNat ≤ 255 →
        ∀ (n : Int) (ws : List Int) (bs : List Byte) (tail : List LineItem) (e : Err), s.env.writeAns = n :: ws →
        s.env.lineIn = bs.map .byte ++ tail →
        klDecode (.timeout .klRx 0) s.regs.klRxHdr s.regs.ctrl.klChkVerify bs = .error e →
        (e = .timeout .klRx 0 → tail.head? = some .gap) →
        ∃ p f live t calls rest, p = s.memRead 0x000 s.regs.txLen.toNat ∧ f = klEncode s.regs.klTxHdr p
          ∧ live = pushed s.regs.capCfg s.clock.now .outgoing p s.cap.live ∧ (∀ c ∈ calls, ∃ n, c = .read n)
          ∧ rest <:+ s.env.lineIn ∧ exec .tpSr s = .next t ∧ EndsAs s.status.failed s t ∧ HoldsAt t 0x200 f
          ∧ SameOutside s t 0x200 f.length
          ∧ t.outs = { s.outs with
              errCode := e.codeWord, errInfo := e.infoWord, capCount := countOf s live
              frmLen := BitVec.ofNat 10 f.length, txWritten := BitVec.ofInt 16 n }
          ∧ t.cap = { s.cap with live := live } ∧ t.clock = s.clock ∧ t.ka = s.ka
          ∧ t.env = { s.env with writeAns := ws, lineIn := rest }
          ∧ t.port =
            { timeout := s.regs.tRxTimeout, line := s.port.line
              log := madeCalls s.clock.now ([.write f] ++ syncCalls s ++ calls) s.port.log })
      ∧ (s.regs.ctrl.proto = .kwpCan → 1 ≤ s.regs.txLen.toNat → s.regs.txLen.toNat ≤ 255 →
        ∀ (x : RxItem) (rest : List RxItem) (e : Err), s.env.isoIn = x :: rest →
        (x = .timeout ∧ e = .timeout .isotpRx 0
          ∨ ∃ u, x = .data u ∧ (u.length = 0 ∨ 255 < u.length) ∧ e = .violation .badFormat 0) →
        ∃ p live t, p = s.memRead 0x000 s.regs.txLen.toNat
          ∧ live = pushed s.regs.capCfg s.clock.now .outgoing p s.cap.live
          ∧ exec .tpSr s = .next t ∧ EndsAs s.status.failed s t ∧ SameRam s t
          ∧ t.outs = { s.outs with errCode := e.codeWord, errInfo := e.infoWord, capCount := countOf s live }
          ∧ t.cap = { s.cap with live := live } ∧ t.clock = s.clock ∧ t.ka = s.ka
          ∧ t.env = { s.env with isoIn := rest }
          ∧ t.port =
            { timeout := s.regs.tRxTimeout, line := s.port.line
              log := madeCalls s.clock.now
                ([.isoTpSend s.regs.canTxId p] ++ syncCalls s ++ [.isoTpRecv]) s.port.log })
      ∧ (s.regs.ctrl.proto = .ccpCan → s.outs.frmLen = 8 →
        ∀ (x : RxItem) (rest : List RxItem) (e : Err), s.env.canIn = x :: rest →
        (x = .timeout ∧ e = .timeout .canRx 0
          ∨ ∃ u, x = .data u ∧ u.length < 8 ∧ e = .timeout .canRx (BitVec.ofNat 8 u.length)) →
        ∃ p live t, p = s.memRead 0x200 8
          ∧ live = pushed s.regs.capCfg s.clock.now .outgoing p s.cap.live
          ∧ exec .tpSr s = .next t ∧ EndsAs s.status.failed s t ∧ SameRam s t
          ∧ t.outs = { s.outs with
              errCode := e.codeWord, errInfo := e.infoWord, txWritten := 8, capCount := countOf s live }
          ∧ t.cap = { s.cap with live := live } ∧ t.clock = s.clock ∧ t.ka = s.ka
          ∧ t.env = { s.env with canIn := rest }
          ∧ t.port =
            { timeout := s.regs.tRxTimeout, line := s.port.line
              log := madeCalls s.clock.now ([.canWrite s.regs.canTxId p] ++ syncCalls s ++ [.canRead]) s.port.log }))
    ∧ ∀ (s t : State) (c : Byte), s.Inv → decodeCode c = .ok .tpSr →
      (s.op = some { code := c, pos := .start } → eventStep .atom s = .next t →
          t = s ∨ t.op = none ∧ t.lock = s.lock
            ∨ s.lock = .free ∧ t.lock = .seq ∧ ∃ req, t.op = some { code := c, pos := .tx req .send })
        ∧ ∀ (e : Event) (req : List Byte) (q : TxPos), s.op = some { code := c, pos := .tx req q } →
          eventStep e s = .next t → e ≠ .run → e ≠ .reset →
          s.lock = .seq
            ∧ (t.lock = .seq ∧ ((∃ q', t.op = some { code := c, pos := .tx req q' })
                ∨ ∃ u, t.op = some { code := c, pos := .release (.data u) })
              ∨ t.lock = .free ∧ t.op = none ∧ t.status.err = true)

/-! ### The KWP2000 engine -/

/-- R225, R245, R260: KWP_INIT over CAN, a keep-alive task of before stopped first: on a closed port it opens it with timeout
and filter, on an open one it performs no primitive; the engine is Ready, and with KA_EN = 1 the task is started, its
command copied from KABUF and its first wait KA_POLL_MS long. -/
def Obligations.KwpInitCan : Prop :=
  ∀ s : State, Started .kwpInit s → s.regs.ctrl.proto = .kwpCan →
    (s.regs.ctrl.kaEn = true → 1 ≤ s.regs.kaLen.toNat ∧ s.regs.kaLen.toNat ≤ 255) →
    (s.ka.phase = .off ∨ ∃ d, s.ka.phase = .wait d) →
    ∀ rest : List Bool, (s.status.portOpen = false → s.env.openAns = true :: rest) →
    ∃ t, exec .kwpInit s = .next t
      ∧ EndsAs { s.status.ended with
          portOpen := true, engReady := true
          kaRun := if s.regs.ctrl.kaEn then true else if s.ka.phase = .off then s.status.kaRun else false
          kaActive := if s.ka.phase = .off then s.status.kaActive else false
          kaExit := if s.ka.phase = .off then s.status.kaExit else .stopped } s t
      ∧ SameRam s t ∧ t.outs = s.outs ∧ t.cap = s.cap ∧ t.clock = s.clock
      ∧ t.ka = (if s.regs.ctrl.kaEn then
          { phase := .wait (s.nowUs + s.regs.kaPoll.toNat * 1000), stopReq := false
            pdu := s.memRead 0x500 s.regs.kaLen.toNat }
        else if s.ka.phase = .off then s.ka else { phase := .off, stopReq := false, pdu := s.ka.pdu })
      ∧ t.env = (if s.status.portOpen then s.env else { s.env with openAns := rest })
      ∧ t.port = (if s.status.portOpen then s.port
        else
          { timeout := s.regs.tRxTimeout, line := s.port.line
            log := madeCalls s.clock.now
              [.openPort, .setTimeout s.regs.tRxTimeout, .setFilters [(s.regs.canRxId, s.regs.canRxMask)]] s.port.log })

/-- R200, R245, R367: KWP_INIT over the K-Line on an open port, no task running: the native fast-init is answered, the blind
read then meets a silence, which is swallowed, and the engine is Ready without error; RXBUF, RXLEN, RESP_STATUS and
LAST_ACT_US are not written. -/
def Obligations.KwpInitKline : Prop :=
  ∀ (s : State) (c1 c2 : Time) (cs : List Time) (n : Int) (ws : List Int) (bs : List Byte) (line : List LineItem),
    Started .kwpInit s → s.regs.ctrl.proto = .kwpKline → s.status.portOpen = true → s.lock = .free → s.ka.phase = .off →
    1 ≤ s.regs.startLen.toNat → s.regs.startLen.toNat ≤ 255 →
    (s.regs.ctrl.kaEn = true → 1 ≤ s.regs.kaLen.toNat ∧ s.regs.kaLen.toNat ≤ 255) →
    Held s.regs.tFiLow s.clock.now c1 → Held s.regs.tFiHigh c1 c2 →
    s.env.clockIn = holdReads s.regs.tFiLow c1 ++ (holdReads s.regs.tFiHigh c2 ++ cs) → s.env.writeAns = n :: ws →
    1 ≤ bs.length → bs.length ≤ s.regs.fiReadMax.toNat →
    s.env.lineIn = windowItems s.regs.fiReadMax.toNat bs ++ (.gap :: line) →
    ∃ f t, f = klEncode s.regs.klTxHdr (s.memRead 0x400 s.regs.startLen.toNat) ∧ exec .kwpInit s = .next t
      ∧ EndsAs { s.status.ended with
          fiResult := .native, engReady := true, kaRun := if s.regs.ctrl.kaEn then true else s.status.kaRun } s t
      ∧ HoldsAt t 0x200 bs ∧ SameOutside s t 0x200 bs.length
      ∧ t.outs = { s.outs with frmLen := BitVec.ofNat 10 bs.length, txWritten := BitVec.ofInt 16 n }
      ∧ t.cap = s.cap ∧ t.clock = { s.clock with now := c2 }
      ∧ t.ka = (if s.regs.ctrl.kaEn then
          { phase := .wait (c2.toNat + s.regs.kaPoll.toNat * 1000), stopReq := false
            pdu := s.memRead 0x500 s.regs.kaLen.toNat }
        else s.ka)
      ∧ t.env = { s.env with clockIn := cs, writeAns := ws, lineIn := line }
      ∧ t.port =
        { timeout := s.regs.tRxTimeout
          line := .uart
          log := madeCalls c2
            ([.write f] ++ List.replicate (windowItems s.regs.fiReadMax.toNat bs).length (.read 1)
              ++ [.setTimeout s.regs.tRxTimeout, .read 1])
            (madeCalls c1 [.brk false]
              (madeCalls s.clock.now [.setTimeout s.regs.tFiTimeout, .brk true] s.port.log)) }

/-- R240, R245: a KWP_INIT whose argument checks pass, run to its end, leaves the engine Ready and reports no error,
whatever the fast-init and the blind read met; its only error is OPENING_PORT, on a closed port, and then the engine stays
as it was. -/
def Obligations.KwpInitReady : Prop :=
  ∀ s t : State, s.Inv → Started .kwpInit s → firstCheck .kwpInit s = none → exec .kwpInit s = .next t → t.op = none →
    (t.status.err = false ∧ t.status.engReady = true ∧ t.status.portOpen = true
        ∧ t.status.kaRun = s.regs.ctrl.kaEn ∧ t.outs.rxLen = s.outs.rxLen ∧ t.outs.respStatus = s.outs.respStatus)
      ∨ (t.outs.errCode = 0x0001 ∧ s.status.portOpen = false ∧ t.status.portOpen = false ∧ t.status.engReady = false)

/-- R242, R243, R244, R247, R250, R314: KWP_EXEC over ISO-TP with any number of pending replies before the terminal one: one
send under CAN_TX_ID (R36, log 36), one receive for each reply, one OUT record and one IN record for each reply, RXBUF with
the last reply; a positive reply ends the operation and writes LAST_ACT_US, any other terminal reply is reported as R241
classifies it. A receive that fails after the pending ones, by a timeout or a PDU of no or too many bytes, is the error
reported, unchanged, with the lock free and what the pending replies wrote in place. -/
def Obligations.KwpExecIso : Prop :=
  ∀ (s : State) (pend : List (List Byte)) (rest : List RxItem), Started .kwpExec s →
    s.status.engReady = true → s.regs.ctrl.proto = .kwpCan → s.lock = .free →
    1 ≤ s.regs.txLen.toNat → s.regs.txLen.toNat ≤ 255 →
    (∀ q ∈ pend, q.length ≤ 255 ∧ kwpClassify (s.peek 0x000) q = .pending) →
    (∀ u : List Byte, 1 ≤ u.length → u.length ≤ 255 → kwpClassify (s.peek 0x000) u ≠ .pending →
        s.env.isoIn = pend.map .data ++ .data u :: rest →
        ∃ p live m t, p = s.memRead 0x000 s.regs.txLen.toNat
          ∧ live = pushedAll s.regs.capCfg s.clock.now
              ((.outgoing, p) :: (pend.map fun q => (.incoming, q)) ++ [(.incoming, u)]) s.cap.live
          ∧ exec .kwpExec s = .next t
          ∧ t.op = none ∧ t.lock = .free ∧ t.regs = s.regs ∧ SameOwn s t ∧ t.ka = s.ka
          ∧ m = ((pend ++ [u]).map List.length).foldl max 0 ∧ HoldsAt t 0x100 u ∧ SameOutside s t 0x100 m
          ∧ t.cap = { s.cap with live := live } ∧ t.env = { s.env with isoIn := rest }
          ∧ t.port =
            { timeout := s.regs.tRxTimeout, line := s.port.line
              log := madeCalls s.clock.now
                (syncCalls s ++ [.isoTpSend s.regs.canTxId p] ++ List.replicate (pend.length + 1) .isoTpRecv) s.port.log }
          ∧ (kwpClassify (s.peek 0x000) u = .positive →
            t.status = s.status.ended ∧ t.clock = { s.clock with lastAct := s.clock.now }
              ∧ t.outs = { s.outs with
                  rxLen := BitVec.ofNat 9 u.length, respStatus := u.headD 0, capCount := countOf s live })
          ∧ ∀ e, kwpClassify (s.peek 0x000) u = .error e →
            t.status = s.status.failed ∧ t.clock = s.clock
              ∧ t.outs = { s.outs with
                  rxLen := BitVec.ofNat 9 u.length, respStatus := u.headD 0, capCount := countOf s live
                  errCode := e.codeWord, errInfo := e.infoWord })
      ∧ ∀ (x : RxItem) (e : Err), s.env.isoIn = pend.map .data ++ x :: rest →
        (x = .timeout ∧ e = .timeout .isotpRx 0
          ∨ ∃ u, x = .data u ∧ (u.length = 0 ∨ 255 < u.length) ∧ e = .violation .badFormat 0) →
        ∃ p live m t, p = s.memRead 0x000 s.regs.txLen.toNat
          ∧ live = pushedAll s.regs.capCfg s.clock.now ((.outgoing, p) :: pend.map fun q => (.incoming, q)) s.cap.live
          ∧ exec .kwpExec s = .next t ∧ EndsAs s.status.failed s t ∧ t.clock = s.clock ∧ t.ka = s.ka
          ∧ m = (pend.map List.length).foldl max 0 ∧ SameOutside s t 0x100 m
          ∧ (∀ q, pend.getLast? = some q → HoldsAt t 0x100 q)
          ∧ t.outs = { s.outs with
              rxLen := match pend.getLast? with | some q => BitVec.ofNat 9 q.length | none => s.outs.rxLen
              respStatus := match pend.getLast? with | some q => q.headD 0 | none => s.outs.respStatus
              capCount := countOf s live, errCode := e.codeWord, errInfo := e.infoWord }
          ∧ t.cap = { s.cap with live := live } ∧ t.env = { s.env with isoIn := rest }
          ∧ t.port =
            { timeout := s.regs.tRxTimeout, line := s.port.line
              log := madeCalls s.clock.now
                (syncCalls s ++ [.isoTpSend s.regs.canTxId p] ++ List.replicate (pend.length + 1) .isoTpRecv) s.port.log }

/-- R145, R242, R243, R244, R247, R250, R314: the same over the K-Line: one PortWrite of the request's frame, and for each
reply the 4 or 5 reads of its frame and no more; FRMBUF ends with the last frame received. A receive that fails after the
pending replies, by a silence or a frame that the decoder refuses (foreign frames before it dropped), is the error reported,
unchanged; FRMBUF then holds the last frame sent or received. -/
def Obligations.KwpExecKline : Prop :=
  ∀ (s : State) (pend : List (List Byte)) (n : Int) (ws : List Int) (line : List LineItem),
    Started .kwpExec s → s.status.engReady = true → s.regs.ctrl.proto = .kwpKline → s.lock = .free →
    1 ≤ s.regs.txLen.toNat → s.regs.txLen.toNat ≤ 255 →
    (∀ q ∈ pend, q.length ≤ 255 ∧ kwpClassify (s.peek 0x000) q = .pending) → s.env.writeAns = n :: ws →
    (∀ u : List Byte, 1 ≤ u.length → u.length ≤ 255 → kwpClassify (s.peek 0x000) u ≠ .pending →
        s.env.lineIn = (((pend ++ [u]).map (klEncode s.regs.klRxHdr)).flatten).map .byte ++ line →
        ∃ p f g live t, p = s.memRead 0x000 s.regs.txLen.toNat ∧ f = klEncode s.regs.klTxHdr p
          ∧ g = klEncode s.regs.klRxHdr u
          ∧ live = pushedAll s.regs.capCfg s.clock.now
              ((.outgoing, p) :: (pend.map fun q => (.incoming, q)) ++ [(.incoming, u)]) s.cap.live
          ∧ exec .kwpExec s = .next t
          ∧ t.op = none ∧ t.lock = .free ∧ t.regs = s.regs ∧ SameOwn s t ∧ t.ka = s.ka
          ∧ HoldsAt t 0x100 u ∧ HoldsAt t 0x200 g
          ∧ SameOutside2 s t 0x100 (((pend ++ [u]).map List.length).foldl max 0)
              0x200 ((f :: (pend ++ [u]).map (klEncode s.regs.klRxHdr)).map List.length |>.foldl max 0)
          ∧ t.cap = { s.cap with live := live } ∧ t.env = { s.env with writeAns := ws, lineIn := line }
          ∧ t.port =
            { timeout := s.regs.tRxTimeout, line := s.port.line
              log := madeCalls s.clock.now
                (syncCalls s ++ [.write f] ++ ((pend ++ [u]).map fun q => frameReads q.length).flatten) s.port.log }
          ∧ (kwpClassify (s.peek 0x000) u = .positive →
            t.status = s.status.ended ∧ t.clock = { s.clock with lastAct := s.clock.now }
              ∧ t.outs = { s.outs with
                  frmLen := BitVec.ofNat 10 g.length, txWritten := BitVec.ofInt 16 n
                  rxLen := BitVec.ofNat 9 u.length, respStatus := u.headD 0, capCount := countOf s live })
          ∧ ∀ e, kwpClassify (s.peek 0x000) u = .error e →
            t.status = s.status.failed ∧ t.clock = s.clock
              ∧ t.outs = { s.outs with
                  frmLen := BitVec.ofNat 10 g.length, txWritten := BitVec.ofInt 16 n
                  rxLen := BitVec.ofNat 9 u.length, respStatus := u.headD 0, capCount := countOf s live
                  errCode := e.codeWord, errInfo := e.infoWord })
      ∧ ∀ (bs : List Byte) (e : Err),
        s.env.lineIn = ((pend.map (klEncode s.regs.klRxHdr)).flatten).map .byte ++ (bs.map .byte ++ line) →
        klDecode (.timeout .klRx 0) s.regs.klRxHdr s.regs.ctrl.klChkVerify bs = .error e →
        (e = .timeout .klRx 0 → line.head? = some .gap) →
        ∃ p f g live t calls rest, p = s.memRead 0x000 s.regs.txLen.toNat ∧ f = klEncode s.regs.klTxHdr p
          ∧ g = (pend.map (klEncode s.regs.klRxHdr)).getLastD f
          ∧ live = pushedAll s.regs.capCfg s.clock.now ((.outgoing, p) :: pend.map fun q => (.incoming, q)) s.cap.live
          ∧ (∀ c ∈ calls, ∃ k, c = .read k) ∧ rest <:+ bs.map .byte ++ line
          ∧ exec .kwpExec s = .next t ∧ EndsAs s.status.failed s t ∧ t.clock = s.clock ∧ t.ka = s.ka
          ∧ (∀ q, pend.getLast? = some q → HoldsAt t 0x100 q) ∧ HoldsAt t 0x200 g
          ∧ SameOutside2 s t 0x100 ((pend.map List.length).foldl max 0)
              0x200 ((f :: pend.map (klEncode s.regs.klRxHdr)).map List.length |>.foldl max 0)
          ∧ t.outs = { s.outs with
              frmLen := BitVec.ofNat 10 g.length, txWritten := BitVec.ofInt 16 n
              rxLen := match pend.getLast? with | some q => BitVec.ofNat 9 q.length | none => s.outs.rxLen
              respStatus := match pend.getLast? with | some q => q.headD 0 | none => s.outs.respStatus
              capCount := countOf s live, errCode := e.codeWord, errInfo := e.infoWord }
          ∧ t.cap = { s.cap with live := live } ∧ t.env = { s.env with writeAns := ws, lineIn := rest }
          ∧ t.port =
            { timeout := s.regs.tRxTimeout, line := s.port.line
              log := madeCalls s.clock.now
                (syncCalls s ++ [.write f] ++ (pend.map fun q => frameReads q.length).flatten ++ calls) s.port.log }

/-! ### The CCP engine -/

/-- R280, R282, R283, R285: CCP_EXEC with a reply of 8 bytes: the CRO with the current counter is written and captured, the
counter advances by one modulo 256, the DTO lands in FRMBUF and its Response in RXBUF; return code 0x00 ends the operation,
any other is reported with the DTO counter and the category. -/
def Obligations.CcpExecCompletes : Prop :=
  ∀ (s : State) (f0 f1 f2 f3 f4 f5 f6 f7 : Byte) (rest : List RxItem), Started .ccpExec s →
    s.regs.ctrl.proto = .ccpCan → s.status.portOpen = true → s.lock = .free →
    1 ≤ s.regs.txLen.toNat → s.regs.txLen.toNat ≤ 7 →
    s.env.canIn = .data [f0, f1, f2, f3, f4, f5, f6, f7] :: rest →
    ∃ cro live t, cro = [s.peek 0x000, s.outs.ccpCtr] ++ s.memRead 0x001 (s.regs.txLen.toNat - 1)
          ++ List.replicate (7 - s.regs.txLen.toNat) 0x00
      ∧ live = pushedAll s.regs.capCfg s.clock.now
          [(.outgoing, cro), (.incoming, [f0, f1, f2, f3, f4, f5, f6, f7])] s.cap.live
      ∧ exec .ccpExec s = .next t
      ∧ EndsAs (if f1 = 0x00 then s.status.ended else s.status.failed) s t
      ∧ HoldsAt t 0x200 [f0, f1, f2, f3, f4, f5, f6, f7] ∧ HoldsAt t 0x100 [f1, f3, f4, f5, f6, f7]
      ∧ SameOutside2 s t 0x200 8 0x100 6
      ∧ t.outs = { s.outs with
          frmLen := 8, txWritten := 8, ccpCtr := s.outs.ccpCtr + 1, rxLen := 6, respStatus := f1
          dtoInfo := BitVec.ofNat 16 (f2.toNat * 256 + f0.toNat), capCount := countOf s live
          errCode := if f1 = 0x00 then s.outs.errCode else 0x0004
          errInfo := if f1 = 0x00 then s.outs.errInfo
            else BitVec.ofNat 32 ((ccpCategory f1).toNat * 65536 + f2.toNat * 256 + f1.toNat) }
      ∧ t.cap = { s.cap with live := live } ∧ t.clock = s.clock ∧ t.ka = s.ka ∧ t.env = { s.env with canIn := rest }
      ∧ t.port =
        { timeout := s.regs.tRxTimeout, line := s.port.line
          log := madeCalls s.clock.now (syncCalls s ++ [.canWrite s.regs.canTxId cro, .canRead]) s.port.log }

/-- R280, R282, R368: CCP_EXEC with no reply, or one of fewer than 8 bytes: TIMEOUT(CAN_RX), after the CRO was sent and
captured and the counter advanced; RXBUF and DTO_INFO are not written. -/
def Obligations.CcpExecTimeout : Prop :=
  ∀ (s : State) (x : RxItem) (code : Byte) (rest : List RxItem), Started .ccpExec s →
    s.regs.ctrl.proto = .ccpCan → s.status.portOpen = true → s.lock = .free →
    1 ≤ s.regs.txLen.toNat → s.regs.txLen.toNat ≤ 7 → s.env.canIn = x :: rest →
    (x = .timeout ∧ code = 0 ∨ ∃ g, x = .data g ∧ g.length < 8 ∧ code = BitVec.ofNat 8 g.length) →
    ∃ cro live t, cro = [s.peek 0x000, s.outs.ccpCtr] ++ s.memRead 0x001 (s.regs.txLen.toNat - 1)
          ++ List.replicate (7 - s.regs.txLen.toNat) 0x00
      ∧ live = pushed s.regs.capCfg s.clock.now .outgoing cro s.cap.live
      ∧ exec .ccpExec s = .next t ∧ EndsAs s.status.failed s t
      ∧ HoldsAt t 0x200 cro ∧ SameOutside s t 0x200 8
      ∧ t.outs = { s.outs with
          frmLen := 8, txWritten := 8, ccpCtr := s.outs.ccpCtr + 1, capCount := countOf s live
          errCode := 0x0302, errInfo := code.setWidth 32 }
      ∧ t.cap = { s.cap with live := live } ∧ t.clock = s.clock ∧ t.ka = s.ka ∧ t.env = { s.env with canIn := rest }
      ∧ t.port =
        { timeout := s.regs.tRxTimeout, line := s.port.line
          log := madeCalls s.clock.now (syncCalls s ++ [.canWrite s.regs.canTxId cro, .canRead]) s.port.log }

/-! ### The keep-alive task -/

/-- R27, R266: a step of the keep-alive task writes no output of the host: not a byte of buffer RAM, no output register but
CAP_COUNT, no STATUS bit but KA_RUN, KA_ACTIVE and KA_EXIT; and it leaves OP, the host's registers, the clock and the dump
as they were. -/
def Obligations.KaIsolation : Prop :=
  ∀ s t : State, kaStep s = some t →
    SameRam s t ∧ t.outs = { s.outs with capCount := t.outs.capCount }
      ∧ t.status = { s.status with kaRun := t.status.kaRun, kaActive := t.status.kaActive, kaExit := t.status.kaExit }
      ∧ t.regs = s.regs ∧ t.op = s.op ∧ t.cap.dumped = s.cap.dumped ∧ t.clock.now = s.clock.now ∧ SameOwn s t

/-- R260 to R262, R266, R267: a whole tick of the keep-alive task, the lock free: with the idle threshold strictly exceeded it
sends its command (over ISO-TP under the live CAN_TX_ID, R36, log 36), receives and, if the terminal reply is positive,
writes LAST_ACT_US and waits again; a reply that is not, and a receive that fails, ends the task silently with its reason;
with the threshold not exceeded the tick does nothing but wait again. Over ISO-TP any number of pending replies may come
first; over the K-Line the tick is stated with one reply. How many steps a tick takes is the model's choice (log 16, DEDUCED:
the entry is a step of its own, the checks are made with the lock acquire). -/
def Obligations.KaTick : Prop :=
  ∀ (s : State) (d : Nat), s.ka.phase = .wait d → s.ka.stopReq = false → d ≤ s.nowUs → s.status.portOpen = true →
    (s.nowUs ≤ s.clock.lastAct.toNat + s.regs.kaIdle.toNat * 1000 →
        runEvents [.task, .task] s = .next { s with
          status := { s.status with kaActive := false }
          ka := { s.ka with phase := .wait (s.nowUs + s.regs.kaPoll.toNat * 1000) } })
      ∧ (s.clock.lastAct.toNat + s.regs.kaIdle.toNat * 1000 < s.nowUs → s.lock = .free → s.regs.ctrl.proto = .kwpCan →
        ∀ (pend : List (List Byte)) (rest : List RxItem),
        (∀ q ∈ pend, q.length ≤ 255 ∧ kwpClassify (s.ka.pdu.headD 0) q = .pending) →
        (∀ u : List Byte, s.env.isoIn = pend.map .data ++ .data u :: rest → 1 ≤ u.length → u.length ≤ 255 →
            kwpClassify (s.ka.pdu.headD 0) u ≠ .pending →
            ∃ live t, live = pushedAll s.regs.capCfg s.clock.now
                ((.outgoing, s.ka.pdu) :: (pend.map fun q => (.incoming, q)) ++ [(.incoming, u)]) s.cap.live
              ∧ runEvents (List.replicate (8 + 2 * pend.length + (syncCalls s).length) .task) s = .next t
              ∧ t.op = s.op ∧ t.lock = .free ∧ t.regs = s.regs ∧ SameRam s t ∧ SameOwn s t
              ∧ t.cap = { s.cap with live := live } ∧ t.outs = { s.outs with capCount := countOf s live }
              ∧ t.env = { s.env with isoIn := rest }
              ∧ t.port =
                { timeout := s.regs.tRxTimeout, line := s.port.line
                  log := taskCalls s.clock.now (syncCalls s ++ [.isoTpSend s.regs.canTxId s.ka.pdu]
                    ++ List.replicate (pend.length + 1) .isoTpRecv) s.port.log }
              ∧ (kwpClassify (s.ka.pdu.headD 0) u = .positive →
                t.status = { s.status with kaActive := false } ∧ t.clock = { s.clock with lastAct := s.clock.now }
                  ∧ t.ka = { s.ka with phase := .wait (s.nowUs + s.regs.kaPoll.toNat * 1000) })
              ∧ ∀ e, kwpClassify (s.ka.pdu.headD 0) u = .error e →
                t.status = { s.status with
                    kaRun := false, kaActive := false
                    kaExit := (match e with | .negativeKwp _ _ => .negative | _ => .other) }
                  ∧ t.clock = s.clock ∧ t.ka = { s.ka with phase := .off, stopReq := false })
          ∧ ∀ (x : RxItem) (code : KaExit), s.env.isoIn = pend.map .data ++ x :: rest →
            (x = .timeout ∧ code = .timeout
              ∨ ∃ u, x = .data u ∧ (u.length = 0 ∨ 255 < u.length) ∧ code = .other) →
            ∃ live t, live = pushedAll s.regs.capCfg s.clock.now
                ((.outgoing, s.ka.pdu) :: pend.map fun q => (.incoming, q)) s.cap.live
              ∧ runEvents (List.replicate (7 + 2 * pend.length + (syncCalls s).length) .task) s = .next t
              ∧ t.op = s.op ∧ t.lock = .free ∧ t.regs = s.regs ∧ SameRam s t ∧ SameOwn s t
              ∧ t.cap = { s.cap with live := live } ∧ t.outs = { s.outs with capCount := countOf s live }
              ∧ t.env = { s.env with isoIn := rest } ∧ t.clock = s.clock
              ∧ t.status = { s.status with kaRun := false, kaActive := false, kaExit := code }
              ∧ t.ka = { s.ka with phase := .off, stopReq := false }
              ∧ t.port =
                { timeout := s.regs.tRxTimeout, line := s.port.line
                  log := taskCalls s.clock.now (syncCalls s ++ [.isoTpSend s.regs.canTxId s.ka.pdu]
                    ++ List.replicate (pend.length + 1) .isoTpRecv) s.port.log })
      ∧ (s.clock.lastAct.toNat + s.regs.kaIdle.toNat * 1000 < s.nowUs → s.lock = .free → s.regs.ctrl.proto = .kwpKline →
        ∀ (n : Int) (ws : List Int) (line : List LineItem), s.env.writeAns = n :: ws →
        (∀ u : List Byte, 1 ≤ u.length → u.length ≤ 255 →
            s.env.lineIn = (klEncode s.regs.klRxHdr u).map .byte ++ line → kwpClassify (s.ka.pdu.headD 0) u ≠ .pending →
            ∃ live t, live = pushedAll s.regs.capCfg s.clock.now [(.outgoing, s.ka.pdu), (.incoming, u)] s.cap.live
              ∧ runEvents (List.replicate (7 + (frameReads u.length).length + (syncCalls s).length) .task) s = .next t
              ∧ t.op = s.op ∧ t.lock = .free ∧ t.regs = s.regs ∧ SameRam s t ∧ SameOwn s t
              ∧ t.cap = { s.cap with live := live } ∧ t.outs = { s.outs with capCount := countOf s live }
              ∧ t.env = { s.env with writeAns := ws, lineIn := line }
              ∧ t.port =
                { timeout := s.regs.tRxTimeout, line := s.port.line
                  log := taskCalls s.clock.now (syncCalls s ++ [.write (klEncode s.regs.klTxHdr s.ka.pdu)]
                    ++ frameReads u.length) s.port.log }
              ∧ (kwpClassify (s.ka.pdu.headD 0) u = .positive →
                t.status = { s.status with kaActive := false } ∧ t.clock = { s.clock with lastAct := s.clock.now }
                  ∧ t.ka = { s.ka with phase := .wait (s.nowUs + s.regs.kaPoll.toNat * 1000) })
              ∧ ∀ e, kwpClassify (s.ka.pdu.headD 0) u = .error e →
                t.status = { s.status with
                    kaRun := false, kaActive := false
                    kaExit := (match e with | .negativeKwp _ _ => .negative | _ => .other) }
                  ∧ t.clock = s.clock ∧ t.ka = { s.ka with phase := .off, stopReq := false })
          ∧ (s.env.lineIn = .gap :: line →
            ∃ live t, live = pushed s.regs.capCfg s.clock.now .outgoing s.ka.pdu s.cap.live
              ∧ runEvents (List.replicate (7 + (syncCalls s).length) .task) s = .next t
              ∧ t.op = s.op ∧ t.lock = .free ∧ t.regs = s.regs ∧ SameRam s t ∧ SameOwn s t
              ∧ t.cap = { s.cap with live := live } ∧ t.outs = { s.outs with capCount := countOf s live }
              ∧ t.env = { s.env with writeAns := ws, lineIn := line } ∧ t.clock = s.clock
              ∧ t.status = { s.status with kaRun := false, kaActive := false, kaExit := .timeout }
              ∧ t.ka = { s.ka with phase := .off, stopReq := false }
              ∧ t.port =
                { timeout := s.regs.tRxTimeout, line := s.port.line
                  log := taskCalls s.clock.now
                    (syncCalls s ++ [.write (klEncode s.regs.klTxHdr s.ka.pdu), .read 1]) s.port.log }))
end

