-- ==== Sys2Proof/Laws/State.lean ====
section
/-! SUPPORT. One lemma per field per update of State, true by rfl, so that no later proof unfolds a record update. -/

namespace Sys2Proof.Machine

@[simp] theorem State.setStatus_status (s : State) (x : Status) : (s.setStatus x).status = x := rfl
@[simp] theorem State.setStatus_regs (s : State) (x : Status) : (s.setStatus x).regs = s.regs := rfl
@[simp] theorem State.setStatus_outs (s : State) (x : Status) : (s.setStatus x).outs = s.outs := rfl
@[simp] theorem State.setStatus_ram (s : State) (x : Status) : (s.setStatus x).ram = s.ram := rfl
@[simp] theorem State.setStatus_cap (s : State) (x : Status) : (s.setStatus x).cap = s.cap := rfl
@[simp] theorem State.setStatus_clock (s : State) (x : Status) : (s.setStatus x).clock = s.clock := rfl
@[simp] theorem State.setStatus_port (s : State) (x : Status) : (s.setStatus x).port = s.port := rfl
@[simp] theorem State.setStatus_op (s : State) (x : Status) : (s.setStatus x).op = s.op := rfl
@[simp] theorem State.setStatus_lock (s : State) (x : Status) : (s.setStatus x).lock = s.lock := rfl
@[simp] theorem State.setStatus_ka (s : State) (x : Status) : (s.setStatus x).ka = s.ka := rfl
@[simp] theorem State.setStatus_env (s : State) (x : Status) : (s.setStatus x).env = s.env := rfl
@[simp] theorem State.setStatus_sched (s : State) (x : Status) : (s.setStatus x).sched = s.sched := rfl
@[simp] theorem State.setStatus_hostData (s : State) (x : Status) : (s.setStatus x).hostData = s.hostData := rfl
@[simp] theorem State.setStatus_draws (s : State) (x : Status) : (s.setStatus x).draws = s.draws := rfl
@[simp] theorem State.setStatus_epoch (s : State) (x : Status) : (s.setStatus x).epoch = s.epoch := rfl

@[simp] theorem State.setRegs_status (s : State) (x : Regs) : (s.setRegs x).status = s.status := rfl
@[simp] theorem State.setRegs_regs (s : State) (x : Regs) : (s.setRegs x).regs = x := rfl
@[simp] theorem State.setRegs_outs (s : State) (x : Regs) : (s.setRegs x).outs = s.outs := rfl
@[simp] theorem State.setRegs_ram (s : State) (x : Regs) : (s.setRegs x).ram = s.ram := rfl
@[simp] theorem State.setRegs_cap (s : State) (x : Regs) : (s.setRegs x).cap = s.cap := rfl
@[simp] theorem State.setRegs_clock (s : State) (x : Regs) : (s.setRegs x).clock = s.clock := rfl
@[simp] theorem State.setRegs_port (s : State) (x : Regs) : (s.setRegs x).port = s.port := rfl
@[simp] theorem State.setRegs_op (s : State) (x : Regs) : (s.setRegs x).op = s.op := rfl
@[simp] theorem State.setRegs_lock (s : State) (x : Regs) : (s.setRegs x).lock = s.lock := rfl
@[simp] theorem State.setRegs_ka (s : State) (x : Regs) : (s.setRegs x).ka = s.ka := rfl
@[simp] theorem State.setRegs_env (s : State) (x : Regs) : (s.setRegs x).env = s.env := rfl
@[simp] theorem State.setRegs_sched (s : State) (x : Regs) : (s.setRegs x).sched = s.sched := rfl
@[simp] theorem State.setRegs_hostData (s : State) (x : Regs) : (s.setRegs x).hostData = s.hostData := rfl
@[simp] theorem State.setRegs_draws (s : State) (x : Regs) : (s.setRegs x).draws = s.draws := rfl
@[simp] theorem State.setRegs_epoch (s : State) (x : Regs) : (s.setRegs x).epoch = s.epoch := rfl

@[simp] theorem State.setOuts_status (s : State) (x : Outs) : (s.setOuts x).status = s.status := rfl
@[simp] theorem State.setOuts_regs (s : State) (x : Outs) : (s.setOuts x).regs = s.regs := rfl
@[simp] theorem State.setOuts_outs (s : State) (x : Outs) : (s.setOuts x).outs = x := rfl
@[simp] theorem State.setOuts_ram (s : State) (x : Outs) : (s.setOuts x).ram = s.ram := rfl
@[simp] theorem State.setOuts_cap (s : State) (x : Outs) : (s.setOuts x).cap = s.cap := rfl
@[simp] theorem State.setOuts_clock (s : State) (x : Outs) : (s.setOuts x).clock = s.clock := rfl
@[simp] theorem State.setOuts_port (s : State) (x : Outs) : (s.setOuts x).port = s.port := rfl
@[simp] theorem State.setOuts_op (s : State) (x : Outs) : (s.setOuts x).op = s.op := rfl
@[simp] theorem State.setOuts_lock (s : State) (x : Outs) : (s.setOuts x).lock = s.lock := rfl
@[simp] theorem State.setOuts_ka (s : State) (x : Outs) : (s.setOuts x).ka = s.ka := rfl
@[simp] theorem State.setOuts_env (s : State) (x : Outs) : (s.setOuts x).env = s.env := rfl
@[simp] theorem State.setOuts_sched (s : State) (x : Outs) : (s.setOuts x).sched = s.sched := rfl
@[simp] theorem State.setOuts_hostData (s : State) (x : Outs) : (s.setOuts x).hostData = s.hostData := rfl
@[simp] theorem State.setOuts_draws (s : State) (x : Outs) : (s.setOuts x).draws = s.draws := rfl
@[simp] theorem State.setOuts_epoch (s : State) (x : Outs) : (s.setOuts x).epoch = s.epoch := rfl

@[simp] theorem State.setRam_status (s : State) (x : Memory) : (s.setRam x).status = s.status := rfl
@[simp] theorem State.setRam_regs (s : State) (x : Memory) : (s.setRam x).regs = s.regs := rfl
@[simp] theorem State.setRam_outs (s : State) (x : Memory) : (s.setRam x).outs = s.outs := rfl
@[simp] theorem State.setRam_ram (s : State) (x : Memory) : (s.setRam x).ram = x := rfl
@[simp] theorem State.setRam_cap (s : State) (x : Memory) : (s.setRam x).cap = s.cap := rfl
@[simp] theorem State.setRam_clock (s : State) (x : Memory) : (s.setRam x).clock = s.clock := rfl
@[simp] theorem State.setRam_port (s : State) (x : Memory) : (s.setRam x).port = s.port := rfl
@[simp] theorem State.setRam_op (s : State) (x : Memory) : (s.setRam x).op = s.op := rfl
@[simp] theorem State.setRam_lock (s : State) (x : Memory) : (s.setRam x).lock = s.lock := rfl
@[simp] theorem State.setRam_ka (s : State) (x : Memory) : (s.setRam x).ka = s.ka := rfl
@[simp] theorem State.setRam_env (s : State) (x : Memory) : (s.setRam x).env = s.env := rfl
@[simp] theorem State.setRam_sched (s : State) (x : Memory) : (s.setRam x).sched = s.sched := rfl
@[simp] theorem State.setRam_hostData (s : State) (x : Memory) : (s.setRam x).hostData = s.hostData := rfl
@[simp] theorem State.setRam_draws (s : State) (x : Memory) : (s.setRam x).draws = s.draws := rfl
@[simp] theorem State.setRam_epoch (s : State) (x : Memory) : (s.setRam x).epoch = s.epoch := rfl

@[simp] theorem State.setCap_status (s : State) (x : Capture) : (s.setCap x).status = s.status := rfl
@[simp] theorem State.setCap_regs (s : State) (x : Capture) : (s.setCap x).regs = s.regs := rfl
@[simp] theorem State.setCap_outs (s : State) (x : Capture) : (s.setCap x).outs = s.outs := rfl
@[simp] theorem State.setCap_ram (s : State) (x : Capture) : (s.setCap x).ram = s.ram := rfl
@[simp] theorem State.setCap_cap (s : State) (x : Capture) : (s.setCap x).cap = x := rfl
@[simp] theorem State.setCap_clock (s : State) (x : Capture) : (s.setCap x).clock = s.clock := rfl
@[simp] theorem State.setCap_port (s : State) (x : Capture) : (s.setCap x).port = s.port := rfl
@[simp] theorem State.setCap_op (s : State) (x : Capture) : (s.setCap x).op = s.op := rfl
@[simp] theorem State.setCap_lock (s : State) (x : Capture) : (s.setCap x).lock = s.lock := rfl
@[simp] theorem State.setCap_ka (s : State) (x : Capture) : (s.setCap x).ka = s.ka := rfl
@[simp] theorem State.setCap_env (s : State) (x : Capture) : (s.setCap x).env = s.env := rfl
@[simp] theorem State.setCap_sched (s : State) (x : Capture) : (s.setCap x).sched = s.sched := rfl
@[simp] theorem State.setCap_hostData (s : State) (x : Capture) : (s.setCap x).hostData = s.hostData := rfl
@[simp] theorem State.setCap_draws (s : State) (x : Capture) : (s.setCap x).draws = s.draws := rfl
@[simp] theorem State.setCap_epoch (s : State) (x : Capture) : (s.setCap x).epoch = s.epoch := rfl

@[simp] theorem State.setClock_status (s : State) (x : Clock) : (s.setClock x).status = s.status := rfl
@[simp] theorem State.setClock_regs (s : State) (x : Clock) : (s.setClock x).regs = s.regs := rfl
@[simp] theorem State.setClock_outs (s : State) (x : Clock) : (s.setClock x).outs = s.outs := rfl
@[simp] theorem State.setClock_ram (s : State) (x : Clock) : (s.setClock x).ram = s.ram := rfl
@[simp] theorem State.setClock_cap (s : State) (x : Clock) : (s.setClock x).cap = s.cap := rfl
@[simp] theorem State.setClock_clock (s : State) (x : Clock) : (s.setClock x).clock = x := rfl
@[simp] theorem State.setClock_port (s : State) (x : Clock) : (s.setClock x).port = s.port := rfl
@[simp] theorem State.setClock_op (s : State) (x : Clock) : (s.setClock x).op = s.op := rfl
@[simp] theorem State.setClock_lock (s : State) (x : Clock) : (s.setClock x).lock = s.lock := rfl
@[simp] theorem State.setClock_ka (s : State) (x : Clock) : (s.setClock x).ka = s.ka := rfl
@[simp] theorem State.setClock_env (s : State) (x : Clock) : (s.setClock x).env = s.env := rfl
@[simp] theorem State.setClock_sched (s : State) (x : Clock) : (s.setClock x).sched = s.sched := rfl
@[simp] theorem State.setClock_hostData (s : State) (x : Clock) : (s.setClock x).hostData = s.hostData := rfl
@[simp] theorem State.setClock_draws (s : State) (x : Clock) : (s.setClock x).draws = s.draws := rfl
@[simp] theorem State.setClock_epoch (s : State) (x : Clock) : (s.setClock x).epoch = s.epoch := rfl

@[simp] theorem State.setPort_status (s : State) (x : Port) : (s.setPort x).status = s.status := rfl
@[simp] theorem State.setPort_regs (s : State) (x : Port) : (s.setPort x).regs = s.regs := rfl
@[simp] theorem State.setPort_outs (s : State) (x : Port) : (s.setPort x).outs = s.outs := rfl
@[simp] theorem State.setPort_ram (s : State) (x : Port) : (s.setPort x).ram = s.ram := rfl
@[simp] theorem State.setPort_cap (s : State) (x : Port) : (s.setPort x).cap = s.cap := rfl
@[simp] theorem State.setPort_clock (s : State) (x : Port) : (s.setPort x).clock = s.clock := rfl
@[simp] theorem State.setPort_port (s : State) (x : Port) : (s.setPort x).port = x := rfl
@[simp] theorem State.setPort_op (s : State) (x : Port) : (s.setPort x).op = s.op := rfl
@[simp] theorem State.setPort_lock (s : State) (x : Port) : (s.setPort x).lock = s.lock := rfl
@[simp] theorem State.setPort_ka (s : State) (x : Port) : (s.setPort x).ka = s.ka := rfl
@[simp] theorem State.setPort_env (s : State) (x : Port) : (s.setPort x).env = s.env := rfl
@[simp] theorem State.setPort_sched (s : State) (x : Port) : (s.setPort x).sched = s.sched := rfl
@[simp] theorem State.setPort_hostData (s : State) (x : Port) : (s.setPort x).hostData = s.hostData := rfl
@[simp] theorem State.setPort_draws (s : State) (x : Port) : (s.setPort x).draws = s.draws := rfl
@[simp] theorem State.setPort_epoch (s : State) (x : Port) : (s.setPort x).epoch = s.epoch := rfl

@[simp] theorem State.setOp_status (s : State) (x : Option Op) : (s.setOp x).status = s.status := rfl
@[simp] theorem State.setOp_regs (s : State) (x : Option Op) : (s.setOp x).regs = s.regs := rfl
@[simp] theorem State.setOp_outs (s : State) (x : Option Op) : (s.setOp x).outs = s.outs := rfl
@[simp] theorem State.setOp_ram (s : State) (x : Option Op) : (s.setOp x).ram = s.ram := rfl
@[simp] theorem State.setOp_cap (s : State) (x : Option Op) : (s.setOp x).cap = s.cap := rfl
@[simp] theorem State.setOp_clock (s : State) (x : Option Op) : (s.setOp x).clock = s.clock := rfl
@[simp] theorem State.setOp_port (s : State) (x : Option Op) : (s.setOp x).port = s.port := rfl
@[simp] theorem State.setOp_op (s : State) (x : Option Op) : (s.setOp x).op = x := rfl
@[simp] theorem State.setOp_lock (s : State) (x : Option Op) : (s.setOp x).lock = s.lock := rfl
@[simp] theorem State.setOp_ka (s : State) (x : Option Op) : (s.setOp x).ka = s.ka := rfl
@[simp] theorem State.setOp_env (s : State) (x : Option Op) : (s.setOp x).env = s.env := rfl
@[simp] theorem State.setOp_sched (s : State) (x : Option Op) : (s.setOp x).sched = s.sched := rfl
@[simp] theorem State.setOp_hostData (s : State) (x : Option Op) : (s.setOp x).hostData = s.hostData := rfl
@[simp] theorem State.setOp_draws (s : State) (x : Option Op) : (s.setOp x).draws = s.draws := rfl
@[simp] theorem State.setOp_epoch (s : State) (x : Option Op) : (s.setOp x).epoch = s.epoch := rfl

@[simp] theorem State.setLock_status (s : State) (x : Lock) : (s.setLock x).status = s.status := rfl
@[simp] theorem State.setLock_regs (s : State) (x : Lock) : (s.setLock x).regs = s.regs := rfl
@[simp] theorem State.setLock_outs (s : State) (x : Lock) : (s.setLock x).outs = s.outs := rfl
@[simp] theorem State.setLock_ram (s : State) (x : Lock) : (s.setLock x).ram = s.ram := rfl
@[simp] theorem State.setLock_cap (s : State) (x : Lock) : (s.setLock x).cap = s.cap := rfl
@[simp] theorem State.setLock_clock (s : State) (x : Lock) : (s.setLock x).clock = s.clock := rfl
@[simp] theorem State.setLock_port (s : State) (x : Lock) : (s.setLock x).port = s.port := rfl
@[simp] theorem State.setLock_op (s : State) (x : Lock) : (s.setLock x).op = s.op := rfl
@[simp] theorem State.setLock_lock (s : State) (x : Lock) : (s.setLock x).lock = x := rfl
@[simp] theorem State.setLock_ka (s : State) (x : Lock) : (s.setLock x).ka = s.ka := rfl
@[simp] theorem State.setLock_env (s : State) (x : Lock) : (s.setLock x).env = s.env := rfl
@[simp] theorem State.setLock_sched (s : State) (x : Lock) : (s.setLock x).sched = s.sched := rfl
@[simp] theorem State.setLock_hostData (s : State) (x : Lock) : (s.setLock x).hostData = s.hostData := rfl
@[simp] theorem State.setLock_draws (s : State) (x : Lock) : (s.setLock x).draws = s.draws := rfl
@[simp] theorem State.setLock_epoch (s : State) (x : Lock) : (s.setLock x).epoch = s.epoch := rfl

@[simp] theorem State.setKa_status (s : State) (x : KeepAlive) : (s.setKa x).status = s.status := rfl
@[simp] theorem State.setKa_regs (s : State) (x : KeepAlive) : (s.setKa x).regs = s.regs := rfl
@[simp] theorem State.setKa_outs (s : State) (x : KeepAlive) : (s.setKa x).outs = s.outs := rfl
@[simp] theorem State.setKa_ram (s : State) (x : KeepAlive) : (s.setKa x).ram = s.ram := rfl
@[simp] theorem State.setKa_cap (s : State) (x : KeepAlive) : (s.setKa x).cap = s.cap := rfl
@[simp] theorem State.setKa_clock (s : State) (x : KeepAlive) : (s.setKa x).clock = s.clock := rfl
@[simp] theorem State.setKa_port (s : State) (x : KeepAlive) : (s.setKa x).port = s.port := rfl
@[simp] theorem State.setKa_op (s : State) (x : KeepAlive) : (s.setKa x).op = s.op := rfl
@[simp] theorem State.setKa_lock (s : State) (x : KeepAlive) : (s.setKa x).lock = s.lock := rfl
@[simp] theorem State.setKa_ka (s : State) (x : KeepAlive) : (s.setKa x).ka = x := rfl
@[simp] theorem State.setKa_env (s : State) (x : KeepAlive) : (s.setKa x).env = s.env := rfl
@[simp] theorem State.setKa_sched (s : State) (x : KeepAlive) : (s.setKa x).sched = s.sched := rfl
@[simp] theorem State.setKa_hostData (s : State) (x : KeepAlive) : (s.setKa x).hostData = s.hostData := rfl
@[simp] theorem State.setKa_draws (s : State) (x : KeepAlive) : (s.setKa x).draws = s.draws := rfl
@[simp] theorem State.setKa_epoch (s : State) (x : KeepAlive) : (s.setKa x).epoch = s.epoch := rfl

@[simp] theorem State.setEnv_status (s : State) (x : Env) : (s.setEnv x).status = s.status := rfl
@[simp] theorem State.setEnv_regs (s : State) (x : Env) : (s.setEnv x).regs = s.regs := rfl
@[simp] theorem State.setEnv_outs (s : State) (x : Env) : (s.setEnv x).outs = s.outs := rfl
@[simp] theorem State.setEnv_ram (s : State) (x : Env) : (s.setEnv x).ram = s.ram := rfl
@[simp] theorem State.setEnv_cap (s : State) (x : Env) : (s.setEnv x).cap = s.cap := rfl
@[simp] theorem State.setEnv_clock (s : State) (x : Env) : (s.setEnv x).clock = s.clock := rfl
@[simp] theorem State.setEnv_port (s : State) (x : Env) : (s.setEnv x).port = s.port := rfl
@[simp] theorem State.setEnv_op (s : State) (x : Env) : (s.setEnv x).op = s.op := rfl
@[simp] theorem State.setEnv_lock (s : State) (x : Env) : (s.setEnv x).lock = s.lock := rfl
@[simp] theorem State.setEnv_ka (s : State) (x : Env) : (s.setEnv x).ka = s.ka := rfl
@[simp] theorem State.setEnv_env (s : State) (x : Env) : (s.setEnv x).env = x := rfl
@[simp] theorem State.setEnv_sched (s : State) (x : Env) : (s.setEnv x).sched = s.sched := rfl
@[simp] theorem State.setEnv_hostData (s : State) (x : Env) : (s.setEnv x).hostData = s.hostData := rfl
@[simp] theorem State.setEnv_draws (s : State) (x : Env) : (s.setEnv x).draws = s.draws := rfl
@[simp] theorem State.setEnv_epoch (s : State) (x : Env) : (s.setEnv x).epoch = s.epoch := rfl

@[simp] theorem State.setSched_status (s : State) (x : List Event) : (s.setSched x).status = s.status := rfl
@[simp] theorem State.setSched_regs (s : State) (x : List Event) : (s.setSched x).regs = s.regs := rfl
@[simp] theorem State.setSched_outs (s : State) (x : List Event) : (s.setSched x).outs = s.outs := rfl
@[simp] theorem State.setSched_ram (s : State) (x : List Event) : (s.setSched x).ram = s.ram := rfl
@[simp] theorem State.setSched_cap (s : State) (x : List Event) : (s.setSched x).cap = s.cap := rfl
@[simp] theorem State.setSched_clock (s : State) (x : List Event) : (s.setSched x).clock = s.clock := rfl
@[simp] theorem State.setSched_port (s : State) (x : List Event) : (s.setSched x).port = s.port := rfl
@[simp] theorem State.setSched_op (s : State) (x : List Event) : (s.setSched x).op = s.op := rfl
@[simp] theorem State.setSched_lock (s : State) (x : List Event) : (s.setSched x).lock = s.lock := rfl
@[simp] theorem State.setSched_ka (s : State) (x : List Event) : (s.setSched x).ka = s.ka := rfl
@[simp] theorem State.setSched_env (s : State) (x : List Event) : (s.setSched x).env = s.env := rfl
@[simp] theorem State.setSched_sched (s : State) (x : List Event) : (s.setSched x).sched = x := rfl
@[simp] theorem State.setSched_hostData (s : State) (x : List Event) : (s.setSched x).hostData = s.hostData := rfl
@[simp] theorem State.setSched_draws (s : State) (x : List Event) : (s.setSched x).draws = s.draws := rfl
@[simp] theorem State.setSched_epoch (s : State) (x : List Event) : (s.setSched x).epoch = s.epoch := rfl

@[simp] theorem State.setHostData_status (s : State) (x : Word) : (s.setHostData x).status = s.status := rfl
@[simp] theorem State.setHostData_regs (s : State) (x : Word) : (s.setHostData x).regs = s.regs := rfl
@[simp] theorem State.setHostData_outs (s : State) (x : Word) : (s.setHostData x).outs = s.outs := rfl
@[simp] theorem State.setHostData_ram (s : State) (x : Word) : (s.setHostData x).ram = s.ram := rfl
@[simp] theorem State.setHostData_cap (s : State) (x : Word) : (s.setHostData x).cap = s.cap := rfl
@[simp] theorem State.setHostData_clock (s : State) (x : Word) : (s.setHostData x).clock = s.clock := rfl
@[simp] theorem State.setHostData_port (s : State) (x : Word) : (s.setHostData x).port = s.port := rfl
@[simp] theorem State.setHostData_op (s : State) (x : Word) : (s.setHostData x).op = s.op := rfl
@[simp] theorem State.setHostData_lock (s : State) (x : Word) : (s.setHostData x).lock = s.lock := rfl
@[simp] theorem State.setHostData_ka (s : State) (x : Word) : (s.setHostData x).ka = s.ka := rfl
@[simp] theorem State.setHostData_env (s : State) (x : Word) : (s.setHostData x).env = s.env := rfl
@[simp] theorem State.setHostData_sched (s : State) (x : Word) : (s.setHostData x).sched = s.sched := rfl
@[simp] theorem State.setHostData_hostData (s : State) (x : Word) : (s.setHostData x).hostData = x := rfl
@[simp] theorem State.setHostData_draws (s : State) (x : Word) : (s.setHostData x).draws = s.draws := rfl
@[simp] theorem State.setHostData_epoch (s : State) (x : Word) : (s.setHostData x).epoch = s.epoch := rfl

@[simp] theorem State.setDraws_status (s : State) (x : Nat) : (s.setDraws x).status = s.status := rfl
@[simp] theorem State.setDraws_regs (s : State) (x : Nat) : (s.setDraws x).regs = s.regs := rfl
@[simp] theorem State.setDraws_outs (s : State) (x : Nat) : (s.setDraws x).outs = s.outs := rfl
@[simp] theorem State.setDraws_ram (s : State) (x : Nat) : (s.setDraws x).ram = s.ram := rfl
@[simp] theorem State.setDraws_cap (s : State) (x : Nat) : (s.setDraws x).cap = s.cap := rfl
@[simp] theorem State.setDraws_clock (s : State) (x : Nat) : (s.setDraws x).clock = s.clock := rfl
@[simp] theorem State.setDraws_port (s : State) (x : Nat) : (s.setDraws x).port = s.port := rfl
@[simp] theorem State.setDraws_op (s : State) (x : Nat) : (s.setDraws x).op = s.op := rfl
@[simp] theorem State.setDraws_lock (s : State) (x : Nat) : (s.setDraws x).lock = s.lock := rfl
@[simp] theorem State.setDraws_ka (s : State) (x : Nat) : (s.setDraws x).ka = s.ka := rfl
@[simp] theorem State.setDraws_env (s : State) (x : Nat) : (s.setDraws x).env = s.env := rfl
@[simp] theorem State.setDraws_sched (s : State) (x : Nat) : (s.setDraws x).sched = s.sched := rfl
@[simp] theorem State.setDraws_hostData (s : State) (x : Nat) : (s.setDraws x).hostData = s.hostData := rfl
@[simp] theorem State.setDraws_draws (s : State) (x : Nat) : (s.setDraws x).draws = x := rfl
@[simp] theorem State.setDraws_epoch (s : State) (x : Nat) : (s.setDraws x).epoch = s.epoch := rfl

@[simp] theorem State.setFrmLen_status (s : State) (n : Nat) : (s.setFrmLen n).status = s.status := rfl
@[simp] theorem State.setFrmLen_regs (s : State) (n : Nat) : (s.setFrmLen n).regs = s.regs := rfl
@[simp] theorem State.setFrmLen_outs (s : State) (n : Nat) : (s.setFrmLen n).outs = { s.outs with frmLen := BitVec.ofNat 10 n } := rfl
@[simp] theorem State.setFrmLen_ram (s : State) (n : Nat) : (s.setFrmLen n).ram = s.ram := rfl
@[simp] theorem State.setFrmLen_cap (s : State) (n : Nat) : (s.setFrmLen n).cap = s.cap := rfl
@[simp] theorem State.setFrmLen_clock (s : State) (n : Nat) : (s.setFrmLen n).clock = s.clock := rfl
@[simp] theorem State.setFrmLen_port (s : State) (n : Nat) : (s.setFrmLen n).port = s.port := rfl
@[simp] theorem State.setFrmLen_op (s : State) (n : Nat) : (s.setFrmLen n).op = s.op := rfl
@[simp] theorem State.setFrmLen_lock (s : State) (n : Nat) : (s.setFrmLen n).lock = s.lock := rfl
@[simp] theorem State.setFrmLen_ka (s : State) (n : Nat) : (s.setFrmLen n).ka = s.ka := rfl
@[simp] theorem State.setFrmLen_env (s : State) (n : Nat) : (s.setFrmLen n).env = s.env := rfl
@[simp] theorem State.setFrmLen_sched (s : State) (n : Nat) : (s.setFrmLen n).sched = s.sched := rfl
@[simp] theorem State.setFrmLen_hostData (s : State) (n : Nat) : (s.setFrmLen n).hostData = s.hostData := rfl
@[simp] theorem State.setFrmLen_draws (s : State) (n : Nat) : (s.setFrmLen n).draws = s.draws := rfl
@[simp] theorem State.setFrmLen_epoch (s : State) (n : Nat) : (s.setFrmLen n).epoch = s.epoch := rfl

@[simp] theorem State.setTxWritten_status (s : State) (n : Int) : (s.setTxWritten n).status = s.status := rfl
@[simp] theorem State.setTxWritten_regs (s : State) (n : Int) : (s.setTxWritten n).regs = s.regs := rfl
@[simp] theorem State.setTxWritten_outs (s : State) (n : Int) : (s.setTxWritten n).outs = { s.outs with txWritten := BitVec.ofInt 16 n } := rfl
@[simp] theorem State.setTxWritten_ram (s : State) (n : Int) : (s.setTxWritten n).ram = s.ram := rfl
@[simp] theorem State.setTxWritten_cap (s : State) (n : Int) : (s.setTxWritten n).cap = s.cap := rfl
@[simp] theorem State.setTxWritten_clock (s : State) (n : Int) : (s.setTxWritten n).clock = s.clock := rfl
@[simp] theorem State.setTxWritten_port (s : State) (n : Int) : (s.setTxWritten n).port = s.port := rfl
@[simp] theorem State.setTxWritten_op (s : State) (n : Int) : (s.setTxWritten n).op = s.op := rfl
@[simp] theorem State.setTxWritten_lock (s : State) (n : Int) : (s.setTxWritten n).lock = s.lock := rfl
@[simp] theorem State.setTxWritten_ka (s : State) (n : Int) : (s.setTxWritten n).ka = s.ka := rfl
@[simp] theorem State.setTxWritten_env (s : State) (n : Int) : (s.setTxWritten n).env = s.env := rfl
@[simp] theorem State.setTxWritten_sched (s : State) (n : Int) : (s.setTxWritten n).sched = s.sched := rfl
@[simp] theorem State.setTxWritten_hostData (s : State) (n : Int) : (s.setTxWritten n).hostData = s.hostData := rfl
@[simp] theorem State.setTxWritten_draws (s : State) (n : Int) : (s.setTxWritten n).draws = s.draws := rfl
@[simp] theorem State.setTxWritten_epoch (s : State) (n : Int) : (s.setTxWritten n).epoch = s.epoch := rfl

@[simp] theorem State.setPhase_status (s : State) (p : KaPhase) : (s.setPhase p).status = s.status := rfl
@[simp] theorem State.setPhase_regs (s : State) (p : KaPhase) : (s.setPhase p).regs = s.regs := rfl
@[simp] theorem State.setPhase_outs (s : State) (p : KaPhase) : (s.setPhase p).outs = s.outs := rfl
@[simp] theorem State.setPhase_ram (s : State) (p : KaPhase) : (s.setPhase p).ram = s.ram := rfl
@[simp] theorem State.setPhase_cap (s : State) (p : KaPhase) : (s.setPhase p).cap = s.cap := rfl
@[simp] theorem State.setPhase_clock (s : State) (p : KaPhase) : (s.setPhase p).clock = s.clock := rfl
@[simp] theorem State.setPhase_port (s : State) (p : KaPhase) : (s.setPhase p).port = s.port := rfl
@[simp] theorem State.setPhase_op (s : State) (p : KaPhase) : (s.setPhase p).op = s.op := rfl
@[simp] theorem State.setPhase_lock (s : State) (p : KaPhase) : (s.setPhase p).lock = s.lock := rfl
@[simp] theorem State.setPhase_ka (s : State) (p : KaPhase) : (s.setPhase p).ka = { s.ka with phase := p } := rfl
@[simp] theorem State.setPhase_env (s : State) (p : KaPhase) : (s.setPhase p).env = s.env := rfl
@[simp] theorem State.setPhase_sched (s : State) (p : KaPhase) : (s.setPhase p).sched = s.sched := rfl
@[simp] theorem State.setPhase_hostData (s : State) (p : KaPhase) : (s.setPhase p).hostData = s.hostData := rfl
@[simp] theorem State.setPhase_draws (s : State) (p : KaPhase) : (s.setPhase p).draws = s.draws := rfl
@[simp] theorem State.setPhase_epoch (s : State) (p : KaPhase) : (s.setPhase p).epoch = s.epoch := rfl

@[simp] theorem State.goto_status (s : State) (p : Pos) : (s.goto p).status = s.status := rfl
@[simp] theorem State.goto_regs (s : State) (p : Pos) : (s.goto p).regs = s.regs := rfl
@[simp] theorem State.goto_outs (s : State) (p : Pos) : (s.goto p).outs = s.outs := rfl
@[simp] theorem State.goto_ram (s : State) (p : Pos) : (s.goto p).ram = s.ram := rfl
@[simp] theorem State.goto_cap (s : State) (p : Pos) : (s.goto p).cap = s.cap := rfl
@[simp] theorem State.goto_clock (s : State) (p : Pos) : (s.goto p).clock = s.clock := rfl
@[simp] theorem State.goto_port (s : State) (p : Pos) : (s.goto p).port = s.port := rfl
@[simp] theorem State.goto_op (s : State) (p : Pos) : (s.goto p).op = s.op.map fun o => { o with pos := p } := rfl
@[simp] theorem State.goto_lock (s : State) (p : Pos) : (s.goto p).lock = s.lock := rfl
@[simp] theorem State.goto_ka (s : State) (p : Pos) : (s.goto p).ka = s.ka := rfl
@[simp] theorem State.goto_env (s : State) (p : Pos) : (s.goto p).env = s.env := rfl
@[simp] theorem State.goto_sched (s : State) (p : Pos) : (s.goto p).sched = s.sched := rfl
@[simp] theorem State.goto_hostData (s : State) (p : Pos) : (s.goto p).hostData = s.hostData := rfl
@[simp] theorem State.goto_draws (s : State) (p : Pos) : (s.goto p).draws = s.draws := rfl
@[simp] theorem State.goto_epoch (s : State) (p : Pos) : (s.goto p).epoch = s.epoch := rfl

@[simp] theorem State.touch_status (s : State) : (s.touch).status = s.status := rfl
@[simp] theorem State.touch_regs (s : State) : (s.touch).regs = s.regs := rfl
@[simp] theorem State.touch_outs (s : State) : (s.touch).outs = s.outs := rfl
@[simp] theorem State.touch_ram (s : State) : (s.touch).ram = s.ram := rfl
@[simp] theorem State.touch_cap (s : State) : (s.touch).cap = s.cap := rfl
@[simp] theorem State.touch_clock (s : State) : (s.touch).clock = { s.clock with lastAct := s.clock.now } := rfl
@[simp] theorem State.touch_port (s : State) : (s.touch).port = s.port := rfl
@[simp] theorem State.touch_op (s : State) : (s.touch).op = s.op := rfl
@[simp] theorem State.touch_lock (s : State) : (s.touch).lock = s.lock := rfl
@[simp] theorem State.touch_ka (s : State) : (s.touch).ka = s.ka := rfl
@[simp] theorem State.touch_env (s : State) : (s.touch).env = s.env := rfl
@[simp] theorem State.touch_sched (s : State) : (s.touch).sched = s.sched := rfl
@[simp] theorem State.touch_hostData (s : State) : (s.touch).hostData = s.hostData := rfl
@[simp] theorem State.touch_draws (s : State) : (s.touch).draws = s.draws := rfl
@[simp] theorem State.touch_epoch (s : State) : (s.touch).epoch = s.epoch := rfl

@[simp] theorem raiseError_status (e : Err) (s : State) : (raiseError e s).status = { s.status with busy := false, done := true, err := true, errSticky := true } := rfl
@[simp] theorem raiseError_regs (e : Err) (s : State) : (raiseError e s).regs = s.regs := rfl
@[simp] theorem raiseError_outs (e : Err) (s : State) : (raiseError e s).outs = { s.outs with errCode := e.codeWord, errInfo := e.infoWord } := rfl
@[simp] theorem raiseError_ram (e : Err) (s : State) : (raiseError e s).ram = s.ram := rfl
@[simp] theorem raiseError_cap (e : Err) (s : State) : (raiseError e s).cap = s.cap := rfl
@[simp] theorem raiseError_clock (e : Err) (s : State) : (raiseError e s).clock = s.clock := rfl
@[simp] theorem raiseError_port (e : Err) (s : State) : (raiseError e s).port = s.port := rfl
@[simp] theorem raiseError_op (e : Err) (s : State) : (raiseError e s).op = none := rfl
@[simp] theorem raiseError_lock (e : Err) (s : State) : (raiseError e s).lock = if s.lock = .seq then .free else s.lock := rfl
@[simp] theorem raiseError_ka (e : Err) (s : State) : (raiseError e s).ka = s.ka := rfl
@[simp] theorem raiseError_env (e : Err) (s : State) : (raiseError e s).env = s.env := rfl
@[simp] theorem raiseError_sched (e : Err) (s : State) : (raiseError e s).sched = s.sched := rfl
@[simp] theorem raiseError_hostData (e : Err) (s : State) : (raiseError e s).hostData = s.hostData := rfl
@[simp] theorem raiseError_draws (e : Err) (s : State) : (raiseError e s).draws = s.draws := rfl
@[simp] theorem raiseError_epoch (e : Err) (s : State) : (raiseError e s).epoch = s.epoch := rfl

@[simp] theorem endOp_status (s : State) : (endOp s).status = { s.status with busy := false, done := true, err := false } := rfl
@[simp] theorem endOp_regs (s : State) : (endOp s).regs = s.regs := rfl
@[simp] theorem endOp_outs (s : State) : (endOp s).outs = s.outs := rfl
@[simp] theorem endOp_ram (s : State) : (endOp s).ram = s.ram := rfl
@[simp] theorem endOp_cap (s : State) : (endOp s).cap = s.cap := rfl
@[simp] theorem endOp_clock (s : State) : (endOp s).clock = s.clock := rfl
@[simp] theorem endOp_port (s : State) : (endOp s).port = s.port := rfl
@[simp] theorem endOp_op (s : State) : (endOp s).op = none := rfl
@[simp] theorem endOp_lock (s : State) : (endOp s).lock = s.lock := rfl
@[simp] theorem endOp_ka (s : State) : (endOp s).ka = s.ka := rfl
@[simp] theorem endOp_env (s : State) : (endOp s).env = s.env := rfl
@[simp] theorem endOp_sched (s : State) : (endOp s).sched = s.sched := rfl
@[simp] theorem endOp_hostData (s : State) : (endOp s).hostData = s.hostData := rfl
@[simp] theorem endOp_draws (s : State) : (endOp s).draws = s.draws := rfl
@[simp] theorem endOp_epoch (s : State) : (endOp s).epoch = s.epoch := rfl

@[simp] theorem startOp_status (c : Byte) (s : State) : (startOp c s).status = { s.status with busy := true, done := false, err := false } := rfl
@[simp] theorem startOp_regs (c : Byte) (s : State) : (startOp c s).regs = s.regs := rfl
@[simp] theorem startOp_outs (c : Byte) (s : State) : (startOp c s).outs = { s.outs with errCode := 0, errInfo := 0 } := rfl
@[simp] theorem startOp_ram (c : Byte) (s : State) : (startOp c s).ram = s.ram := rfl
@[simp] theorem startOp_cap (c : Byte) (s : State) : (startOp c s).cap = s.cap := rfl
@[simp] theorem startOp_clock (c : Byte) (s : State) : (startOp c s).clock = s.clock := rfl
@[simp] theorem startOp_port (c : Byte) (s : State) : (startOp c s).port = s.port := rfl
@[simp] theorem startOp_op (c : Byte) (s : State) : (startOp c s).op = some { code := c, pos := .start } := rfl
@[simp] theorem startOp_lock (c : Byte) (s : State) : (startOp c s).lock = s.lock := rfl
@[simp] theorem startOp_ka (c : Byte) (s : State) : (startOp c s).ka = s.ka := rfl
@[simp] theorem startOp_env (c : Byte) (s : State) : (startOp c s).env = s.env := rfl
@[simp] theorem startOp_sched (c : Byte) (s : State) : (startOp c s).sched = s.sched := rfl
@[simp] theorem startOp_hostData (c : Byte) (s : State) : (startOp c s).hostData = s.hostData := rfl
@[simp] theorem startOp_draws (c : Byte) (s : State) : (startOp c s).draws = s.draws := rfl
@[simp] theorem startOp_epoch (c : Byte) (s : State) : (startOp c s).epoch = s.epoch := rfl

@[simp] theorem logCall_status (a : Agent) (c : PortCall) (s : State) : (logCall a c s).status = s.status := rfl
@[simp] theorem logCall_regs (a : Agent) (c : PortCall) (s : State) : (logCall a c s).regs = s.regs := rfl
@[simp] theorem logCall_outs (a : Agent) (c : PortCall) (s : State) : (logCall a c s).outs = s.outs := rfl
@[simp] theorem logCall_ram (a : Agent) (c : PortCall) (s : State) : (logCall a c s).ram = s.ram := rfl
@[simp] theorem logCall_cap (a : Agent) (c : PortCall) (s : State) : (logCall a c s).cap = s.cap := rfl
@[simp] theorem logCall_clock (a : Agent) (c : PortCall) (s : State) : (logCall a c s).clock = s.clock := rfl
@[simp] theorem logCall_port (a : Agent) (c : PortCall) (s : State) : (logCall a c s).port = { s.port with log := { agent := a, time := s.clock.now, call := c } :: s.port.log } := rfl
@[simp] theorem logCall_op (a : Agent) (c : PortCall) (s : State) : (logCall a c s).op = s.op := rfl
@[simp] theorem logCall_lock (a : Agent) (c : PortCall) (s : State) : (logCall a c s).lock = s.lock := rfl
@[simp] theorem logCall_ka (a : Agent) (c : PortCall) (s : State) : (logCall a c s).ka = s.ka := rfl
@[simp] theorem logCall_env (a : Agent) (c : PortCall) (s : State) : (logCall a c s).env = s.env := rfl
@[simp] theorem logCall_sched (a : Agent) (c : PortCall) (s : State) : (logCall a c s).sched = s.sched := rfl
@[simp] theorem logCall_hostData (a : Agent) (c : PortCall) (s : State) : (logCall a c s).hostData = s.hostData := rfl
@[simp] theorem logCall_draws (a : Agent) (c : PortCall) (s : State) : (logCall a c s).draws = s.draws := rfl
@[simp] theorem logCall_epoch (a : Agent) (c : PortCall) (s : State) : (logCall a c s).epoch = s.epoch := rfl

@[simp] theorem portClose_status (a : Agent) (s : State) : (portClose a s).status = { s.status with portOpen := false } := rfl
@[simp] theorem portClose_regs (a : Agent) (s : State) : (portClose a s).regs = s.regs := rfl
@[simp] theorem portClose_outs (a : Agent) (s : State) : (portClose a s).outs = s.outs := rfl
@[simp] theorem portClose_ram (a : Agent) (s : State) : (portClose a s).ram = s.ram := rfl
@[simp] theorem portClose_cap (a : Agent) (s : State) : (portClose a s).cap = s.cap := rfl
@[simp] theorem portClose_clock (a : Agent) (s : State) : (portClose a s).clock = s.clock := rfl
@[simp] theorem portClose_port (a : Agent) (s : State) : (portClose a s).port = { s.port with log := { agent := a, time := s.clock.now, call := .closePort } :: s.port.log } := rfl
@[simp] theorem portClose_op (a : Agent) (s : State) : (portClose a s).op = s.op := rfl
@[simp] theorem portClose_lock (a : Agent) (s : State) : (portClose a s).lock = s.lock := rfl
@[simp] theorem portClose_ka (a : Agent) (s : State) : (portClose a s).ka = s.ka := rfl
@[simp] theorem portClose_env (a : Agent) (s : State) : (portClose a s).env = s.env := rfl
@[simp] theorem portClose_sched (a : Agent) (s : State) : (portClose a s).sched = s.sched := rfl
@[simp] theorem portClose_hostData (a : Agent) (s : State) : (portClose a s).hostData = s.hostData := rfl
@[simp] theorem portClose_draws (a : Agent) (s : State) : (portClose a s).draws = s.draws := rfl
@[simp] theorem portClose_epoch (a : Agent) (s : State) : (portClose a s).epoch = s.epoch := rfl

@[simp] theorem portSetTimeout_status (a : Agent) (ms : Word) (s : State) : (portSetTimeout a ms s).status = s.status := rfl
@[simp] theorem portSetTimeout_regs (a : Agent) (ms : Word) (s : State) : (portSetTimeout a ms s).regs = s.regs := rfl
@[simp] theorem portSetTimeout_outs (a : Agent) (ms : Word) (s : State) : (portSetTimeout a ms s).outs = s.outs := rfl
@[simp] theorem portSetTimeout_ram (a : Agent) (ms : Word) (s : State) : (portSetTimeout a ms s).ram = s.ram := rfl
@[simp] theorem portSetTimeout_cap (a : Agent) (ms : Word) (s : State) : (portSetTimeout a ms s).cap = s.cap := rfl
@[simp] theorem portSetTimeout_clock (a : Agent) (ms : Word) (s : State) : (portSetTimeout a ms s).clock = s.clock := rfl
@[simp] theorem portSetTimeout_port (a : Agent) (ms : Word) (s : State) : (portSetTimeout a ms s).port = { s.port with timeout := ms, log := { agent := a, time := s.clock.now, call := .setTimeout ms } :: s.port.log } := rfl
@[simp] theorem portSetTimeout_op (a : Agent) (ms : Word) (s : State) : (portSetTimeout a ms s).op = s.op := rfl
@[simp] theorem portSetTimeout_lock (a : Agent) (ms : Word) (s : State) : (portSetTimeout a ms s).lock = s.lock := rfl
@[simp] theorem portSetTimeout_ka (a : Agent) (ms : Word) (s : State) : (portSetTimeout a ms s).ka = s.ka := rfl
@[simp] theorem portSetTimeout_env (a : Agent) (ms : Word) (s : State) : (portSetTimeout a ms s).env = s.env := rfl
@[simp] theorem portSetTimeout_sched (a : Agent) (ms : Word) (s : State) : (portSetTimeout a ms s).sched = s.sched := rfl
@[simp] theorem portSetTimeout_hostData (a : Agent) (ms : Word) (s : State) : (portSetTimeout a ms s).hostData = s.hostData := rfl
@[simp] theorem portSetTimeout_draws (a : Agent) (ms : Word) (s : State) : (portSetTimeout a ms s).draws = s.draws := rfl
@[simp] theorem portSetTimeout_epoch (a : Agent) (ms : Word) (s : State) : (portSetTimeout a ms s).epoch = s.epoch := rfl

@[simp] theorem canSetFilters_status (a : Agent) (s : State) : (canSetFilters a s).status = s.status := rfl
@[simp] theorem canSetFilters_regs (a : Agent) (s : State) : (canSetFilters a s).regs = s.regs := rfl
@[simp] theorem canSetFilters_outs (a : Agent) (s : State) : (canSetFilters a s).outs = s.outs := rfl
@[simp] theorem canSetFilters_ram (a : Agent) (s : State) : (canSetFilters a s).ram = s.ram := rfl
@[simp] theorem canSetFilters_cap (a : Agent) (s : State) : (canSetFilters a s).cap = s.cap := rfl
@[simp] theorem canSetFilters_clock (a : Agent) (s : State) : (canSetFilters a s).clock = s.clock := rfl
@[simp] theorem canSetFilters_port (a : Agent) (s : State) : (canSetFilters a s).port = { s.port with log := { agent := a, time := s.clock.now, call := .setFilters [(s.regs.canRxId, s.regs.canRxMask)] } :: s.port.log } := rfl
@[simp] theorem canSetFilters_op (a : Agent) (s : State) : (canSetFilters a s).op = s.op := rfl
@[simp] theorem canSetFilters_lock (a : Agent) (s : State) : (canSetFilters a s).lock = s.lock := rfl
@[simp] theorem canSetFilters_ka (a : Agent) (s : State) : (canSetFilters a s).ka = s.ka := rfl
@[simp] theorem canSetFilters_env (a : Agent) (s : State) : (canSetFilters a s).env = s.env := rfl
@[simp] theorem canSetFilters_sched (a : Agent) (s : State) : (canSetFilters a s).sched = s.sched := rfl
@[simp] theorem canSetFilters_hostData (a : Agent) (s : State) : (canSetFilters a s).hostData = s.hostData := rfl
@[simp] theorem canSetFilters_draws (a : Agent) (s : State) : (canSetFilters a s).draws = s.draws := rfl
@[simp] theorem canSetFilters_epoch (a : Agent) (s : State) : (canSetFilters a s).epoch = s.epoch := rfl

@[simp] theorem canWrite_status (a : Agent) (f : List Byte) (s : State) : (canWrite a f s).status = s.status := rfl
@[simp] theorem canWrite_regs (a : Agent) (f : List Byte) (s : State) : (canWrite a f s).regs = s.regs := rfl
@[simp] theorem canWrite_outs (a : Agent) (f : List Byte) (s : State) : (canWrite a f s).outs = s.outs := rfl
@[simp] theorem canWrite_ram (a : Agent) (f : List Byte) (s : State) : (canWrite a f s).ram = s.ram := rfl
@[simp] theorem canWrite_cap (a : Agent) (f : List Byte) (s : State) : (canWrite a f s).cap = s.cap := rfl
@[simp] theorem canWrite_clock (a : Agent) (f : List Byte) (s : State) : (canWrite a f s).clock = s.clock := rfl
@[simp] theorem canWrite_port (a : Agent) (f : List Byte) (s : State) : (canWrite a f s).port = { s.port with log := { agent := a, time := s.clock.now, call := .canWrite s.regs.canTxId f } :: s.port.log } := rfl
@[simp] theorem canWrite_op (a : Agent) (f : List Byte) (s : State) : (canWrite a f s).op = s.op := rfl
@[simp] theorem canWrite_lock (a : Agent) (f : List Byte) (s : State) : (canWrite a f s).lock = s.lock := rfl
@[simp] theorem canWrite_ka (a : Agent) (f : List Byte) (s : State) : (canWrite a f s).ka = s.ka := rfl
@[simp] theorem canWrite_env (a : Agent) (f : List Byte) (s : State) : (canWrite a f s).env = s.env := rfl
@[simp] theorem canWrite_sched (a : Agent) (f : List Byte) (s : State) : (canWrite a f s).sched = s.sched := rfl
@[simp] theorem canWrite_hostData (a : Agent) (f : List Byte) (s : State) : (canWrite a f s).hostData = s.hostData := rfl
@[simp] theorem canWrite_draws (a : Agent) (f : List Byte) (s : State) : (canWrite a f s).draws = s.draws := rfl
@[simp] theorem canWrite_epoch (a : Agent) (f : List Byte) (s : State) : (canWrite a f s).epoch = s.epoch := rfl

@[simp] theorem isoTpSend_status (a : Agent) (p : List Byte) (s : State) : (isoTpSend a p s).status = s.status := rfl
@[simp] theorem isoTpSend_regs (a : Agent) (p : List Byte) (s : State) : (isoTpSend a p s).regs = s.regs := rfl
@[simp] theorem isoTpSend_outs (a : Agent) (p : List Byte) (s : State) : (isoTpSend a p s).outs = s.outs := rfl
@[simp] theorem isoTpSend_ram (a : Agent) (p : List Byte) (s : State) : (isoTpSend a p s).ram = s.ram := rfl
@[simp] theorem isoTpSend_cap (a : Agent) (p : List Byte) (s : State) : (isoTpSend a p s).cap = s.cap := rfl
@[simp] theorem isoTpSend_clock (a : Agent) (p : List Byte) (s : State) : (isoTpSend a p s).clock = s.clock := rfl
@[simp] theorem isoTpSend_port (a : Agent) (p : List Byte) (s : State) : (isoTpSend a p s).port = { s.port with log := { agent := a, time := s.clock.now, call := .isoTpSend s.regs.canTxId p } :: s.port.log } := rfl
@[simp] theorem isoTpSend_op (a : Agent) (p : List Byte) (s : State) : (isoTpSend a p s).op = s.op := rfl
@[simp] theorem isoTpSend_lock (a : Agent) (p : List Byte) (s : State) : (isoTpSend a p s).lock = s.lock := rfl
@[simp] theorem isoTpSend_ka (a : Agent) (p : List Byte) (s : State) : (isoTpSend a p s).ka = s.ka := rfl
@[simp] theorem isoTpSend_env (a : Agent) (p : List Byte) (s : State) : (isoTpSend a p s).env = s.env := rfl
@[simp] theorem isoTpSend_sched (a : Agent) (p : List Byte) (s : State) : (isoTpSend a p s).sched = s.sched := rfl
@[simp] theorem isoTpSend_hostData (a : Agent) (p : List Byte) (s : State) : (isoTpSend a p s).hostData = s.hostData := rfl
@[simp] theorem isoTpSend_draws (a : Agent) (p : List Byte) (s : State) : (isoTpSend a p s).draws = s.draws := rfl
@[simp] theorem isoTpSend_epoch (a : Agent) (p : List Byte) (s : State) : (isoTpSend a p s).epoch = s.epoch := rfl

@[simp] theorem portBreak_status (a : Agent) (on : Bool) (s : State) : (portBreak a on s).status = s.status := rfl
@[simp] theorem portBreak_regs (a : Agent) (on : Bool) (s : State) : (portBreak a on s).regs = s.regs := rfl
@[simp] theorem portBreak_outs (a : Agent) (on : Bool) (s : State) : (portBreak a on s).outs = s.outs := rfl
@[simp] theorem portBreak_ram (a : Agent) (on : Bool) (s : State) : (portBreak a on s).ram = s.ram := rfl
@[simp] theorem portBreak_cap (a : Agent) (on : Bool) (s : State) : (portBreak a on s).cap = s.cap := rfl
@[simp] theorem portBreak_clock (a : Agent) (on : Bool) (s : State) : (portBreak a on s).clock = s.clock := rfl
@[simp] theorem portBreak_port (a : Agent) (on : Bool) (s : State) : (portBreak a on s).port = { s.port with line := if on then .brk else .uart, log := { agent := a, time := s.clock.now, call := .brk on } :: s.port.log } := rfl
@[simp] theorem portBreak_op (a : Agent) (on : Bool) (s : State) : (portBreak a on s).op = s.op := rfl
@[simp] theorem portBreak_lock (a : Agent) (on : Bool) (s : State) : (portBreak a on s).lock = s.lock := rfl
@[simp] theorem portBreak_ka (a : Agent) (on : Bool) (s : State) : (portBreak a on s).ka = s.ka := rfl
@[simp] theorem portBreak_env (a : Agent) (on : Bool) (s : State) : (portBreak a on s).env = s.env := rfl
@[simp] theorem portBreak_sched (a : Agent) (on : Bool) (s : State) : (portBreak a on s).sched = s.sched := rfl
@[simp] theorem portBreak_hostData (a : Agent) (on : Bool) (s : State) : (portBreak a on s).hostData = s.hostData := rfl
@[simp] theorem portBreak_draws (a : Agent) (on : Bool) (s : State) : (portBreak a on s).draws = s.draws := rfl
@[simp] theorem portBreak_epoch (a : Agent) (on : Bool) (s : State) : (portBreak a on s).epoch = s.epoch := rfl

@[simp] theorem lineSet_status (a : Agent) (l : Level) (s : State) : (lineSet a l s).status = s.status := rfl
@[simp] theorem lineSet_regs (a : Agent) (l : Level) (s : State) : (lineSet a l s).regs = s.regs := rfl
@[simp] theorem lineSet_outs (a : Agent) (l : Level) (s : State) : (lineSet a l s).outs = s.outs := rfl
@[simp] theorem lineSet_ram (a : Agent) (l : Level) (s : State) : (lineSet a l s).ram = s.ram := rfl
@[simp] theorem lineSet_cap (a : Agent) (l : Level) (s : State) : (lineSet a l s).cap = s.cap := rfl
@[simp] theorem lineSet_clock (a : Agent) (l : Level) (s : State) : (lineSet a l s).clock = s.clock := rfl
@[simp] theorem lineSet_port (a : Agent) (l : Level) (s : State) : (lineSet a l s).port = { s.port with
      line := match l with
        | .low => .low
        | .high => .high
        | .release => .uart
      log := { agent := a, time := s.clock.now, call := .lineSet l } :: s.port.log } := rfl
@[simp] theorem lineSet_op (a : Agent) (l : Level) (s : State) : (lineSet a l s).op = s.op := rfl
@[simp] theorem lineSet_lock (a : Agent) (l : Level) (s : State) : (lineSet a l s).lock = s.lock := rfl
@[simp] theorem lineSet_ka (a : Agent) (l : Level) (s : State) : (lineSet a l s).ka = s.ka := rfl
@[simp] theorem lineSet_env (a : Agent) (l : Level) (s : State) : (lineSet a l s).env = s.env := rfl
@[simp] theorem lineSet_sched (a : Agent) (l : Level) (s : State) : (lineSet a l s).sched = s.sched := rfl
@[simp] theorem lineSet_hostData (a : Agent) (l : Level) (s : State) : (lineSet a l s).hostData = s.hostData := rfl
@[simp] theorem lineSet_draws (a : Agent) (l : Level) (s : State) : (lineSet a l s).draws = s.draws := rfl
@[simp] theorem lineSet_epoch (a : Agent) (l : Level) (s : State) : (lineSet a l s).epoch = s.epoch := rfl

@[simp] theorem kaLeave_status (c : KaExit) (s : State) : (kaLeave c s).status = { s.status with kaExit := c, kaRun := false, kaActive := false } := rfl
@[simp] theorem kaLeave_regs (c : KaExit) (s : State) : (kaLeave c s).regs = s.regs := rfl
@[simp] theorem kaLeave_outs (c : KaExit) (s : State) : (kaLeave c s).outs = s.outs := rfl
@[simp] theorem kaLeave_ram (c : KaExit) (s : State) : (kaLeave c s).ram = s.ram := rfl
@[simp] theorem kaLeave_cap (c : KaExit) (s : State) : (kaLeave c s).cap = s.cap := rfl
@[simp] theorem kaLeave_clock (c : KaExit) (s : State) : (kaLeave c s).clock = s.clock := rfl
@[simp] theorem kaLeave_port (c : KaExit) (s : State) : (kaLeave c s).port = s.port := rfl
@[simp] theorem kaLeave_op (c : KaExit) (s : State) : (kaLeave c s).op = s.op := rfl
@[simp] theorem kaLeave_lock (c : KaExit) (s : State) : (kaLeave c s).lock = s.lock := rfl
@[simp] theorem kaLeave_ka (c : KaExit) (s : State) : (kaLeave c s).ka = { s.ka with phase := .off, stopReq := false } := rfl
@[simp] theorem kaLeave_env (c : KaExit) (s : State) : (kaLeave c s).env = s.env := rfl
@[simp] theorem kaLeave_sched (c : KaExit) (s : State) : (kaLeave c s).sched = s.sched := rfl
@[simp] theorem kaLeave_hostData (c : KaExit) (s : State) : (kaLeave c s).hostData = s.hostData := rfl
@[simp] theorem kaLeave_draws (c : KaExit) (s : State) : (kaLeave c s).draws = s.draws := rfl
@[simp] theorem kaLeave_epoch (c : KaExit) (s : State) : (kaLeave c s).epoch = s.epoch := rfl

@[simp] theorem kaRelease_status (s : State) (p : TickPos) : (kaRelease s p).status = s.status := rfl
@[simp] theorem kaRelease_regs (s : State) (p : TickPos) : (kaRelease s p).regs = s.regs := rfl
@[simp] theorem kaRelease_outs (s : State) (p : TickPos) : (kaRelease s p).outs = s.outs := rfl
@[simp] theorem kaRelease_ram (s : State) (p : TickPos) : (kaRelease s p).ram = s.ram := rfl
@[simp] theorem kaRelease_cap (s : State) (p : TickPos) : (kaRelease s p).cap = s.cap := rfl
@[simp] theorem kaRelease_clock (s : State) (p : TickPos) : (kaRelease s p).clock = s.clock := rfl
@[simp] theorem kaRelease_port (s : State) (p : TickPos) : (kaRelease s p).port = s.port := rfl
@[simp] theorem kaRelease_op (s : State) (p : TickPos) : (kaRelease s p).op = s.op := rfl
@[simp] theorem kaRelease_lock (s : State) (p : TickPos) : (kaRelease s p).lock = .free := rfl
@[simp] theorem kaRelease_ka (s : State) (p : TickPos) : (kaRelease s p).ka = { s.ka with phase := .tick p } := rfl
@[simp] theorem kaRelease_env (s : State) (p : TickPos) : (kaRelease s p).env = s.env := rfl
@[simp] theorem kaRelease_sched (s : State) (p : TickPos) : (kaRelease s p).sched = s.sched := rfl
@[simp] theorem kaRelease_hostData (s : State) (p : TickPos) : (kaRelease s p).hostData = s.hostData := rfl
@[simp] theorem kaRelease_draws (s : State) (p : TickPos) : (kaRelease s p).draws = s.draws := rfl
@[simp] theorem kaRelease_epoch (s : State) (p : TickPos) : (kaRelease s p).epoch = s.epoch := rfl

@[simp] theorem releaseTo_status (s : State) (p : Pos) : (releaseTo s p).status = s.status := rfl
@[simp] theorem releaseTo_regs (s : State) (p : Pos) : (releaseTo s p).regs = s.regs := rfl
@[simp] theorem releaseTo_outs (s : State) (p : Pos) : (releaseTo s p).outs = s.outs := rfl
@[simp] theorem releaseTo_ram (s : State) (p : Pos) : (releaseTo s p).ram = s.ram := rfl
@[simp] theorem releaseTo_cap (s : State) (p : Pos) : (releaseTo s p).cap = s.cap := rfl
@[simp] theorem releaseTo_clock (s : State) (p : Pos) : (releaseTo s p).clock = s.clock := rfl
@[simp] theorem releaseTo_port (s : State) (p : Pos) : (releaseTo s p).port = s.port := rfl
@[simp] theorem releaseTo_op (s : State) (p : Pos) : (releaseTo s p).op = s.op.map fun o => { o with pos := p } := rfl
@[simp] theorem releaseTo_lock (s : State) (p : Pos) : (releaseTo s p).lock = .free := rfl
@[simp] theorem releaseTo_ka (s : State) (p : Pos) : (releaseTo s p).ka = s.ka := rfl
@[simp] theorem releaseTo_env (s : State) (p : Pos) : (releaseTo s p).env = s.env := rfl
@[simp] theorem releaseTo_sched (s : State) (p : Pos) : (releaseTo s p).sched = s.sched := rfl
@[simp] theorem releaseTo_hostData (s : State) (p : Pos) : (releaseTo s p).hostData = s.hostData := rfl
@[simp] theorem releaseTo_draws (s : State) (p : Pos) : (releaseTo s p).draws = s.draws := rfl
@[simp] theorem releaseTo_epoch (s : State) (p : Pos) : (releaseTo s p).epoch = s.epoch := rfl

end Sys2Proof.Machine
end

