-- ==== Sys2Proof/Laws/Memory.lean ====
section
/-! SUPPORT. Buffer RAM: a read after a write, the frame of a write, and the canonical form every write keeps
(spec/20_memory.md R83). -/

namespace Sys2Proof.Machine

@[simp] theorem ramFind_ramStore_same (m : Memory) (a : Nat) (b : Byte) : ramFind (ramStore m a b) a = some b := by
  induction m with
  | nil => simp [ramStore, ramFind]
  | cons c m ih =>
    obtain ⟨k, v⟩ := c
    simp only [ramStore]
    split
    · simp [ramFind]
    · split
      · simp [ramFind]
      · rename_i h1 h2
        simp [ramFind, h2, ih]

theorem ramFind_ramStore_other (m : Memory) (a c : Nat) (b : Byte) (h : c ≠ a) :
    ramFind (ramStore m a b) c = ramFind m c := by
  induction m with
  | nil => simp [ramStore, ramFind, h]
  | cons e m ih =>
    obtain ⟨k, v⟩ := e
    simp only [ramStore]
    split
    · simp [ramFind, h]
    · split
      · rename_i h1 h2
        subst h2
        simp [ramFind, h]
      · simp [ramFind, ih]

theorem Memory.wf_tail (c : Host.Cell) (m : Memory) (h : Memory.wf (c :: m) = true) : Memory.wf m = true := by
  cases m with
  | nil => rfl
  | cons d m =>
    simp only [Memory.wf, Bool.and_eq_true] at h
    exact h.2

/-- A memory starting at `k` in canonical form keeps it when an earlier address is put before it. -/
theorem Memory.wf_cons (k : Nat) (v : Byte) (m : Memory) (hk : k < ramSize) (hm : Memory.wf m = true)
    (h : ∀ c ∈ m.head?, k < c.1) : Memory.wf ((k, v) :: m) = true := by
  cases m with
  | nil => simpa [Memory.wf] using hk
  | cons d m =>
    simp only [Memory.wf, Bool.and_eq_true, decide_eq_true_eq]
    exact ⟨h d (by simp), hm⟩

theorem Memory.wf_head (k : Nat) (v : Byte) (m : Memory) (h : Memory.wf ((k, v) :: m) = true) :
    k < ramSize ∧ ∀ c ∈ m.head?, k < c.1 := by
  induction m generalizing k v with
  | nil => simpa [Memory.wf] using h
  | cons d m ih =>
    simp only [Memory.wf, Bool.and_eq_true, decide_eq_true_eq] at h
    have := ih d.1 d.2 h.2
    refine ⟨by omega, ?_⟩
    simp only [List.head?_cons, Option.mem_def, Option.some.injEq, forall_eq']
    exact h.1

theorem ramStore_head (m : Memory) (a : Nat) (b : Byte) :
    ∀ c ∈ (ramStore m a b).head?, c.1 = a ∨ ∃ d ∈ m.head?, c.1 = d.1 := by
  cases m with
  | nil => simp [ramStore]
  | cons e m =>
    simp only [ramStore]
    split
    · simp
    · split <;> simp

/-- Every write inside buffer RAM keeps the canonical form. -/
theorem Memory.wf_ramStore (m : Memory) (a : Nat) (b : Byte) (ha : a < ramSize) (h : Memory.wf m = true) :
    Memory.wf (ramStore m a b) = true := by
  induction m with
  | nil => simpa [ramStore, Memory.wf] using ha
  | cons e m ih =>
    obtain ⟨k, v⟩ := e
    have hk := Memory.wf_head k v m h
    have ht := Memory.wf_tail _ _ h
    simp only [ramStore]
    split
    · rename_i h1
      exact Memory.wf_cons a b _ ha h (by simpa using h1)
    · split
      · rename_i h1 h2
        subst h2
        exact Memory.wf_cons a b m ha ht hk.2
      · rename_i h1 h2
        refine Memory.wf_cons k v _ hk.1 (ih ht) ?_
        intro c hc
        rcases ramStore_head m a b c hc with h3 | ⟨d, hd, h3⟩
        · omega
        · rw [h3]; exact hk.2 d hd

/-! ### One byte -/

/-- A poke changes buffer RAM only. -/
theorem State.poke_eq (s : State) (a : Nat) (b : Byte) : ∃ m, s.poke a b = s.setRam m := by
  unfold State.poke
  split
  · exact ⟨_, rfl⟩
  · exact ⟨s.ram, rfl⟩

theorem State.peek_setRam (s : State) (m : Memory) (a : Nat) :
    (s.setRam m).peek a = if a < ramSize then (ramFind m a).getD (Config.ramFree s.epoch a) else 0 := rfl

theorem State.peek_poke_same (s : State) (a : Nat) (b : Byte) (h : a < ramSize) : (s.poke a b).peek a = b := by
  simp [State.poke, h, State.peek_setRam]

theorem State.peek_poke_other (s : State) (a c : Nat) (b : Byte) (h : c ≠ a) : (s.poke a b).peek c = s.peek c := by
  unfold State.poke
  split
  · simp [ramFind_ramStore_other _ _ _ _ h, State.peek]
  · rfl

theorem State.poke_wf (s : State) (a : Nat) (b : Byte) (h : Memory.wf s.ram = true) :
    Memory.wf (s.poke a b).ram = true := by
  unfold State.poke
  split
  · exact Memory.wf_ramStore _ _ _ ‹_› h
  · exact h

/-! ### Byte strings -/

@[simp] theorem State.memRead_length (s : State) (a n : Nat) : (s.memRead a n).length = n := by
  induction n generalizing a with
  | zero => rfl
  | succ n ih => simp [State.memRead, ih]

/-- A MemWrite changes buffer RAM only. -/
theorem State.memWrite_eq (s : State) (a : Nat) (bs : List Byte) : ∃ m, s.memWrite a bs = s.setRam m := by
  induction bs generalizing s a with
  | nil => exact ⟨s.ram, rfl⟩
  | cons b bs ih =>
    obtain ⟨m, hm⟩ := State.poke_eq s a b
    obtain ⟨m', hm'⟩ := ih (s.poke a b) (a + 1)
    exact ⟨m', by rw [State.memWrite, hm', hm]; rfl⟩

/-- A MemWrite keeps the canonical form. -/
theorem State.memWrite_wf (s : State) (a : Nat) (bs : List Byte) (h : Memory.wf s.ram = true) :
    Memory.wf (s.memWrite a bs).ram = true := by
  induction bs generalizing s a with
  | nil => exact h
  | cons b bs ih => exact ih _ _ (State.poke_wf s a b h)

/-- A MemWrite leaves every byte outside the written ones as it was. -/
theorem State.peek_memWrite_other (s : State) (a c : Nat) (bs : List Byte) (h : c < a ∨ a + bs.length ≤ c) :
    (s.memWrite a bs).peek c = s.peek c := by
  induction bs generalizing s a with
  | nil => rfl
  | cons b bs ih =>
    simp only [List.length_cons] at h
    rw [State.memWrite, ih _ _ (by omega), State.peek_poke_other _ _ _ _ (by omega)]

/-- A byte a MemWrite has written. -/
theorem State.peek_memWrite_same (s : State) (a i : Nat) (bs : List Byte) (hi : i < bs.length)
    (ha : a + bs.length ≤ ramSize) : (s.memWrite a bs).peek (a + i) = bs[i] := by
  induction bs generalizing s a i with
  | nil => simp at hi
  | cons b bs ih =>
    simp only [List.length_cons] at ha hi
    cases i with
    | zero =>
      rw [State.memWrite, State.peek_memWrite_other _ _ _ _ (by omega)]
      simpa using State.peek_poke_same s a b (by omega)
    | succ i =>
      have := ih (s.poke a b) (a + 1) i (by omega) (by omega)
      rw [State.memWrite, show a + (i + 1) = a + 1 + i by omega, this]
      rfl

/-- MemRead gives the bytes one by one. -/
theorem State.memRead_getElem (s : State) (a n i : Nat) (h : i < (s.memRead a n).length) :
    (s.memRead a n)[i] = s.peek (a + i) := by
  induction n generalizing a i with
  | zero => simp [State.memRead] at h
  | succ n ih =>
    cases i with
    | zero => rfl
    | succ i =>
      have h' : i < (s.memRead (a + 1) n).length := by
        simp only [State.memRead_length] at h ⊢
        omega
      have := ih (a + 1) i h'
      simpa [State.memRead, show a + (i + 1) = a + 1 + i by omega] using this

/-- MemRead after MemWrite of the same bytes. -/
theorem State.memRead_memWrite (s : State) (a : Nat) (bs : List Byte) (ha : a + bs.length ≤ ramSize) :
    (s.memWrite a bs).memRead a bs.length = bs := by
  refine List.ext_getElem (by simp) fun i h1 h2 => ?_
  rw [State.memRead_getElem _ _ _ _ h1, State.peek_memWrite_same _ _ _ _ h2 ha]

/-- MemRead depends on the bytes it reads only. -/
theorem State.memRead_congr (s t : State) (a n : Nat) (h : ∀ i < n, s.peek (a + i) = t.peek (a + i)) :
    s.memRead a n = t.memRead a n := by
  refine List.ext_getElem (by simp) fun i h1 h2 => ?_
  rw [State.memRead_getElem _ _ _ _ h1, State.memRead_getElem _ _ _ _ h2]
  exact h i (by simpa using h1)

/-- Reset's memory has the canonical form. -/
theorem reset_memory_wf : Memory.wf State.reset.ram = true := rfl

end Sys2Proof.Machine
end

