-- ==== Sys2Proof/Laws/Transport.lean ====
section
/-! SUPPORT. What the shared operations of the port can do at most, said once each: the capture buffer, the output writes,
the primitives, and one atomic step of the transport (spec/43_transport.md R217 to R223). -/

namespace Sys2Proof.Machine

/-! ### The capture buffer and the output writes -/

/-- At most `k` records stay, the newest ones. -/
theorem evict_length (k : Nat) (rs : List Record) (h : k ≠ 0) : (evict k rs).length = min k rs.length := by
  simp only [evict, h, if_false, List.length_drop]
  omega

theorem evict_suffix (k : Nat) (rs : List Record) : evict k rs <:+ rs := by
  unfold evict
  split
  · exact List.suffix_refl rs
  · exact List.drop_suffix _ _

/-- CapPush changes CAP_LIVE and CAP_COUNT only. -/
theorem capPush_eq (d : Dir) (bs : List Byte) (s : State) :
    ∃ c o, capPush d bs s = (s.setCap c).setOuts o ∧ c.dumped = s.cap.dumped ∧ o = { s.outs with capCount := o.capCount }
      ∧ (s.outs.capCount = BitVec.ofNat 32 s.cap.live.length → o.capCount = BitVec.ofNat 32 c.live.length) := by
  unfold capPush
  split
  · exact ⟨s.cap, s.outs, rfl, rfl, rfl, id⟩
  · exact ⟨_, _, rfl, rfl, rfl, fun _ => rfl⟩

/-- A frame written to FRMBUF changes buffer RAM and FRMLEN only. -/
theorem putFrame_eq (f : List Byte) (s : State) :
    ∃ m, putFrame f s = (s.setRam m).setFrmLen f.length ∧ (Memory.wf s.ram = true → Memory.wf m = true) := by
  obtain ⟨m, hm⟩ := State.memWrite_eq s frmBuf f
  refine ⟨m, by rw [putFrame, hm], fun h => ?_⟩
  have := State.memWrite_wf s frmBuf f h
  rwa [hm] at this

/-- A PDU written to RXBUF changes buffer RAM, RXLEN and RESP_STATUS only. -/
theorem putPdu_eq (u : List Byte) (s : State) :
    ∃ m, putPdu u s = (s.setRam m).setOuts
        { s.outs with rxLen := BitVec.ofNat 9 u.length, respStatus := u.headD 0 }
      ∧ (Memory.wf s.ram = true → Memory.wf m = true) := by
  obtain ⟨m, hm⟩ := State.memWrite_eq s rxBuf u
  refine ⟨m, by simp only [putPdu, hm, State.setRam_outs], fun h => ?_⟩
  have := State.memWrite_wf s rxBuf u h
  rwa [hm] at this

/-- A CCP Response written to RXBUF changes buffer RAM, RXLEN, RESP_STATUS and DTO_INFO only. -/
theorem putDto_eq (d : Dto) (s : State) :
    ∃ m, putDto d s = (s.setRam m).setOuts { s.outs with rxLen := 6, respStatus := d.rc, dtoInfo := d.info }
      ∧ (Memory.wf s.ram = true → Memory.wf m = true) := by
  obtain ⟨m, hm⟩ := State.memWrite_eq s rxBuf (d.rc :: d.data)
  refine ⟨m, by simp only [putDto, hm, State.setRam_outs], fun h => ?_⟩
  have := State.memWrite_wf s rxBuf (d.rc :: d.data) h
  rwa [hm] at this

/-- A frame of at most 260 bytes stays inside FRMBUF. -/
theorem putFrame_peek (f : List Byte) (s : State) (b : Nat) (h : b < frmBuf ∨ frmBuf + f.length ≤ b) :
    (putFrame f s).peek b = s.peek b := by
  have := State.peek_memWrite_other s frmBuf b f h
  exact this

theorem putFrame_memRead (f : List Byte) (s : State) (h : f.length ≤ 512) :
    (putFrame f s).memRead frmBuf f.length = f := by
  refine Eq.trans ?_ (State.memRead_memWrite s frmBuf f (by simp only [frmBuf, ramSize]; omega))
  exact State.memRead_congr _ _ _ _ fun i _ => rfl

theorem putPdu_peek (u : List Byte) (s : State) (b : Nat) (h : b < rxBuf ∨ rxBuf + u.length ≤ b) :
    (putPdu u s).peek b = s.peek b :=
  State.peek_memWrite_other s rxBuf b u h

theorem putPdu_memRead (u : List Byte) (s : State) (h : u.length ≤ 256) : (putPdu u s).memRead rxBuf u.length = u := by
  refine Eq.trans ?_ (State.memRead_memWrite s rxBuf u (by simp only [rxBuf, ramSize]; omega))
  exact State.memRead_congr _ _ _ _ fun i _ => rfl

/-! ### The frame of the port's operations -/

/-- What no primitive, no CapPush and no frame write changes. -/
structure PortFrame (s t : State) : Prop where
  status : t.status = s.status
  regs : t.regs = s.regs
  clock : t.clock = s.clock
  op : t.op = s.op
  lock : t.lock = s.lock
  ka : t.ka = s.ka
  sched : t.sched = s.sched
  hostData : t.hostData = s.hostData
  draws : t.draws = s.draws
  epoch : t.epoch = s.epoch
  line : t.port.line = s.port.line
  outs : t.outs = { s.outs with
    frmLen := t.outs.frmLen, txWritten := t.outs.txWritten, capCount := t.outs.capCount }
  dumped : t.cap.dumped = s.cap.dumped
  capCount : s.outs.capCount = BitVec.ofNat 32 s.cap.live.length →
    t.outs.capCount = BitVec.ofNat 32 t.cap.live.length
  ram : Memory.wf s.ram = true → Memory.wf t.ram = true

theorem PortFrame.refl (s : State) : PortFrame s s :=
  ⟨rfl, rfl, rfl, rfl, rfl, rfl, rfl, rfl, rfl, rfl, rfl, rfl, rfl, id, id⟩

theorem PortFrame.trans {s t u : State} (h : PortFrame s t) (k : PortFrame t u) : PortFrame s u where
  status := k.status.trans h.status
  regs := k.regs.trans h.regs
  clock := k.clock.trans h.clock
  op := k.op.trans h.op
  lock := k.lock.trans h.lock
  ka := k.ka.trans h.ka
  sched := k.sched.trans h.sched
  hostData := k.hostData.trans h.hostData
  draws := k.draws.trans h.draws
  epoch := k.epoch.trans h.epoch
  line := k.line.trans h.line
  outs := by rw [k.outs, h.outs]
  dumped := k.dumped.trans h.dumped
  capCount := fun x => k.capCount (h.capCount x)
  ram := fun x => k.ram (h.ram x)

theorem logCall_frame (a : Agent) (c : PortCall) (s : State) : PortFrame s (logCall a c s) :=
  ⟨rfl, rfl, rfl, rfl, rfl, rfl, rfl, rfl, rfl, rfl, rfl, rfl, rfl, id, id⟩

theorem setEnv_frame (s : State) (e : Env) : PortFrame s (s.setEnv e) :=
  ⟨rfl, rfl, rfl, rfl, rfl, rfl, rfl, rfl, rfl, rfl, rfl, rfl, rfl, id, id⟩

theorem portSetTimeout_frame (a : Agent) (ms : Word) (s : State) : PortFrame s (portSetTimeout a ms s) :=
  ⟨rfl, rfl, rfl, rfl, rfl, rfl, rfl, rfl, rfl, rfl, rfl, rfl, rfl, id, id⟩

theorem setTxWritten_frame (s : State) (n : Int) : PortFrame s (s.setTxWritten n) :=
  ⟨rfl, rfl, rfl, rfl, rfl, rfl, rfl, rfl, rfl, rfl, rfl, rfl, rfl, id, id⟩

theorem putFrame_frame (f : List Byte) (s : State) : PortFrame s (putFrame f s) := by
  obtain ⟨m, hm, hw⟩ := putFrame_eq f s
  rw [hm]
  exact ⟨rfl, rfl, rfl, rfl, rfl, rfl, rfl, rfl, rfl, rfl, rfl, rfl, rfl, id, hw⟩

/-- TX_WRITTEN of a CAN write changes that register only, and under PROTO 2 only (R222). -/
theorem canWritten_eq (s : State) :
    canWritten s = s ∨ s.regs.ctrl.proto = .ccpCan ∧ canWritten s = s.setTxWritten 8 := by
  unfold canWritten
  split
  · rename_i h
    exact .inr ⟨h, rfl⟩
  · exact .inl rfl
  · exact .inl rfl

theorem canWritten_frame (s : State) : PortFrame s (canWritten s) := by
  rcases canWritten_eq s with h | ⟨_, h⟩ <;> rw [h]
  · exact .refl s
  · exact setTxWritten_frame s 8

theorem capPush_frame (d : Dir) (bs : List Byte) (s : State) : PortFrame s (capPush d bs s) := by
  obtain ⟨c, o, h, hd, ho, hc⟩ := capPush_eq d bs s
  rw [h]
  refine ⟨rfl, rfl, rfl, rfl, rfl, rfl, rfl, rfl, rfl, rfl, rfl, ?_, hd, hc, id⟩
  simp only [State.setOuts_outs]
  rw [ho]

@[simp] theorem capPush_ram (d : Dir) (bs : List Byte) (s : State) : (capPush d bs s).ram = s.ram := by
  unfold capPush
  split <;> rfl

theorem portWrite_frame (a : Agent) (f : List Byte) (s t : State) (n : Int) (h : portWrite a f s = some (n, t)) :
    PortFrame s t ∧ t.ram = s.ram ∧ t.outs = s.outs := by
  unfold portWrite at h
  split at h
  · simp at h
  · simp only [Option.some.injEq, Prod.mk.injEq] at h
    rw [← h.2]
    exact ⟨⟨rfl, rfl, rfl, rfl, rfl, rfl, rfl, rfl, rfl, rfl, rfl, rfl, rfl, id, id⟩, rfl, rfl⟩

/-- The state a blocking read leaves, if it returned. -/
def ReadRes.state? : ReadRes → Option State
  | .wait => none
  | .timeout s => some s
  | .bytes _ s => some s

theorem portRead_frame (a : Agent) (n : Nat) (s t : State) (h : (portRead a n s).state? = some t) :
    PortFrame s t ∧ t.ram = s.ram ∧ t.outs = s.outs := by
  unfold portRead at h
  split at h <;> simp only [ReadRes.state?, Option.some.injEq, reduceCtorEq] at h <;> subst h <;>
    exact ⟨⟨rfl, rfl, rfl, rfl, rfl, rfl, rfl, rfl, rfl, rfl, rfl, rfl, rfl, id, id⟩, rfl, rfl⟩

theorem canRead_frame (a : Agent) (s t : State) (h : (canRead a s).state? = some t) :
    PortFrame s t ∧ t.ram = s.ram ∧ t.outs = s.outs := by
  unfold canRead at h
  split at h <;> simp only [ReadRes.state?, Option.some.injEq, reduceCtorEq] at h <;> subst h <;>
    exact ⟨⟨rfl, rfl, rfl, rfl, rfl, rfl, rfl, rfl, rfl, rfl, rfl, rfl, rfl, id, id⟩, rfl, rfl⟩

theorem isoTpRecv_frame (a : Agent) (s t : State) (h : (isoTpRecv a s).state? = some t) :
    PortFrame s t ∧ t.ram = s.ram ∧ t.outs = s.outs := by
  unfold isoTpRecv at h
  split at h <;> simp only [ReadRes.state?, Option.some.injEq, reduceCtorEq] at h <;> subst h <;>
    exact ⟨⟨rfl, rfl, rfl, rfl, rfl, rfl, rfl, rfl, rfl, rfl, rfl, rfl, rfl, id, id⟩, rfl, rfl⟩

/-- A read of `n` bytes that succeeds takes exactly `n` bytes (R87). -/
theorem lineTake_bytes (n : Nat) (line rest : List LineItem) (bs : List Byte) (h : lineTake n line = .bytes bs rest) :
    bs.length = n ∧ line = bs.map .byte ++ rest := by
  induction n generalizing line bs with
  | zero =>
    simp only [lineTake, LineRead.bytes.injEq] at h
    simp [← h.1, h.2]
  | succ n ih =>
    cases line with
    | nil => simp [lineTake] at h
    | cons i line =>
      cases i with
      | gap => simp [lineTake] at h
      | byte b =>
        simp only [lineTake] at h
        split at h
        · simp at h
        · simp at h
        · rename_i bs' rest' heq
          simp only [LineRead.bytes.injEq] at h
          obtain ⟨h1, h2⟩ := ih line bs' (h.2 ▸ heq)
          simp [← h.1, h1, h2]

/-- Bytes that are there are read (R87). -/
theorem lineTake_of_bytes (bs : List Byte) (rest : List LineItem) :
    lineTake bs.length (bs.map .byte ++ rest) = .bytes bs rest := by
  induction bs with
  | nil => simp [lineTake]
  | cons b bs ih => simp [lineTake, ih]

theorem portRead_of_bytes (a : Agent) (bs : List Byte) (rest : List LineItem) (s : State) (n : Nat) (hn : bs.length = n)
    (h : s.env.lineIn = bs.map .byte ++ rest) :
    portRead a n s = .bytes bs ((logCall a (.read n) s).setEnv { s.env with lineIn := rest }) := by
  simp [portRead, h, ← hn, lineTake_of_bytes]

/-! ### One atomic step of the transport -/

/-- The state a transport step leaves, if one was taken or an error came up. -/
def TxRes.state? : TxRes → Option State
  | .wait => none
  | .go _ s => some s
  | .sent s => some s
  | .got _ s => some s
  | .fail _ s => some s

theorem sendStep_frame (a : Agent) (wr : Bool) (req : List Byte) (s t : State)
    (h : (sendStep a wr req s).state? = some t) :
    PortFrame s t ∧ (wr = false → t.ram = s.ram ∧ t.outs = s.outs) := by
  unfold sendStep at h
  split at h
  · cases hw : portWrite a (klEncode s.regs.klTxHdr req) s with
    | none => simp [hw, TxRes.state?] at h
    | some r =>
      obtain ⟨n, u⟩ := r
      simp only [hw] at h
      obtain ⟨hf, hr, ho⟩ := portWrite_frame _ _ _ _ _ hw
      simp only [TxRes.state?, Option.some.injEq] at h
      subst h
      cases wr with
      | false => exact ⟨hf, fun _ => ⟨hr, ho⟩⟩
      | true => exact ⟨hf.trans ((putFrame_frame _ _).trans (setTxWritten_frame _ _)), by simp⟩
  · simp only [TxRes.state?, Option.some.injEq] at h
    subst h
    exact ⟨logCall_frame _ _ _, fun _ => ⟨rfl, rfl⟩⟩
  · simp only [TxRes.state?, Option.some.injEq] at h
    subst h
    exact ⟨logCall_frame _ _ _, fun _ => ⟨rfl, rfl⟩⟩

theorem recvStep_frame (a : Agent) (s t : State) (h : (recvStep a s).state? = some t) :
    PortFrame s t ∧ t.ram = s.ram ∧ t.outs = s.outs := by
  unfold recvStep at h
  split at h
  · split at h
    · simp [TxRes.state?] at h
    · rename_i u hr
      simp only [TxRes.state?, Option.some.injEq] at h
      exact portRead_frame a 1 s t (by rw [hr, ← h]; rfl)
    · rename_i bs u hr
      have : t = u := by
        simp only at h
        split at h <;> simpa [TxRes.state?] using h.symm
      exact portRead_frame a 1 s t (by rw [hr, this]; rfl)
  · split at h
    · simp [TxRes.state?] at h
    · rename_i u hr
      simp only [TxRes.state?, Option.some.injEq] at h
      exact isoTpRecv_frame a s t (by rw [hr, ← h]; rfl)
    · rename_i bs u hr
      simp only [TxRes.state?, Option.some.injEq] at h
      exact isoTpRecv_frame a s t (by rw [hr, ← h]; rfl)
  · split at h
    · simp [TxRes.state?] at h
    · rename_i u hr
      simp only [TxRes.state?, Option.some.injEq] at h
      exact canRead_frame a s t (by rw [hr, ← h]; rfl)
    · rename_i bs u hr
      simp only [TxRes.state?, Option.some.injEq] at h
      exact canRead_frame a s t (by rw [hr, ← h]; rfl)

theorem klReadStep_frame (a : Agent) (n : Nat) (s t : State) (next : List Byte → TxPos)
    (h : (klReadStep a n s next).state? = some t) : PortFrame s t ∧ t.ram = s.ram ∧ t.outs = s.outs := by
  unfold klReadStep at h
  split at h
  · simp [TxRes.state?] at h
  · rename_i u hr
    simp only [TxRes.state?, Option.some.injEq] at h
    exact portRead_frame a n s t (by rw [hr, ← h]; rfl)
  · rename_i bs u hr
    simp only [TxRes.state?, Option.some.injEq] at h
    exact portRead_frame a n s t (by rw [hr, ← h]; rfl)

theorem syncStep_frame (a : Agent) (s t : State) (after : TxPos) (other : TxRes)
    (h : (syncStep a s after other).state? = some t) :
    PortFrame s t ∧ t.ram = s.ram ∧ t.outs = s.outs ∨ other.state? = some t := by
  unfold syncStep at h
  split at h
  · simp only [TxRes.state?, Option.some.injEq] at h
    subst h
    exact .inl ⟨portSetTimeout_frame _ _ _, rfl, rfl⟩
  · exact .inr h

/-- Everything one transport step can change, for either agent; the keep-alive task (`wr = false`) writes no output
register but CAP_COUNT and no buffer (R266). -/
theorem txStep_frame (a : Agent) (wr : Bool) (req : List Byte) (p : TxPos) (s t : State)
    (h : (txStep a wr req p s).state? = some t) :
    PortFrame s t ∧ (wr = false → t.ram = s.ram ∧ t.outs = { s.outs with capCount := t.outs.capCount }) := by
  have key : ∀ {t : State}, PortFrame s t ∧ t.ram = s.ram ∧ t.outs = s.outs →
      PortFrame s t ∧ (wr = false → t.ram = s.ram ∧ t.outs = { s.outs with capCount := t.outs.capCount }) :=
    fun h => ⟨h.1, fun _ => ⟨h.2.1, by rw [h.2.2]⟩⟩
  have keyS : ∀ {t : State}, PortFrame s t ∧ (wr = false → t.ram = s.ram ∧ t.outs = s.outs) →
      PortFrame s t ∧ (wr = false → t.ram = s.ram ∧ t.outs = { s.outs with capCount := t.outs.capCount }) :=
    fun h => ⟨h.1, fun hw => ⟨(h.2 hw).1, by rw [(h.2 hw).2]⟩⟩
  have keyC : ∀ (d : Dir) (bs : List Byte), PortFrame s (capPush d bs s) ∧ (wr = false → (capPush d bs s).ram = s.ram ∧
      (capPush d bs s).outs = { s.outs with capCount := (capPush d bs s).outs.capCount }) := by
    intro d bs
    refine ⟨capPush_frame d bs s, fun _ => ⟨capPush_ram d bs s, ?_⟩⟩
    obtain ⟨c, o, hq, _, ho, _⟩ := capPush_eq d bs s
    rw [hq]
    exact ho
  have keyF : ∀ (d : Dir) (bs : List Byte) {u : State}, PortFrame s u →
      PortFrame s (capPush d bs (if wr then u else s)) ∧
      (wr = false → (capPush d bs (if wr then u else s)).ram = s.ram ∧
        (capPush d bs (if wr then u else s)).outs =
          { s.outs with capCount := (capPush d bs (if wr then u else s)).outs.capCount }) := by
    intro d bs u hu
    cases wr with
    | false => simpa using keyC d bs
    | true => exact ⟨hu.trans (capPush_frame d bs _), by simp⟩
  cases p with
  | syncSend =>
    rcases syncStep_frame a s t .send _ h with h | h
    · exact key h
    · exact keyS (sendStep_frame a wr req s t h)
  | send => exact keyS (sendStep_frame a wr req s t h)
  | capOut =>
    simp only [txStep, TxRes.state?, Option.some.injEq] at h
    subst h
    exact keyF _ _ (canWritten_frame s)
  | syncRecv =>
    rcases syncStep_frame a s t .recv _ h with h | h
    · exact key h
    · exact key (recvStep_frame a s t h)
  | recv => exact key (recvStep_frame a s t h)
  | klId c => exact key (klReadStep_frame _ _ _ _ _ h)
  | klLen c i0 i1 => exact key (klReadStep_frame _ _ _ _ _ h)
  | klBody head n => exact key (klReadStep_frame _ _ _ _ _ h)
  | klSum head pdu => exact key (klReadStep_frame _ _ _ _ _ h)
  | klJudge head pdu cs =>
    simp only [txStep] at h
    split at h
    · exact key (recvStep_frame a s t h)
    · simp only [TxRes.state?, Option.some.injEq] at h
      subst h
      exact key ⟨.refl s, rfl, rfl⟩
    · simp only [TxRes.state?, Option.some.injEq] at h
      subst h
      exact keyF _ _ (putFrame_frame _ s)
  | isoGot pdu =>
    simp only [txStep] at h
    split at h
    · simp only [TxRes.state?, Option.some.injEq] at h
      subst h
      exact key ⟨.refl s, rfl, rfl⟩
    · simp only [TxRes.state?, Option.some.injEq] at h
      subst h
      exact keyC _ _
  | canGot frame =>
    simp only [txStep] at h
    split at h
    · simp only [TxRes.state?, Option.some.injEq] at h
      subst h
      exact key ⟨.refl s, rfl, rfl⟩
    · simp only [TxRes.state?, Option.some.injEq] at h
      subst h
      exact keyF _ _ (putFrame_frame _ s)
  | raise e =>
    simp only [txStep, TxRes.state?, Option.some.injEq] at h
    subst h
    exact key ⟨.refl s, rfl, rfl⟩

end Sys2Proof.Machine
end

