-- ==== Sys2Proof/Laws/FastInit.lean ====
section
/-! SUPPORT. What the shared operations of the fast-init and of CCP_EXEC's buffer write can do at most, said once each
(spec/42_fast_init.md R193 to R200; spec/45_ccp_engine.md R280; log 13). -/

namespace Sys2Proof.Machine

theorem poke_frame (s : State) (a : Nat) (b : Byte) : PortFrame s (s.poke a b) := by
  obtain ⟨m, hm⟩ := State.poke_eq s a b
  have hw := State.poke_wf s a b
  rw [hm] at hw ⊢
  exact ⟨rfl, rfl, rfl, rfl, rfl, rfl, rfl, rfl, rfl, rfl, rfl, rfl, rfl, id, hw⟩

theorem setFrmLen_frame (s : State) (n : Nat) : PortFrame s (s.setFrmLen n) :=
  ⟨rfl, rfl, rfl, rfl, rfl, rfl, rfl, rfl, rfl, rfl, rfl, rfl, rfl, id, id⟩

/-- A pending response byte changes buffer RAM only. -/
theorem fiStore_eq (k : Nat) (last : Option Byte) (s : State) : ∃ m, fiStore k last s = s.setRam m := by
  cases last with
  | none => exact ⟨s.ram, rfl⟩
  | some b => exact State.poke_eq s (frmBuf + (k - 1)) b

theorem fiStore_frame (k : Nat) (last : Option Byte) (s : State) : PortFrame s (fiStore k last s) := by
  cases last with
  | none => exact .refl s
  | some b => exact poke_frame s _ b

@[simp] theorem fiStore_none (k : Nat) (s : State) : fiStore k none s = s := rfl

theorem fiStore_peek (k : Nat) (b : Byte) (s : State) (a : Nat) (h : a ≠ frmBuf + (k - 1)) :
    (fiStore k (some b) s).peek a = s.peek a :=
  State.peek_poke_other s _ a b h

/-- The CRO's buffer write changes buffer RAM and FRMLEN only, and only in the step that follows the lock acquire. -/
theorem ccpBuffer_frame (cro : List Byte) (q : TxPos) (s : State) : PortFrame s (ccpBuffer cro q s) := by
  unfold ccpBuffer
  split
  · exact putFrame_frame cro s
  · exact .refl s

theorem ccpBuffer_other (cro : List Byte) (q : TxPos) (s : State) (h : q ≠ .syncSend) : ccpBuffer cro q s = s := by
  simp [ccpBuffer, h]

/-- A response window goes on with the next read, while the limit allows one, or comes to its end (R196, R200). -/
theorem fiWindow_cases (st : Strategy) (k : Nat) (last : Option Byte) (s : State) :
    k < s.regs.fiReadMax.toNat ∧ fiWindow st k last s = .read st k last
      ∨ s.regs.fiReadMax.toNat ≤ k ∧ fiWindow st k last s = fiWindowEnd st k last := by
  unfold fiWindow
  split
  · exact .inl ⟨‹_›, rfl⟩
  · exact .inr ⟨by omega, rfl⟩

/-- The end of a response window: bytes close it, a silent native one starts the alternate strategy, a silent alternate one
is NO_RESPONSE (R197, R198, R200). -/
theorem fiWindowEnd_cases (st : Strategy) (k : Nat) (last : Option Byte) :
    (∃ r, 1 ≤ k ∧ r ≠ .noResponse ∧ fiWindowEnd st k last = .close r k last)
      ∨ k = 0 ∧ st = .native ∧ fiWindowEnd st k last = .low .alternate
      ∨ k = 0 ∧ st = .alternate ∧ fiWindowEnd st k last = .close .noResponse 0 none := by
  unfold fiWindowEnd
  split
  · cases st
    · exact .inl ⟨.native, ‹_›, by decide, rfl⟩
    · exact .inl ⟨.alternate, ‹_›, by decide, rfl⟩
  · cases st
    · exact .inr (.inl ⟨by omega, rfl, rfl⟩)
    · exact .inr (.inr ⟨by omega, rfl, rfl⟩)

/-- The state a step of FastInit leaves, if one was taken. -/
def FiRes.state? : FiRes → Option State
  | .wait => none
  | .go _ s => some s
  | .done _ s => some s

/-- What no step of FastInit changes: it writes FRMBUF, FRMLEN, TX_WRITTEN, FI_RESULT, the port and the clock alone. -/
structure FiFrame (s t : State) : Prop where
  status : t.status = { s.status with fiResult := t.status.fiResult }
  regs : t.regs = s.regs
  outs : t.outs = { s.outs with frmLen := t.outs.frmLen, txWritten := t.outs.txWritten }
  cap : t.cap = s.cap
  lastAct : t.clock.lastAct = s.clock.lastAct
  op : t.op = s.op
  lock : t.lock = s.lock
  ka : t.ka = s.ka
  own : t.sched = s.sched ∧ t.hostData = s.hostData ∧ t.draws = s.draws ∧ t.epoch = s.epoch

theorem FiFrame.refl (s : State) : FiFrame s s := ⟨rfl, rfl, rfl, rfl, rfl, rfl, rfl, rfl, rfl, rfl, rfl, rfl⟩

/-- A clock move changes NOW_US only. -/
theorem moveClock_eq (s : State) (limit : Nat) (t : Time) :
    ∃ c, s.moveClock limit t = s.setClock c ∧ c.lastAct = s.clock.lastAct := by
  unfold State.moveClock
  generalize (if t.toNat ≤ limit then t else BitVec.ofNat 64 limit) = u
  show ∃ c, (if s.clock.now.toNat ≤ u.toNat then s.setClock { s.clock with now := u } else s) = s.setClock c ∧ _
  split
  · exact ⟨_, rfl, rfl⟩
  · exact ⟨s.clock, rfl, rfl⟩

theorem moveClock_fiFrame (limit : Nat) (t : Time) (s : State) : FiFrame s (s.moveClock limit t) := by
  obtain ⟨c, hc, hl⟩ := moveClock_eq s limit t
  rw [hc]
  exact ⟨rfl, rfl, rfl, rfl, hl, rfl, rfl, rfl, rfl, rfl, rfl, rfl⟩

theorem holdStep_fiFrame (n : Nat) (self after : FiPos) (s t : State) (h : (holdStep n self after s).state? = some t) :
    FiFrame s t := by
  unfold holdStep at h
  split at h
  · simp only [FiRes.state?, Option.some.injEq] at h
    exact h ▸ .refl s
  · split at h
    · simp [FiRes.state?] at h
    · simp only [FiRes.state?, Option.some.injEq] at h
      subst h
      obtain ⟨h1, h2, h3, h4, h5, h6, h7, h8, h9⟩ := moveClock_fiFrame (holdLimit n) _ (s.setEnv _)
      exact ⟨h1, h2, h3, h4, h5, h6, h7, h8, h9⟩

/-- Everything one step of FastInit can change. -/
theorem fiStep_frame (frame : List Byte) (p : FiPos) (s t : State) (h : (fiStep frame p s).state? = some t) :
    FiFrame s t := by
  unfold fiStep at h
  cases p with
  | setTimeout =>
    simp only [FiRes.state?, Option.some.injEq] at h
    exact h ▸ ⟨rfl, rfl, rfl, rfl, rfl, rfl, rfl, rfl, rfl, rfl, rfl, rfl⟩
  | low st =>
    simp only [FiRes.state?, Option.some.injEq] at h
    cases st <;> exact h ▸ ⟨rfl, rfl, rfl, rfl, rfl, rfl, rfl, rfl, rfl, rfl, rfl, rfl⟩
  | holdLow st n => exact holdStep_fiFrame _ _ _ _ _ h
  | high st n =>
    simp only [FiRes.state?, Option.some.injEq] at h
    cases st <;> exact h ▸ ⟨rfl, rfl, rfl, rfl, rfl, rfl, rfl, rfl, rfl, rfl, rfl, rfl⟩
  | holdHigh st n => exact holdStep_fiFrame _ _ _ _ _ h
  | release n =>
    simp only [FiRes.state?, Option.some.injEq] at h
    exact h ▸ ⟨rfl, rfl, rfl, rfl, rfl, rfl, rfl, rfl, rfl, rfl, rfl, rfl⟩
  | send st n =>
    unfold portWrite at h
    cases hw : s.env.writeAns <;> simp only [hw, FiRes.state?, Option.some.injEq, reduceCtorEq] at h
    exact h ▸ ⟨rfl, rfl, rfl, rfl, rfl, rfl, rfl, rfl, rfl, rfl, rfl, rfl⟩
  | read st k last =>
    obtain ⟨m, hm⟩ := fiStore_eq k last s
    simp only [hm, portRead] at h
    cases hl : lineTake 1 s.env.lineIn <;>
      simp only [hl, State.setRam_env, FiRes.state?, Option.some.injEq, reduceCtorEq] at h <;>
      exact h ▸ ⟨rfl, rfl, rfl, rfl, rfl, rfl, rfl, rfl, rfl, rfl, rfl, rfl⟩
  | close r k last =>
    obtain ⟨m, hm⟩ := fiStore_eq k last s
    simp only [hm, FiRes.state?, Option.some.injEq] at h
    exact h ▸ ⟨rfl, rfl, rfl, rfl, rfl, rfl, rfl, rfl, rfl, rfl, rfl, rfl⟩

end Sys2Proof.Machine
end

