-- ==== Sys2Proof/Laws/Run.lean ====
section
/-! SUPPORT. The run of an operation: one turn of `runOp`, and the two ways to reason about all of it: an invariant that
every atomic step keeps, and a chain of steps that are known (spec/20_memory.md R90; log 1, 28). -/

namespace Sys2Proof.Machine

theorem runOp_zero (f : Pos → State → Micro) (s : State) : runOp f 0 s = .next s := rfl

/-- An operation that has ended stays ended. -/
theorem runOp_idle (f : Pos → State → Micro) (n : Nat) (s : State) (h : s.op = none) : runOp f n s = .next s := by
  cases n with
  | zero => rfl
  | succ n => simp [runOp, h]

/-- One known step of the sequencer. -/
theorem runOp_go (f : Pos → State → Micro) (n : Nat) (s t : State) (o : Op) (ho : s.op = some o)
    (hf : f o.pos s = .go t) : runOp f (n + 1) s = runOp f n t := by
  simp [runOp, ho, hf]

/-- The sequencer waits for the environment. -/
theorem runOp_wait (f : Pos → State → Micro) (n : Nat) (s : State) (o : Op) (ho : s.op = some o)
    (hf : f o.pos s = .waitEnv) : runOp f n s = .next s := by
  cases n with
  | zero => rfl
  | succ n => simp [runOp, ho, hf]

/-- The sequencer waits for the keep-alive task, which has no step either. -/
theorem runOp_blocked (f : Pos → State → Micro) (n : Nat) (s : State) (o : Op) (ho : s.op = some o)
    (hf : f o.pos s = .waitTask) (hk : kaStep s = none) : runOp f n s = .next s := by
  cases n with
  | zero => rfl
  | succ n => simp [runOp, ho, hf, hk]

/-- The sequencer waits for the keep-alive task, which takes a step. -/
theorem runOp_task (f : Pos → State → Micro) (n : Nat) (s t : State) (o : Op) (ho : s.op = some o)
    (hf : f o.pos s = .waitTask) (hk : kaStep s = some t) : runOp f (n + 1) s = runOp f n t := by
  simp [runOp, ho, hf, hk]

/-- A property that every atomic step of the operation and every step of the keep-alive task keeps is kept by a run. -/
theorem runOp_keeps (f : Pos → State → Micro) (P : State → Prop)
    (hf : ∀ s t o, P s → s.op = some o → f o.pos s = .go t → P t)
    (hk : ∀ s t, P s → kaStep s = some t → P t) :
    ∀ n s t, P s → runOp f n s = .next t → P t := by
  intro n
  induction n with
  | zero =>
    intro s t hs h
    simp only [runOp, Host.Outcome.next.injEq] at h
    exact h ▸ hs
  | succ n ih =>
    intro s t hs h
    cases ho : s.op with
    | none =>
      simp only [runOp, ho, Host.Outcome.next.injEq] at h
      exact h ▸ hs
    | some o =>
      simp only [runOp, ho] at h
      cases hm : f o.pos s with
      | go u => rw [hm] at h; exact ih u t (hf s u o hs ho hm) h
      | waitEnv =>
        rw [hm] at h
        simp only [Host.Outcome.next.injEq] at h
        exact h ▸ hs
      | waitTask =>
        rw [hm] at h
        cases hkk : kaStep s with
        | none =>
          rw [hkk] at h
          simp only [Host.Outcome.next.injEq] at h
          exact h ▸ hs
        | some u => rw [hkk] at h; exact ih u t (hk s u hs hkk) h
      | lost => rw [hm] at h; simp at h

/-- A run never refuses. -/
theorem runOp_not_refused (f : Pos → State → Micro) (n : Nat) (s : State) (r : Refusal) : runOp f n s ≠ .refused r := by
  induction n generalizing s with
  | zero => simp [runOp]
  | succ n ih =>
    simp only [runOp]
    split
    · simp
    · split
      · exact ih _
      · simp
      · split
        · exact ih _
        · simp
      · simp

/-- A run faults only where some reached position is not one of the operation's. -/
theorem runOp_no_fault (f : Pos → State → Micro) (P : State → Prop)
    (hl : ∀ s o, P s → s.op = some o → f o.pos s ≠ .lost)
    (hf : ∀ s t o, P s → s.op = some o → f o.pos s = .go t → P t)
    (hk : ∀ s t, P s → kaStep s = some t → P t) :
    ∀ n s r, P s → runOp f n s ≠ .fault r := by
  intro n
  induction n with
  | zero => intro s r _ h; simp [runOp] at h
  | succ n ih =>
    intro s r hs h
    cases ho : s.op with
    | none => simp [runOp, ho] at h
    | some o =>
      simp only [runOp, ho] at h
      cases hm : f o.pos s with
      | go u => rw [hm] at h; exact ih u r (hf s u o hs ho hm) h
      | waitEnv => rw [hm] at h; simp at h
      | waitTask =>
        rw [hm] at h
        cases hkk : kaStep s with
        | none => rw [hkk] at h; simp at h
        | some u => rw [hkk] at h; exact ih u r (hk s u hs hkk) h
      | lost => exact hl s o hs ho hm

/-- Every meaning is the run of its own atomic step. -/
theorem exec_eq (i : Instr) (s : State) : exec i s = runOp (opStep i) (runBudget s) s := by
  cases i <;> rfl

theorem runBudget_pos (s : State) : ∃ n, runBudget s = n + 1 := ⟨2 * s.env.pending + 63, rfl⟩

end Sys2Proof.Machine
end

