-- ==== Sys2Proof/Tests/Slice0.lean ====
section
/-! SUPPORT. The author's own tests: ill-formed terms for each check, operation words written bit by bit, one-step tests
with the values of spec/95_test_vectors.md, and for each statement with hypotheses a witness that meets them. -/

namespace Sys2Proof.Tests

open Sys2Proof Sys2Proof.Machine

/-! ### Ill-formed terms are refused -/

theorem test_ccpExec_refused_on_kline : Instr.allowedUnder .kwpKline .ccpExec = false := by decide
theorem test_ccpExec_refused_on_kwpCan : Instr.allowedUnder .kwpCan .ccpExec = false := by decide
theorem test_fiSeq_refused_on_can : Instr.allowedUnder .kwpCan .fiSeq = false := by decide
theorem test_kwpInit_refused_on_ccp : Instr.allowedUnder .ccpCan .kwpInit = false := by decide
theorem test_kwpExec_refused_on_ccp : Instr.allowedUnder .ccpCan .kwpExec = false := by decide

/-- 95_test_vectors.md 2.11: the refused codes beside each range of the table. -/
theorem test_illegal_words : [0x00#32, 0x04#32, 0x12#32, 0x22#32, 0x31#32, 0x43#32, 0x52#32, 0x61#32, 0x7F#32, 0xFF#32].all
    (fun w => !cmdWordOk w) = true := by decide

theorem test_pduLen_0_refused : pduLenOk 0 = false := by decide
theorem test_pduLen_256_refused : pduLenOk 256 = false := by decide
theorem test_ccpLen_0_refused : ccpLenOk 0 = false := by decide
theorem test_ccpLen_8_refused : ccpLenOk 8 = false := by decide
theorem test_canData_9_refused : canDataOk [0, 0, 0, 0, 0, 0, 0, 0, 0] = false := by decide
theorem test_ccpFrame_7_refused : ccpFrameOk [0, 0, 0, 0, 0, 0, 0] = false := by decide

/-- A counter below 0x80, a counted length that is not the frame's, a wrong checksum, a long form with 126 bytes or less,
and the counter 0xFF the encoder never emits. -/
theorem test_klFrame_refused :
    [[0x7F#8, 0x11, 0xF1, 0x1A, 0x9B], [0x82, 0x11, 0xF1, 0x1A, 0x9E], [0x81, 0x11, 0xF1, 0x1A, 0x9E],
      [0x80, 0x11, 0xF1, 0x01, 0x1A, 0x9D], [0x81, 0x11], [0xFF, 0x11, 0xF1, 0x1A, 0x1B]].all
      (fun f => !klFrameOk f) = true := by decide

theorem test_klFrame_accepted : klFrameOk [0x81, 0x11, 0xF1, 0x1A, 0x9D] = true := by decide

/-! ### Words written out from the encoding table -/

theorem test_word_open : decode 0b00000000000000000000000000000001#32 = .ok .openPort := by rfl
theorem test_word_close : decode 0b00000000000000000000000000000010#32 = .ok .closePort := by rfl
theorem test_word_capDump : decode 0b00000000000000000000000000000011#32 = .ok .capDump := by rfl
theorem test_word_klEnc : decode 0b00000000000000000000000000010000#32 = .ok .klEnc := by rfl
theorem test_word_klParse : decode 0b00000000000000000000000000010001#32 = .ok .klParse := by rfl
theorem test_word_croEnc : decode 0b00000000000000000000000000100000#32 = .ok .croEnc := by rfl
theorem test_word_dtoDec : decode 0b00000000000000000000000000100001#32 = .ok .dtoDec := by rfl
theorem test_word_fiSeq : decode 0b00000000000000000000000000110000#32 = .ok .fiSeq := by rfl
theorem test_word_tpSend : decode 0b00000000000000000000000001000000#32 = .ok .tpSend := by rfl
theorem test_word_tpRecv : decode 0b00000000000000000000000001000001#32 = .ok .tpRecv := by rfl
theorem test_word_tpSr : decode 0b00000000000000000000000001000010#32 = .ok .tpSr := by rfl
theorem test_word_kwpInit : decode 0b00000000000000000000000001010000#32 = .ok .kwpInit := by rfl
theorem test_word_kwpExec : decode 0b00000000000000000000000001010001#32 = .ok .kwpExec := by rfl
theorem test_word_ccpExec : decode 0b00000000000000000000000001100000#32 = .ok .ccpExec := by rfl

/-- Bits 31:8 are ignored: 0x00001210 is KL_ENC (95_test_vectors.md 2.11). -/
theorem test_word_high_bits : decode 0x00001210 = .ok .klEnc := by rfl

theorem test_word_unknown : decode 0x0000007F = .error (.unknownOpcode 0x7F) := by rfl

/-- The host's two readings of a table row agree with the decoder. -/
theorem test_fetch_word : decodeTableWord 8 0x51 = some .kwpExec ∧ decodeTableWord 32 0x51 = some .kwpExec
    ∧ fetch (State.reset.withFetchWord 8 0x51) = some (.ok .kwpExec) := by decide

/-! ### Small states -/

/-- The default setup of 95_test_vectors.md section 2, port open, under a PROTO; `len` is TXLEN, `tx` TXBUF. -/
def up (p : Proto) (tx : List Byte) : State :=
  { State.reset with
    status := { Status.reset with portOpen := true }
    regs := { Regs.reset with
      ctrl := { proto := p, klChkVerify := false, kaEn := false }
      klTxHdr := 0x11F1, klRxHdr := 0xF111, canTxId := 0x7E0, canRxId := 0x7E8, canRxMask := 0x7FF
      txLen := BitVec.ofNat 9 tx.length }
    ram := ([] : Memory) } |>.memWrite 0x000 tx

/-- The same with the engine Ready. -/
def ready (p : Proto) (tx : List Byte) : State :=
  (up p tx).setStatus { (up p tx).status with engReady := true }

/-- FRMBUF and FRMLEN. -/
def framed (f : List Byte) (s : State) : State := putFrame f s

/-- STARTBUF and STARTLEN. -/
def startCmd (d : List Byte) (s : State) : State :=
  let s := s.memWrite 0x400 d
  s.setRegs { s.regs with startLen := BitVec.ofNat 9 d.length }

/-- Bytes on the K-Line. -/
def onLine (bs : List Byte) : List LineItem := bs.map .byte

/-- The operation just started. -/
def begun (i : Instr) (s : State) : State := startOp (opcode i) s

/-- What the operation comes to, run from the start. -/
def ran (i : Instr) (s : State) : State :=
  match exec i (begun i s) with
  | .next t => t
  | .fault _ => s
  | .refused _ => s

/-- The primitives performed, oldest first. -/
def made (s : State) : List PortCall := (s.port.log.map PortEvent.call).reverse

/-! ### One operation each (95_test_vectors.md) -/

/-- 2.1, W7. -/
theorem test_klEnc : (ran .klEnc (up .kwpKline [0x1A, 0x8C])).memRead 0x200 6 = [0x82, 0x11, 0xF1, 0x1A, 0x8C, 0x2A]
    ∧ (ran .klEnc (up .kwpKline [0x1A, 0x8C])).outs.frmLen = 6 := by decide

/-- 2.1: TXLEN = 300 is ARGUMENT(KL_LEN) with CODE 0x2C. -/
theorem test_klEnc_long :
    let s := (up .kwpKline []).setRegs { (up .kwpKline []).regs with txLen := 300 }
    (ran .klEnc s).outs.errCode = 0x0106 ∧ (ran .klEnc s).outs.errInfo = 0x2C := by decide

/-- 2.2: a foreign frame first. -/
theorem test_klParse_foreign :
    let t := ran .klParse (framed [0x81, 0x12, 0x34, 0x5A, 0x21, 0x84, 0xF1, 0x11, 0x5A, 0x8C, 0x01, 0x02, 0x6F]
      (up .kwpKline []))
    t.memRead 0x100 4 = [0x5A, 0x8C, 0x01, 0x02] ∧ t.outs.rxLen = 4 ∧ t.outs.respStatus = 0x5A := by decide

/-- 2.2: a wrong checksum with verify on. -/
theorem test_klParse_checksum :
    let s := framed [0x84, 0xF1, 0x11, 0x5A, 0x8C, 0x01, 0x02, 0x00] (up .kwpKline [])
    let t := ran .klParse (s.setRegs { s.regs with ctrl := { s.regs.ctrl with klChkVerify := true } })
    t.outs.errCode = 0x0107 ∧ t.outs.errInfo = 0x6F00 ∧ t.status.word = 0x2E := by decide

/-- 2.3. -/
theorem test_croEnc :
    let s := up .kwpKline [0x01, 0x12, 0x34]
    let t := ran .croEnc (s.setOuts { s.outs with ccpCtr := 5 })
    t.memRead 0x200 8 = [0x01, 0x05, 0x12, 0x34, 0, 0, 0, 0] ∧ t.outs.frmLen = 8 ∧ t.outs.ccpCtr = 5 := by decide

/-- 2.3. -/
theorem test_dtoDec :
    let t := ran .dtoDec (framed [0x20, 0x00, 0x7A, 0x01, 0x02, 0x03, 0x04, 0x05] (up .kwpKline []))
    t.memRead 0x100 6 = [0x00, 0x01, 0x02, 0x03, 0x04, 0x05] ∧ t.outs.dtoInfo = 0x7A20 ∧ t.outs.rxLen = 6 := by decide

/-- 2.3: FRMLEN 7 is TIMEOUT(DTO_SHORT). -/
theorem test_dtoDec_short :
    let t := ran .dtoDec (framed [0, 0, 0, 0, 0, 0, 0] (up .kwpKline []))
    t.outs.errCode = 0x0602 ∧ t.outs.errInfo = 7 := by decide

/-- 2.5, OPEN under CCP. -/
theorem test_open :
    let s := up .ccpCan []
    let s := s.setStatus { s.status with portOpen := false }
    let t := ran .openPort (s.setEnv { s.env with openAns := [true] })
    made t = [.openPort, .setTimeout 2000, .setFilters [(0x7E8, 0x7FF)]] ∧ t.status.word = 0x22 := by decide

/-- 2.5, OPEN fails. -/
theorem test_open_fails :
    let t := ran .openPort (State.reset.setEnv { State.reset.env with openAns := [false] })
    t.outs.errCode = 0x0001 ∧ t.status.word = 0x0E := by decide

/-- 2.8, CLOSE. -/
theorem test_close :
    let t := ran .closePort (ready .kwpKline [])
    made t = [.closePort] ∧ t.status.word = 0x02 := by decide

/-- 2.9, CLOSE while the task waits: STATUS 0x1102. -/
theorem test_close_stops_task :
    let s := ready .kwpKline []
    let s := (s.setStatus { s.status with kaRun := true, fiResult := .native }).setPhase (.wait 4000000)
    (ran .closePort s).status.word = 0x1102 := by decide

/-- 2.6, CAPACITY 1. -/
theorem test_capDump :
    let s := up .kwpKline []
    let s := s.setRegs { s.regs with capCfg := 1 }
    let t := ran .capDump (capPush .incoming [0x5A, 0x8C, 0x01, 0x02] (capPush .outgoing [0x1A, 0x8C] s))
    t.cap = { live := [], dumped := [{ dir := .incoming, bytes := [0x5A, 0x8C, 0x01, 0x02], ts := 0 }] }
      ∧ t.outs.capdCount = 1 ∧ t.outs.capCount = 0 := by decide

/-- 2.4, the native strategy is answered. -/
theorem test_fiSeq :
    let s := startCmd [0x81] (up .kwpKline [])
    let t := ran .fiSeq (s.setEnv { s.env with
      writeAns := [5], clockIn := [25000, 50000], lineIn := onLine [0x83, 0xF1, 0x11, 0xC1, 0xEF, 0x8F, 0xC4] ++ [.gap] })
    made t = [.setTimeout 400, .brk true, .brk false, .write [0x81, 0x11, 0xF1, 0x81, 0x04]] ++ List.replicate 8 (.read 1)
        ++ [.setTimeout 2000]
      ∧ t.memRead 0x200 7 = [0x83, 0xF1, 0x11, 0xC1, 0xEF, 0x8F, 0xC4] ∧ t.outs.frmLen = 7
      ∧ t.status.word = 0x1022 := by decide

/-- 2.4, both strategies silent. -/
theorem test_fiSeq_silent :
    let s := startCmd [0x81] (up .kwpKline [])
    let t := ran .fiSeq (s.setEnv { s.env with
      writeAns := [5, 5], clockIn := [25000, 50000, 75000, 100000], lineIn := [.gap, .gap] })
    t.outs.errCode = 0x0202 ∧ t.outs.frmLen = 0 ∧ t.status.fiResult = .noResponse ∧ t.port.line = .uart := by decide

/-- 2.5, TP_SEND over the K-Line with a short write. -/
theorem test_tpSend :
    let s := up .kwpKline [0x1A, 0x8C]
    let t := ran .tpSend (s.setEnv { s.env with writeAns := [3] })
    made t = [.write [0x82, 0x11, 0xF1, 0x1A, 0x8C, 0x2A]] ∧ t.outs.txWritten = 3 ∧ t.outs.frmLen = 6
      ∧ t.cap.live = [{ dir := .outgoing, bytes := [0x1A, 0x8C], ts := 0 }] := by decide

/-- R36: over ISO-TP the PDU goes out under CAN_TX_ID. -/
theorem test_tpSend_iso : made (ran .tpSend (up .kwpCan [0x1A, 0x8C])) = [.isoTpSend 0x7E0 [0x1A, 0x8C]] := by decide

/-- 2.5, TP_SEND on a closed port. -/
theorem test_tpSend_closed : (ran .tpSend State.reset).outs.errCode = 0x0009 := by decide

/-- 2.5, TP_RECV of a short CAN frame. -/
theorem test_tpRecv_can_short :
    let s := up .ccpCan []
    let t := ran .tpRecv (s.setEnv { s.env with canIn := [.data [0xFF, 0x00, 0x05, 0xAA, 0xBB]] })
    t.outs.errCode = 0x0302 ∧ t.outs.errInfo = 5 ∧ t.outs.frmLen = 0 := by decide

/-- 2.5, TP_RECV over the K-Line: three bytes, then silence. -/
theorem test_tpRecv_partial :
    let s := up .kwpKline []
    let t := ran .tpRecv (s.setEnv { s.env with lineIn := onLine [0x84, 0xF1, 0x11] ++ [.gap, .byte 0x55] })
    t.outs.errCode = 0x0102 ∧ t.env.lineIn = [.byte 0x55] ∧ t.cap.live = [] := by decide

/-- 2.5, TP_SR over the K-Line. -/
theorem test_tpSr :
    let s := up .kwpKline [0x1A, 0x8C]
    let t := ran .tpSr (s.setEnv { s.env with writeAns := [6], lineIn := onLine [0x82, 0xF1, 0x11, 0x5A, 0x8C, 0x6A] })
    t.memRead 0x200 6 = [0x82, 0xF1, 0x11, 0x5A, 0x8C, 0x6A] ∧ t.memRead 0x100 2 = [0x5A, 0x8C]
      ∧ t.cap.live = [{ dir := .outgoing, bytes := [0x1A, 0x8C], ts := 0 },
        { dir := .incoming, bytes := [0x5A, 0x8C], ts := 0 }] := by decide

/-- 2.5, TP_SR under CCP with no reply: the send's effects stay. -/
theorem test_tpSr_silent :
    let s := framed [0x01, 0x05, 0x12, 0x34, 0, 0, 0, 0] (up .ccpCan [])
    let t := ran .tpSr (s.setEnv { s.env with canIn := [.timeout] })
    made t = [.canWrite 0x7E0 [0x01, 0x05, 0x12, 0x34, 0, 0, 0, 0], .canRead] ∧ t.outs.errCode = 0x0302
      ∧ t.outs.txWritten = 8 ∧ t.lock = .free := by decide

/-- 2.8, K-Line init from a closed port: STATUS 0x1062. -/
theorem test_kwpInit :
    let s := startCmd [0x81] ((up .kwpKline []).setStatus Status.reset)
    let t := ran .kwpInit (s.setEnv { s.env with
      openAns := [true], writeAns := [5], clockIn := [25000, 50000]
      lineIn := onLine [0x83, 0xF1, 0x11, 0xC1, 0xEF, 0x8F, 0xC4] ++ [.gap, .gap] })
    t.status.word = 0x1062 ∧ t.outs.frmLen = 7 ∧ t.cap.live = [] := by decide

/-- 2.8, KA_EN 1 with KALEN 0. -/
theorem test_kwpInit_kaLen :
    let s := startCmd [0x81] (up .kwpKline [])
    (ran .kwpInit (s.setRegs { s.regs with ctrl := { s.regs.ctrl with kaEn := true } })).outs.errCode = 0x0406 := by decide

/-- W4: two pending replies, then a positive one: one write, twelve reads. -/
theorem test_kwpExec_pending :
    let s := ready .kwpKline [0x1A, 0x8C]
    let p : List Byte := [0x83, 0xF1, 0x11, 0x7F, 0x1A, 0x78, 0x96]
    let t := ran .kwpExec (s.setEnv { s.env with
      writeAns := [6], lineIn := onLine (p ++ p ++ [0x84, 0xF1, 0x11, 0x5A, 0x8C, 0x01, 0x02, 0x6F]) })
    t.memRead 0x100 4 = [0x5A, 0x8C, 0x01, 0x02] ∧ t.outs.rxLen = 4 ∧ t.outs.errCode = 0 ∧ t.cap.live.length = 4
      ∧ made t = [.write [0x82, 0x11, 0xF1, 0x1A, 0x8C, 0x2A], .read 1, .read 2, .read 3, .read 1, .read 1, .read 2, .read 3,
        .read 1, .read 1, .read 2, .read 4, .read 1] := by decide

/-- W5: a negative reply. -/
theorem test_kwpExec_negative :
    let s := ready .kwpCan [0x1A, 0x8C]
    let t := ran .kwpExec (s.setEnv { s.env with isoIn := [.data [0x7F, 0x1A, 0x11]] })
    t.outs.errCode = 0x0003 ∧ t.outs.errInfo = 0x1A11 ∧ t.memRead 0x100 3 = [0x7F, 0x1A, 0x11] ∧ t.lock = .free := by decide

/-- 2.10: the counter wraps and is sent as it was before. -/
theorem test_ccpExec_wrap :
    let s := up .ccpCan [0x01, 0x12, 0x34]
    let t := ran .ccpExec ((s.setOuts { s.outs with ccpCtr := 0xFF }).setEnv { s.env with
      canIn := [.data [0xFF, 0x00, 0xFF, 0, 0, 0, 0, 0]] })
    made t = [.canWrite 0x7E0 [0x01, 0xFF, 0x12, 0x34, 0, 0, 0, 0], .canRead] ∧ t.outs.ccpCtr = 0
      ∧ t.outs.dtoInfo = 0xFFFF ∧ t.outs.errCode = 0 := by decide

/-- W8: return code 0x33. -/
theorem test_ccpExec_negative :
    let s := up .ccpCan [0x01, 0x12, 0x34]
    let t := ran .ccpExec ((s.setOuts { s.outs with ccpCtr := 1 }).setEnv { s.env with
      canIn := [.data [0xFF, 0x33, 0x01, 0, 0, 0, 0, 0]] })
    t.outs.errCode = 0x0004 ∧ t.outs.errInfo = 0x00040133 ∧ t.outs.ccpCtr = 2 ∧ t.outs.dtoInfo = 0x01FF := by decide

/-! ### The host interface, the codec and the task -/

/-- 2.11: CTRL is WARL in PROTO, and PROTO is fixed while the port is open. -/
theorem test_ctrl_warl : (hostStep (.write 0x008 0x00000003) State.reset).regs.ctrl = Regs.reset.ctrl
    ∧ (hostStep (.write 0x008 0x00000006) (up .kwpKline [])).regs.ctrl
      = { proto := .kwpKline, klChkVerify := true, kaEn := false } := by decide

/-- 2.11: misaligned, unmapped and CMD reads; a byte of BUFRAM keeps bits 7:0. -/
theorem test_host_reads : (hostStep (.read 0x006) (up .kwpKline [])).hostData = 0
    ∧ (hostStep (.read 0x098) (up .kwpKline [])).hostData = 0
    ∧ (hostStep (.read 0x1000) (hostStep (.write 0x1000 0x1234) State.reset)).hostData = 0x34 := by decide

/-- P4: a write to TXLEN while TP_RECV waits is lost and sets OVERRUN. -/
theorem test_overrun : (hostStep (.write 0x02C 5) (begun .tpRecv (up .kwpKline []))).status.word = 0x31
    ∧ (hostStep (.write 0x02C 5) (begun .tpRecv (up .kwpKline []))).regs.txLen = 0 := by decide

/-- W2: the counter of 126 and of 127 bytes, and their checksums. -/
theorem test_klEncode_boundary :
    let d := fun n => (List.range n).map (BitVec.ofNat 8)
    (klEncode 0x11F1 (d 126)).take 3 = [0xFE, 0x11, 0xF1] ∧ (klEncode 0x11F1 (d 126)).getLast? = some 0xC3
      ∧ (klEncode 0x11F1 (d 127)).take 4 = [0x80, 0x11, 0xF1, 0x7F] ∧ (klEncode 0x11F1 (d 127)).getLast? = some 0x42 := by
  decide +kernel

/-- 2.7: service 0x3F, whose positive status is the negative marker. -/
theorem test_classify_3F : kwpClassify 0x3F [0x7F, 0x3F, 0x78] = .positive
    ∧ kwpClassify 0xC0 [0x00] = .error (.violation .unexpectedStatus 0x00) := by decide

/-- A task that waits for 1 ms after its last activity. -/
def tasked (last now : Time) : State :=
  let s := ready .kwpCan []
  ((s.setStatus { s.status with kaRun := true }).setKa { phase := .wait 1000, stopReq := false, pdu := [0x3E] }).setClock
    { s.clock with now := now, lastAct := last }

/-- 2.9: an idle time of exactly KA_IDLE_MS sends nothing; the next wait starts at once. -/
theorem test_task_strict :
    (taskTurn (taskTurn (tasked 500000 2000000))).ka.phase = .wait 3000000
      ∧ made (taskTurn (taskTurn (tasked 500000 2000000))) = [] := by decide

/-- 2.9: the lock is taken one microsecond later. -/
theorem test_task_ticks : (taskTurn (taskTurn (tasked 500000 2000001))).lock = .ka := by decide

/-! ### Witnesses: for each statement with hypotheses, a state and operands that meet them together -/

/-- The invariant as a test. -/
def invCheck (s : State) : Bool :=
  decide (Memory.wf s.ram = true ∧ s.status.busy = s.op.isSome
    ∧ (s.status.busy = true → s.status.done = false ∧ s.status.err = false)
    ∧ (s.status.err = true → s.status.done = true) ∧ (s.status.err = true ↔ s.outs.errCode ≠ 0)
    ∧ (s.status.err = false → s.outs.errInfo = 0) ∧ s.status.kaRun = s.ka.phase.exists
    ∧ s.status.kaActive = s.ka.phase.ticking ∧ (s.status.engReady = true → s.status.portOpen = true)
    ∧ (s.status.engReady = true → s.regs.ctrl.proto ≠ .ccpCan) ∧ (s.ka.phase.exists = true → s.status.engReady = true)
    ∧ (s.ka.phase.exists = true → 1 ≤ s.ka.pdu.length ∧ s.ka.pdu.length ≤ 255) ∧ s.ka.phase.sized = true
    ∧ (s.ka.stopReq = true → s.ka.phase.exists = true) ∧ (s.lock = .seq ↔ seqInside s = true)
    ∧ (s.lock = .ka ↔ kaInside s = true) ∧ s.outs.capCount = BitVec.ofNat 32 s.cap.live.length
    ∧ s.outs.capdCount = BitVec.ofNat 32 s.cap.dumped.length
    ∧ (s.regs.canTxId &&& 0x60000000 = 0 ∧ s.regs.canRxId &&& 0x60000000 = 0)
    ∧ s.clock.lastAct.toNat ≤ s.clock.now.toNat
    ∧ (s.outs.errCode &&& 0xFFFF0000#32 = 0 ∧ s.outs.errInfo &&& 0xFFF80000#32 = 0)
    ∧ s.port.line = lineNow s ∧ s.nowUs ≤ clockLimit s)
  && match s.op with
    | none => true
    | some o =>
      opOk s.regs o && (o.pos != .stopped || !s.ka.phase.exists || s.ka.stopReq)
      && match decodeCode o.code with
        | .error _ => true
        | .ok i => (!aloneAt i o.pos || s.ka.phase == .off) && (!portUpAt i o.pos || s.status.portOpen)

theorem inv_of_check (s : State) (h : invCheck s = true) : s.Inv := by
  unfold invCheck at h
  rw [Bool.and_eq_true] at h
  obtain ⟨h1, h2⟩ := h
  have h1 := of_decide_eq_true h1
  obtain ⟨a1, a2, a3, a4, a5, a6, a7, a8, a9, a10, a11, a12, a13, a14, a15, a16, a17, a18, a19, a20, a21, a22, a23⟩ := h1
  refine
    { ram := a1, busy := a2, running := a3, errDone := a4, errCode := a5, errInfo := a6, pos := ?_, kaRun := a7
      kaActive := a8, ready := a9, kwp := a10, task := a11, command := a12, kaSized := a13, stop := a14, lockSeq := a15
      lockKa := a16, alone := ?_, portUp := ?_, capCount := a17, capdCount := a18, canIds := a19, lastAct := a20
      errWords := a21, line := a22, precise := a23, stopping := ?_ }
  · intro o ho
    simp only [ho, Bool.and_eq_true] at h2
    exact h2.1.1
  · intro o i ho hi ha
    simp only [ho, hi, ha, Bool.and_eq_true] at h2
    simpa using h2.2.1
  · intro o i ho hi ha
    simp only [ho, hi, ha, Bool.and_eq_true] at h2
    simpa using h2.2.2
  · intro c ho he
    simp only [ho, he, Bool.and_eq_true] at h2
    simpa using h2.1.2

/-- The state an outcome ends in, or `d`. -/
def endState (d : State) : Host.Outcome State Fault Refusal → State
  | .next t => t
  | .fault _ => d
  | .refused _ => d

/-- An outcome is a next state. -/
def isNext : Host.Outcome State Fault Refusal → Bool
  | .next _ => true
  | .fault _ => false
  | .refused _ => false

theorem next_of {o : Host.Outcome State Fault Refusal} (d : State) (h : isNext o = true) : o = .next (endState d o) := by
  cases o <;> simp_all [isNext, endState]

/-- The state after some atomic steps of the sequencer. -/
def atoms (n : Nat) (s : State) : State := endState s (runEvents (List.replicate n .atom) s)

/-- The state after one event. -/
def after (e : Event) (s : State) : State := endState s (eventStep e s)

/-- A schedule. -/
def sch (es : List Event) (s : State) : State := s.setSched es

/-- KL_ENC started with two bytes in TXBUF. -/
def klEncS : State := begun .klEnc (up .kwpKline [0x1A, 0x8C])

/-- FI_SEQ or KWP_INIT started on an open K-Line port, answers given. -/
def fiS (i : Instr) (line : List LineItem) (reads : List Time) (writes : List Int) : State :=
  let s := begun i (startCmd [0x81] (up .kwpKline []))
  s.setEnv { s.env with lineIn := line, clockIn := reads, writeAns := writes }

/-- A dump of one record of 255 bytes. -/
def dumpS : State := ran .capDump (capPush .incoming (List.replicate 255 0xAB) (up .kwpKline []))

/-- A Ready engine whose task is inside a tick. -/
def tickS (p : TickPos) (l : Lock) : State :=
  let s := (tasked 500000 2000001).setLock l
  (s.setStatus { s.status with kaActive := true }).setPhase (.tick p)

/-- KWP_EXEC over ISO-TP with a positive reply, just before it classifies. -/
def gotS : State :=
  let s := begun .kwpExec (ready .kwpCan [0x1A, 0x8C])
  atoms 5 ((s.setClock { s.clock with now := 7 }).setEnv { s.env with isoIn := [.data [0x5A, 0x8C]] })

/-- CCP_EXEC with a reply waiting. -/
def ccpS (x : RxItem) (tx : List Byte) : State :=
  let s := begun .ccpExec (up .ccpCan tx)
  s.setEnv { s.env with canIn := [x] }

/-! ### Pure writes take place in the step that follows the primitive (R90) -/

/-- CCP_EXEC: the CRO lands in FRMBUF in the step after the one that takes the lock. -/
theorem test_r90_ccpExec : (atoms 1 (ccpS .timeout [0x01])).lock = .seq ∧ (atoms 1 (ccpS .timeout [0x01])).outs.frmLen = 0
    ∧ (atoms 2 (ccpS .timeout [0x01])).outs.frmLen = 8 := by decide

/-- TP_SEND of a CCP frame: TX_WRITTEN is not yet 8 in the step of CanWrite, and is in the step of CapPush. -/
theorem test_r90_tpSend :
    let s := begun .tpSend (framed [0, 0, 0, 0, 0, 0, 0, 0] (up .ccpCan []))
    made (atoms 2 s) = [.canWrite 0x7E0 [0, 0, 0, 0, 0, 0, 0, 0]] ∧ (atoms 2 s).outs.txWritten = 0
      ∧ (atoms 3 s).outs.txWritten = 8 ∧ (atoms 3 s).outs.capCount = 1 := by decide

/-- FI_SEQ: the byte of a PortRead lands in FRMBUF with the next PortRead, FRMLEN with the PortSetTimeout that follows the
window. -/
theorem test_r90_fiSeq :
    let s := fiS .fiSeq (onLine [0xC1] ++ [.gap]) [25000, 50000] [5]
    (made (atoms 8 s)).getLast? = some (.read 1) ∧ (atoms 8 s).ram = s.ram ∧ (atoms 9 s).peek 0x200 = 0xC1
      ∧ (made (atoms 9 s)).count (.read 1) = 2 ∧ (atoms 9 s).outs.frmLen = 0 ∧ (atoms 10 s).outs.frmLen = 1
      ∧ (made (atoms 10 s)).getLast? = some (.setTimeout 2000) := by decide

theorem witness_IllegalCodeEnds : State.reset.op = none ∧ State.reset.status.busy = false ∧ cmdWordOk 0x00 = false
    ∧ cmdWordOk 0x61 = false ∧ cmdWordOk 0x0F = false := by decide

theorem witness_WrongProtoEnds :
    (Started .fiSeq (begun .fiSeq (up .kwpCan [])) ∧ Instr.allowedUnder .kwpCan .fiSeq = false)
      ∧ (Started .kwpInit (begun .kwpInit (up .ccpCan [])) ∧ Instr.allowedUnder .ccpCan .kwpInit = false)
      ∧ (Started .kwpExec (begun .kwpExec (up .ccpCan [])) ∧ Instr.allowedUnder .ccpCan .kwpExec = false)
      ∧ (Started .ccpExec (begun .ccpExec (up .kwpKline [])) ∧ Instr.allowedUnder .kwpKline .ccpExec = false) :=
  ⟨⟨rfl, rfl⟩, ⟨rfl, rfl⟩, ⟨rfl, rfl⟩, ⟨rfl, rfl⟩⟩

theorem witness_ChecksInOrder :
    (Started .kwpExec (begun .kwpExec (up .ccpCan []))
        ∧ firstCheck .kwpExec (begun .kwpExec (up .ccpCan [])) = some (.illegal .wrongProto 0x51))
      ∧ (Started .tpSend (begun .tpSend State.reset)
        ∧ firstCheck .tpSend (begun .tpSend State.reset) = some .portClosed)
      ∧ (Started .klEnc (begun .klEnc (up .kwpKline []))
        ∧ firstCheck .klEnc (begun .klEnc (up .kwpKline [])) = some (.argument .klLen 0)) :=
  ⟨⟨rfl, by decide⟩, ⟨rfl, by decide⟩, ⟨rfl, by decide⟩⟩

theorem witness_StepRunsDecoded : (sch [.task] State.reset).sched = [.task] ∧ klEncS.sched = []
    ∧ klEncS.op = some { code := 0x10, pos := .start } ∧ decodeCode 0x10 = .ok .klEnc
    ∧ decodeTableWord 8 0x10 = some .klEnc := ⟨rfl, rfl, rfl, rfl, rfl⟩

theorem witness_CmdStartsOperation : State.reset.op = none ∧ State.reset.status.busy = false
    ∧ klEncS.status.busy = true := by decide

theorem witness_BusyWritesRejected : klEncS.status.busy = true ∧ (0x000#16 ≠ 0x004 ∧ 0x000#16 ≠ 0x074)
    ∧ State.reset.status.busy = false := by decide

/-- A state with both sticky bits set, the task's turn next, or a host write of 1 to both. -/
def stickyS (e : Event) : State :=
  sch [e] (State.reset.setStatus { Status.reset with errSticky := true, overrun := true })

theorem witness_StickyBits : (step (stickyS .task) = .next (endState State.reset (step (stickyS .task)))
      ∧ (stickyS .task).status.errSticky = true ∧ (stickyS .task).status.overrun = true)
    ∧ (stickyS (.host (.write 0x004 0x18))).sched = .host (.write 0x004 0x18) :: [] ∧ (0x18#32).getLsbD 3 = true
    ∧ (0x18#32).getLsbD 4 = true := ⟨⟨next_of _ (by decide), by decide, by decide⟩, rfl, by decide, by decide⟩

theorem witness_CtrlProtoLegal : State.reset.status.busy = false
    ∧ step (sch [.host (.write 0x008 1)] State.reset)
      = .next (endState State.reset (step (sch [.host (.write 0x008 1)] State.reset)))
    ∧ (endState State.reset (step (sch [.host (.write 0x008 1)] State.reset))).regs.ctrl.proto ≠ .kwpKline :=
  ⟨rfl, next_of _ (by decide), by decide⟩

theorem witness_RegisterReadBack : State.reset.status.busy = false ∧ regAt 0x014 = some .klTxHdr
    ∧ regAt 0x1000 = some (.bufram 0) ∧ regAt 0x2FFC = some (.bufram 0x7FF) ∧ regAt 0x00C = some .errCode
    ∧ regAt 0x3000 = some (.capdData 0) ∧ regAt 0x33FC = some (.capdData 255)
    ∧ (HostReg.errCode ≠ HostReg.klTxHdr ∧ HostReg.klTxHdr ≠ HostReg.cmd ∧ HostReg.klTxHdr ≠ HostReg.capdSel)
    ∧ (0 < 2048 ∧ 2047 < 2048 ∧ BitVec.ofNat 16 (0x1000 + 4 * 2047) = 0x2FFC#16) := by decide

/-- 10_state.md R26: an open K-Line port, Ready, task running and inside a tick, KA_EXIT 2, FI_RESULT 1. -/
theorem test_status_word :
    let s := (ready .kwpKline []).setStatus { (ready .kwpKline []).status with
      kaRun := true, kaExit := .portClosed, fiResult := .native, kaActive := true }
    (hostStep (.read 0x004) s).hostData = 0x000052E0 := by decide

/-- 10_state.md R23: KL_TX_HDR and KL_RX_HDR at 0x014 and 0x018, CCP_CTR at 0x028. -/
theorem test_offsets :
    let s := (up .kwpKline []).setOuts { (up .kwpKline []).outs with ccpCtr := 5 }
    (hostStep (.read 0x014) s).hostData = 0x11F1 ∧ (hostStep (.read 0x018) s).hostData = 0xF111
      ∧ (hostStep (.read 0x028) s).hostData = 5 ∧ (hostStep (.write 0x014 0xABCD1234) s).regs.klTxHdr = 0x1234 := by decide

theorem witness_ReservedBitsReadZero : State.reset.Inv ∧ regAt 0x098 = none ∧ (0x006#16).toNat % 4 ≠ 0
    ∧ State.reset.status.busy = false ∧ regAt 0x01C = some .canTxId ∧ HostReg.canTxId ≠ HostReg.cmd
    ∧ 0x60000001#32 &&& fieldMask .canTxId = 0x00000001#32 &&& fieldMask .canTxId :=
  ⟨inv_of_check _ (by decide), by decide, by decide, by decide, by decide, by decide, by decide⟩

theorem witness_BusyReads : (regAt 0x034 = some .frmLen ∧ regAt 0x030 = some .rxLen ∧ regAt 0x004 = some .status)
    ∧ State.reset.status.busy = false ∧ openOutput .status = false ∧ klEncS.Inv ∧ klEncS.status.busy = true
    ∧ klEncS.op = some { code := 0x10, pos := .start } ∧ decodeCode 0x10 = .ok .klEnc
    ∧ mayWrite .klEnc .kwpKline .frmLen = true ∧ mayWrite .klEnc .kwpKline .rxLen = false ∧ openOutput .rxLen = true
    ∧ exec .klEnc klEncS = .next (endState klEncS (exec .klEnc klEncS)) :=
  ⟨by decide, rfl, rfl, inv_of_check _ (by decide), rfl, rfl, rfl, rfl, rfl, rfl, next_of _ (by decide)⟩

theorem witness_ClockReads : step State.reset = .next (endState State.reset (step State.reset))
    ∧ (∀ e ∈ [Event.clock 5, Event.host (.read 0x08C)],
      (e ≠ .host (.read 0x088) ∧ e ≠ .reset) ∧ (e ≠ .host (.read 0x090) ∧ e ≠ .reset))
    ∧ isNext (runEvents [.clock 5, .host (.read 0x08C)] (hostStep (.read 0x088) State.reset)) = true
    ∧ isNext (runEvents [.clock 5, .host (.read 0x08C)] (hostStep (.read 0x090) State.reset)) = true :=
  ⟨next_of _ (by decide), by decide, by decide, by decide⟩

theorem witness_DumpReadout : dumpS.Inv ∧ dumpS.cap.dumped.length < 2 ^ 32
    ∧ dumpS.cap.dumped[0]? = some { dir := .incoming, bytes := List.replicate 255 0xAB, ts := 0 }
    ∧ (List.replicate 255 (0xAB : Byte)).length ≤ 255 ∧ dumpS.cap.dumped.length ≤ (1#32).toNat :=
  ⟨inv_of_check _ (by decide), by decide, by decide +kernel, by decide +kernel, by decide⟩

theorem witness_InvAtReset : eventStep .reset klEncS = .next (after .reset klEncS) := next_of _ (by decide)

theorem witness_StepKeepsInv : (State.reset.Inv ∧ step State.reset = .next (endState State.reset (step State.reset)))
    ∧ klEncS.Inv ∧ step klEncS = .next (endState klEncS (step klEncS)) :=
  ⟨⟨inv_of_check _ (by decide), next_of _ (by decide)⟩, inv_of_check _ (by decide), next_of _ (by decide)⟩

theorem witness_StepNeverStops : klEncS.Inv ∧ (tickS (.tx .recv) .ka).Inv :=
  ⟨inv_of_check _ (by decide), inv_of_check _ (by decide)⟩

theorem witness_RunIsAtomic_ExecEndsOrWaits : klEncS.Inv ∧ klEncS.op = some { code := 0x10, pos := .start }
    ∧ decodeCode 0x10 = .ok .klEnc ∧ exec .klEnc klEncS = .next (endState klEncS (exec .klEnc klEncS)) :=
  ⟨inv_of_check _ (by decide), rfl, rfl, next_of _ (by decide)⟩

theorem witness_OperationEnds : klEncS.Inv ∧ step klEncS = .next (endState klEncS (step klEncS))
    ∧ klEncS.status.busy = true ∧ (endState klEncS (step klEncS)).status.busy = false ∧ klEncS.sched = []
    ∧ step (begun .tpSend State.reset) = .next (endState State.reset (step (begun .tpSend State.reset)))
    ∧ (endState State.reset (step (begun .tpSend State.reset))).outs.errCode ≠ (begun .tpSend State.reset).outs.errCode :=
  ⟨inv_of_check _ (by decide), next_of _ (by decide), rfl, by decide, rfl, next_of _ (by decide), by decide⟩

/-- TP_SEND over ISO-TP, one step in: the lock is taken. -/
def lockedS : State := atoms 1 (begun .tpSend (up .kwpCan [0x1A]))

theorem witness_LockExcludes : (lockedS.Inv ∧ lockedS.lock = .seq ∧ eventStep .task lockedS = .next (after .task lockedS))
    ∧ ((tickS (.tx .recv) .ka).Inv ∧ (tickS (.tx .recv) .ka).lock = .ka
      ∧ eventStep .atom (tickS (.tx .recv) .ka) = .next (after .atom (tickS (.tx .recv) .ka)))
    ∧ (begun .tpSend (up .kwpCan [0x1A])).Inv
    ∧ eventStep .atom (begun .tpSend (up .kwpCan [0x1A])) = .next (after .atom (begun .tpSend (up .kwpCan [0x1A])))
    ∧ (after .atom (begun .tpSend (up .kwpCan [0x1A]))).lock ≠ .free :=
  ⟨⟨inv_of_check _ (by decide), by decide, next_of _ (by decide)⟩,
    ⟨inv_of_check _ (by decide), rfl, next_of _ (by decide)⟩, inv_of_check _ (by decide), next_of _ (by decide), by decide⟩

theorem witness_LastActivity : eventStep .atom gotS = .next (after .atom gotS)
    ∧ (after .atom gotS).clock.lastAct ≠ gotS.clock.lastAct
    ∧ gotS.op = some { code := 0x51, pos := .got [0x1A, 0x8C] [0x5A, 0x8C] } ∧ decodeCode 0x51 = .ok .kwpExec
    ∧ kwpClassify 0x1A [0x5A, 0x8C] = .positive
    ∧ (tickS (.got [0x7E]) .ka).ka.phase = .tick (.got [0x7E])
    ∧ kwpClassify ((tickS (.got [0x7E]) .ka).ka.pdu.headD 0) [0x7E] = .positive
    ∧ eventStep .task (tickS (.got [0x7E]) .ka) = .next (after .task (tickS (.got [0x7E]) .ka))
    ∧ (after .task (tickS (.got [0x7E]) .ka)).clock.lastAct ≠ 500000 :=
  ⟨next_of _ (by decide), by decide, by decide, rfl, by decide, rfl, by decide, next_of _ (by decide), by decide⟩

/-- CCP_EXEC after the CAN write. -/
def sentS : State := atoms 2 (ccpS .timeout [0x01, 0x12, 0x34])

theorem witness_CounterOnlyByCcpExec : eventStep .atom sentS = .next (after .atom sentS)
    ∧ (after .atom sentS).outs.ccpCtr ≠ sentS.outs.ccpCtr := ⟨next_of _ (by decide), by decide⟩

/-- OPEN with its answer waiting. -/
def openS : State := begun .openPort (State.reset.setEnv { State.reset.env with openAns := [true] })

theorem witness_EngineTransitions :
    (openS.Inv ∧ eventStep .atom openS = .next (after .atom openS) ∧ (after .atom openS).status.portOpen ≠ openS.status.portOpen)
      ∧ ((begun .closePort (ready .kwpCan [])).Inv
        ∧ eventStep .atom (begun .closePort (ready .kwpCan [])) = .next (after .atom (begun .closePort (ready .kwpCan [])))
        ∧ (after .atom (begun .closePort (ready .kwpCan []))).status.portOpen = false
        ∧ (after .atom (begun .closePort (ready .kwpCan []))).status.engReady = false)
      ∧ (begun .kwpInit (up .kwpCan [])).Inv
      ∧ eventStep .atom (begun .kwpInit (up .kwpCan [])) = .next (after .atom (begun .kwpInit (up .kwpCan [])))
      ∧ (after .atom (begun .kwpInit (up .kwpCan []))).status.engReady = true :=
  ⟨⟨inv_of_check _ (by decide), next_of _ (by decide), by decide⟩,
    ⟨inv_of_check _ (by decide), next_of _ (by decide), by decide, by decide⟩,
    inv_of_check _ (by decide), next_of _ (by decide), by decide⟩

theorem witness_CommandsUntouched : klEncS.Inv ∧ step klEncS = .next (endState klEncS (step klEncS)) ∧ klEncS.sched = []
    ∧ (0x0FF < 0x100 ∧ 0x400 ≤ 0x400) :=
  ⟨inv_of_check _ (by decide), next_of _ (by decide), rfl, by decide⟩

/-- FI_SEQ after `n` steps of its native waveform. -/
def waveS (n : Nat) : State := atoms n (fiS .fiSeq [] [25000, 50000] [5])

theorem witness_HoldPrecision :
    let f : List Byte := [0x81, 0x11, 0xF1, 0x81, 0x04]
    ((waveS 2).Inv ∧ (waveS 2).op = some { code := 0x30, pos := .fi f (.low .native) }
        ∧ eventStep .atom (waveS 2) = .next (after .atom (waveS 2)))
      ∧ ((waveS 3).Inv ∧ (waveS 3).op = some { code := 0x30, pos := .fi f (.holdLow .native 25000) }
        ∧ eventStep .atom (waveS 3) = .next (after .atom (waveS 3)) ∧ (after .atom (waveS 3)).op ≠ (waveS 3).op)
      ∧ ((waveS 4).Inv ∧ (waveS 4).op = some { code := 0x30, pos := .fi f (.high .native 25000) }
        ∧ eventStep .atom (waveS 4) = .next (after .atom (waveS 4)))
      ∧ ((waveS 5).Inv ∧ (waveS 5).op = some { code := 0x30, pos := .fi f (.holdHigh .native 50000) }
        ∧ eventStep .atom (waveS 5) = .next (after .atom (waveS 5)) ∧ (after .atom (waveS 5)).op ≠ (waveS 5).op)
      ∧ (waveS 6).Inv ∧ (waveS 6).op = some { code := 0x30, pos := .fi f (.send .native 50000) }
      ∧ eventStep .atom (waveS 6) = .next (after .atom (waveS 6)) ∧ (after .atom (waveS 6)).port.log ≠ (waveS 6).port.log :=
  ⟨⟨inv_of_check _ (by decide), by decide, next_of _ (by decide)⟩,
    ⟨inv_of_check _ (by decide), by decide, next_of _ (by decide), by decide⟩,
    ⟨inv_of_check _ (by decide), by decide, next_of _ (by decide)⟩,
    ⟨inv_of_check _ (by decide), by decide, next_of _ (by decide), by decide⟩,
    inv_of_check _ (by decide), by decide, next_of _ (by decide), by decide⟩

/-- Lengths on both sides of the forms' boundary, and the ends of the domain. -/
theorem witness_KlEncodeForms_KlineRoundTrip : ∀ n ∈ [1, 126, 127, 255],
    1 ≤ (List.replicate n (0x5A : Byte)).length ∧ (List.replicate n (0x5A : Byte)).length ≤ 255 := by
  simp

theorem witness_KlDecodeFrames :
    (klHeadFor [0x81, 0xF1, 0x11] 1 ∧ klHeadFor [0xFF, 0xF1, 0x11] 127 ∧ klHeadFor [0x80, 0xF1, 0x11, 0x01] 1
        ∧ klHeadFor [0x80, 0xF1, 0x11, 0xFF] 255)
      ∧ headId [0x81, 0xF1, 0x11] = (0xF111#16).toNat
      ∧ (0xDD#8 = BitVec.ofNat 8 (byteSum ([0x81, 0xF1, 0x11] ++ [0x5A]))) ∧ headId [0x81, 0x12, 0x34] ≠ (0xF111#16).toNat :=
  ⟨⟨.inl ⟨0x81, 0xF1, 0x11, rfl, by decide, rfl⟩, .inl ⟨0xFF, 0xF1, 0x11, rfl, by decide, rfl⟩,
    .inr ⟨0xF1, 0x11, 0x01, rfl, by decide, rfl⟩, .inr ⟨0xF1, 0x11, 0xFF, rfl, by decide, rfl⟩⟩, by decide, by decide, by decide⟩

theorem witness_KlDecodeRefuses : (0x7F#8).toNat < 0x80 ∧ klHeadFor [0x81, 0xF1, 0x11] 1
    ∧ headId [0x81, 0xF1, 0x11] = (0xF111#16).toNat ∧ 0x00#8 ≠ BitVec.ofNat 8 (byteSum ([0x81, 0xF1, 0x11] ++ [0x5A]))
    ∧ (0 < ([0x81, 0xF1, 0x11] ++ [0x5A] ++ [0xDD] : List Byte).length
      ∧ 4 < ([0x81, 0xF1, 0x11] ++ [0x5A] ++ [0xDD] : List Byte).length) :=
  ⟨by decide, .inl ⟨0x81, 0xF1, 0x11, rfl, by decide, rfl⟩, by decide, by decide, by decide⟩

/-- One reply for each clause. -/
theorem witness_Classification :
    ([0x5A#8].head? = some 0x5A ∧ (0x5A#8).toNat = (0x1A#8).toNat + 0x40)
      ∧ ([0x7F#8, 0x1A].head? = some 0x7F ∧ (0x7F#8).toNat ≠ (0x1A#8).toNat + 0x40 ∧ [0x7F#8, 0x1A].length < 3)
      ∧ ([0x7F#8, 0x1A, 0x78].head? = some 0x7F ∧ [0x7F#8, 0x1A, 0x78][1]? = some 0x1A ∧ [0x7F#8, 0x1A, 0x78][2]? = some 0x78)
      ∧ ([0x50#8].head? = some 0x50 ∧ (0x50#8).toNat ≠ (0x1A#8).toNat + 0x40 ∧ 0x50#8 ≠ 0x7F)
      ∧ ([0x00#8].head? = some 0x00 ∧ 0xC0 ≤ (0xC0#8).toNat) := by decide

theorem witness_CaptureBound :
    (Regs.reset.capCfg.getLsbD 31 = false ∧ (0x80000005#32).getLsbD 31 = true ∧ 0 < ((1#32).extractLsb' 0 31).toNat)
      ∧ (State.reset.setRegs { Regs.reset with capCfg := 1 }).cap.live = [] ∧ (1#32).getLsbD 31 = false
      ∧ ((1#32).extractLsb' 0 31).toNat = 1 ∧ 1 < [(Dir.outgoing, [0x01#8]), (Dir.outgoing, [0x02#8])].length := by decide

/-- TXLEN at both ends of 1..255, and outside it. -/
theorem witness_KlEncCompletes : ∀ n ∈ [1, 255, 0, 256],
    Started .klEnc (begun .klEnc ((up .kwpKline []).setRegs { Regs.reset with txLen := BitVec.ofNat 9 n }))
      ∧ (BitVec.ofNat 9 n).toNat = n := by
  intro n hn
  simp at hn
  rcases hn with rfl | rfl | rfl | rfl <;> exact ⟨rfl, rfl⟩

theorem witness_KlParseCompletes :
    let s := begun .klParse (framed [0x81, 0xF1, 0x11, 0x5A, 0xDD] (up .kwpKline []))
    let c := s.setOuts { s.outs with frmLen := 0 }
    let b := s.setOuts { s.outs with frmLen := 513 }
    Started .klParse s ∧ Started .klParse c ∧ Started .klParse b ∧ 512 < b.outs.frmLen.toNat
      ∧ klDecode (.timeout .klParse 0) s.regs.klRxHdr false (s.memRead 0x200 s.outs.frmLen.toNat)
        = .ok ([0x5A], [0x81, 0xF1, 0x11, 0x5A, 0xDD])
      ∧ klDecode (.timeout .klParse 0) c.regs.klRxHdr false (c.memRead 0x200 c.outs.frmLen.toNat)
        = .error (.timeout .klParse 0) := ⟨rfl, rfl, rfl, by decide, by rfl, by rfl⟩

theorem witness_KlEncThenParse :
    let s := klEncS.setRegs { klEncS.regs with klRxHdr := 0x11F1 }
    Started .klEnc s ∧ 1 ≤ s.regs.txLen.toNat ∧ s.regs.txLen.toNat ≤ 255 ∧ s.regs.klRxHdr = s.regs.klTxHdr :=
  ⟨rfl, by decide, by decide, by decide⟩

theorem witness_CroEncCompletes : ∀ n ∈ [1, 7, 0, 8],
    Started .croEnc (begun .croEnc ((up .ccpCan []).setRegs { Regs.reset with txLen := BitVec.ofNat 9 n }))
      ∧ (BitVec.ofNat 9 n).toNat = n := by
  intro n hn
  simp at hn
  rcases hn with rfl | rfl | rfl | rfl <;> exact ⟨rfl, rfl⟩

theorem witness_DtoDecCompletes : ∀ n ∈ [8, 7, 9],
    Started .dtoDec (begun .dtoDec ((up .ccpCan []).setOuts { Outs.reset with frmLen := BitVec.ofNat 10 n }))
      ∧ (BitVec.ofNat 10 n).toNat = n := by
  intro n hn
  simp at hn
  rcases hn with rfl | rfl | rfl <;> exact ⟨rfl, rfl⟩

theorem witness_CapDumpCompletes : Started .capDump (begun .capDump (capPush .outgoing [0x1A] (up .kwpKline []))) := rfl

/-- R236: one atomic step of the sequencer ends CAP_DUMP, both buffers moved. -/
theorem test_capDump_atom :
    let t := atoms 1 (begun .capDump (capPush .outgoing [0x1A] (up .kwpKline [])))
    t.op = none ∧ t.cap.live = [] ∧ t.cap.dumped.length = 1 := by decide

theorem witness_OpenCompletes : (Started .openPort openS ∧ openS.lock ≠ .seq ∧ openS.status.portOpen = false
      ∧ openS.env.openAns = [true])
    ∧ (Started .openPort (begun .openPort (up .ccpCan [])) ∧ (begun .openPort (up .ccpCan [])).status.portOpen = true)
    ∧ Started .openPort (begun .openPort State.reset) ∧ (begun .openPort State.reset).env.openAns = [] :=
  ⟨⟨rfl, by decide, rfl, rfl⟩, ⟨rfl, rfl⟩, rfl, rfl⟩

theorem witness_CloseCompletes :
    (Started .closePort (begun .closePort (ready .kwpCan [])) ∧ (begun .closePort (ready .kwpCan [])).ka.phase = .off)
      ∧ (Started .closePort (begun .closePort (tasked 0 0)) ∧ (begun .closePort (tasked 0 0)).ka.phase = .wait 1000)
      ∧ Started .closePort (begun .closePort (tickS (.tx .recv) .ka))
      ∧ (begun .closePort (tickS (.tx .recv) .ka)).ka.phase = .tick (.tx .recv)
      ∧ kaStep (begun .closePort (tickS (.tx .recv) .ka)) = none := ⟨⟨rfl, rfl⟩, ⟨rfl, rfl⟩, rfl, rfl, by rfl⟩

theorem witness_FiSeqNative :
    let s := fiS .fiSeq (windowItems 40 [0xC1]) [25000, 50000] [5]
    Started .fiSeq s ∧ s.regs.ctrl.proto = .kwpKline ∧ s.status.portOpen = true ∧ s.lock = .free
      ∧ 1 ≤ s.regs.startLen.toNat ∧ s.regs.startLen.toNat ≤ 255 ∧ Held s.regs.tFiLow s.clock.now 25000
      ∧ Held s.regs.tFiHigh 25000 50000
      ∧ s.env.clockIn = holdReads s.regs.tFiLow 25000 ++ (holdReads s.regs.tFiHigh 50000 ++ [])
      ∧ s.env.writeAns = 5 :: [] ∧ 1 ≤ [0xC1#8].length ∧ [0xC1#8].length ≤ s.regs.fiReadMax.toNat
      ∧ s.env.lineIn = windowItems s.regs.fiReadMax.toNat [0xC1] ++ [] :=
  ⟨rfl, rfl, rfl, rfl, by decide, by decide, ⟨by decide, by decide, by decide⟩, ⟨by decide, by decide, by decide⟩,
    by decide, rfl, by decide, by decide, by decide⟩

theorem witness_FiSeqFallback :
    let s := fiS .fiSeq (windowItems 40 [] ++ windowItems 40 [0xC1]) [25000, 50000, 75000, 100000] [5, 5]
    Started .fiSeq s ∧ s.regs.ctrl.proto = .kwpKline ∧ s.status.portOpen = true ∧ s.lock = .free
      ∧ 1 ≤ s.regs.startLen.toNat ∧ s.regs.startLen.toNat ≤ 255 ∧ Held s.regs.tFiLow s.clock.now 25000
      ∧ Held s.regs.tFiHigh 25000 50000 ∧ Held s.regs.tFiLow 50000 75000 ∧ Held s.regs.tFiHigh 75000 100000
      ∧ s.env.clockIn = holdReads s.regs.tFiLow 25000 ++ (holdReads s.regs.tFiHigh 50000
        ++ (holdReads s.regs.tFiLow 75000 ++ (holdReads s.regs.tFiHigh 100000 ++ [])))
      ∧ s.env.writeAns = 5 :: 5 :: [] ∧ [0xC1#8].length ≤ s.regs.fiReadMax.toNat
      ∧ s.env.lineIn = windowItems s.regs.fiReadMax.toNat [] ++ (windowItems s.regs.fiReadMax.toNat [0xC1] ++ []) :=
  ⟨rfl, rfl, rfl, rfl, by decide, by decide, ⟨by decide, by decide, by decide⟩, ⟨by decide, by decide, by decide⟩,
    ⟨by decide, by decide, by decide⟩, ⟨by decide, by decide, by decide⟩, by decide, rfl, by decide, by decide⟩

/-- FI_SEQ with both strategies silent under the limit `k` of reads. -/
def silentS (k : Byte) : State :=
  let s := fiS .fiSeq (windowItems k.toNat [] ++ windowItems k.toNat []) [25000, 50000, 75000, 100000] [5, 5]
  s.setRegs { s.regs with fiReadMax := k }

/-- The same with no response byte, under the default limit and under the limit 0, where no read is performed. -/
theorem witness_FiSeqFallback_silent : ∀ k ∈ [0#8, 40],
    Started .fiSeq (silentS k) ∧ (silentS k).regs.ctrl.proto = .kwpKline ∧ (silentS k).status.portOpen = true
      ∧ (silentS k).lock = .free ∧ (silentS k).regs.startLen.toNat = 1
      ∧ (silentS k).env.clockIn = holdReads (silentS k).regs.tFiLow 25000 ++ (holdReads (silentS k).regs.tFiHigh 50000
        ++ (holdReads (silentS k).regs.tFiLow 75000 ++ (holdReads (silentS k).regs.tFiHigh 100000 ++ [])))
      ∧ (silentS k).env.writeAns = 5 :: 5 :: [] ∧ (silentS k).regs.fiReadMax = k
      ∧ (silentS k).env.lineIn = windowItems k.toNat [] ++ (windowItems k.toNat [] ++ [])
      ∧ (endState (silentS k) (exec .fiSeq (silentS k))).outs.errCode = 0x0202
      ∧ (made (endState (silentS k) (exec .fiSeq (silentS k)))).count (.read 1) = (if k = 0 then 0 else 2) := by
  intro k hk
  simp at hk
  rcases hk with rfl | rfl <;> exact ⟨rfl, by decide⟩

theorem witness_TpSendCompletes :
    let k := (begun .tpSend (up .kwpKline [0x1A])).setEnv { State.reset.env with writeAns := [5] }
    let c := begun .tpSend (up .kwpCan [0x1A])
    let p := begun .tpSend (framed [0, 0, 0, 0, 0, 0, 0, 0] (up .ccpCan []))
    (Started .tpSend k ∧ k.status.portOpen = true ∧ k.lock = .free ∧ k.regs.ctrl.proto = .kwpKline
        ∧ 1 ≤ k.regs.txLen.toNat ∧ k.regs.txLen.toNat ≤ 255 ∧ k.env.writeAns = [5])
      ∧ (Started .tpSend c ∧ c.status.portOpen = true ∧ c.lock = .free ∧ c.regs.ctrl.proto = .kwpCan
        ∧ 1 ≤ c.regs.txLen.toNat ∧ c.regs.txLen.toNat ≤ 255)
      ∧ Started .tpSend p ∧ p.status.portOpen = true ∧ p.lock = .free ∧ p.regs.ctrl.proto = .ccpCan
      ∧ p.outs.frmLen = 8 :=
  ⟨⟨rfl, rfl, rfl, rfl, by decide, by decide, rfl⟩, ⟨rfl, rfl, rfl, rfl, by decide, by decide⟩, rfl, by decide, by decide,
    by decide, by decide⟩

/-- TP_RECV started, answers given. -/
def recvS (p : Proto) (line : List LineItem) (x : RxItem) : State :=
  let s := begun .tpRecv (up p [])
  s.setEnv { s.env with lineIn := line, canIn := [x], isoIn := [x] }

theorem witness_TpRecvDecodesKline :
    let f : List Byte := [0x81, 0xF1, 0x11, 0x5A, 0xDD]
    let s := recvS .kwpKline (onLine f) .timeout
    let g := recvS .kwpKline (onLine [0x81] ++ [.gap]) .timeout
    (Started .tpRecv s ∧ s.status.portOpen = true ∧ s.lock = .free ∧ s.regs.ctrl.proto = .kwpKline
        ∧ s.env.lineIn = f.map .byte ++ []
        ∧ klDecode (.timeout .klRx 0) s.regs.klRxHdr s.regs.ctrl.klChkVerify f = .ok ([0x5A], f))
      ∧ Started .tpRecv g ∧ g.status.portOpen = true ∧ g.lock = .free ∧ g.regs.ctrl.proto = .kwpKline
      ∧ g.env.lineIn = [0x81#8].map .byte ++ [.gap]
      ∧ klDecode (.timeout .klRx 0) g.regs.klRxHdr g.regs.ctrl.klChkVerify [0x81] = .error (.timeout .klRx 0)
      ∧ [LineItem.gap].head? = some .gap := ⟨⟨rfl, rfl, rfl, rfl, rfl, by rfl⟩, rfl, rfl, rfl, rfl, rfl, by rfl, rfl⟩

theorem witness_TpRecvCan :
    let a := recvS .kwpCan [] (.data [0x5A])
    let b := recvS .ccpCan [] (.data [0, 0, 0, 0, 0, 0, 0, 0])
    let c := recvS .kwpCan [] (.data [])
    let d := recvS .ccpCan [] (.data [0, 0, 0, 0, 0, 0, 0])
    let e := recvS .kwpCan [] .timeout
    (Started .tpRecv a ∧ a.status.portOpen = true ∧ a.lock = .free ∧ a.regs.ctrl.proto = .kwpCan
        ∧ a.env.isoIn = [.data [0x5A]])
      ∧ (Started .tpRecv b ∧ b.status.portOpen = true ∧ b.lock = .free ∧ b.regs.ctrl.proto = .ccpCan
        ∧ b.env.canIn = [.data [0, 0, 0, 0, 0, 0, 0, 0]])
      ∧ (Started .tpRecv c ∧ c.regs.ctrl.proto = .kwpCan ∧ c.env.isoIn = [.data []])
      ∧ (Started .tpRecv d ∧ d.regs.ctrl.proto = .ccpCan ∧ d.env.canIn = [.data [0, 0, 0, 0, 0, 0, 0]])
      ∧ Started .tpRecv e ∧ e.regs.ctrl.proto = .kwpCan ∧ e.env.isoIn = [.timeout] :=
  ⟨⟨rfl, rfl, rfl, rfl, rfl⟩, ⟨rfl, rfl, rfl, rfl, rfl⟩, ⟨rfl, rfl, rfl⟩, ⟨rfl, rfl, rfl⟩, rfl, rfl, rfl⟩

theorem witness_TpSrCompletes :
    let k := (begun .tpSr (up .kwpKline [0x1A])).setEnv
      { State.reset.env with writeAns := [5], lineIn := onLine (klEncode 0xF111 [0x5A]) }
    let c := (begun .tpSr (up .kwpCan [0x1A])).setEnv { State.reset.env with isoIn := [.data [0x5A]] }
    let p := (begun .tpSr (framed [0, 0, 0, 0, 0, 0, 0, 0] (up .ccpCan []))).setEnv
      { State.reset.env with canIn := [.data [0, 0, 0, 0, 0, 0, 0, 0]] }
    (Started .tpSr k ∧ k.status.portOpen = true ∧ k.lock = .free ∧ k.regs.ctrl.proto = .kwpKline
        ∧ 1 ≤ k.regs.txLen.toNat ∧ k.regs.txLen.toNat ≤ 255 ∧ k.env.writeAns = [5]
        ∧ k.env.lineIn = (klEncode k.regs.klRxHdr [0x5A]).map .byte ++ [])
      ∧ (Started .tpSr c ∧ c.status.portOpen = true ∧ c.lock = .free ∧ c.regs.ctrl.proto = .kwpCan
        ∧ 1 ≤ c.regs.txLen.toNat ∧ c.regs.txLen.toNat ≤ 255 ∧ c.env.isoIn = [.data [0x5A]])
      ∧ Started .tpSr p ∧ p.status.portOpen = true ∧ p.lock = .free ∧ p.regs.ctrl.proto = .ccpCan ∧ p.outs.frmLen = 8
      ∧ p.env.canIn = [.data [0, 0, 0, 0, 0, 0, 0, 0]] :=
  ⟨⟨rfl, rfl, rfl, rfl, by decide, by decide, rfl, by decide⟩, ⟨rfl, rfl, rfl, rfl, by decide, by decide, rfl⟩,
    rfl, by decide, by decide, by decide, by decide, rfl⟩

/-- The K-Line streams whose decoding fails and the error: a bad counter byte; a silence after the first byte; no byte. -/
def badLines : List (List Byte × Err) :=
  [([0x7F], .violation .badFormat 0x7F), ([0x81], .timeout .klRx 0), ([], .timeout .klRx 0)]

/-- Receives that fail over ISO-TP, at both ends of the lengths refused, and as CCP frames. -/
def badIso : List RxItem := [.timeout, .data [], .data (List.replicate 256 0)]
def badCan : List RxItem := [.timeout, .data [], .data [0, 0, 0, 0, 0, 0, 0]]

theorem badLines_refused : ∀ q ∈ badLines, klDecode (.timeout .klRx 0) 0xF111 false q.1 = .error q.2 := by decide

/-- The failing receives of TP_SR. -/
theorem witness_TpSrCompletes_fails :
    let k := fun bs => (begun .tpSr (up .kwpKline [0x1A])).setEnv
      { State.reset.env with writeAns := [5], lineIn := onLine bs ++ [.gap] }
    let c := fun x => (begun .tpSr (up .kwpCan [0x1A])).setEnv { State.reset.env with isoIn := [x] }
    let p := fun x => (begun .tpSr (framed [0, 0, 0, 0, 0, 0, 0, 0] (up .ccpCan []))).setEnv
      { State.reset.env with canIn := [x] }
    (∀ q ∈ badLines, Started .tpSr (k q.1) ∧ (k q.1).status.portOpen = true ∧ (k q.1).lock = .free
        ∧ (k q.1).regs.ctrl.proto = .kwpKline ∧ (k q.1).regs.txLen.toNat = 1 ∧ (k q.1).env.writeAns = 5 :: []
        ∧ (k q.1).env.lineIn = q.1.map .byte ++ [.gap]
        ∧ klDecode (.timeout .klRx 0) (k q.1).regs.klRxHdr (k q.1).regs.ctrl.klChkVerify q.1 = .error q.2)
      ∧ (∀ x ∈ badIso, Started .tpSr (c x) ∧ (c x).status.portOpen = true ∧ (c x).lock = .free
        ∧ (c x).regs.ctrl.proto = .kwpCan ∧ (c x).regs.txLen.toNat = 1 ∧ (c x).env.isoIn = x :: [])
      ∧ ∀ x ∈ badCan, Started .tpSr (p x) ∧ (p x).status.portOpen = true ∧ (p x).lock = .free
        ∧ (p x).regs.ctrl.proto = .ccpCan ∧ (p x).outs.frmLen = 8 ∧ (p x).env.canIn = x :: [] :=
  ⟨fun q hq => ⟨rfl, rfl, rfl, rfl, rfl, rfl, rfl, badLines_refused q hq⟩, fun _ _ => ⟨rfl, rfl, rfl, rfl, rfl, rfl⟩,
    fun _ _ => ⟨rfl, by rfl, by rfl, by rfl, by rfl, rfl⟩⟩

/-- 43_transport.md R223: TIMEOUT(ISOTP_RX), and PROTOCOL_VIOLATION(BAD_FORMAT) for a PDU of no bytes. -/
theorem test_tpSr_fails :
    ([RxItem.timeout, .data []].map fun x => (ran .tpSr ((up .kwpCan [0x1A]).setEnv { State.reset.env with isoIn := [x] })).outs.errCode)
      = [0x0402, 0x0205] := by decide

/-- The holding of TP_SR over ISO-TP, `x` the answer to the receive: taken from the start, kept inside the send, handed to
the release by a reply, given up by a failing receive. -/
theorem witness_TpSrCompletes_lock :
    let s := fun x => (begun .tpSr (up .kwpCan [0x1A])).setEnv { State.reset.env with isoIn := [x] }
    let d := s (.data [0x5A])
    let f := s .timeout
    (d.Inv ∧ decodeCode 0x42 = .ok .tpSr ∧ d.op = some { code := 0x42, pos := .start }
        ∧ eventStep .atom d = .next (after .atom d) ∧ (after .atom d).lock = .seq)
      ∧ ((atoms 1 d).Inv ∧ (atoms 1 d).op = some { code := 0x42, pos := .tx [0x1A] .send }
        ∧ eventStep .atom (atoms 1 d) = .next (after .atom (atoms 1 d)) ∧ (after .atom (atoms 1 d)).lock = .seq)
      ∧ ((atoms 4 d).Inv ∧ (atoms 4 d).op = some { code := 0x42, pos := .tx [0x1A] (.isoGot [0x5A]) }
        ∧ eventStep .atom (atoms 4 d) = .next (after .atom (atoms 4 d)) ∧ (after .atom (atoms 4 d)).lock = .seq)
      ∧ (atoms 4 f).Inv ∧ (atoms 4 f).op = some { code := 0x42, pos := .tx [0x1A] (.raise (.timeout .isotpRx 0)) }
      ∧ eventStep .atom (atoms 4 f) = .next (after .atom (atoms 4 f)) ∧ (after .atom (atoms 4 f)).lock = .free
      ∧ (after .atom (atoms 4 f)).status.err = true :=
  ⟨⟨inv_of_check _ (by decide), by rfl, rfl, next_of _ (by decide), by decide⟩,
    ⟨inv_of_check _ (by decide), by decide, next_of _ (by decide), by decide⟩,
    ⟨inv_of_check _ (by decide), by decide, next_of _ (by decide), by decide⟩,
    inv_of_check _ (by decide), by decide, next_of _ (by decide), by decide, by decide⟩

/-- KWP_INIT over CAN, KALEN 1, started in `s`. -/
def initS (s : State) (ka : Bool) (ans : List Bool) : State :=
  let s := begun .kwpInit s
  (s.setRegs { s.regs with kaLen := 1, ctrl := { s.regs.ctrl with kaEn := ka } }).setEnv { s.env with openAns := ans }

theorem witness_KwpInitCan :
    let a := initS ((up .kwpCan []).setStatus Status.reset) false [true]
    let b := initS (tasked 0 0) true []
    (Started .kwpInit a ∧ a.regs.ctrl.proto = .kwpCan ∧ a.regs.ctrl.kaEn = false ∧ a.ka.phase = .off
        ∧ a.status.portOpen = false ∧ a.env.openAns = true :: [])
      ∧ Started .kwpInit b ∧ b.regs.ctrl.proto = .kwpCan ∧ b.regs.ctrl.kaEn = true ∧ b.regs.kaLen.toNat = 1
      ∧ b.ka.phase = .wait 1000 ∧ b.status.portOpen = true := ⟨⟨rfl, rfl, rfl, rfl, rfl, rfl⟩, rfl, rfl, rfl, rfl, rfl, rfl⟩

theorem witness_KwpInitKline :
    let s := fiS .kwpInit (windowItems 40 [0xC1] ++ [.gap]) [25000, 50000] [5]
    Started .kwpInit s ∧ s.regs.ctrl.proto = .kwpKline ∧ s.status.portOpen = true ∧ s.lock = .free ∧ s.ka.phase = .off
      ∧ 1 ≤ s.regs.startLen.toNat ∧ s.regs.startLen.toNat ≤ 255 ∧ s.regs.ctrl.kaEn = false
      ∧ Held s.regs.tFiLow s.clock.now 25000 ∧ Held s.regs.tFiHigh 25000 50000
      ∧ s.env.clockIn = holdReads s.regs.tFiLow 25000 ++ (holdReads s.regs.tFiHigh 50000 ++ [])
      ∧ s.env.writeAns = 5 :: [] ∧ 1 ≤ [0xC1#8].length ∧ [0xC1#8].length ≤ s.regs.fiReadMax.toNat
      ∧ s.env.lineIn = windowItems s.regs.fiReadMax.toNat [0xC1] ++ (.gap :: []) :=
  ⟨rfl, rfl, rfl, rfl, rfl, by decide, by decide, rfl, ⟨by decide, by decide, by decide⟩, ⟨by decide, by decide, by decide⟩,
    by decide, rfl, by decide, by decide, by decide⟩

theorem witness_KwpInitReady :
    let a := begun .kwpInit (up .kwpCan [])
    let b := initS State.reset false [false]
    let b := startCmd [0x81] b
    (a.Inv ∧ Started .kwpInit a ∧ firstCheck .kwpInit a = none
        ∧ exec .kwpInit a = .next (endState a (exec .kwpInit a)) ∧ (endState a (exec .kwpInit a)).op = none)
      ∧ b.Inv ∧ Started .kwpInit b ∧ firstCheck .kwpInit b = none
      ∧ exec .kwpInit b = .next (endState b (exec .kwpInit b)) ∧ (endState b (exec .kwpInit b)).op = none :=
  ⟨⟨inv_of_check _ (by decide), rfl, by decide, next_of _ (by decide), by decide⟩, inv_of_check _ (by decide), rfl,
    by decide, next_of _ (by decide), by decide⟩

theorem witness_KwpExecIso :
    let s := (begun .kwpExec (ready .kwpCan [0x1A])).setEnv
      { State.reset.env with isoIn := [.data [0x7F, 0x1A, 0x78], .data [0x5A]] }
    Started .kwpExec s ∧ s.status.engReady = true ∧ s.regs.ctrl.proto = .kwpCan ∧ s.lock = .free
      ∧ 1 ≤ s.regs.txLen.toNat ∧ s.regs.txLen.toNat ≤ 255
      ∧ (∀ q ∈ [[0x7F#8, 0x1A, 0x78]], q.length ≤ 255 ∧ kwpClassify (s.peek 0x000) q = .pending)
      ∧ kwpClassify (s.peek 0x000) [0x5A] = .positive ∧ kwpClassify (s.peek 0x000) [0x50] = .error (.violation .unexpectedStatus 0x50)
      ∧ s.env.isoIn = [[0x7F#8, 0x1A, 0x78]].map .data ++ .data [0x5A] :: [] :=
  ⟨rfl, rfl, rfl, rfl, by decide, by decide, by decide, by decide, by decide, rfl⟩

theorem witness_KwpExecKline :
    let s := (begun .kwpExec (ready .kwpKline [0x1A])).setEnv
      { State.reset.env with
        writeAns := [5], lineIn := onLine (klEncode 0xF111 [0x7F, 0x1A, 0x78] ++ klEncode 0xF111 [0x5A]) }
    Started .kwpExec s ∧ s.status.engReady = true ∧ s.regs.ctrl.proto = .kwpKline ∧ s.lock = .free
      ∧ 1 ≤ s.regs.txLen.toNat ∧ s.regs.txLen.toNat ≤ 255
      ∧ (∀ q ∈ [[0x7F#8, 0x1A, 0x78]], q.length ≤ 255 ∧ kwpClassify (s.peek 0x000) q = .pending)
      ∧ kwpClassify (s.peek 0x000) [0x5A] = .positive ∧ s.env.writeAns = 5 :: []
      ∧ s.env.lineIn = ((([[0x7F#8, 0x1A, 0x78]] ++ [[0x5A]]).map (klEncode s.regs.klRxHdr)).flatten).map .byte ++ [] :=
  ⟨rfl, rfl, rfl, rfl, by decide, by decide, by decide, by decide, rfl, by decide⟩

/-- KWP_EXEC under a PROTO, one pending reply and then `x`, or `bs` and a silence. -/
def execIso (x : RxItem) : State :=
  (begun .kwpExec (ready .kwpCan [0x1A])).setEnv { State.reset.env with isoIn := [.data [0x7F, 0x1A, 0x78], x] }
def execKline (bs : List Byte) : State :=
  (begun .kwpExec (ready .kwpKline [0x1A])).setEnv
    { State.reset.env with writeAns := [5], lineIn := onLine (klEncode 0xF111 [0x7F, 0x1A, 0x78] ++ bs) ++ [.gap] }

/-- The receives of KWP_EXEC that fail after a pending reply. -/
theorem witness_KwpExec_fails :
    (∀ x ∈ badIso, Started .kwpExec (execIso x) ∧ (execIso x).status.engReady = true
        ∧ (execIso x).regs.ctrl.proto = .kwpCan ∧ (execIso x).lock = .free ∧ (execIso x).regs.txLen.toNat = 1
        ∧ (execIso x).env.isoIn = [[0x7F#8, 0x1A, 0x78]].map .data ++ x :: []
        ∧ kwpClassify ((execIso x).peek 0x000) [0x7F, 0x1A, 0x78] = .pending)
      ∧ ∀ q ∈ badLines, Started .kwpExec (execKline q.1) ∧ (execKline q.1).status.engReady = true
        ∧ (execKline q.1).regs.ctrl.proto = .kwpKline ∧ (execKline q.1).lock = .free
        ∧ (execKline q.1).regs.txLen.toNat = 1 ∧ (execKline q.1).env.writeAns = 5 :: []
        ∧ (execKline q.1).env.lineIn = (([[0x7F#8, 0x1A, 0x78]].map (klEncode (execKline q.1).regs.klRxHdr)).flatten).map .byte
          ++ (q.1.map .byte ++ [.gap])
        ∧ klDecode (.timeout .klRx 0) (execKline q.1).regs.klRxHdr (execKline q.1).regs.ctrl.klChkVerify q.1 = .error q.2
        ∧ kwpClassify ((execKline q.1).peek 0x000) [0x7F, 0x1A, 0x78] = .pending := by
  refine ⟨fun x _ => ⟨rfl, rfl, rfl, rfl, rfl, rfl, by rfl⟩, fun q hq =>
    ⟨rfl, rfl, rfl, rfl, rfl, rfl, ?_, badLines_refused q hq, by rfl⟩⟩
  simp only [badLines, List.mem_cons, List.not_mem_nil, or_false] at hq
  rcases hq with rfl | rfl | rfl <;> decide

/-- 44_kwp_engine.md R242, R314: a timeout after a pending reply propagates unchanged and frees the lock; RXBUF keeps the
pending reply. -/
theorem test_kwpExec_timeout :
    let t := endState (execIso .timeout) (exec .kwpExec (execIso .timeout))
    t.outs.errCode = 0x0402 ∧ t.outs.errInfo = 0 ∧ t.lock = .free ∧ t.memRead 0x100 3 = [0x7F, 0x1A, 0x78]
      ∧ t.outs.rxLen = 3 ∧ t.cap.live.length = 2 := by decide

/-- The same over the K-Line, by a silence and by a bad counter byte. -/
theorem test_kwpExec_kline_fails :
    let t := fun bs => endState (execKline bs) (exec .kwpExec (execKline bs))
    (t [0x81]).outs.errCode = 0x0102 ∧ (t [0x81]).lock = .free ∧ (t [0x81]).outs.frmLen = 7
      ∧ (t [0x7F]).outs.errCode = 0x0205 ∧ (t [0x7F]).outs.errInfo = 0x7F ∧ (t [0x7F]).cap.live.length = 2 := by decide

theorem witness_CcpExecCompletes :
    let s := ccpS (.data [0xFF, 0x33, 0x01, 0, 0, 0, 0, 0]) [0x01, 0x12, 0x34]
    Started .ccpExec s ∧ s.regs.ctrl.proto = .ccpCan ∧ s.status.portOpen = true ∧ s.lock = .free
      ∧ 1 ≤ s.regs.txLen.toNat ∧ s.regs.txLen.toNat ≤ 7
      ∧ s.env.canIn = .data [0xFF, 0x33, 0x01, 0, 0, 0, 0, 0] :: [] := ⟨rfl, rfl, rfl, rfl, by decide, by decide, rfl⟩

theorem witness_CcpExecTimeout :
    let a := ccpS .timeout [0x01]
    let b := ccpS (.data [0, 0, 0, 0, 0, 0, 0]) [0x01, 2, 3, 4, 5, 6, 7]
    (Started .ccpExec a ∧ a.regs.ctrl.proto = .ccpCan ∧ a.status.portOpen = true ∧ a.lock = .free
        ∧ a.regs.txLen.toNat = 1 ∧ a.env.canIn = .timeout :: [])
      ∧ Started .ccpExec b ∧ b.regs.ctrl.proto = .ccpCan ∧ b.status.portOpen = true ∧ b.lock = .free
      ∧ b.regs.txLen.toNat = 7 ∧ b.env.canIn = .data [0, 0, 0, 0, 0, 0, 0] :: []
      ∧ [0#8, 0, 0, 0, 0, 0, 0].length < 8 := ⟨⟨rfl, rfl, rfl, rfl, rfl, rfl⟩, rfl, rfl, rfl, rfl, rfl, rfl, by decide⟩

theorem witness_KaIsolation : kaStep (tasked 500000 2000001) = some (taskTurn (tasked 500000 2000001)) := rfl

/-- A task whose idle threshold is exceeded, answers given. -/
def idleIso (xs : List RxItem) : State := (tasked 500000 2000001).setEnv { State.reset.env with isoIn := xs }
def idleKline (xs : List LineItem) : State :=
  let s := (tasked 500000 2000001).setEnv { State.reset.env with writeAns := [5], lineIn := xs }
  s.setRegs { s.regs with ctrl := { s.regs.ctrl with proto := .kwpKline } }

theorem idle_now : 1000 ≤ (idleIso []).nowUs
    ∧ (idleIso []).clock.lastAct.toNat + (idleIso []).regs.kaIdle.toNat * 1000 < (idleIso []).nowUs := by decide

/-- The state after some steps of the task. -/
def ticks (n : Nat) (s : State) : State := endState s (runEvents (List.replicate n .task) s)

/-- Not idle; idle over ISO-TP with a positive reply, a negative one, a pending one first, and every receive that fails. -/
theorem witness_KaTick :
    let a := tasked 500000 2000000
    (a.ka.phase = .wait 1000 ∧ a.ka.stopReq = false ∧ 1000 ≤ a.nowUs ∧ a.status.portOpen = true
        ∧ a.nowUs ≤ a.clock.lastAct.toNat + a.regs.kaIdle.toNat * 1000)
      ∧ (∀ xs ∈ [[RxItem.data [0x7E]], [.data [0x7F, 0x3E, 0x11]], [.data [0x7F, 0x3E, 0x78], .data [0x7E]]]
          ++ badIso.map fun x => [.data [0x7F, 0x3E, 0x78], x],
        (idleIso xs).ka.phase = .wait 1000 ∧ (idleIso xs).ka.stopReq = false ∧ 1000 ≤ (idleIso xs).nowUs
          ∧ (idleIso xs).status.portOpen = true
          ∧ (idleIso xs).clock.lastAct.toNat + (idleIso xs).regs.kaIdle.toNat * 1000 < (idleIso xs).nowUs
          ∧ (idleIso xs).lock = .free ∧ (idleIso xs).regs.ctrl.proto = .kwpCan ∧ (idleIso xs).env.isoIn = xs
          ∧ (idleIso xs).ka.pdu = [0x3E])
      ∧ kwpClassify 0x3E [0x7E] = .positive ∧ kwpClassify 0x3E [0x7F, 0x3E, 0x11] = .error (.negativeKwp 0x11 0x3E)
      ∧ kwpClassify 0x3E [0x7F, 0x3E, 0x78] = .pending :=
  ⟨⟨rfl, rfl, by decide, rfl, by decide⟩,
    fun _ _ => ⟨rfl, rfl, idle_now.1, rfl, idle_now.2, rfl, rfl, rfl, rfl⟩, by decide, by decide, by decide⟩

/-- Idle over the K-Line, answered and silent. -/
theorem witness_KaTick_kline : ∀ xs ∈ [onLine (klEncode 0xF111 [0x7E]), [.gap]],
    (idleKline xs).ka.phase = .wait 1000 ∧ (idleKline xs).ka.stopReq = false ∧ 1000 ≤ (idleKline xs).nowUs
      ∧ (idleKline xs).status.portOpen = true
      ∧ (idleKline xs).clock.lastAct.toNat + (idleKline xs).regs.kaIdle.toNat * 1000 < (idleKline xs).nowUs
      ∧ (idleKline xs).lock = .free ∧ (idleKline xs).regs.ctrl.proto = .kwpKline ∧ (idleKline xs).env.writeAns = 5 :: []
      ∧ (idleKline xs).env.lineIn = xs ++ [] ∧ (idleKline xs).regs.klRxHdr = 0xF111 :=
  fun _ _ => ⟨rfl, rfl, idle_now.1, rfl, idle_now.2, rfl, rfl, rfl, (List.append_nil _).symm, rfl⟩

/-- 44_kwp_engine.md R262: a timeout after a pending reply ends the task with KA_EXIT 3; the PDU goes out under CAN_TX_ID
as it stands when the task sends (R267). -/
theorem test_task_timeout :
    let t := ticks 9 (idleIso [.data [0x7F, 0x3E, 0x78], .timeout])
    t.status.kaExit = .timeout ∧ t.status.kaRun = false ∧ t.lock = .free
      ∧ made t = [.isoTpSend 0x7E0 [0x3E], .isoTpRecv, .isoTpRecv] := by decide

end Sys2Proof.Tests
end

