-- ==== Sys2Proof/Proofs/Moves.lean ====
section
/-! What one atomic step of the sequencer can come to, said once: an inversion of `opStep` into the moves an operation's
pseudocode makes (spec/20_memory.md R90), and the same of the keep-alive task's step (spec/44_kwp_engine.md R260 to R267).
Every invariant and every frame of a step is then a case analysis over these moves. -/

namespace Sys2Proof.Machine

/-! ### The operation code -/

theorem opcode_of_decodeCode {c : Byte} {i : Instr} (h : decodeCode c = .ok i) : c = opcode i := by
  unfold decodeCode at h
  split at h <;> first | (cases h; exact BitVec.eq_of_toNat_eq ‹_›) | cases h

/-! ### One atomic step of the transport -/

theorem syncStep_cases {a : Agent} {s : State} {after : TxPos} {other r : TxRes} (h : syncStep a s after other = r) :
    (s.port.timeout ≠ s.regs.tRxTimeout ∧ r = .go after (portSetTimeout a s.regs.tRxTimeout s))
      ∨ s.port.timeout = s.regs.tRxTimeout ∧ r = other := by
  unfold syncStep at h
  split at h
  · exact .inl ⟨‹_›, h.symm⟩
  · exact .inr ⟨not_not.mp ‹_›, h.symm⟩

/-- The positions `p` may go on to from `q`: the same half of the transport, sized, and of the same transport. -/
structure TxFollows (pr : Proto) (q p : TxPos) : Prop where
  sends : p.sends = q.sends
  sized : q.sized = true → p.sized = true
  fits : q.fits pr = true → p.fits pr = true

/-- A send primitive returns or waits; it ends nothing and raises nothing. -/
theorem sendStep_cases (a : Agent) (wr : Bool) (req : List Byte) (s : State) :
    sendStep a wr req s = .wait ∨ ∃ u, sendStep a wr req s = .go .capOut u := by
  unfold sendStep
  split
  · simp only
    cases portWrite a (klEncode s.regs.klTxHdr req) s with
    | none => exact .inl rfl
    | some r => exact .inr ⟨_, rfl⟩
  · exact .inr ⟨_, rfl⟩
  · exact .inr ⟨_, rfl⟩

/-- The first primitive of a receive waits or goes on inside the receive of its own transport. -/
theorem recvStep_cases (a : Agent) (s : State) :
    recvStep a s = .wait ∨ ∃ q u, recvStep a s = .go q u ∧ q.sends = false ∧ q.sized = true
      ∧ q.fits s.regs.ctrl.proto = true := by
  unfold recvStep
  split
  · rename_i hp
    split
    · exact .inl rfl
    · exact .inr ⟨_, _, rfl, rfl, rfl, rfl⟩
    · rename_i bs u hr
      by_cases hc : (bs.headD 0).toNat < 0x80
      · exact .inr ⟨_, _, if_pos hc, rfl, rfl, rfl⟩
      · exact .inr ⟨_, _, if_neg hc, rfl, by simpa [TxPos.sized] using hc, by rw [hp]; rfl⟩
  · rename_i hp
    split
    · exact .inl rfl
    · exact .inr ⟨_, _, rfl, rfl, rfl, rfl⟩
    · exact .inr ⟨_, _, rfl, rfl, rfl, by rw [hp]; rfl⟩
  · rename_i hp
    split
    · exact .inl rfl
    · exact .inr ⟨_, _, rfl, rfl, rfl, rfl⟩
    · rename_i bs u hr
      refine .inr ⟨_, _, rfl, rfl, ?_, by rw [hp]; rfl⟩
      unfold canRead at hr
      split at hr
      · cases hr
      · cases hr
      · cases hr
        simp [TxPos.sized, canDataOk]

/-- A further read of a K-Line frame waits, times out, or goes on with exactly `n` bytes. -/
theorem klReadStep_cases (a : Agent) (n : Nat) (s : State) (next : List Byte → TxPos) :
    klReadStep a n s next = .wait ∨ (∃ u, klReadStep a n s next = .go (.raise (.timeout .klRx 0)) u)
      ∨ ∃ bs u, bs.length = n ∧ klReadStep a n s next = .go (next bs) u := by
  unfold klReadStep
  split
  · exact .inl rfl
  · exact .inr (.inl ⟨_, rfl⟩)
  · rename_i bs u hr
    refine .inr (.inr ⟨bs, u, ?_, rfl⟩)
    unfold portRead at hr
    split at hr
    · cases hr
    · cases hr
    · rename_i bs' rest hl
      cases hr
      exact (lineTake_bytes n _ _ _ hl).1

/-- What a step of the transport that is not a plain move leaves: the send ends at its CapPush; a unit comes out of the
receive, with a length of the formats; an error changes nothing. -/
def TxRes.Follows (pr : Proto) (q : TxPos) (s : State) : TxRes → Prop
  | .wait => True
  | .go p _ => TxFollows pr q p
  | .sent _ => q = .capOut
  | .got x _ => q.sends = false ∧ (q.sized = true → pduLenOk x.length = true)
  | .fail _ u => q.sends = false ∧ u = s

theorem recvStep_follows (a : Agent) (q : TxPos) (s : State) (hq : q.sends = false) :
    (recvStep a s).Follows s.regs.ctrl.proto q s := by
  rcases recvStep_cases a s with h | ⟨p, u, h, hs, hz, hf⟩ <;> rw [h]
  · trivial
  · exact ⟨hs.trans hq.symm, fun _ => hz, fun _ => hf⟩

theorem sendStep_follows (a : Agent) (wr : Bool) (req : List Byte) (q : TxPos) (s : State) (hq : q.sends = true) :
    (sendStep a wr req s).Follows s.regs.ctrl.proto q s := by
  rcases sendStep_cases a wr req s with h | ⟨u, h⟩ <;> rw [h]
  · trivial
  · exact ⟨hq.symm, fun _ => rfl, fun _ => rfl⟩

theorem klReadStep_follows (a : Agent) (n : Nat) (q : TxPos) (s : State) (next : List Byte → TxPos)
    (hq : q.sends = false) (h : ∀ bs : List Byte, bs.length = n → TxFollows s.regs.ctrl.proto q (next bs)) :
    (klReadStep a n s next).Follows s.regs.ctrl.proto q s := by
  rcases klReadStep_cases a n s next with hw | ⟨u, hw⟩ | ⟨bs, u, hb, hw⟩ <;> rw [hw]
  · trivial
  · exact ⟨hq.symm, fun _ => rfl, fun _ => rfl⟩
  · exact h bs hb

theorem syncStep_follows (a : Agent) (q after : TxPos) (s : State) (other : TxRes)
    (ha : TxFollows s.regs.ctrl.proto q after) (ho : other.Follows s.regs.ctrl.proto q s) :
    (syncStep a s after other).Follows s.regs.ctrl.proto q s := by
  rcases syncStep_cases (rfl : syncStep a s after other = _) with ⟨_, h⟩ | ⟨_, h⟩ <;> rw [h]
  · exact ha
  · exact ho

/-- Where one step of the transport can lead (R217, R222, R223). -/
theorem txStep_follows (a : Agent) (wr : Bool) (req : List Byte) (q : TxPos) (s : State) :
    (txStep a wr req q s).Follows s.regs.ctrl.proto q s := by
  cases q with
  | syncSend => exact syncStep_follows _ _ _ _ _ ⟨rfl, id, id⟩ (sendStep_follows a wr req _ s rfl)
  | send => exact sendStep_follows a wr req _ s rfl
  | capOut => exact rfl
  | syncRecv => exact syncStep_follows _ _ _ _ _ ⟨rfl, id, id⟩ (recvStep_follows a _ s rfl)
  | recv => exact recvStep_follows a _ s rfl
  | klId c =>
    refine klReadStep_follows _ _ _ _ _ rfl fun bs _ => ?_
    by_cases hc : c = 0x80
    · simp only [hc, if_true]
      exact ⟨rfl, fun _ => rfl, id⟩
    · simp only [hc, if_false]
      refine ⟨rfl, fun h => ?_, id⟩
      have : c.toNat ≠ 0x80 := fun h => hc (BitVec.eq_of_toNat_eq h)
      have := c.isLt
      simp only [TxPos.sized, decide_eq_true_eq] at h
      simp [TxPos.sized, pduLenOk]
      omega
  | klLen c i0 i1 =>
    refine klReadStep_follows _ _ _ _ _ rfl fun bs _ => ?_
    by_cases hc : bs.headD 0 = 0
    · simp only [hc, if_true]
      exact ⟨rfl, fun _ => rfl, fun _ => rfl⟩
    · simp only [hc, if_false]
      refine ⟨rfl, fun _ => ?_, id⟩
      have : (bs.headD 0).toNat ≠ 0 := fun h => hc (BitVec.eq_of_toNat_eq h)
      have := (bs.headD 0).isLt
      simp only [TxPos.sized, pduLenOk, List.length_cons, List.length_nil, Bool.and_eq_true, decide_eq_true_eq]
      omega
  | klBody head n =>
    refine klReadStep_follows _ _ _ _ _ rfl fun bs hb => ⟨rfl, fun h => ?_, id⟩
    simpa only [TxPos.sized, hb] using h
  | klSum head pdu => exact klReadStep_follows _ _ _ _ _ rfl fun bs _ => ⟨rfl, id, id⟩
  | klJudge head pdu cs =>
    simp only [txStep]
    split
    · exact recvStep_follows a _ s rfl
    · exact ⟨rfl, rfl⟩
    · refine ⟨rfl, fun h => ?_⟩
      simp only [TxPos.sized, Bool.and_eq_true] at h
      exact h.2
  | isoGot pdu =>
    simp only [txStep]
    split
    · exact ⟨rfl, rfl⟩
    · refine ⟨rfl, fun _ => ?_⟩
      simp only [pduLenOk, Bool.and_eq_true, decide_eq_true_eq]
      omega
  | canGot frame =>
    simp only [txStep]
    split
    · exact ⟨rfl, rfl⟩
    · refine ⟨rfl, fun h => ?_⟩
      simp only [TxPos.sized, canDataOk, decide_eq_true_eq] at h
      simp only [pduLenOk, Bool.and_eq_true, decide_eq_true_eq]
      omega
  | raise e => exact ⟨rfl, rfl⟩

section
variable {a : Agent} {wr : Bool} {req x : List Byte} {q p : TxPos} {s u : State} {e : Err}

theorem txStep_go (h : txStep a wr req q s = .go p u) : TxFollows s.regs.ctrl.proto q p := by
  have hf := txStep_follows a wr req q s
  rwa [h] at hf

theorem txStep_sent (h : txStep a wr req q s = .sent u) : q = .capOut := by
  have hf := txStep_follows a wr req q s
  rwa [h] at hf

theorem txStep_got (h : txStep a wr req q s = .got x u) :
    q.sends = false ∧ (q.sized = true → pduLenOk x.length = true) := by
  have hf := txStep_follows a wr req q s
  rwa [h] at hf

theorem txStep_fail (h : txStep a wr req q s = .fail e u) : q.sends = false ∧ u = s := by
  have hf := txStep_follows a wr req q s
  rwa [h] at hf

end

/-! ### The moves of the sequencer -/

/-- What the sequencer may take for granted at its move: at its first line it has made the checks itself. -/
def Checked (i : Instr) (p : Pos) (s : State) : Prop := p = .start → checkedBy s.regs i = true

/-- No keep-alive task exists: tested by the move itself, or granted by the position (R246). -/
def Alone (i : Instr) (p : Pos) (s : State) : Prop := s.ka.phase = .off ∨ aloneAt i p = true

/-- The port is open: tested by the move itself, through ENG_READY (R240), or granted by the position. -/
def PortUp (i : Instr) (p : Pos) (s : State) : Prop :=
  s.status.portOpen = true ∨ s.status.engReady = true ∨ portUpAt i p = true

/-- What the last step of an operation writes before its successful end (R331). -/
inductive EndWork (i : Instr) (p : Pos) (s : State) : State → Prop where
  | nothing : EndWork i p s s
  | unreadied (hi : i = .closePort) (hk : Alone i p s) : EndWork i p s (unready s)
  | dumped (hi : i = .capDump) : EndWork i p s (dumpCapture s)
  | framed (f : List Byte) (hi : i = .klEnc ∨ i = .croEnc) (hf : f.length ≤ 260) : EndWork i p s (putFrame f s)
  | parsed (u : List Byte) (hi : i = .klParse) (hu : u.length ≤ 255) : EndWork i p s (putPdu u s)
  | received (u : List Byte) (hi : i = .tpRecv ∨ i = .tpSr) (hp : p = .finish (.data u))
      (hpr : s.regs.ctrl.proto ≠ .ccpCan) : EndWork i p s (putPdu u s)
  | response (f : List Byte) (hi : i = .dtoDec ∨ i = .ccpExec) : EndWork i p s (putDto (dtoDecode f) s)

/-- Where the transport takes its step: at the position OP stands at, CCP_EXEC with the CRO's buffer write first (R280);
or, in KWP_EXEC, at a new receive after a pending reply was stored (R242). -/
inductive TxFrom : Instr → Pos → State → Bool → List Byte → TxPos → State → Prop where
  | plain (i : Instr) (req : List Byte) (q : TxPos) (s : State) (wr : Bool)
      (hi : i = .tpSend ∧ wr = true ∨ i = .tpRecv ∧ wr = true ∨ i = .tpSr ∧ wr = true ∨ i = .kwpExec ∧ wr = true
        ∨ i = .kwpInit ∧ wr = false) : TxFrom i (.tx req q) s wr req q s
  | ccp (req : List Byte) (q : TxPos) (s : State) : TxFrom .ccpExec (.tx req q) s true req q (ccpBuffer req q s)
  | pending (req x : List Byte) (s : State) (hc : kwpClassify (req.headD 0) x = .pending) :
      TxFrom .kwpExec (.got req x) s true req .recv (putPdu x s)

/-- Where an operation goes on when its send is over. -/
def afterSent (req : List Byte) : Instr → Pos
  | .tpSend => .release .unit
  | .tpSr => .tx req .syncRecv
  | _ => .tx req .recv

/-- CCP_EXEC counts its transmission (R282); no other operation does. -/
def countSent (i : Instr) (s : State) : State := if i = .ccpExec then bumpCtr s else s

/-- Where an operation goes on when it has received a unit. -/
def afterGot (req x : List Byte) : Instr → Pos
  | .kwpInit => .release .unit
  | .kwpExec => .got req x
  | _ => .release (.data x)

/-- One atomic step of the sequencer, for operation `i` at position `p`. -/
inductive SeqMove (i : Instr) (p : Pos) (s : State) : State → Prop where
  /-- A check fails, or an error found by an earlier step is reported. -/
  | refused (e : Err) (hp : p.locked = false) : SeqMove i p s (raiseError e s)
  /-- The last output writes and the successful end. -/
  | ended (u : State) (hp : p.locked = false) (hw : EndWork i p s u) : SeqMove i p s (endOp u)
  /-- CCP_EXEC's response is stored and its return code raised (R283). -/
  | ccpFailed (f : List Byte) (e : Err) (hi : i = .ccpExec) (hp : p = .finish (.data f)) :
      SeqMove i p s (raiseError e (putDto (dtoDecode f) s))
  /-- The end of KWP_INIT. -/
  | inited (hi : i = .kwpInit) (hp : p.locked = false) (hc : Checked i p s) (hk : Alone i p s) (hup : PortUp i p s) :
      SeqMove i p s (initEnd s)
  /-- The stop request of StopKeepAlive. -/
  | stopping (hi : i = .closePort ∨ i = .kwpInit) (hp : p = .start) (hc : Checked i p s)
      (hk : s.ka.phase ≠ .off) : SeqMove i p s ((s.setKa { s.ka with stopReq := true }).goto .stopped)
  /-- `PortOpen` has answered. -/
  | opening (ok : Bool) (rest : List Bool) (hi : i = .openPort ∧ p = .start
        ∨ i = .kwpInit ∧ (p = .start ∨ p = .stopped) ∧ s.ka.phase = .off)
      (hc : Checked i p s) (hup : s.status.portOpen = false) (hans : s.env.openAns = ok :: rest) :
      SeqMove i p s ((((logCall .seq .openPort s).setEnv { s.env with openAns := rest }).setStatus
        { s.status with portOpen := ok }).goto (if ok then .opened else .raise .openingPort))
  /-- `PortSetTimeout` after an opening. -/
  | installed (q : Pos) (hi : i = .openPort ∨ i = .kwpInit) (hp : p = .opened)
      (hq : q = .filter ∨ q = .body ∨ q = .finish .unit) (hpos : posOk i q = true) :
      SeqMove i p s ((portSetTimeout .seq s.regs.tRxTimeout s).goto q)
  /-- `CanSetFilters` after an opening. -/
  | filtered (q : Pos) (hi : i = .openPort ∨ i = .kwpInit) (hp : p = .filter)
      (hq : q = .body ∨ q = .finish .unit) (hpos : posOk i q = true) :
      SeqMove i p s ((canSetFilters .seq s).goto q)
  /-- `PortClose`. -/
  | closed (hi : i = .closePort) (hp : p = .start ∨ p = .stopped) (hk : s.ka.phase = .off) :
      SeqMove i p s ((unready (portClose .seq s)).goto (.finish .unit))
  /-- `acquire LOCK`. -/
  | acquired (q : Pos) (hp : p.locked = false) (hl : s.lock = .free) (hc : Checked i p s) (hup : PortUp i p s)
      (hk : i = .kwpInit → Alone i p s)
      (hq : (∃ f, q = .fi f .setTimeout) ∨ ∃ req x, q = .tx req x) (hpos : posOk i q = true) (hz : q.sized = true)
      (hf : q.fits s.regs.ctrl.proto = true) : SeqMove i p s ((s.setLock .seq).goto q)
  /-- `release LOCK`. -/
  | released (r : Ret) (hp : p = .release r) : SeqMove i p s (releaseTo s (.finish r))
  /-- KWP_INIT swallows an error of its blind read (R245). -/
  | swallowed (req : List Byte) (q : TxPos) (hi : i = .kwpInit) (hp : p = .tx req q) :
      SeqMove i p s (releaseTo s (.finish .unit))
  /-- KWP_EXEC's reply is positive (R243, R247). -/
  | answered (req x : List Byte) (hi : i = .kwpExec) (hp : p = .got req x)
      (hc : kwpClassify (req.headD 0) x = .positive) : SeqMove i p s (releaseTo (putPdu x s).touch (.finish .unit))
  /-- KWP_EXEC's reply is refused (R241). -/
  | rejected (req x : List Byte) (e : Err) (hi : i = .kwpExec) (hp : p = .got req x) :
      SeqMove i p s (raiseError e (putPdu x s))
  /-- A step of FastInit. -/
  | fi (f : List Byte) (q q' : FiPos) (u : State) (hi : i = .fiSeq ∨ i = .kwpInit) (hp : p = .fi f q)
      (h : fiStep f q s = .go q' u) : SeqMove i p s (u.goto (.fi f q'))
  /-- The last step of FastInit. -/
  | fiDone (f : List Byte) (q : FiPos) (ok : Bool) (u : State) (q' : Pos) (hp : p = .fi f q) (h : fiStep f q s = .done ok u)
      (hq : i = .fiSeq ∧ q' = .release (.fastInit ok) ∨ i = .kwpInit ∧ q' = .tx [] .syncRecv) :
      SeqMove i p s (u.goto q')
  /-- A step of the transport. -/
  | tx (wr : Bool) (req : List Byte) (q q' : TxPos) (v u : State) (hv : TxFrom i p s wr req q v)
      (h : txStep .seq wr req q v = .go q' u) : SeqMove i p s (u.goto (.tx req q'))
  /-- The last step of the send. -/
  | sent (req : List Byte) (u : State) (hi : i = .tpSend ∨ i = .tpSr ∨ i = .kwpExec ∨ i = .ccpExec)
      (hp : p = .tx req .capOut) (h : txStep .seq true req .capOut s = .sent u) :
      SeqMove i p s ((countSent i u).goto (afterSent req i))
  /-- The last step of the receive. -/
  | got (wr : Bool) (req x : List Byte) (q : TxPos) (v u : State) (hi : i ≠ .tpSend) (hv : TxFrom i p s wr req q v)
      (h : txStep .seq wr req q v = .got x u) : SeqMove i p s (u.goto (afterGot req x i))
  /-- An error of the transport is reported. -/
  | failed (wr : Bool) (req : List Byte) (q : TxPos) (v : State) (e : Err) (hi : i ≠ .kwpInit)
      (hv : TxFrom i p s wr req q v) : SeqMove i p s (raiseError e v)

theorem acquireThen_go {s t : State} {p : Pos} (h : acquireThen s p = .go t) :
    s.lock = .free ∧ t = (s.setLock .seq).goto p := by
  unfold acquireThen at h
  split at h
  · cases h; exact ⟨‹_›, rfl⟩
  · cases h

theorem openStep_go {s t : State} (h : openStep s = .go t) (hc : s.status.portOpen = false) :
    ∃ ok rest, s.env.openAns = ok :: rest
      ∧ t = (((logCall .seq .openPort s).setEnv { s.env with openAns := rest }).setStatus
          { s.status with portOpen := ok }).goto (if ok then .opened else .raise .openingPort) := by
  unfold openStep portOpen at h
  cases he : s.env.openAns with
  | nil => simp [he] at h
  | cons ok rest =>
    simp only [he, Micro.go.injEq] at h
    refine ⟨ok, rest, rfl, ?_⟩
    rw [← h]
    cases ok
    · have hs : { s.status with portOpen := false } = s.status := by rw [← hc]
      rw [hs]
      rfl
    · rfl

theorem stopThen_go {s t : State} {k : Micro} (h : stopThen s k = .go t) :
    (s.ka.phase = .off ∧ k = .go t)
      ∨ s.ka.phase ≠ .off ∧ t = (s.setKa { s.ka with stopReq := true }).goto .stopped := by
  unfold stopThen at h
  split at h
  · exact .inl ⟨‹_›, h⟩
  · cases h; exact .inr ⟨‹_›, rfl⟩

theorem stoppedThen_go {s t : State} {k : Micro} (h : stoppedThen s k = .go t) : s.ka.phase = .off ∧ k = .go t := by
  unfold stoppedThen at h
  split at h
  · exact ⟨‹_›, h⟩
  · cases h

theorem seqFi_go {f : List Byte} {q : FiPos} {s t : State} {k : Bool → State → State} (h : seqFi f q s k = .go t) :
    (∃ q' u, fiStep f q s = .go q' u ∧ t = u.goto (.fi f q')) ∨ ∃ ok u, fiStep f q s = .done ok u ∧ t = k ok u := by
  unfold seqFi at h
  split at h
  · cases h
  · cases h; exact .inl ⟨_, _, ‹_›, rfl⟩
  · cases h; exact .inr ⟨_, _, ‹_›, rfl⟩

/-- What one step of the sequencer's transport work can come to. -/
theorem seqTxWith_go {wr : Bool} {req : List Byte} {q : TxPos} {s t : State} {onSent : State → Micro}
    {onGot : List Byte → State → Micro} {onFail : Err → State → Micro}
    (h : seqTxWith wr req q s onSent onGot onFail = .go t) :
    (∃ q' u, txStep .seq wr req q s = .go q' u ∧ t = u.goto (.tx req q'))
      ∨ (∃ u, q = .capOut ∧ txStep .seq wr req .capOut s = .sent u ∧ onSent u = .go t)
      ∨ (∃ x u, txStep .seq wr req q s = .got x u ∧ onGot x u = .go t)
      ∨ ∃ e, onFail e s = .go t := by
  unfold seqTxWith at h
  split at h
  · cases h
  · cases h; exact .inl ⟨_, _, ‹_›, rfl⟩
  · rename_i u hs
    have hq := txStep_sent hs
    exact .inr (.inl ⟨u, hq, hq ▸ hs, h⟩)
  · exact .inr (.inr (.inl ⟨_, _, ‹_›, h⟩))
  · rename_i e u hs
    exact .inr (.inr (.inr ⟨e, (txStep_fail hs).2 ▸ h⟩))

/-! ### The checks at an operation's first line -/

theorem pduAt_ok {s : State} {base n : Nat} {c : ArgumentCause} {bs : List Byte} (h : pduAt s base n c = .ok bs) :
    pduLenOk n = true ∧ bs = s.memRead base n := by
  unfold pduAt at h
  split at h
  · cases h
  · cases h
    refine ⟨?_, rfl⟩
    simp only [pduLenOk, Bool.and_eq_true, decide_eq_true_eq]
    omega

theorem pduAt_length {s : State} {base n : Nat} {c : ArgumentCause} {bs : List Byte} (h : pduAt s base n c = .ok bs) :
    pduLenOk bs.length = true := by
  obtain ⟨hn, rfl⟩ := pduAt_ok h
  simpa using hn

theorem klEncode_length (hdr : BitVec 16) (pdu : List Byte) (h : pdu.length ≤ 255) : (klEncode hdr pdu).length ≤ 260 := by
  have hh : (klHead hdr pdu.length).length ≤ 4 := by
    unfold klHead
    split <;> simp
  simp only [klEncode, List.length_append, List.length_cons, List.length_nil]
  omega

theorem ccpCommand_ok {s : State} {c : List Byte} (h : ccpCommand s = .ok c) : 1 ≤ c.length ∧ c.length ≤ 7 := by
  unfold ccpCommand at h
  simp only at h
  split at h
  · cases h
  · cases h
    simp only [State.memRead_length]
    omega

theorem croOf_length {s : State} {c : List Byte} (h : c.length ≤ 7) : (croOf s c).length = 8 := by
  simp only [croOf, croEncode, List.length_append, List.length_cons, List.length_nil, List.length_tail,
    List.length_replicate]
  omega

theorem sendUnit_ok {s : State} {u : List Byte} (h : sendUnit s = .ok u) :
    s.status.portOpen = true ∧ pduLenOk u.length = true := by
  unfold sendUnit at h
  cases hp : s.status.portOpen with
  | false => simp [hp] at h
  | true =>
    simp only [hp, Bool.not_true, Bool.false_eq_true, if_false] at h
    refine ⟨rfl, ?_⟩
    split at h
    · exact pduAt_length h
    · exact pduAt_length h
    · unfold ccpFrame at h
      simp only at h
      split at h
      · cases h
      · cases h
        simp [pduLenOk]

/-- What KWP_INIT's checks make sure of (R245). -/
theorem initChecks_ok {s : State} {u : Unit} (h : initChecks s = .ok u) : checkedBy s.regs .kwpInit = true := by
  unfold initChecks at h
  split at h
  · cases h
  · rename_i hp
    split at h
    · cases h
    · split at h
      · cases h
      · rename_i x hk
        have hproto : Instr.allowedUnder s.regs.ctrl.proto .kwpInit = true := by
          cases hpr : s.regs.ctrl.proto <;> simp_all [Instr.allowedUnder]
        have hkeep : (!s.regs.ctrl.kaEn || pduLenOk s.regs.kaLen.toNat) = true := by
          cases hen : s.regs.ctrl.kaEn with
          | false => rfl
          | true =>
            rw [hen, if_pos rfl] at hk
            simpa using (pduAt_ok hk).1
        simp only [checkedBy, hproto, hkeep, Bool.and_self]

/-! ### The decoder's PDU fits RXBUF -/

theorem klReadBody_length {short : Err} {head src : List Byte} {n : Nat} {r : KlRead}
    (h : klReadBody short head n src = .ok r) : r.pdu.length ≤ n := by
  unfold klReadBody at h
  split at h
  · cases h
  · cases h
    simp

theorem klReadFrame_length {short : Err} {src : List Byte} {r : KlRead} (h : klReadFrame short src = .ok r) :
    r.pdu.length ≤ 255 := by
  unfold klReadFrame at h
  split at h
  · cases h
  · rename_i c src
    split at h
    · cases h
    · split at h
      · split at h
        · split at h
          · cases h
          · rename_i len src
            split at h
            · cases h
            · have := klReadBody_length h
              have := len.isLt
              omega
        · have := klReadBody_length h
          have := c.isLt
          omega
      · cases h

theorem klDecodeFrom_length {short : Err} {rxHdr : BitVec 16} {verify : Bool} (n : Nat) {src d f : List Byte}
    (h : klDecodeFrom short rxHdr verify n src = .ok (d, f)) : d.length ≤ 255 := by
  induction n generalizing src with
  | zero => cases h
  | succ n ih =>
    simp only [klDecodeFrom] at h
    split at h
    · cases h
    · split at h
      · exact ih h
      · cases h
      · cases h
        exact klReadFrame_length ‹_›

/-! ### Inversion, operation by operation -/

section Inversion

variable {p : Pos} {s t : State}

theorem stepOpen_cases (h : stepOpen p s = .go t) : SeqMove .openPort p s t := by
  cases p with
  | start =>
    simp only [stepOpen] at h
    split at h
    · cases h; exact .ended s rfl .nothing
    · rename_i hp
      have hp := eq_false_of_ne_true hp
      obtain ⟨ok, rest, ha, rfl⟩ := openStep_go h hp
      exact .opening ok rest (.inl ⟨rfl, rfl⟩) (fun _ => rfl) hp ha
  | opened =>
    cases h
    split
    · exact .installed _ (.inl rfl) rfl (.inr (.inr rfl)) rfl
    · exact .installed _ (.inl rfl) rfl (.inl rfl) rfl
  | filter => cases h; exact .filtered _ (.inl rfl) rfl (.inr rfl) rfl
  | finish r => cases h; exact .ended s rfl .nothing
  | raise e => cases h; exact .refused e rfl
  | _ => cases h

theorem closeBody_cases (h : closeBody s = .go t) (hp : p = .start ∨ p = .stopped) (hk : s.ka.phase = .off) :
    SeqMove .closePort p s t := by
  unfold closeBody at h
  split at h
  · cases h; exact .closed rfl hp hk
  · cases h
    exact .ended _ (by rcases hp with rfl | rfl <;> rfl) (.unreadied rfl (.inl hk))

theorem stepClose_cases (h : stepClose p s = .go t) : SeqMove .closePort p s t := by
  cases p with
  | start =>
    rcases stopThen_go h with ⟨hk, h⟩ | ⟨hk, rfl⟩
    · exact closeBody_cases h (.inl rfl) hk
    · exact .stopping (.inl rfl) rfl (fun _ => rfl) hk
  | stopped =>
    obtain ⟨hk, h⟩ := stoppedThen_go h
    exact closeBody_cases h (.inr rfl) hk
  | finish r => cases h; exact .ended _ rfl (.unreadied rfl (.inr rfl))
  | _ => cases h

theorem stepCapDump_cases (h : stepCapDump p s = .go t) : SeqMove .capDump p s t := by
  cases p with
  | start => cases h; exact .ended _ rfl (.dumped rfl)
  | _ => cases h

theorem stepKlEnc_cases (h : stepKlEnc p s = .go t) : SeqMove .klEnc p s t := by
  cases p with
  | start =>
    simp only [stepKlEnc] at h
    split at h
    · cases h; exact .refused _ rfl
    · rename_i d hd
      cases h
      have hl := pduAt_length hd
      simp only [pduLenOk, Bool.and_eq_true, decide_eq_true_eq] at hl
      exact .ended _ rfl (.framed _ (.inl rfl) (klEncode_length _ _ hl.2))
  | _ => cases h

theorem stepKlParse_cases (h : stepKlParse p s = .go t) : SeqMove .klParse p s t := by
  cases p with
  | start =>
    simp only [stepKlParse] at h
    split at h
    · cases h; exact .refused _ rfl
    · split at h
      · cases h; exact .refused _ rfl
      · rename_i d f hd
        cases h
        exact .ended _ rfl (.parsed d rfl (klDecodeFrom_length _ hd))
  | _ => cases h

theorem stepCroEnc_cases (h : stepCroEnc p s = .go t) : SeqMove .croEnc p s t := by
  cases p with
  | start =>
    simp only [stepCroEnc] at h
    split at h
    · cases h; exact .refused _ rfl
    · rename_i c hc
      cases h
      have hl : (croOf s c).length = 8 := croOf_length (ccpCommand_ok hc).2
      exact .ended _ rfl (.framed _ (.inr rfl) (by omega))
  | _ => cases h

theorem stepDtoDec_cases (h : stepDtoDec p s = .go t) : SeqMove .dtoDec p s t := by
  cases p with
  | start =>
    simp only [stepDtoDec] at h
    split at h
    · cases h; exact .refused _ rfl
    · split at h
      · cases h; exact .refused _ rfl
      · cases h; exact .ended _ rfl (.response _ (.inl rfl))
  | _ => cases h

theorem stepFiSeq_cases (h : stepFiSeq p s = .go t) : SeqMove .fiSeq p s t := by
  cases p with
  | start =>
    simp only [stepFiSeq] at h
    split at h
    · cases h; exact .refused _ rfl
    · rename_i hpr
      split at h
      · cases h; exact .refused _ rfl
      · rename_i hup
        split at h
        · cases h; exact .refused _ rfl
        · obtain ⟨hl, rfl⟩ := acquireThen_go h
          have hpr := not_not.mp hpr
          exact .acquired _ rfl hl (fun _ => by simp [checkedBy, Instr.allowedUnder, hpr]) (.inl (by simpa using hup))
            (by simp) (.inl ⟨_, rfl⟩) rfl rfl (by rw [hpr]; rfl)
  | fi f q =>
    rcases seqFi_go h with ⟨q', u, hf, rfl⟩ | ⟨ok, u, hf, rfl⟩
    · exact .fi f q q' u (.inl rfl) rfl hf
    · exact .fiDone f q ok u _ rfl hf (.inl ⟨rfl, rfl⟩)
  | release r => cases h; exact .released r rfl
  | finish r =>
    cases r with
    | fastInit ok =>
      cases ok with
      | false => cases h; exact .refused _ rfl
      | true => cases h; exact .ended s rfl .nothing
    | _ => cases h
  | _ => cases h

/-- TP_SEND and TP_SR past their checks (R226). -/
theorem sendStart_acquired {i : Instr} {u : List Byte} (hi : i = .tpSend ∨ i = .tpSr) (hu : sendUnit s = .ok u)
    (hl : s.lock = .free) : SeqMove i .start s ((s.setLock .seq).goto (.tx u .send)) := by
  obtain ⟨hup, hu⟩ := sendUnit_ok hu
  have hz : (Pos.tx u .send).sized = true := by simp [Pos.sized, TxPos.sized, hu]
  rcases hi with rfl | rfl
  · exact .acquired _ rfl hl (fun _ => rfl) (.inl hup) (by simp) (.inr ⟨_, _, rfl⟩) rfl hz rfl
  · exact .acquired _ rfl hl (fun _ => rfl) (.inl hup) (by simp) (.inr ⟨_, _, rfl⟩) rfl hz rfl

theorem stepTpSend_cases (h : stepTpSend p s = .go t) : SeqMove .tpSend p s t := by
  cases p with
  | start =>
    simp only [stepTpSend] at h
    split at h
    · cases h; exact .refused _ rfl
    · obtain ⟨hl, rfl⟩ := acquireThen_go h
      exact sendStart_acquired (.inl rfl) ‹_› hl
  | tx req q =>
    have hv : TxFrom .tpSend (.tx req q) s true req q s := .plain _ _ _ _ _ (.inl ⟨rfl, rfl⟩)
    rcases seqTxWith_go h with ⟨q', u, hx, rfl⟩ | ⟨u, rfl, hx, h⟩ | ⟨x, u, hx, h⟩ | ⟨e, h⟩
    · exact .tx _ _ _ _ _ _ hv hx
    · cases h; exact .sent req u (.inl rfl) rfl hx
    · cases h
    · cases h; exact .failed _ _ _ _ e (by decide) hv
  | release r => cases h; exact .released r rfl
  | finish r => cases h; exact .ended s rfl .nothing
  | _ => cases h

/-- TP_RECV and TP_SR report a unit under PROTO 0 and 1 only (R227). -/
theorem recvOutputs_cases {i : Instr} (hi : i = .tpRecv ∨ i = .tpSr) (r : Ret) (s : State) :
    EndWork i (.finish r) s (recvOutputs r s) := by
  cases r with
  | data u =>
    unfold recvOutputs
    cases hp : s.regs.ctrl.proto with
    | kwpKline => exact .received u hi rfl (by rw [hp]; decide)
    | kwpCan => exact .received u hi rfl (by rw [hp]; decide)
    | ccpCan => exact .nothing
  | _ => exact .nothing

theorem stepTpRecv_cases (h : stepTpRecv p s = .go t) : SeqMove .tpRecv p s t := by
  cases p with
  | start =>
    simp only [stepTpRecv] at h
    split at h
    · cases h; exact .refused _ rfl
    · rename_i hup
      obtain ⟨hl, rfl⟩ := acquireThen_go h
      exact .acquired _ rfl hl (fun _ => rfl) (.inl (by simpa using hup)) (by simp) (.inr ⟨_, _, rfl⟩) rfl rfl rfl
  | tx req q =>
    have hv : TxFrom .tpRecv (.tx req q) s true req q s := .plain _ _ _ _ _ (.inr (.inl ⟨rfl, rfl⟩))
    rcases seqTxWith_go h with ⟨q', u, hx, rfl⟩ | ⟨u, rfl, hx, h⟩ | ⟨x, u, hx, h⟩ | ⟨e, h⟩
    · exact .tx _ _ _ _ _ _ hv hx
    · cases h
    · cases h; exact .got _ _ x _ _ u (by decide) hv hx
    · cases h; exact .failed _ _ _ _ e (by decide) hv
  | release r => cases h; exact .released r rfl
  | finish r => cases h; exact .ended _ rfl (recvOutputs_cases (.inl rfl) r s)
  | _ => cases h

theorem stepTpSr_cases (h : stepTpSr p s = .go t) : SeqMove .tpSr p s t := by
  cases p with
  | start =>
    simp only [stepTpSr] at h
    split at h
    · cases h; exact .refused _ rfl
    · obtain ⟨hl, rfl⟩ := acquireThen_go h
      exact sendStart_acquired (.inr rfl) ‹_› hl
  | tx req q =>
    have hv : TxFrom .tpSr (.tx req q) s true req q s := .plain _ _ _ _ _ (.inr (.inr (.inl ⟨rfl, rfl⟩)))
    rcases seqTxWith_go h with ⟨q', u, hx, rfl⟩ | ⟨u, rfl, hx, h⟩ | ⟨x, u, hx, h⟩ | ⟨e, h⟩
    · exact .tx _ _ _ _ _ _ hv hx
    · cases h; exact .sent req u (.inr (.inl rfl)) rfl hx
    · cases h; exact .got _ _ x _ _ u (by decide) hv hx
    · cases h; exact .failed _ _ _ _ e (by decide) hv
  | release r => cases h; exact .released r rfl
  | finish r => cases h; exact .ended _ rfl (recvOutputs_cases (.inr rfl) r s)
  | _ => cases h

theorem initBody_cases (h : initBody s = .go t) (hp : p.locked = false) (hc : Checked .kwpInit p s)
    (hk : Alone .kwpInit p s) (hup : PortUp .kwpInit p s) : SeqMove .kwpInit p s t := by
  unfold initBody at h
  split at h
  · rename_i hpr
    obtain ⟨hl, rfl⟩ := acquireThen_go h
    exact .acquired _ hp hl hc hup (fun _ => hk) (.inl ⟨_, rfl⟩) rfl rfl (by rw [hpr]; rfl)
  · cases h; exact .inited rfl hp hc hk hup

theorem initOpen_cases (h : initOpen s = .go t) (hp : p = .start ∨ p = .stopped) (hc : Checked .kwpInit p s)
    (hk : s.ka.phase = .off) : SeqMove .kwpInit p s t := by
  unfold initOpen at h
  split at h
  · exact initBody_cases h (by rcases hp with rfl | rfl <;> rfl) hc (.inl hk) (.inl ‹_›)
  · rename_i hup
    have hup := eq_false_of_ne_true hup
    obtain ⟨ok, rest, ha, rfl⟩ := openStep_go h hup
    exact .opening ok rest (.inr ⟨rfl, hp, hk⟩) hc hup ha

theorem stepKwpInit_cases (h : stepKwpInit p s = .go t) : SeqMove .kwpInit p s t := by
  cases p with
  | start =>
    simp only [stepKwpInit] at h
    split at h
    · cases h; exact .refused _ rfl
    · rename_i u hu
      have hc : Checked .kwpInit .start s := fun _ => initChecks_ok hu
      rcases stopThen_go h with ⟨hk, h⟩ | ⟨hk, rfl⟩
      · exact initOpen_cases h (.inl rfl) hc hk
      · exact .stopping (.inr rfl) rfl hc hk
  | stopped =>
    obtain ⟨hk, h⟩ := stoppedThen_go h
    exact initOpen_cases h (.inr rfl) (fun hp => by cases hp) hk
  | opened =>
    cases h
    split
    · exact .installed _ (.inr rfl) rfl (.inl rfl) rfl
    · exact .installed _ (.inr rfl) rfl (.inr (.inl rfl)) rfl
  | filter => cases h; exact .filtered _ (.inr rfl) rfl (.inl rfl) rfl
  | body => exact initBody_cases h rfl (fun hp => by cases hp) (.inr rfl) (.inr (.inr rfl))
  | fi f q =>
    rcases seqFi_go h with ⟨q', u, hf, rfl⟩ | ⟨ok, u, hf, rfl⟩
    · exact .fi f q q' u (.inr rfl) rfl hf
    · exact .fiDone f q ok u _ rfl hf (.inr ⟨rfl, rfl⟩)
  | tx req q =>
    have hv : TxFrom .kwpInit (.tx req q) s false req q s :=
      .plain _ _ _ _ _ (.inr (.inr (.inr (.inr ⟨rfl, rfl⟩))))
    rcases seqTxWith_go h with ⟨q', u, hx, rfl⟩ | ⟨u, rfl, hx, h⟩ | ⟨x, u, hx, h⟩ | ⟨e, h⟩
    · exact .tx _ _ _ _ _ _ hv hx
    · cases h
    · cases h; exact .got _ _ x _ _ u (by decide) hv hx
    · cases h; exact .swallowed req q rfl rfl
  | release r => cases h; exact .released r rfl
  | finish r => cases h; exact .inited rfl rfl (fun hp => by cases hp) (.inr rfl) (.inr (.inr rfl))
  | raise e => cases h; exact .refused e rfl
  | _ => cases h

theorem stepKwpExec_cases (h : stepKwpExec p s = .go t) : SeqMove .kwpExec p s t := by
  cases p with
  | start =>
    simp only [stepKwpExec] at h
    split at h
    · cases h; exact .refused _ rfl
    · rename_i hpr
      split at h
      · cases h; exact .refused _ rfl
      · rename_i hr
        split at h
        · cases h; exact .refused _ rfl
        · rename_i u hu
          obtain ⟨hl, rfl⟩ := acquireThen_go h
          have hz : (Pos.tx u .syncSend).sized = true := by simp [Pos.sized, TxPos.sized, pduAt_length hu]
          have hc : checkedBy s.regs .kwpExec = true := by
            cases hq : s.regs.ctrl.proto <;> simp_all [checkedBy, Instr.allowedUnder]
          exact .acquired _ rfl hl (fun _ => hc) (.inr (.inl (by simpa using hr))) (by simp) (.inr ⟨_, _, rfl⟩) rfl hz rfl
  | tx req q =>
    have hv : TxFrom .kwpExec (.tx req q) s true req q s :=
      .plain _ _ _ _ _ (.inr (.inr (.inr (.inl ⟨rfl, rfl⟩))))
    rcases seqTxWith_go h with ⟨q', u, hx, rfl⟩ | ⟨u, rfl, hx, h⟩ | ⟨x, u, hx, h⟩ | ⟨e, h⟩
    · exact .tx _ _ _ _ _ _ hv hx
    · cases h; exact .sent req u (.inr (.inr (.inl rfl))) rfl hx
    · cases h; exact .got _ _ x _ _ u (by decide) hv hx
    · cases h; exact .failed _ _ _ _ e (by decide) hv
  | got req x =>
    simp only [stepKwpExec] at h
    split at h
    · cases h; exact .answered req x rfl rfl ‹_›
    · rename_i hc
      have hv : TxFrom .kwpExec (.got req x) s true req .recv (putPdu x s) := .pending req x s hc
      rcases seqTxWith_go h with ⟨q', u, hx, rfl⟩ | ⟨u, hq, hx, h⟩ | ⟨y, u, hx, h⟩ | ⟨e, h⟩
      · exact .tx _ _ _ _ _ _ hv hx
      · cases hq
      · cases h
      · cases h; exact .failed _ _ _ _ e (by decide) hv
    · cases h; exact .rejected req x _ rfl rfl
  | finish r => cases h; exact .ended s rfl .nothing
  | _ => cases h

theorem ccpEnd_cases (f : List Byte) (s : State) : SeqMove .ccpExec (.finish (.data f)) s (ccpEnd f s) := by
  unfold ccpEnd
  simp only
  split
  · exact .ccpFailed f _ rfl rfl
  · exact .ended _ rfl (.response f (.inr rfl))

theorem stepCcpExec_cases (h : stepCcpExec p s = .go t) : SeqMove .ccpExec p s t := by
  cases p with
  | start =>
    simp only [stepCcpExec] at h
    split at h
    · cases h; exact .refused _ rfl
    · rename_i hpr
      have hpr := not_not.mp hpr
      split at h
      · cases h; exact .refused _ rfl
      · rename_i hup
        split at h
        · cases h; exact .refused _ rfl
        · rename_i c hc
          obtain ⟨hl, rfl⟩ := acquireThen_go h
          have hlen : (croOf s c).length = 8 := croOf_length (ccpCommand_ok hc).2
          have hz : (Pos.tx (croOf s c) .syncSend).sized = true := by simp [Pos.sized, TxPos.sized, hlen, pduLenOk]
          exact .acquired _ rfl hl (fun _ => by simp [checkedBy, Instr.allowedUnder, hpr]) (.inl (by simpa using hup))
            (by simp) (.inr ⟨_, _, rfl⟩) rfl hz rfl
  | tx req q =>
    have hv : TxFrom .ccpExec (.tx req q) s true req q (ccpBuffer req q s) := .ccp req q s
    rcases seqTxWith_go h with ⟨q', u, hx, rfl⟩ | ⟨u, rfl, hx, h⟩ | ⟨x, u, hx, h⟩ | ⟨e, h⟩
    · exact .tx _ _ _ _ _ _ hv hx
    · cases h; exact .sent req u (.inr (.inr (.inr rfl))) rfl hx
    · cases h; exact .got _ _ x _ _ u (by decide) hv hx
    · cases h; exact .failed _ _ _ _ e (by decide) hv
  | release r => cases h; exact .released r rfl
  | finish r =>
    cases r with
    | data f => cases h; exact ccpEnd_cases f s
    | _ => cases h
  | _ => cases h

end Inversion

/-- Everything one atomic step of the sequencer can come to. -/
theorem opStep_cases {i : Instr} {p : Pos} {s t : State} (h : opStep i p s = .go t) : SeqMove i p s t := by
  cases i with
  | openPort => exact stepOpen_cases h
  | closePort => exact stepClose_cases h
  | capDump => exact stepCapDump_cases h
  | klEnc => exact stepKlEnc_cases h
  | klParse => exact stepKlParse_cases h
  | croEnc => exact stepCroEnc_cases h
  | dtoDec => exact stepDtoDec_cases h
  | fiSeq => exact stepFiSeq_cases h
  | tpSend => exact stepTpSend_cases h
  | tpRecv => exact stepTpRecv_cases h
  | tpSr => exact stepTpSr_cases h
  | kwpInit => exact stepKwpInit_cases h
  | kwpExec => exact stepKwpExec_cases h
  | ccpExec => exact stepCcpExec_cases h

/-- One atomic step of the sequencer as an event: OP is IDLE, its code is illegal, it waits, or it moves. -/
theorem seqAtom_cases {s t : State} (h : seqAtom s = .next t) :
    t = s ∨ (∃ o r, s.op = some o ∧ decodeCode o.code = .error r ∧ t = illegalOp r s)
      ∨ ∃ o i, s.op = some o ∧ decodeCode o.code = .ok i ∧ SeqMove i o.pos s t := by
  unfold seqAtom at h
  cases ho : s.op with
  | none => simp only [ho] at h; cases h; exact .inl rfl
  | some o =>
    simp only [ho] at h
    cases hd : decodeCode o.code with
    | error r => simp only [hd] at h; cases h; exact .inr (.inl ⟨o, r, rfl, hd, rfl⟩)
    | ok i =>
      simp only [hd] at h
      cases hm : opStep i o.pos s with
      | go u => rw [hm] at h; cases h; exact .inr (.inr ⟨o, i, rfl, hd, opStep_cases hm⟩)
      | waitEnv => rw [hm] at h; cases h; exact .inl rfl
      | waitTask => rw [hm] at h; cases h; exact .inl rfl
      | lost => rw [hm] at h; cases h

/-! ### The moves of the keep-alive task -/

/-- Where the task's transaction takes its step: at its own position, or at a new receive after a pending reply (R242). -/
def KaFrom (s : State) (q : TxPos) : Prop :=
  s.ka.phase = .tick (.tx q)
    ∨ q = .recv ∧ ∃ x, s.ka.phase = .tick (.got x) ∧ kwpClassify (s.ka.pdu.headD 0) x = .pending

/-- One atomic step of the keep-alive task. -/
inductive KaMove (s : State) : State → Prop where
  /-- `KaExit(code)`, outside the transaction. -/
  | left (c : KaExit) (hp : s.ka.phase.exists = true) (hin : kaInside s = false) : KaMove s (kaLeave c s)
  /-- A wait is over: the tick begins. -/
  | woke (d : Nat) (hp : s.ka.phase = .wait d) :
      KaMove s ((s.setStatus { s.status with kaActive := true }).setPhase (.tick .enter))
  /-- `acquire LOCK`. -/
  | acquired (hp : s.ka.phase = .tick .enter) (hl : s.lock = .free) :
      KaMove s ((s.setLock .ka).setPhase (.tick (.tx .syncSend)))
  /-- The tick is over and the task waits again. -/
  | slept (d : Nat) (hp : s.ka.phase.exists = true) (hin : kaInside s = false) :
      KaMove s ((s.setStatus { s.status with kaActive := false }).setPhase (.wait d))
  /-- A step of the transport. -/
  | tx (q q' : TxPos) (u : State) (hf : KaFrom s q) (h : txStep .ka false s.ka.pdu q s = .go q' u) :
      KaMove s (u.setPhase (.tick (.tx q')))
  /-- The last step of the send. -/
  | sent (q : TxPos) (u : State) (hf : KaFrom s q) (h : txStep .ka false s.ka.pdu q s = .sent u) :
      KaMove s (u.setPhase (.tick (.tx .recv)))
  /-- The last step of the receive. -/
  | got (q : TxPos) (x : List Byte) (u : State) (hf : KaFrom s q) (h : txStep .ka false s.ka.pdu q s = .got x u) :
      KaMove s (u.setPhase (.tick (.got x)))
  /-- An error, or a reply that is not positive: the lock is released and the reason kept. -/
  | failed (c : KaExit) (hin : kaInside s = true) : KaMove s (kaRelease s (.leave c))
  /-- The reply is positive (R247). -/
  | answered (x : List Byte) (hp : s.ka.phase = .tick (.got x))
      (hc : kwpClassify (s.ka.pdu.headD 0) x = .positive) : KaMove s (kaRelease s.touch .ended)

theorem KaFrom.inside {s : State} {q : TxPos} (h : KaFrom s q) : kaInside s = true := by
  rcases h with h | ⟨_, x, h, _⟩ <;> simp [kaInside, h]

theorem kaEndTick_cases {s : State} (hp : s.ka.phase.exists = true) (hin : kaInside s = false) :
    KaMove s (kaEndTick s) := by
  unfold kaEndTick
  split
  · exact .left .stopped hp hin
  · exact .slept _ hp hin

theorem kaTx_cases {s t : State} {q : TxPos} (hf : KaFrom s q) (h : kaTx q s = some t) : KaMove s t := by
  unfold kaTx at h
  split at h
  · cases h
  · cases h; exact .tx q _ _ hf ‹_›
  · cases h; exact .sent q _ hf ‹_›
  · cases h; exact .got q _ _ hf ‹_›
  · rename_i e u hx
    cases h
    obtain rfl := (txStep_fail hx).2
    exact .failed _ hf.inside

theorem tickStep_cases {s t : State} {p : TickPos} (hp : s.ka.phase = .tick p) (h : tickStep p s = some t) :
    KaMove s t := by
  have he : s.ka.phase.exists = true := by rw [hp]; rfl
  cases p with
  | enter =>
    have hin : kaInside s = false := by simp [kaInside, hp]
    simp only [tickStep] at h
    split at h
    · cases h; exact .left _ he hin
    · split at h
      · split at h
        · cases h; exact .acquired hp ‹_›
        · cases h
      · cases h; exact kaEndTick_cases he hin
  | tx q => exact kaTx_cases (.inl hp) h
  | got x =>
    simp only [tickStep] at h
    split at h
    · cases h; exact .answered x hp ‹_›
    · exact kaTx_cases (.inr ⟨rfl, x, hp, ‹_›⟩) h
    · cases h; exact .failed _ (by simp [kaInside, hp])
  | ended => cases h; exact kaEndTick_cases he (by simp [kaInside, hp])
  | leave c => cases h; exact .left c he (by simp [kaInside, hp])

/-- Everything one atomic step of the keep-alive task can come to. -/
theorem kaStep_cases {s t : State} (h : kaStep s = some t) : KaMove s t := by
  unfold kaStep at h
  split at h
  · cases h
  · rename_i d hp
    have he : s.ka.phase.exists = true := by rw [hp]; rfl
    split at h
    · cases h; exact .left _ he (by simp [kaInside, hp])
    · split at h
      · cases h; exact .woke d hp
      · cases h
  · exact tickStep_cases ‹_› h

end Sys2Proof.Machine
end

