-- ==== Sys2Proof/Proofs/Frames.lean ====
section
/-! What the moves leave unchanged, each said once: the work an operation does between two positions of OP (`WorkFrame`),
a step of the keep-alive task (`TaskFrame`; spec/44_kwp_engine.md R266), and every event but a host access and the block
reset (`BlockFrame`). -/

namespace Sys2Proof.Machine

/-! ### The work of an operation between two positions -/

/-- What no primitive, buffer write or output write of an operation changes. -/
structure WorkFrame (s t : State) : Prop where
  status : t.status = { s.status with fiResult := t.status.fiResult }
  regs : t.regs = s.regs
  op : t.op = s.op
  lock : t.lock = s.lock
  ka : t.ka = s.ka
  own : SameOwn s t
  timeHi : t.clock.timeHiLatch = s.clock.timeHiLatch
  lastActHi : t.clock.lastActHiLatch = s.clock.lastActHiLatch
  now : s.clock.now.toNat ≤ t.clock.now.toNat
  lastAct : s.clock.lastAct.toNat ≤ s.clock.now.toNat → t.clock.lastAct.toNat ≤ t.clock.now.toNat
  errCode : t.outs.errCode = s.outs.errCode
  errInfo : t.outs.errInfo = s.outs.errInfo
  capdCount : t.outs.capdCount = s.outs.capdCount
  dumped : t.cap.dumped = s.cap.dumped
  capCount : s.outs.capCount = BitVec.ofNat 32 s.cap.live.length →
    t.outs.capCount = BitVec.ofNat 32 t.cap.live.length
  ram : Memory.wf s.ram = true → Memory.wf t.ram = true

theorem WorkFrame.refl (s : State) : WorkFrame s s :=
  ⟨rfl, rfl, rfl, rfl, rfl, ⟨rfl, rfl, rfl, rfl⟩, rfl, rfl, le_rfl, id, rfl, rfl, rfl, rfl, id, id⟩

theorem WorkFrame.trans {s t u : State} (h : WorkFrame s t) (k : WorkFrame t u) : WorkFrame s u where
  status := by rw [k.status, h.status]
  regs := k.regs.trans h.regs
  op := k.op.trans h.op
  lock := k.lock.trans h.lock
  ka := k.ka.trans h.ka
  own := by
    obtain ⟨h1, h2, h3, h4⟩ := h.own
    obtain ⟨k1, k2, k3, k4⟩ := k.own
    exact ⟨k1.trans h1, k2.trans h2, k3.trans h3, k4.trans h4⟩
  timeHi := k.timeHi.trans h.timeHi
  lastActHi := k.lastActHi.trans h.lastActHi
  now := h.now.trans k.now
  lastAct := fun x => k.lastAct (h.lastAct x)
  errCode := k.errCode.trans h.errCode
  errInfo := k.errInfo.trans h.errInfo
  capdCount := k.capdCount.trans h.capdCount
  dumped := k.dumped.trans h.dumped
  capCount := fun x => k.capCount (h.capCount x)
  ram := fun x => k.ram (h.ram x)

theorem PortFrame.work {s t : State} (h : PortFrame s t) : WorkFrame s t where
  status := by rw [h.status]
  regs := h.regs
  op := h.op
  lock := h.lock
  ka := h.ka
  own := ⟨h.hostData, h.sched, h.draws, h.epoch⟩
  timeHi := by rw [h.clock]
  lastActHi := by rw [h.clock]
  now := by rw [h.clock]
  lastAct := by rw [h.clock]; exact id
  errCode := by rw [h.outs]
  errInfo := by rw [h.outs]
  capdCount := by rw [h.outs]
  dumped := h.dumped
  capCount := h.capCount
  ram := h.ram

theorem putPdu_work (u : List Byte) (s : State) : WorkFrame s (putPdu u s) := by
  obtain ⟨m, hm, hw⟩ := putPdu_eq u s
  rw [hm]
  exact ⟨rfl, rfl, rfl, rfl, rfl, ⟨rfl, rfl, rfl, rfl⟩, rfl, rfl, le_rfl, id, rfl, rfl, rfl, rfl, id, hw⟩

theorem putDto_work (d : Dto) (s : State) : WorkFrame s (putDto d s) := by
  obtain ⟨m, hm, hw⟩ := putDto_eq d s
  rw [hm]
  exact ⟨rfl, rfl, rfl, rfl, rfl, ⟨rfl, rfl, rfl, rfl⟩, rfl, rfl, le_rfl, id, rfl, rfl, rfl, rfl, id, hw⟩

theorem touch_work (s : State) : WorkFrame s s.touch :=
  ⟨rfl, rfl, rfl, rfl, rfl, ⟨rfl, rfl, rfl, rfl⟩, rfl, rfl, le_rfl, fun _ => le_rfl, rfl, rfl, rfl, rfl, id, id⟩

theorem countSent_work (i : Instr) (s : State) : WorkFrame s (countSent i s) := by
  unfold countSent
  split
  · exact ⟨rfl, rfl, rfl, rfl, rfl, ⟨rfl, rfl, rfl, rfl⟩, rfl, rfl, le_rfl, id, rfl, rfl, rfl, rfl, id, id⟩
  · exact .refl s

/-- The clock stands still, or moves forward to a value within the limit (R61, R191). -/
theorem moveClock_cases (s : State) (limit : Nat) (t : Time) :
    s.moveClock limit t = s
      ∨ ∃ u : Time, s.nowUs ≤ u.toNat ∧ u.toNat ≤ limit ∧ s.moveClock limit t = s.setClock { s.clock with now := u } := by
  have hu : (if t.toNat ≤ limit then t else BitVec.ofNat 64 limit).toNat ≤ limit := by
    split
    · assumption
    · rw [BitVec.toNat_ofNat]; exact Nat.mod_le _ _
  by_cases hn : s.clock.now.toNat ≤ (if t.toNat ≤ limit then t else BitVec.ofNat 64 limit).toNat
  · exact .inr ⟨_, hn, hu, if_pos hn⟩
  · exact .inl (if_neg hn)

/-- What the clock and buffer RAM keep over a step of FastInit. -/
structure FiKeeps (s t : State) : Prop where
  now : s.nowUs ≤ t.nowUs
  timeHi : t.clock.timeHiLatch = s.clock.timeHiLatch
  lastActHi : t.clock.lastActHiLatch = s.clock.lastActHiLatch
  ram : Memory.wf s.ram = true → Memory.wf t.ram = true

theorem FiKeeps.of_frame {s t : State} (h : PortFrame s t) : FiKeeps s t := by
  refine ⟨?_, ?_, ?_, h.ram⟩
  · rw [State.nowUs, State.nowUs, h.clock]
  · rw [h.clock]
  · rw [h.clock]

theorem holdStep_keeps {n : Nat} {self after : FiPos} {s t : State} (h : (holdStep n self after s).state? = some t) :
    FiKeeps s t := by
  unfold holdStep at h
  split at h
  · cases h; exact .of_frame (.refl _)
  · split at h
    · cases h
    · cases h
      rename_i c rest hc
      rcases moveClock_cases (s.setEnv { s.env with clockIn := rest }) (holdLimit n) c with hm | ⟨x, hx, _, hm⟩
      · simp only [hm]
        exact .of_frame (setEnv_frame s _)
      · simp only [hm]
        exact ⟨hx, rfl, rfl, id⟩

theorem fiStep_keeps {f : List Byte} {q : FiPos} {s t : State} (h : (fiStep f q s).state? = some t) : FiKeeps s t := by
  cases q with
  | setTimeout => cases h; exact .of_frame (portSetTimeout_frame _ _ _)
  | low st =>
    cases h
    cases st <;> exact ⟨le_rfl, rfl, rfl, id⟩
  | holdLow st n => exact holdStep_keeps h
  | high st n =>
    cases h
    cases st <;> exact ⟨le_rfl, rfl, rfl, id⟩
  | holdHigh st n => exact holdStep_keeps h
  | release n => cases h; exact ⟨le_rfl, rfl, rfl, id⟩
  | send st n =>
    simp only [fiStep] at h
    cases hw : portWrite .seq f s with
    | none => rw [hw] at h; cases h
    | some r =>
      rw [hw] at h
      cases h
      exact .of_frame ((portWrite_frame _ _ _ _ _ hw).1.trans (setTxWritten_frame _ _))
  | read st k last =>
    simp only [fiStep] at h
    have hs := fiStore_frame k last s
    cases hr : portRead .seq 1 (fiStore k last s) with
    | wait => rw [hr] at h; cases h
    | timeout u =>
      rw [hr] at h
      cases h
      exact .of_frame (hs.trans (portRead_frame _ _ _ _ (by rw [hr]; rfl)).1)
    | bytes bs u =>
      rw [hr] at h
      cases h
      exact .of_frame (hs.trans (portRead_frame _ _ _ _ (by rw [hr]; rfl)).1)
  | close r k last =>
    cases h
    exact ⟨(FiKeeps.of_frame (fiStore_frame k last s)).now, (FiKeeps.of_frame (fiStore_frame k last s)).timeHi,
      (FiKeeps.of_frame (fiStore_frame k last s)).lastActHi, (fiStore_frame k last s).ram⟩

theorem fiStep_work {f : List Byte} {q : FiPos} {s t : State} (h : (fiStep f q s).state? = some t) : WorkFrame s t := by
  have hf := fiStep_frame f q s t h
  have hk := fiStep_keeps h
  obtain ⟨h1, h2, h3, h4⟩ := hf.own
  exact {
    status := hf.status, regs := hf.regs, op := hf.op, lock := hf.lock, ka := hf.ka
    own := ⟨h2, h1, h3, h4⟩
    timeHi := hk.timeHi, lastActHi := hk.lastActHi, now := hk.now
    lastAct := fun hl => by
      rw [hf.lastAct]
      exact hl.trans hk.now
    errCode := by rw [hf.outs]
    errInfo := by rw [hf.outs]
    capdCount := by rw [hf.outs]
    dumped := by rw [hf.cap]
    capCount := fun hc => by
      rw [hf.outs, hf.cap]
      exact hc
    ram := hk.ram }

theorem txStep_work {a : Agent} {wr : Bool} {req : List Byte} {q : TxPos} {s t : State}
    (h : (txStep a wr req q s).state? = some t) : WorkFrame s t :=
  (txStep_frame a wr req q s t h).1.work

theorem TxFrom.work {i : Instr} {p : Pos} {s v : State} {wr : Bool} {req : List Byte} {q : TxPos}
    (h : TxFrom i p s wr req q v) : WorkFrame s v := by
  cases h with
  | plain => exact .refl s
  | ccp => exact (ccpBuffer_frame req q s).work
  | pending _ x => exact putPdu_work x s

/-! ### The keep-alive task -/

/-- What no step of the keep-alive task changes (R266). -/
structure TaskFrame (s t : State) : Prop where
  status : t.status = { s.status with kaRun := t.status.kaRun, kaActive := t.status.kaActive, kaExit := t.status.kaExit }
  regs : t.regs = s.regs
  outs : t.outs = { s.outs with capCount := t.outs.capCount }
  ram : t.ram = s.ram
  dumped : t.cap.dumped = s.cap.dumped
  capCount : s.outs.capCount = BitVec.ofNat 32 s.cap.live.length →
    t.outs.capCount = BitVec.ofNat 32 t.cap.live.length
  clock : t.clock = { s.clock with lastAct := t.clock.lastAct }
  lastAct : s.clock.lastAct.toNat ≤ s.clock.now.toNat → t.clock.lastAct.toNat ≤ t.clock.now.toNat
  line : t.port.line = s.port.line
  op : t.op = s.op
  own : SameOwn s t

theorem txStep_task {req : List Byte} {q : TxPos} {s u : State} (h : (txStep .ka false req q s).state? = some u) :
    TaskFrame s u := by
  obtain ⟨hf, hq⟩ := txStep_frame .ka false req q s u h
  obtain ⟨hr, ho⟩ := hq rfl
  exact {
    status := by rw [hf.status]
    regs := hf.regs, outs := ho, ram := hr, dumped := hf.dumped, capCount := hf.capCount
    clock := by rw [hf.clock]
    lastAct := by rw [hf.clock]; exact id
    line := hf.line, op := hf.op
    own := ⟨hf.hostData, hf.sched, hf.draws, hf.epoch⟩ }

/-- The task's own state is no part of the frame. -/
theorem TaskFrame.setPhase {s u : State} (h : TaskFrame s u) (p : KaPhase) : TaskFrame s (u.setPhase p) :=
  ⟨h.status, h.regs, h.outs, h.ram, h.dumped, h.capCount, h.clock, h.lastAct, h.line, h.op, h.own⟩

theorem KaMove.frame {s t : State} (h : KaMove s t) : TaskFrame s t := by
  cases h with
  | left c => exact ⟨rfl, rfl, rfl, rfl, rfl, id, rfl, id, rfl, rfl, rfl, rfl, rfl, rfl⟩
  | woke d => exact ⟨rfl, rfl, rfl, rfl, rfl, id, rfl, id, rfl, rfl, rfl, rfl, rfl, rfl⟩
  | acquired => exact ⟨rfl, rfl, rfl, rfl, rfl, id, rfl, id, rfl, rfl, rfl, rfl, rfl, rfl⟩
  | slept d => exact ⟨rfl, rfl, rfl, rfl, rfl, id, rfl, id, rfl, rfl, rfl, rfl, rfl, rfl⟩
  | tx q q' u hf h => exact (txStep_task (by rw [h]; rfl)).setPhase _
  | sent q u hf h => exact (txStep_task (by rw [h]; rfl)).setPhase _
  | got q x u hf h => exact (txStep_task (by rw [h]; rfl)).setPhase _
  | failed c => exact ⟨rfl, rfl, rfl, rfl, rfl, id, rfl, id, rfl, rfl, rfl, rfl, rfl, rfl⟩
  | answered x => exact ⟨rfl, rfl, rfl, rfl, rfl, id, rfl, fun _ => le_rfl, rfl, rfl, rfl, rfl, rfl, rfl⟩

/-! ### Every event but a host access and the block reset -/

/-- What no event but a host access and the block reset changes. -/
structure BlockFrame (s t : State) : Prop where
  errSticky : s.status.errSticky = true → t.status.errSticky = true
  overrun : t.status.overrun = s.status.overrun
  regs : t.regs = { s.regs with capdSel := t.regs.capdSel }
  now : s.clock.now.toNat ≤ t.clock.now.toNat
  timeHi : t.clock.timeHiLatch = s.clock.timeHiLatch
  lastActHi : t.clock.lastActHiLatch = s.clock.lastActHiLatch
  errCode : t.outs.errCode = s.outs.errCode ∨ ∃ e : Err, t.outs.errCode = e.codeWord

theorem BlockFrame.refl (s : State) : BlockFrame s s := ⟨id, rfl, rfl, le_rfl, rfl, rfl, .inl rfl⟩

theorem BlockFrame.trans {s t u : State} (h : BlockFrame s t) (k : BlockFrame t u) : BlockFrame s u where
  errSticky := fun x => k.errSticky (h.errSticky x)
  overrun := k.overrun.trans h.overrun
  regs := by rw [k.regs, h.regs]
  now := h.now.trans k.now
  timeHi := k.timeHi.trans h.timeHi
  lastActHi := k.lastActHi.trans h.lastActHi
  errCode := by
    rcases k.errCode with hk | hk
    · rw [hk]; exact h.errCode
    · exact .inr hk

theorem WorkFrame.block {s t : State} (h : WorkFrame s t) : BlockFrame s t where
  errSticky := fun x => by rw [h.status]; exact x
  overrun := by rw [h.status]
  regs := by rw [h.regs]
  now := h.now
  timeHi := h.timeHi
  lastActHi := h.lastActHi
  errCode := .inl h.errCode

theorem TaskFrame.block {s t : State} (h : TaskFrame s t) : BlockFrame s t where
  errSticky := fun x => by rw [h.status]; exact x
  overrun := by rw [h.status]
  regs := by rw [h.regs]
  now := by rw [h.clock]
  timeHi := by rw [h.clock]
  lastActHi := by rw [h.clock]
  errCode := .inl (by rw [h.outs])

theorem raiseError_block (e : Err) (s : State) : BlockFrame s (raiseError e s) :=
  ⟨fun _ => rfl, rfl, rfl, le_rfl, rfl, rfl, .inr ⟨e, rfl⟩⟩

theorem endOp_block (s : State) : BlockFrame s (endOp s) := ⟨id, rfl, rfl, le_rfl, rfl, rfl, .inl rfl⟩

theorem initEnd_block (s : State) : BlockFrame s (initEnd s) := by
  unfold initEnd
  split <;> exact ⟨id, rfl, rfl, le_rfl, rfl, rfl, .inl rfl⟩

theorem goto_block (s : State) (p : Pos) : BlockFrame s (s.goto p) := ⟨id, rfl, rfl, le_rfl, rfl, rfl, .inl rfl⟩

theorem releaseTo_block (s : State) (p : Pos) : BlockFrame s (releaseTo s p) :=
  ⟨id, rfl, rfl, le_rfl, rfl, rfl, .inl rfl⟩

theorem EndWork.block {i : Instr} {p : Pos} {s u : State} (h : EndWork i p s u) : BlockFrame s u := by
  cases h with
  | nothing => exact .refl s
  | unreadied => exact ⟨id, rfl, rfl, le_rfl, rfl, rfl, .inl rfl⟩
  | dumped => exact ⟨id, rfl, rfl, le_rfl, rfl, rfl, .inl rfl⟩
  | framed f => exact (putFrame_frame f s).work.block
  | parsed u => exact (putPdu_work u s).block
  | received u => exact (putPdu_work u s).block
  | response f => exact (putDto_work _ s).block

theorem SeqMove.block {i : Instr} {p : Pos} {s t : State} (h : SeqMove i p s t) : BlockFrame s t := by
  cases h with
  | refused e => exact raiseError_block e s
  | ended u hp hw => exact hw.block.trans (endOp_block u)
  | ccpFailed f e => exact (putDto_work _ s).block.trans (raiseError_block e _)
  | inited => exact initEnd_block s
  | stopping => exact ⟨id, rfl, rfl, le_rfl, rfl, rfl, .inl rfl⟩
  | opening => exact ⟨id, rfl, rfl, le_rfl, rfl, rfl, .inl rfl⟩
  | installed q => exact (portSetTimeout_frame _ _ s).work.block.trans (goto_block _ q)
  | filtered q => exact (logCall_frame _ _ s).work.block.trans (goto_block _ q)
  | closed => exact ⟨id, rfl, rfl, le_rfl, rfl, rfl, .inl rfl⟩
  | acquired => exact ⟨id, rfl, rfl, le_rfl, rfl, rfl, .inl rfl⟩
  | released => exact releaseTo_block s _
  | swallowed => exact releaseTo_block s _
  | answered req x => exact ((putPdu_work x s).trans (touch_work _)).block.trans (releaseTo_block _ _)
  | rejected req x e => exact (putPdu_work x s).block.trans (raiseError_block e _)
  | fi f q q' u hi hp hf => exact (fiStep_work (by rw [hf]; rfl)).block.trans (goto_block u _)
  | fiDone f q ok u q' hp hf => exact (fiStep_work (by rw [hf]; rfl)).block.trans (goto_block u _)
  | tx wr req q q' v u hv hx => exact (hv.work.trans (txStep_work (by rw [hx]; rfl))).block.trans (goto_block u _)
  | sent req u hi hp hx =>
    exact ((txStep_work (by rw [hx]; rfl)).trans (countSent_work i u)).block.trans (goto_block _ _)
  | got wr req x q v u hi hv hx => exact (hv.work.trans (txStep_work (by rw [hx]; rfl))).block.trans (goto_block u _)
  | failed wr req q v e hi hv => exact hv.work.block.trans (raiseError_block e v)

/-- An atomic step of the sequencer ends the operation or moves it on; it never changes its code (R20). -/
theorem SeqMove.op {i : Instr} {p : Pos} {s t : State} (h : SeqMove i p s t) :
    t.op = none ∨ ∃ q, t.op = s.op.map fun o => { o with pos := q } := by
  have moved : ∀ {u : State} (q : Pos), u.op = s.op →
      (u.goto q).op = none ∨ ∃ q', (u.goto q).op = s.op.map fun o => { o with pos := q' } :=
    fun q hu => .inr ⟨q, by rw [State.goto_op, hu]⟩
  cases h with
  | refused => exact .inl rfl
  | ended => exact .inl rfl
  | ccpFailed => exact .inl rfl
  | inited =>
    unfold initEnd
    split <;> exact .inl rfl
  | stopping => exact moved _ rfl
  | opening => exact moved _ rfl
  | installed => exact moved _ rfl
  | filtered => exact moved _ rfl
  | closed => exact moved _ rfl
  | acquired => exact moved _ rfl
  | released => exact moved _ rfl
  | swallowed => exact moved _ rfl
  | answered req x => exact moved (u := ((putPdu x s).touch).setLock .free) _ (putPdu_work x s).op
  | rejected => exact .inl rfl
  | fi f q q' u hi hp hf => exact moved _ (fiStep_work (t := u) (by rw [hf]; rfl)).op
  | fiDone f q ok u q' hp hf => exact moved _ (fiStep_work (t := u) (by rw [hf]; rfl)).op
  | tx wr req q q' v u hv hx => exact moved _ (hv.work.trans (txStep_work (t := u) (by rw [hx]; rfl))).op
  | sent req u hi hp hx => exact moved _ ((txStep_work (t := u) (by rw [hx]; rfl)).trans (countSent_work i u)).op
  | got wr req x q v u hi hv hx => exact moved _ (hv.work.trans (txStep_work (t := u) (by rw [hx]; rfl))).op
  | failed => exact .inl rfl

/-- The operation in progress, if there is one, is `i`. -/
def Runs (i : Instr) (s : State) : Prop := ∀ o, s.op = some o → decodeCode o.code = .ok i

theorem Runs.of_op {i : Instr} {s : State} {o : Op} (ho : s.op = some o) (hi : decodeCode o.code = .ok i) : Runs i s := by
  intro o' ho'
  rw [ho] at ho'
  cases ho'
  exact hi

theorem Runs.congr {i : Instr} {s t : State} (h : Runs i s) (ht : t.op = s.op) : Runs i t := by
  rw [Runs, ht]
  exact h

theorem SeqMove.runs {i j : Instr} {p : Pos} {s t : State} (hm : SeqMove j p s t) (h : Runs i s) : Runs i t := by
  intro o ho
  rcases hm.op with hn | ⟨q, hq⟩
  · rw [hn] at ho; cases ho
  · rw [hq] at ho
    cases hs : s.op with
    | none => rw [hs] at ho; cases ho
    | some o' =>
      rw [hs] at ho
      cases ho
      exact h o' hs

/-- A property that every atomic step of the sequencer and of the task keeps is kept by a run of the sequencer. -/
theorem exec_keeps {i : Instr} (P : State → Prop) (hf : ∀ s t o, P s → s.op = some o → SeqMove i o.pos s t → P t)
    (hk : ∀ s t, P s → kaStep s = some t → P t) {s t : State} (hs : P s) (h : exec i s = .next t) : P t := by
  rw [exec_eq] at h
  exact runOp_keeps (opStep i) P (fun s t o hP ho hm => hf s t o hP ho (opStep_cases hm)) hk _ s t hs h

theorem illegalOp_block (r : DecodeRefusal) (s : State) : BlockFrame s (illegalOp r s) := by
  cases r
  exact raiseError_block _ s

theorem exec_block {i : Instr} {s t : State} (h : exec i s = .next t) : BlockFrame s t :=
  exec_keeps (BlockFrame s) (fun _ _ _ hs _ hm => hs.trans hm.block)
    (fun _ _ hs hk => hs.trans (kaStep_cases hk).frame.block) (.refl s) h

theorem seqRun_cases {s t : State} (h : seqRun s = .next t) :
    t = s ∨ (∃ o r, s.op = some o ∧ decodeCode o.code = .error r ∧ t = illegalOp r s)
      ∨ ∃ o i, s.op = some o ∧ decodeCode o.code = .ok i ∧ exec i s = .next t := by
  unfold seqRun fetch at h
  cases ho : s.op with
  | none => simp only [ho, Option.map_none] at h; cases h; exact .inl rfl
  | some o =>
    simp only [ho, Option.map_some] at h
    cases hd : decodeCode o.code with
    | error r => simp only [hd] at h; cases h; exact .inr (.inl ⟨o, r, rfl, hd, rfl⟩)
    | ok i => simp only [hd] at h; exact .inr (.inr ⟨o, i, rfl, hd, h⟩)

theorem seqRun_block {s t : State} (h : seqRun s = .next t) : BlockFrame s t := by
  rcases seqRun_cases h with rfl | ⟨o, r, _, _, rfl⟩ | ⟨o, i, _, _, h⟩
  · exact .refl _
  · exact illegalOp_block r s
  · exact exec_block h

theorem taskTurn_cases (s : State) : taskTurn s = s ∨ kaStep s = some (taskTurn s) := by
  unfold taskTurn
  cases h : kaStep s with
  | none => exact .inl rfl
  | some t => exact .inr rfl

theorem taskTurn_frame (s : State) : TaskFrame s (taskTurn s) := by
  rcases taskTurn_cases s with h | h
  · rw [h]
    exact ⟨rfl, rfl, rfl, rfl, rfl, id, rfl, id, rfl, rfl, rfl, rfl, rfl, rfl⟩
  · exact (kaStep_cases h).frame

theorem clockStep_block (c : Time) (s : State) : BlockFrame s (clockStep c s) := by
  rcases moveClock_cases s (clockLimit s) c with h | ⟨u, hu, _, h⟩
  · rw [clockStep, h]; exact .refl s
  · rw [clockStep, h]; exact ⟨id, rfl, rfl, hu, rfl, rfl, .inl rfl⟩

/-- A delivered answer changes the environment's queues only. -/
theorem deliver_eq (a : Answer) (s : State) : ∃ e, deliver a s = s.setEnv e := by
  cases a <;> exact ⟨_, rfl⟩

/-- Every event but a host access and the block reset is framed. -/
theorem eventStep_block {e : Event} {s t : State} (h : eventStep e s = .next t) (hh : ∀ a, e ≠ .host a)
    (hr : e ≠ .reset) : BlockFrame s t := by
  cases e with
  | host a => exact absurd rfl (hh a)
  | run => exact seqRun_block h
  | atom =>
    rcases seqAtom_cases h with rfl | ⟨o, r, _, _, rfl⟩ | ⟨o, i, _, _, hm⟩
    · exact .refl _
    · exact illegalOp_block r s
    · exact hm.block
  | task => cases h; exact (taskTurn_frame s).block
  | clock c => cases h; exact clockStep_block c s
  | env a =>
    cases h
    obtain ⟨x, hx⟩ := deliver_eq a s
    rw [hx]
    exact ⟨id, rfl, rfl, le_rfl, rfl, rfl, .inl rfl⟩
  | reset => exact absurd rfl hr

/-- A step is a host access, the block reset, or framed (R93; log 30). -/
theorem step_cases {s t : State} (h : step s = .next t) :
    (∃ a rest, s.sched = .host a :: rest ∧ t = hostStep a (s.setSched rest))
      ∨ (∃ rest, s.sched = .reset :: rest ∧ t = blockReset (s.setSched rest)) ∨ BlockFrame s t := by
  unfold step at h
  cases hs : s.sched with
  | nil =>
    simp only [hs] at h
    split at h
    · exact .inr (.inr (seqRun_block h))
    · cases h; exact .inr (.inr (taskTurn_frame s).block)
  | cons e rest =>
    simp only [hs] at h
    have hset : BlockFrame s (s.setSched rest) := ⟨id, rfl, rfl, le_rfl, rfl, rfl, .inl rfl⟩
    by_cases hr : e = .reset
    · subst hr
      cases h
      exact .inr (.inl ⟨rest, rfl, rfl⟩)
    · by_cases hh : ∃ a, e = .host a
      · obtain ⟨a, rfl⟩ := hh
        cases h
        exact .inl ⟨a, rest, rfl, rfl⟩
      · exact .inr (.inr (hset.trans (eventStep_block h (fun a ha => hh ⟨a, ha⟩) hr)))

end Sys2Proof.Machine
end

