-- ==== Sys2Proof/Proofs/HostRules.lean ====
section
/-! The rules of a host access, one for each case of the map (spec/10_state.md R23 to R25, R65, R66): where a register
stands, what a read returns, what a write does while idle and while BUSY. -/

namespace Sys2Proof.Machine

/-- The byte offset of a register (R23). -/
def HostReg.offset : HostReg → Nat
  | .cmd => 0x000 | .status => 0x004 | .ctrl => 0x008 | .errCode => 0x00C | .errInfo => 0x010 | .klTxHdr => 0x014
  | .klRxHdr => 0x018 | .canTxId => 0x01C | .canRxId => 0x020 | .canRxMask => 0x024 | .ccpCtr => 0x028 | .txLen => 0x02C
  | .rxLen => 0x030 | .frmLen => 0x034 | .startLen => 0x038 | .kaLen => 0x03C | .respStatus => 0x040 | .dtoInfo => 0x044
  | .txWritten => 0x048 | .tRxTimeout => 0x04C | .tFiTimeout => 0x050 | .tFiLow => 0x054 | .tFiHigh => 0x058
  | .fiReadMax => 0x05C | .kaPoll => 0x060 | .kaIdle => 0x064 | .capCfg => 0x068 | .capCount => 0x06C | .capdCount => 0x070
  | .capdSel => 0x074 | .capdDir => 0x078 | .capdLen => 0x07C | .capdTsLo => 0x080 | .capdTsHi => 0x084 | .timeLo => 0x088
  | .timeHi => 0x08C | .lastActLo => 0x090 | .lastActHi => 0x094
  | .bufram a => 0x1000 + 4 * a
  | .capdData i => 0x3000 + 4 * i

/-- A register stands at its own offset only; the indices of the two arrays are inside them. -/
theorem regAt_some {off : BitVec 16} {r : HostReg} (h : regAt off = some r) :
    off.toNat = r.offset ∧ (∀ a, r = .bufram a → a < 2048) ∧ ∀ i, r = .capdData i → i < 256 := by
  unfold regAt at h
  split at h <;> first
    | (cases h; exact ⟨‹_›, nofun, nofun⟩)
    | (split at h
       · rename_i hn
         cases h
         refine ⟨?_, ?_, nofun⟩
         · simp only [HostReg.offset]; omega
         · rintro a ⟨⟩; omega
       · split at h
         · rename_i hn
           cases h
           refine ⟨?_, nofun, ?_⟩
           · simp only [HostReg.offset]; omega
           · rintro a ⟨⟩; omega
         · cases h)

theorem regAt_eq {off : BitVec 16} {r : HostReg} (h : regAt off = some r) : off = BitVec.ofNat 16 r.offset := by
  rw [← (regAt_some h).1]
  simp

/-- Every offset of the map is a multiple of 4 (R81). -/
theorem regAt_aligned {off : BitVec 16} {r : HostReg} (h : regAt off = some r) : off.toNat % 4 = 0 := by
  rw [(regAt_some h).1]
  cases r <;> simp only [HostReg.offset] <;> omega

theorem regAt_bufram {a : Nat} (h : a < 2048) : regAt (BitVec.ofNat 16 (0x1000 + 4 * a)) = some (.bufram a) := by
  have hn : (BitVec.ofNat 16 (0x1000 + 4 * a)).toNat = 0x1000 + 4 * a := by rw [BitVec.toNat_ofNat]; omega
  unfold regAt
  rw [hn]
  split <;> first | omega | skip
  rw [if_pos (by omega)]
  congr 2
  omega

theorem regAt_capdData {i : Nat} (h : i < 256) : regAt (BitVec.ofNat 16 (0x3000 + 4 * i)) = some (.capdData i) := by
  have hn : (BitVec.ofNat 16 (0x3000 + 4 * i)).toNat = 0x3000 + 4 * i := by rw [BitVec.toNat_ofNat]; omega
  unfold regAt
  rw [hn]
  split <;> first | omega | skip
  rw [if_neg (by omega), if_pos (by omega)]
  congr 2
  omega

/-! ### Reads -/

/-- The frame outputs are FRMLEN and FRMBUF, the PDU outputs RXLEN, RESP_STATUS and RXBUF. -/
theorem isFrameOut_open {r : HostReg} (h : isFrameOut r = true) : openOutput r = true := by
  cases r with
  | frmLen => rfl
  | bufram a =>
    simp only [isFrameOut, openOutput, Bool.and_eq_true, decide_eq_true_eq] at h ⊢
    simp only [frmBuf, startBuf] at h
    omega
  | _ => cases h

theorem isPduOut_open {r : HostReg} (h : isPduOut r = true) : openOutput r = true := by
  cases r with
  | rxLen => rfl
  | respStatus => rfl
  | bufram a =>
    simp only [isPduOut, openOutput, Bool.and_eq_true, decide_eq_true_eq] at h ⊢
    simp only [rxBuf, frmBuf] at h
    omega
  | _ => cases h

/-- An operation writes open outputs only (R66; log 12). -/
theorem mayWrite_open {i : Instr} {p : Proto} {r : HostReg} (h : mayWrite i p r = true) : openOutput r = true := by
  have hframe := isFrameOut_open (r := r)
  have hpdu := isPduOut_open (r := r)
  have htx : (r == .txWritten) = true → openOutput r = true := fun h => by rw [eq_of_beq h]; rfl
  have hdto : (r == .dtoInfo) = true → openOutput r = true := fun h => by rw [eq_of_beq h]; rfl
  have hctr : (r == .ccpCtr) = true → openOutput r = true := fun h => by rw [eq_of_beq h]; rfl
  cases i <;> simp only [mayWrite, Bool.and_eq_true, Bool.or_eq_true, Bool.false_eq_true] at h <;> tauto

theorem readIsFree_idle {r : HostReg} {s : State} (h : s.status.busy = false) : readIsFree r s = false := by
  rw [readIsFree, h, Bool.false_and]

theorem readIsFree_closed {r : HostReg} {s : State} (h : openOutput r = false) : readIsFree r s = false := by
  by_contra hf
  have hf := eq_true_of_ne_false hf
  unfold readIsFree at hf
  split at hf
  · simp at hf
  · split at hf
    · simp at hf
    · simp only [Bool.and_eq_true] at hf
      rw [mayWrite_open hf.2] at h
      cases h

theorem readIsFree_running {r : HostReg} {s : State} {o : Op} {i : Instr} (hb : s.status.busy = true)
    (ho : s.op = some o) (hi : decodeCode o.code = .ok i) : readIsFree r s = mayWrite i s.regs.ctrl.proto r := by
  simp [readIsFree, hb, ho, hi]

/-- A read of a free output draws its value (R66). -/
theorem hostRead_free {off : BitVec 16} {r : HostReg} {s : State} (hr : regAt off = some r) (hf : readIsFree r s = true) :
    hostStep (.read off) s = (s.setHostData (Config.busyRead s.draws &&& outMask r)).setDraws (s.draws + 1) := by
  simp [hostStep, hostRead, hr, readReg, hf]

/-- Any other read returns the register's value, with the latch of the two low words (R54, R55, R89). -/
theorem hostRead_value {off : BitVec 16} {r : HostReg} {s : State} (hr : regAt off = some r) (hf : readIsFree r s = false) :
    hostStep (.read off) s = latch r (s.setHostData (regValue r s)) := by
  simp [hostStep, hostRead, hr, readReg, hf]

theorem latch_hostData (r : HostReg) (s : State) : (latch r s).hostData = s.hostData := by
  unfold latch
  split <;> rfl

theorem latch_other {r : HostReg} (s : State) (h1 : r ≠ .timeLo) (h2 : r ≠ .lastActLo) : latch r s = s := by
  cases r <;> first | rfl | contradiction

theorem hostRead_data {off : BitVec 16} {r : HostReg} {s : State} (hr : regAt off = some r) (hf : readIsFree r s = false) :
    (hostStep (.read off) s).hostData = regValue r s := by
  rw [hostRead_value hr hf, latch_hostData]
  rfl

theorem hostRead_none {off : BitVec 16} (s : State) (hr : regAt off = none) : hostStep (.read off) s = s.setHostData 0 := by
  simp [hostStep, hostRead, hr]

/-- A read changes the record of it, the draws and the latches only (R89). -/
theorem hostRead_eq (off : BitVec 16) (s : State) :
    ∃ w n c, hostStep (.read off) s = { s with hostData := w, draws := n, clock := c } := by
  cases hr : regAt off with
  | none => exact ⟨0, s.draws, s.clock, hostRead_none s hr⟩
  | some r =>
    cases hf : readIsFree r s with
    | true => exact ⟨Config.busyRead s.draws &&& outMask r, s.draws + 1, s.clock, hostRead_free hr hf⟩
    | false =>
      refine ⟨regValue r s, s.draws, (latch r (s.setHostData (regValue r s))).clock, ?_⟩
      rw [hostRead_value hr hf]
      unfold latch
      split <;> rfl

/-! ### Writes -/

/-- A write to buffer RAM changes buffer RAM only (R56). -/
theorem writeReg_bufram (a : Nat) (v : Word) (s : State) : ∃ m, writeReg (.bufram a) v s = s.setRam m :=
  State.poke_eq s a (v.extractLsb' 0 8)

theorem hostWrite_idle {off : BitVec 16} {r : HostReg} (v : Word) {s : State} (hr : regAt off = some r)
    (hb : s.status.busy = false) : hostStep (.write off v) s = writeReg r v s := by
  simp only [hostStep, hostWrite, hr]
  split
  · rename_i h; cases h; rfl
  · rename_i h; cases h; rfl
  · rw [hb]; rfl

theorem hostWrite_idle_none {off : BitVec 16} (v : Word) {s : State} (hr : regAt off = none)
    (hb : s.status.busy = false) : hostStep (.write off v) s = s := by
  simp [hostStep, hostWrite, hr, hb]

/-- While BUSY any offset but those of STATUS and CAPD_SEL sets OVERRUN (R65; log 23). -/
theorem hostWrite_busy {off : BitVec 16} (v : Word) {s : State} (h1 : regAt off ≠ some .status)
    (h2 : regAt off ≠ some .capdSel) (hb : s.status.busy = true) :
    hostStep (.write off v) s = s.setStatus { s.status with overrun := true } := by
  cases hr : regAt off with
  | none => simp [hostStep, hostWrite, hr, hb]
  | some r =>
    cases r with
    | status => exact absurd hr h1
    | capdSel => exact absurd hr h2
    | _ => simp [hostStep, hostWrite, hr, hb]

theorem hostWrite_status (v : Word) (s : State) : hostStep (.write 0x004 v) s = writeReg .status v s := rfl

theorem hostWrite_capdSel (v : Word) (s : State) : hostStep (.write 0x074 v) s = writeReg .capdSel v s := rfl

/-- Everything a host write can do. -/
theorem hostWrite_cases (off : BitVec 16) (v : Word) (s : State) :
    hostStep (.write off v) s = s
      ∨ hostStep (.write off v) s = s.setStatus { s.status with overrun := true }
      ∨ ∃ r, regAt off = some r ∧ (s.status.busy = false ∨ r = .status ∨ r = .capdSel)
        ∧ hostStep (.write off v) s = writeReg r v s := by
  cases hb : s.status.busy with
  | false =>
    cases hr : regAt off with
    | none => exact .inl (hostWrite_idle_none v hr hb)
    | some r => exact .inr (.inr ⟨r, rfl, .inl rfl, hostWrite_idle v hr hb⟩)
  | true =>
    by_cases h1 : regAt off = some .status
    · obtain rfl := regAt_eq h1
      exact .inr (.inr ⟨_, h1, .inr (.inl rfl), hostWrite_status v s⟩)
    · by_cases h2 : regAt off = some .capdSel
      · obtain rfl := regAt_eq h2
        exact .inr (.inr ⟨_, h2, .inr (.inr rfl), hostWrite_capdSel v s⟩)
      · exact .inr (.inl (hostWrite_busy v h1 h2 hb))

end Sys2Proof.Machine
end

