-- ==== Sys2Proof/Proofs/Invariant.lean ====
section
/-! The invariant of Safety.lean is kept by every step. It is taken apart into what holds while an operation is in progress
wherever OP stands (`Running`), and what holds because of where OP stands (`Landing`). -/

namespace Sys2Proof.Machine

/-! ### The line and the clock at a position -/

/-- The line state requested at a position of OP (R63). -/
def Pos.line : Pos → Line
  | .fi _ q => q.line
  | _ => .uart

/-- The latest clock value at a position of FastInit (R191, R192). -/
def FiPos.limit : FiPos → Nat
  | .holdLow _ t => holdLimit t
  | .high _ t => holdLimit t
  | .holdHigh _ t => holdLimit t
  | .release t => holdLimit t
  | .send _ t => holdLimit t
  | _ => 2 ^ 64

/-- The latest clock value at a position of OP. -/
def Pos.limit : Pos → Nat
  | .fi _ q => q.limit
  | _ => 2 ^ 64

theorem lineNow_eq {s : State} {o : Op} (ho : s.op = some o) : lineNow s = o.pos.line := by
  obtain ⟨c, p⟩ := o
  cases p <;> simp [lineNow, ho, Pos.line]

theorem lineNow_idle {s : State} (ho : s.op = none) : lineNow s = .uart := by simp [lineNow, ho]

theorem clockLimit_eq {s : State} {o : Op} (ho : s.op = some o) : clockLimit s = o.pos.limit := by
  obtain ⟨c, p⟩ := o
  cases p with
  | fi f q => cases q <;> simp [clockLimit, ho, Pos.limit, FiPos.limit]
  | _ => simp [clockLimit, ho, Pos.limit]

theorem clockLimit_idle {s : State} (ho : s.op = none) : clockLimit s = 2 ^ 64 := by simp [clockLimit, ho]

theorem nowUs_le (s : State) : s.nowUs ≤ 2 ^ 64 := s.clock.now.isLt.le

theorem Pos.line_of_unlocked {p : Pos} (h : p.locked = false) : p.line = .uart := by
  cases p with
  | fi => cases h
  | _ => rfl

/-! ### The two parts of the invariant while an operation runs -/

/-- What the invariant says of a state with an operation in progress, wherever OP stands. -/
structure Running (s : State) : Prop where
  ram : Memory.wf s.ram = true
  busy : s.status.busy = true
  done : s.status.done = false
  err : s.status.err = false
  errCode : s.outs.errCode = 0
  errInfo : s.outs.errInfo = 0
  kaRun : s.status.kaRun = s.ka.phase.exists
  kaActive : s.status.kaActive = s.ka.phase.ticking
  ready : s.status.engReady = true → s.status.portOpen = true
  kwp : s.status.engReady = true → s.regs.ctrl.proto ≠ .ccpCan
  task : s.ka.phase.exists = true → s.status.engReady = true
  command : s.ka.phase.exists = true → 1 ≤ s.ka.pdu.length ∧ s.ka.pdu.length ≤ 255
  kaSized : s.ka.phase.sized = true
  stop : s.ka.stopReq = true → s.ka.phase.exists = true
  lockKa : s.lock = .ka ↔ kaInside s = true
  capCount : s.outs.capCount = BitVec.ofNat 32 s.cap.live.length
  capdCount : s.outs.capdCount = BitVec.ofNat 32 s.cap.dumped.length
  canIds : s.regs.canTxId &&& 0x60000000 = 0 ∧ s.regs.canRxId &&& 0x60000000 = 0
  lastAct : s.clock.lastAct.toNat ≤ s.clock.now.toNat

/-- What the invariant says of a state because its operation `i` stands at position `q`. -/
structure Landing (i : Instr) (q : Pos) (s : State) : Prop where
  pos : posOk i q = true
  sized : q.sized = true
  fits : q.fits s.regs.ctrl.proto = true
  checked : q = .start ∨ checkedBy s.regs i = true
  lock : s.lock = .seq ↔ q.locked = true
  alone : aloneAt i q = true → s.ka.phase = .off
  up : portUpAt i q = true → s.status.portOpen = true
  line : s.port.line = q.line
  precise : s.nowUs ≤ q.limit
  stopping : q = .stopped → s.ka.phase.exists = true → s.ka.stopReq = true

theorem Running.of_inv {s : State} {o : Op} (h : s.Inv) (ho : s.op = some o) : Running s := by
  have hb : s.status.busy = true := by rw [h.busy, ho]; rfl
  obtain ⟨hd, he⟩ := h.running hb
  exact {
    ram := h.ram, busy := hb, done := hd, err := he
    errCode := by
      by_contra hc
      rw [h.errCode.mpr hc] at he
      cases he
    errInfo := h.errInfo he
    kaRun := h.kaRun, kaActive := h.kaActive, ready := h.ready, kwp := h.kwp, task := h.task, command := h.command
    kaSized := h.kaSized, stop := h.stop, lockKa := h.lockKa, capCount := h.capCount, capdCount := h.capdCount
    canIds := h.canIds, lastAct := h.lastAct }

theorem Landing.of_inv {s : State} {o : Op} {i : Instr} (h : s.Inv) (ho : s.op = some o)
    (hi : decodeCode o.code = .ok i) : Landing i o.pos s := by
  have hpos := h.pos o ho
  simp only [opOk, hi, Bool.and_eq_true, Bool.or_eq_true, beq_iff_eq] at hpos
  obtain ⟨⟨⟨hpos, hz⟩, hf⟩, hc⟩ := hpos
  exact {
    pos := hpos, sized := hz, fits := hf, checked := hc
    lock := by rw [h.lockSeq, seqInside, ho]
    alone := h.alone o i ho hi
    up := h.portUp o i ho hi
    line := by rw [h.line, lineNow_eq ho]
    precise := by rw [← clockLimit_eq ho]; exact h.precise
    stopping := fun hp => h.stopping o.code (by rw [ho, ← hp]) }

/-- OP moves to a position whose part of the invariant holds. -/
theorem Running.goto {u : State} {o : Op} {i : Instr} {q : Pos} (h : Running u) (ho : u.op = some o)
    (hi : decodeCode o.code = .ok i) (hl : Landing i q u) : (u.goto q).Inv := by
  have hop : (u.goto q).op = some { o with pos := q } := by rw [State.goto_op, ho]; rfl
  have only : ∀ o' j, (u.goto q).op = some o' → decodeCode o'.code = .ok j → o'.pos = q ∧ j = i := by
    intro o' j ho' hj
    rw [hop] at ho'
    cases ho'
    exact ⟨rfl, by rw [hi] at hj; cases hj; rfl⟩
  exact {
    ram := h.ram
    busy := by rw [hop]; exact h.busy
    running := fun _ => ⟨h.done, h.err⟩
    errDone := fun he => by rw [State.goto_status, h.err] at he; cases he
    errCode := by simp [h.err, h.errCode]
    errInfo := fun _ => h.errInfo
    pos := fun o' ho' => by
      rw [hop] at ho'
      cases ho'
      simp only [opOk, hi, State.goto_regs, hl.pos, hl.sized, hl.fits, Bool.and_self, Bool.true_and, Bool.or_eq_true,
        beq_iff_eq]
      exact hl.checked
    kaRun := h.kaRun, kaActive := h.kaActive, ready := h.ready, kwp := h.kwp, task := h.task, command := h.command
    kaSized := h.kaSized, stop := h.stop
    lockSeq := by rw [State.goto_lock, hl.lock, seqInside, hop]
    lockKa := h.lockKa
    alone := fun o' j ho' hj ha => by
      obtain ⟨hp, rfl⟩ := only o' j ho' hj
      exact hl.alone (hp ▸ ha)
    portUp := fun o' j ho' hj ha => by
      obtain ⟨hp, rfl⟩ := only o' j ho' hj
      exact hl.up (hp ▸ ha)
    capCount := h.capCount, capdCount := h.capdCount, canIds := h.canIds, lastAct := h.lastAct
    errWords := by simp [h.errCode, h.errInfo]
    line := by rw [lineNow_eq hop]; exact hl.line
    precise := by rw [clockLimit_eq hop]; exact hl.precise
    stopping := fun c ho' => by
      rw [hop] at ho'
      cases ho'
      exact hl.stopping rfl }

/-- The successful end of an operation that does not hold the lock (R331). -/
theorem Running.endOp {u : State} (h : Running u) (hl : u.lock ≠ .seq) (hline : u.port.line = .uart) : (endOp u).Inv where
  ram := h.ram
  busy := rfl
  running := fun hb => by cases hb
  errDone := fun _ => rfl
  errCode := by simp [h.errCode]
  errInfo := fun _ => h.errInfo
  pos := fun o ho => by cases ho
  kaRun := h.kaRun
  kaActive := h.kaActive
  ready := h.ready
  kwp := h.kwp
  task := h.task
  command := h.command
  kaSized := h.kaSized
  stop := h.stop
  lockSeq := by simp [hl, seqInside]
  lockKa := h.lockKa
  alone := fun o i ho => by cases ho
  portUp := fun o i ho => by cases ho
  capCount := h.capCount
  capdCount := h.capdCount
  canIds := h.canIds
  lastAct := h.lastAct
  errWords := by simp [h.errCode, h.errInfo]
  line := by rw [lineNow_idle rfl]; exact hline
  precise := by rw [clockLimit_idle rfl]; exact nowUs_le _
  stopping := fun c ho => by cases ho

/-! ### The error words -/

theorem Err.cls_range (e : Err) : 1 ≤ e.cls ∧ e.cls ≤ 10 := by cases e <;> simp [Err.cls]

theorem Err.sub_le (e : Err) : e.sub ≤ 6 := by
  cases e with
  | timeout c _ => cases c <;> simp [Err.sub]
  | violation c _ => cases c <;> simp [Err.sub]
  | argument c _ => cases c <;> simp [Err.sub]
  | illegal c _ => cases c <;> simp [Err.sub]
  | _ => simp [Err.sub]

theorem Err.codeWord_toNat (e : Err) : e.codeWord.toNat = e.sub * 256 + e.cls := by
  have := e.cls_range
  have := e.sub_le
  rw [Err.codeWord, BitVec.toNat_ofNat]
  omega

theorem Err.codeWord_ne_zero (e : Err) : e.codeWord ≠ 0 := by
  intro h
  have hz := e.codeWord_toNat
  have := e.cls_range
  rw [h] at hz
  change 0 = _ at hz
  omega

/-- A word below `2 ^ k` has no bit from `k` on. -/
theorem and_high_eq_zero {w m : Word} (k : Nat) (hw : w.toNat < 2 ^ k) (hm : ∀ j < k, m.getLsbD j = false) :
    w &&& m = 0 := by
  apply BitVec.eq_of_getLsbD_eq
  intro j _
  rw [BitVec.getLsbD_and]
  by_cases hj : j < k
  · rw [hm j hj, Bool.and_false]; simp
  · have hlt : w.toNat < 2 ^ j := hw.trans_le (Nat.pow_le_pow_right (by omega) (not_lt.mp hj))
    rw [← BitVec.testBit_toNat w, Nat.testBit_lt_two_pow hlt]
    simp

theorem Err.infoWord_toNat (e : Err) : e.infoWord.toNat < 2 ^ 19 := by
  have := e.cat.isLt
  have := e.aux.isLt
  have := e.code.isLt
  rw [Err.infoWord, BitVec.toNat_ofNat]
  omega

theorem Err.words_reserved (e : Err) : e.codeWord &&& 0xFFFF0000#32 = 0 ∧ e.infoWord &&& 0xFFF80000#32 = 0 := by
  have := e.cls_range
  have := e.sub_le
  refine ⟨and_high_eq_zero 16 ?_ (by decide), and_high_eq_zero 19 e.infoWord_toNat (by decide)⟩
  rw [e.codeWord_toNat]
  omega

/-- Error entry (R330): the lock is freed if the sequencer holds it. -/
theorem Running.raiseError {u : State} (e : Err) (h : Running u) (hline : u.port.line = .uart) :
    (raiseError e u).Inv where
  ram := h.ram
  busy := rfl
  running := fun hb => by cases hb
  errDone := fun _ => rfl
  errCode := ⟨fun _ => e.codeWord_ne_zero, fun _ => rfl⟩
  errInfo := fun he => by cases he
  pos := fun o ho => by cases ho
  kaRun := h.kaRun
  kaActive := h.kaActive
  ready := h.ready
  kwp := h.kwp
  task := h.task
  command := h.command
  kaSized := h.kaSized
  stop := h.stop
  lockSeq := by
    simp only [raiseError_lock, seqInside, raiseError_op, Bool.false_eq_true, iff_false]
    split
    · simp
    · assumption
  lockKa := by
    have hin : kaInside (Machine.raiseError e u) = kaInside u := rfl
    rw [hin, ← h.lockKa, raiseError_lock]
    split
    · simp [*]
    · rfl
  alone := fun o i ho => by cases ho
  portUp := fun o i ho => by cases ho
  capCount := h.capCount
  capdCount := h.capdCount
  canIds := h.canIds
  lastAct := h.lastAct
  errWords := e.words_reserved
  line := by rw [lineNow_idle rfl]; exact hline
  precise := by rw [clockLimit_idle rfl]; exact nowUs_le _
  stopping := fun c ho => by cases ho

/-! ### The work between two positions -/

theorem kaInside_congr {s t : State} (h : t.ka = s.ka) : kaInside t = kaInside s := by rw [kaInside, kaInside, h]

theorem Running.work {s t : State} (h : Running s) (w : WorkFrame s t) : Running t where
  ram := w.ram h.ram
  busy := by rw [w.status]; exact h.busy
  done := by rw [w.status]; exact h.done
  err := by rw [w.status]; exact h.err
  errCode := w.errCode.trans h.errCode
  errInfo := w.errInfo.trans h.errInfo
  kaRun := by rw [w.status, w.ka]; exact h.kaRun
  kaActive := by rw [w.status, w.ka]; exact h.kaActive
  ready := by rw [w.status]; exact h.ready
  kwp := by rw [w.status, w.regs]; exact h.kwp
  task := by rw [w.status, w.ka]; exact h.task
  command := by rw [w.ka]; exact h.command
  kaSized := by rw [w.ka]; exact h.kaSized
  stop := by rw [w.ka]; exact h.stop
  lockKa := by rw [w.lock, kaInside_congr w.ka]; exact h.lockKa
  capCount := w.capCount h.capCount
  capdCount := by rw [w.capdCount, w.dumped]; exact h.capdCount
  canIds := by rw [w.regs]; exact h.canIds
  lastAct := w.lastAct h.lastAct

/-- A task that holds no lock leaves it to the sequencer. -/
theorem Running.setLock {s : State} (h : Running s) (x : Lock) (hk : kaInside s = false) (hx : x ≠ .ka) :
    Running (s.setLock x) :=
  { h with
    lockKa := by
      have hin : kaInside (s.setLock x) = kaInside s := rfl
      rw [hin, hk, State.setLock_lock]
      simp [hx] }

theorem Running.unready {s : State} (h : Running s) (hk : s.ka.phase = .off) : Running (unready s) :=
  { h with
    ready := fun hr => by cases hr
    kwp := fun hr => by cases hr
    task := fun he => by
      have hka : (Machine.unready s).ka = s.ka := rfl
      rw [hka, hk] at he
      cases he }

theorem Running.dumpCapture {s : State} (h : Running s) : Running (dumpCapture s) :=
  { h with capCount := rfl, capdCount := rfl }

theorem EndWork.running {i : Instr} {p : Pos} {s u : State} (hw : EndWork i p s u) (h : Running s)
    (hl : Landing i p s) : Running u := by
  cases hw with
  | nothing => exact h
  | unreadied hi hk => exact h.unready (hk.elim id hl.alone)
  | dumped => exact h.dumpCapture
  | framed f => exact h.work (putFrame_frame f s).work
  | parsed u => exact h.work (putPdu_work u s)
  | received u => exact h.work (putPdu_work u s)
  | response f => exact h.work (putDto_work _ s)

/-- The last output writes reach neither the lock nor the port, and leave OP for the end itself. -/
theorem putPdu_port (u : List Byte) (s : State) : (putPdu u s).port = s.port ∧ (putPdu u s).lock = s.lock := by
  obtain ⟨m, hm, _⟩ := putPdu_eq u s
  rw [hm]
  exact ⟨rfl, rfl⟩

theorem putDto_port (d : Dto) (s : State) : (putDto d s).port = s.port ∧ (putDto d s).lock = s.lock := by
  obtain ⟨m, hm, _⟩ := putDto_eq d s
  rw [hm]
  exact ⟨rfl, rfl⟩

theorem putFrame_port (f : List Byte) (s : State) : (putFrame f s).port = s.port ∧ (putFrame f s).lock = s.lock := by
  obtain ⟨m, hm, _⟩ := putFrame_eq f s
  rw [hm]
  exact ⟨rfl, rfl⟩

theorem EndWork.port {i : Instr} {p : Pos} {s u : State} (hw : EndWork i p s u) :
    u.port = s.port ∧ u.lock = s.lock := by
  cases hw with
  | nothing => exact ⟨rfl, rfl⟩
  | unreadied => exact ⟨rfl, rfl⟩
  | dumped => exact ⟨rfl, rfl⟩
  | framed f => exact putFrame_port f s
  | parsed u => exact putPdu_port u s
  | received u => exact putPdu_port u s
  | response f => exact putDto_port _ s

/-! ### Landing after a move -/

/-- The positions past an operation's entry: its checks are made and StopKeepAlive is over. -/
def Pos.past : Pos → Bool
  | .start => false
  | .stopped => false
  | .raise _ => false
  | _ => true

theorem Pos.past_of_locked {p : Pos} (h : p.locked = true) : p.past = true := by
  cases p with
  | start => cases h
  | stopped => cases h
  | raise => cases h
  | _ => rfl

/-- Past its entry an operation needs the port at every position or at none. -/
theorem portUpAt_past {i : Instr} {p : Pos} (hp : p.past = true) : portUpAt i p = portUpAt i .body := by
  cases p with
  | start => cases hp
  | stopped => cases hp
  | raise => cases hp
  | _ => cases i <;> rfl

/-- Past its entry an operation that takes the lock excludes the task at every position or at none. -/
theorem aloneAt_past {i : Instr} {p : Pos} (hp : p.past = true) (ho : i ≠ .openPort) (hc : i ≠ .closePort) :
    aloneAt i p = aloneAt i .body := by
  cases p with
  | start => cases hp
  | stopped => cases hp
  | raise => cases hp
  | _ => cases i <;> first | rfl | contradiction

theorem Pos.locked_instr {i : Instr} {p : Pos} (hpos : posOk i p = true) (hp : p.locked = true) :
    i ≠ .openPort ∧ i ≠ .closePort := by
  have key : ∀ j, (j = .openPort ∨ j = .closePort) → posOk j p = false := by
    rintro j (rfl | rfl)
    · cases p <;> first | cases hp; done | simp [posOk]
    · cases p <;> first | cases hp; done | simp [posOk]
  constructor
  · rintro rfl
    rw [key _ (.inl rfl)] at hpos
    cases hpos
  · rintro rfl
    rw [key _ (.inr rfl)] at hpos
    cases hpos

/-- A move past the entry, from a position with its part of the invariant: what the new position has to meet. -/
theorem Landing.next {i : Instr} {p q : Pos} {s u : State} (h : Landing i p s) (hp : p.past = true) (hq : q.past = true)
    (hregs : u.regs = s.regs) (hka : u.ka = s.ka) (hopen : u.status.portOpen = s.status.portOpen)
    (hpos : posOk i q = true) (hz : q.sized = true) (hf : q.fits s.regs.ctrl.proto = true)
    (hlock : u.lock = .seq ↔ q.locked = true) (ha : aloneAt i q = true → aloneAt i p = true)
    (hline : u.port.line = q.line) (hn : u.nowUs ≤ q.limit) : Landing i q u where
  pos := hpos
  sized := hz
  fits := by rw [hregs]; exact hf
  checked := by
    rcases h.checked with rfl | hc
    · cases hp
    · rw [hregs]; exact .inr hc
  lock := hlock
  alone := fun hq => by rw [hka]; exact h.alone (ha hq)
  up := fun hup => by
    rw [hopen]
    rw [portUpAt_past hq, ← portUpAt_past hp] at hup
    exact h.up hup
  line := hline
  precise := hn
  stopping := fun hs => by subst hs; cases hq

/-- A move inside the locked region. -/
theorem Landing.inside {i : Instr} {p q : Pos} {s u : State} (h : Landing i p s) (w : WorkFrame s u)
    (hp : p.locked = true) (hq : q.locked = true) (hpos : posOk i q = true) (hz : q.sized = true)
    (hf : q.fits s.regs.ctrl.proto = true) (hline : u.port.line = q.line) (hn : u.nowUs ≤ q.limit) : Landing i q u := by
  obtain ⟨ho, hc⟩ := Pos.locked_instr h.pos hp
  refine h.next (Pos.past_of_locked hp) (Pos.past_of_locked hq) w.regs w.ka (by rw [w.status]) hpos hz hf ?_ ?_ hline hn
  · rw [w.lock, h.lock, hp, hq]
  · rw [aloneAt_past (Pos.past_of_locked hp) ho hc, aloneAt_past (Pos.past_of_locked hq) ho hc]
    exact id

/-- `release LOCK` at the end of the locked region. -/
theorem Landing.freed {i : Instr} {p : Pos} {r : Ret} {s u : State} (h : Landing i p s) (w : WorkFrame s u)
    (hp : p.locked = true) (hpos : posOk i (.finish r) = true) (hz : r.sized = true) (hline : u.port.line = .uart) :
    Landing i (.finish r) (u.setLock .free) := by
  obtain ⟨ho, hc⟩ := Pos.locked_instr h.pos hp
  refine h.next (Pos.past_of_locked hp) rfl w.regs w.ka (by rw [State.setLock_status, w.status]) hpos hz rfl ?_ ?_ hline
    (nowUs_le _)
  · simp [Pos.locked]
  · rw [aloneAt_past (Pos.past_of_locked hp) ho hc, aloneAt_past rfl ho hc]
    exact id

/-! ### FastInit -/

theorem fiWindowEnd_lands (f : List Byte) (st : Strategy) (k : Nat) (last : Option Byte) (hk : k ≤ 255) :
    (fiWindowEnd st k last).line = .uart ∧ (fiWindowEnd st k last).limit = 2 ^ 64
      ∧ (Pos.fi f (fiWindowEnd st k last)).sized = true := by
  rcases fiWindowEnd_cases st k last with ⟨r, _, _, h⟩ | ⟨_, _, h⟩ | ⟨_, _, h⟩ <;> rw [h]
  · exact ⟨rfl, rfl, by simpa [Pos.sized] using hk⟩
  · exact ⟨rfl, rfl, rfl⟩
  · exact ⟨rfl, rfl, rfl⟩

theorem fiWindow_lands (f : List Byte) (st : Strategy) (k : Nat) (last : Option Byte) (s : State) (hk : k ≤ 255) :
    (fiWindow st k last s).line = .uart ∧ (fiWindow st k last s).limit = 2 ^ 64
      ∧ (Pos.fi f (fiWindow st k last s)).sized = true := by
  rcases fiWindow_cases st k last s with ⟨hlt, h⟩ | ⟨_, h⟩ <;> rw [h]
  · have := s.regs.fiReadMax.isLt
    exact ⟨rfl, rfl, by simp only [Pos.sized, decide_eq_true_eq]; omega⟩
  · exact fiWindowEnd_lands f st k last hk

/-- A step of a hold window stays in it, or leaves it at or after its end; never past the limit (R191). -/
theorem holdStep_go {n : Nat} {self after q : FiPos} {s u : State} (h : holdStep n self after s = .go q u) :
    (q = self ∨ q = after ∧ n ≤ u.nowUs) ∧ u.port = s.port ∧ (s.nowUs ≤ holdLimit n → u.nowUs ≤ holdLimit n) := by
  unfold holdStep at h
  split at h
  · cases h; exact ⟨.inr ⟨rfl, ‹_›⟩, rfl, id⟩
  · split at h
    · cases h
    · rename_i c rest hc
      simp only [FiRes.go.injEq] at h
      obtain ⟨hq, rfl⟩ := h
      refine ⟨?_, ?_⟩
      · rw [← hq]
        split
        · exact .inr ⟨rfl, ‹_›⟩
        · exact .inl rfl
      · rcases moveClock_cases (s.setEnv { s.env with clockIn := rest }) (holdLimit n) c with hm | ⟨x, _, hx, hm⟩
        · rw [hm]; exact ⟨rfl, id⟩
        · rw [hm]; exact ⟨rfl, fun _ => hx⟩

/-- Where one step of FastInit lands: the line it has requested, the clock bound of the phase, the response's bytes inside
FRMBUF. -/
theorem fiStep_lands {f : List Byte} {q q' : FiPos} {s u : State} (h : fiStep f q s = .go q' u)
    (hline : s.port.line = q.line) (hn : s.nowUs ≤ q.limit) (hz : (Pos.fi f q).sized = true) :
    u.port.line = q'.line ∧ u.nowUs ≤ q'.limit ∧ (Pos.fi f q').sized = true := by
  cases q with
  | setTimeout => cases h; exact ⟨hline, nowUs_le _, rfl⟩
  | low st =>
    cases h
    refine ⟨?_, ?_, rfl⟩
    · cases st <;> rfl
    · cases st <;> simp [FiPos.limit, holdLimit, State.nowUs] <;> omega
  | holdLow st t =>
    obtain ⟨hq, hp, hc⟩ := holdStep_go h
    rw [hp, hline]
    rcases hq with rfl | ⟨rfl, _⟩
    · exact ⟨rfl, hc hn, rfl⟩
    · exact ⟨by cases st <;> rfl, hc hn, rfl⟩
  | high st t =>
    cases h
    refine ⟨?_, ?_, rfl⟩
    · cases st <;> rfl
    · cases st <;> simp [FiPos.limit, holdLimit, State.nowUs] <;> omega
  | holdHigh st t =>
    obtain ⟨hq, hp, hc⟩ := holdStep_go h
    rw [hp, hline]
    rcases hq with rfl | ⟨rfl, _⟩
    · exact ⟨rfl, hc hn, rfl⟩
    · cases st
      · exact ⟨rfl, hc hn, rfl⟩
      · exact ⟨rfl, hc hn, rfl⟩
  | release t => cases h; exact ⟨rfl, hn, rfl⟩
  | send st t =>
    simp only [fiStep] at h
    cases hw : portWrite .seq f s with
    | none => rw [hw] at h; cases h
    | some r =>
      obtain ⟨n, v⟩ := r
      rw [hw] at h
      cases h
      obtain ⟨h1, h2, h3⟩ := fiWindow_lands f st 0 none v (by omega)
      exact ⟨by rw [h1]; exact (portWrite_frame _ _ _ _ _ hw).1.line.trans hline, by rw [h2]; exact nowUs_le _, h3⟩
  | read st k last =>
    simp only [Pos.sized, decide_eq_true_eq] at hz
    have hs := fiStore_frame k last s
    simp only [fiStep] at h
    cases hr : portRead .seq 1 (fiStore k last s) with
    | wait => rw [hr] at h; cases h
    | timeout v =>
      rw [hr] at h
      cases h
      have hp := hs.trans (portRead_frame _ _ _ u (by rw [hr]; rfl)).1
      obtain ⟨h1, h2, h3⟩ := fiWindowEnd_lands f st k none (by omega)
      exact ⟨by rw [h1]; exact hp.line.trans hline, by rw [h2]; exact nowUs_le _, h3⟩
    | bytes bs v =>
      rw [hr] at h
      cases h
      have hp := hs.trans (portRead_frame _ _ _ u (by rw [hr]; rfl)).1
      obtain ⟨h1, h2, h3⟩ := fiWindow_lands f st (k + 1) (some (bs.headD 0)) u (by omega)
      exact ⟨by rw [h1]; exact hp.line.trans hline, by rw [h2]; exact nowUs_le _, h3⟩
  | close r k last => cases h

theorem fiStep_done {f : List Byte} {q : FiPos} {ok : Bool} {s u : State} (h : fiStep f q s = .done ok u) :
    q.line = .uart ∧ u.port.line = s.port.line := by
  cases q with
  | close r k last => cases h; exact ⟨rfl, (fiStore_frame k last s).line⟩
  | holdLow st t =>
    simp only [fiStep, holdStep] at h
    split at h
    · cases h
    · split at h <;> cases h
  | holdHigh st t =>
    simp only [fiStep, holdStep] at h
    split at h
    · cases h
    · split at h <;> cases h
  | send st t =>
    simp only [fiStep] at h
    split at h <;> cases h
  | read st k last =>
    simp only [fiStep] at h
    split at h <;> cases h
  | _ => cases h

/-! ### The transport -/

theorem TxFrom.line {i : Instr} {p : Pos} {s v : State} {wr : Bool} {req : List Byte} {q : TxPos}
    (h : TxFrom i p s wr req q v) : v.port.line = s.port.line := by
  cases h with
  | plain => rfl
  | ccp => exact (ccpBuffer_frame req q s).line
  | pending _ x => rw [(putPdu_port x s).1]

theorem txStep_line {a : Agent} {wr : Bool} {req : List Byte} {q : TxPos} {s t : State}
    (h : (txStep a wr req q s).state? = some t) : t.port.line = s.port.line :=
  (txStep_frame a wr req q s t h).1.line

/-- The transport position a move starts from is sized and of its transport, its request fits the formats, and every
position in the same half of the transport is one of the operation's. -/
theorem TxFrom.lands {i : Instr} {p : Pos} {s v : State} {wr : Bool} {req : List Byte} {q : TxPos}
    (h : TxFrom i p s wr req q v) (hl : Landing i p s) :
    p.locked = true ∧ p.line = .uart ∧ q.sized = true ∧ q.fits s.regs.ctrl.proto = true
      ∧ (q.sends = true → pduLenOk req.length = true)
      ∧ ∀ q' : TxPos, q'.sends = q.sends → posOk i (.tx req q') = true := by
  cases h with
  | plain _ _ _ _ _ hi =>
    have hz := hl.sized
    simp only [Pos.sized, Bool.and_eq_true, Bool.or_eq_true, Bool.not_eq_true'] at hz
    obtain ⟨hz, hr⟩ := hz
    refine ⟨rfl, rfl, hz, hl.fits, fun hs => ?_, fun q' hq => ?_⟩
    · rw [hs] at hr
      simpa using hr
    · have hpos := hl.pos
      rcases hi with ⟨rfl, _⟩ | ⟨rfl, _⟩ | ⟨rfl, _⟩ | ⟨rfl, _⟩ | ⟨rfl, _⟩
      · exact hq.trans hpos
      · simpa [posOk, hq] using hpos
      · rfl
      · rfl
      · simpa [posOk, hq] using hpos
  | ccp =>
    have hz := hl.sized
    simp only [Pos.sized, Bool.and_eq_true, Bool.or_eq_true, Bool.not_eq_true'] at hz
    obtain ⟨hz, hr⟩ := hz
    refine ⟨rfl, rfl, hz, hl.fits, fun hs => ?_, fun q' hq => rfl⟩
    rw [hs] at hr
    simpa using hr
  | pending => exact ⟨rfl, rfl, rfl, rfl, nofun, fun _ _ => rfl⟩

theorem afterSent_pos {i : Instr} (req : List Byte) (hi : i = .tpSend ∨ i = .tpSr ∨ i = .kwpExec ∨ i = .ccpExec)
    (pr : Proto) :
    (afterSent req i).locked = true ∧ posOk i (afterSent req i) = true ∧ (afterSent req i).sized = true
      ∧ (afterSent req i).fits pr = true ∧ (afterSent req i).line = .uart ∧ (afterSent req i).limit = 2 ^ 64 := by
  rcases hi with rfl | rfl | rfl | rfl <;> exact ⟨rfl, rfl, rfl, rfl, rfl, rfl⟩

theorem afterGot_pos {i : Instr} {p : Pos} {s v : State} {wr : Bool} {req x : List Byte} {q : TxPos}
    (h : TxFrom i p s wr req q v) (hi : i ≠ .tpSend) (hx : pduLenOk x.length = true) (pr : Proto) :
    (afterGot req x i).locked = true ∧ posOk i (afterGot req x i) = true ∧ (afterGot req x i).sized = true
      ∧ (afterGot req x i).fits pr = true ∧ (afterGot req x i).line = .uart ∧ (afterGot req x i).limit = 2 ^ 64 := by
  cases h with
  | plain _ _ _ _ _ h =>
    rcases h with ⟨rfl, _⟩ | ⟨rfl, _⟩ | ⟨rfl, _⟩ | ⟨rfl, _⟩ | ⟨rfl, _⟩
    · contradiction
    · exact ⟨rfl, rfl, hx, rfl, rfl, rfl⟩
    · exact ⟨rfl, rfl, hx, rfl, rfl, rfl⟩
    · exact ⟨rfl, rfl, hx, rfl, rfl, rfl⟩
    · exact ⟨rfl, rfl, rfl, rfl, rfl, rfl⟩
  | ccp => exact ⟨rfl, rfl, hx, rfl, rfl, rfl⟩
  | pending => exact ⟨rfl, rfl, hx, rfl, rfl, rfl⟩

theorem posOk_finish {i : Instr} {r : Ret} (h : posOk i (.release r) = true) : posOk i (.finish r) = true := by
  cases i with
  | fiSeq => cases r <;> simp_all [posOk]
  | ccpExec => cases r <;> simp_all [posOk]
  | _ => simp_all [posOk]

/-! ### Every move keeps the invariant -/

theorem Running.no_port {s : State} (h : Running s) (hp : s.status.portOpen = false) : s.ka.phase = .off := by
  cases hk : s.ka.phase with
  | off => rfl
  | _ =>
    have := h.ready (h.task (by rw [hk]; rfl))
    rw [hp] at this
    cases this

theorem Running.lock_seq {s : State} (h : Running s) (hl : s.lock = .seq) : kaInside s = false := by
  have := h.lockKa
  rw [hl] at this
  simpa using this

theorem Running.lock_free {s : State} (h : Running s) (hl : s.lock = .free) : kaInside s = false := by
  have := h.lockKa
  rw [hl] at this
  simpa using this

theorem Checked.holds {i : Instr} {p : Pos} {s : State} (h : Checked i p s) (hl : Landing i p s) :
    checkedBy s.regs i = true := hl.checked.elim h id

theorem Alone.holds {i : Instr} {p : Pos} {s : State} (h : Alone i p s) (hl : Landing i p s) : s.ka.phase = .off :=
  h.elim id hl.alone

theorem PortUp.holds {i : Instr} {p : Pos} {s : State} (h : PortUp i p s) (hl : Landing i p s) (hr : Running s) :
    s.status.portOpen = true := by
  rcases h with h | h | h
  · exact h
  · exact hr.ready h
  · exact hl.up h

/-- The end of KWP_INIT (R245). -/
theorem Running.initEnd {s : State} (h : Running s) (hc : checkedBy s.regs .kwpInit = true) (hk : s.ka.phase = .off)
    (hup : s.status.portOpen = true) (hl : s.lock ≠ .seq) (hline : s.port.line = .uart) : (initEnd s).Inv := by
  simp only [checkedBy, Bool.and_eq_true, Bool.or_eq_true, Bool.not_eq_true'] at hc
  obtain ⟨hproto, hlen⟩ := hc
  have hkwp : s.regs.ctrl.proto ≠ .ccpCan := by
    intro hp
    rw [hp] at hproto
    cases hproto
  have hin : kaInside s = false := by rw [kaInside, hk]
  have hka : s.lock ≠ .ka := fun hx => by rw [h.lockKa, hin] at hx; cases hx
  unfold Machine.initEnd
  split
  · rename_i hen
    rw [hen] at hlen
    have hlen : pduLenOk s.regs.kaLen.toNat = true := by simpa using hlen
    simp only [pduLenOk, Bool.and_eq_true, decide_eq_true_eq] at hlen
    refine Running.endOp (u := (s.setStatus _).setKa _) ?_ hl hline
    exact { h with
      kaRun := rfl
      kaActive := by
        have := h.kaActive
        rw [hk] at this
        exact this
      ready := fun _ => hup
      kwp := fun _ => hkwp
      task := fun _ => rfl
      command := fun _ => by
        simp only [State.setKa_ka, State.memRead_length]
        exact hlen
      kaSized := rfl
      stop := fun hs => by cases hs
      lockKa := by
        simp only [State.setKa_lock, State.setStatus_lock, kaInside, State.setKa_ka]
        simp [hka] }
  · refine Running.endOp (u := s.setStatus _) ?_ hl hline
    exact { h with ready := fun _ => hup, kwp := fun _ => hkwp, task := fun _ => rfl }

theorem TxFrom.op {i : Instr} {p : Pos} {s v : State} {wr : Bool} {req : List Byte} {q : TxPos}
    (h : TxFrom i p s wr req q v) : v.op = s.op := h.work.op

theorem countSent_port (i : Instr) (s : State) : (countSent i s).port = s.port := by
  unfold countSent
  split <;> rfl

/-- The stop request of StopKeepAlive (R264). -/
theorem Running.stopping {s : State} (h : Running s) (hk : s.ka.phase ≠ .off) :
    Running (s.setKa { s.ka with stopReq := true }) :=
  { h with
    stop := fun _ => by
      simp only [State.setKa_ka]
      cases hp : s.ka.phase with
      | off => contradiction
      | _ => rfl }

/-- The answer of `PortOpen` with the port closed: nothing but PORT_OPEN can change, and no engine is Ready yet. -/
theorem Running.opening {s : State} (h : Running s) (e : Env) (ok : Bool) (hup : s.status.portOpen = false) :
    Running (((logCall .seq .openPort s).setEnv e).setStatus { s.status with portOpen := ok }) :=
  { h with
    ready := fun hr => by
      have := h.ready hr
      rw [hup] at this
      cases this }

/-- `PortClose` with no task left (R240, R255). -/
theorem Running.closing {s : State} (h : Running s) (hk : s.ka.phase = .off) : Running (Machine.unready (portClose .seq s)) :=
  { h with
    ready := fun hr => by cases hr
    kwp := fun hr => by cases hr
    task := fun he => by
      have hka : (Machine.unready (portClose .seq s)).ka = s.ka := rfl
      rw [hka, hk] at he
      cases he }

/-- `release LOCK` by the sequencer. -/
theorem Running.free {i : Instr} {p : Pos} {s : State} (h : Running s) (hl : Landing i p s) (hp : p.locked = true) :
    Running (s.setLock .free) := h.setLock .free (h.lock_seq (hl.lock.mpr hp)) (by decide)

/-- Past its checks only KWP_INIT takes the lock at a position that excludes the task (R246). -/
theorem Instr.alone_locked {i : Instr} {q : Pos} (hpos : posOk i q = true) (hq : q.locked = true)
    (ha : aloneAt i q = true) : i = .kwpInit := by
  obtain ⟨ho, hc⟩ := Pos.locked_instr hpos hq
  rw [aloneAt_past (Pos.past_of_locked hq) ho hc] at ha
  cases i with
  | kwpInit => rfl
  | _ => cases ha

/-- Every atomic step of the sequencer keeps the invariant. -/
theorem SeqMove.inv {i : Instr} {o : Op} {s t : State} (hm : SeqMove i o.pos s t) (h : s.Inv) (ho : s.op = some o)
    (hi : decodeCode o.code = .ok i) : t.Inv := by
  have hr := Running.of_inv h ho
  have hl := Landing.of_inv h ho hi
  generalize hpeq : o.pos = p at hm hl
  have hunlock : p.locked = false → s.lock ≠ .seq := fun hp hs => by rw [hl.lock, hp] at hs; cases hs
  have huart : p.locked = false → s.port.line = .uart := fun hp => hl.line.trans (Pos.line_of_unlocked hp)
  cases hm with
  | refused e hp => exact hr.raiseError e (huart hp)
  | ended u hp hw =>
    obtain ⟨hport, hlock⟩ := hw.port
    exact (hw.running hr hl).endOp (by rw [hlock]; exact hunlock hp) (by rw [hport]; exact huart hp)
  | ccpFailed f e hi hp =>
    subst hp
    exact (hr.work (putDto_work _ s)).raiseError e (by rw [(putDto_port _ s).1]; exact huart rfl)
  | inited hi hp hc hk hup =>
    subst hi
    exact hr.initEnd (hc.holds hl) (hk.holds hl) (hup.holds hl hr) (hunlock hp) (huart hp)
  | stopping hj hp hc hk =>
    subst hp
    exact (hr.stopping hk).goto ho hi {
      pos := by rcases hj with rfl | rfl <;> rfl
      sized := rfl, fits := rfl
      checked := .inr (hc.holds hl)
      lock := by simpa [Pos.locked] using hunlock rfl
      alone := by rcases hj with rfl | rfl <;> exact nofun
      up := by rcases hj with rfl | rfl <;> exact nofun
      line := huart rfl
      precise := nowUs_le _
      stopping := fun _ _ => rfl }
  | opening ok rest hj hc hup hans =>
    have hk : s.ka.phase = .off := hr.no_port hup
    have hp : p.locked = false := by rcases hj with ⟨_, rfl⟩ | ⟨_, rfl | rfl, _⟩ <;> rfl
    refine Running.goto (hr.opening _ ok hup) ho hi ?_
    have hpos : posOk i (if ok then .opened else .raise .openingPort) = true := by
      rcases hj with ⟨rfl, _⟩ | ⟨rfl, _⟩ <;> cases ok <;> rfl
    exact {
      pos := hpos
      sized := by cases ok <;> rfl
      fits := by cases ok <;> rfl
      checked := .inr (hc.holds hl)
      lock := by cases ok <;> simpa [Pos.locked] using hunlock hp
      alone := fun _ => hk
      up := fun hq => by
        cases ok with
        | true => rfl
        | false => rcases hj with ⟨rfl, _⟩ | ⟨rfl, _⟩ <;> cases hq
      line := by cases ok <;> exact huart hp
      precise := by cases ok <;> exact nowUs_le _
      stopping := fun hq => by cases ok <;> cases hq }
  | installed q hj hp hq hpos =>
    subst hp
    refine (hr.work (portSetTimeout_frame _ _ s).work).goto ho hi ?_
    refine hl.next rfl ?_ rfl rfl rfl hpos ?_ ?_ ?_ ?_ ?_ ?_
    · rcases hq with rfl | rfl | rfl <;> rfl
    · rcases hq with rfl | rfl | rfl <;> rfl
    · rcases hq with rfl | rfl | rfl <;> rfl
    · rcases hq with rfl | rfl | rfl <;> simpa [Pos.locked] using hunlock rfl
    · exact fun _ => by rcases hj with rfl | rfl <;> rfl
    · rcases hq with rfl | rfl | rfl <;> exact huart rfl
    · rcases hq with rfl | rfl | rfl <;> exact nowUs_le _
  | filtered q hj hp hq hpos =>
    subst hp
    refine (hr.work (logCall_frame _ _ s).work).goto ho hi ?_
    refine hl.next rfl ?_ rfl rfl rfl hpos ?_ ?_ ?_ ?_ ?_ ?_
    · rcases hq with rfl | rfl <;> rfl
    · rcases hq with rfl | rfl <;> rfl
    · rcases hq with rfl | rfl <;> rfl
    · rcases hq with rfl | rfl <;> simpa [Pos.locked] using hunlock rfl
    · exact fun _ => by rcases hj with rfl | rfl <;> rfl
    · rcases hq with rfl | rfl <;> exact huart rfl
    · rcases hq with rfl | rfl <;> exact nowUs_le _
  | closed hj hp hk =>
    subst hj
    have hp : p.locked = false := by rcases hp with rfl | rfl <;> rfl
    exact (hr.closing hk).goto ho hi {
      pos := rfl, sized := rfl, fits := rfl
      checked := .inr rfl
      lock := ⟨fun hs => absurd hs (hunlock hp), nofun⟩
      alone := fun _ => hk
      up := fun hq => by cases hq
      line := huart hp
      precise := nowUs_le _
      stopping := fun hq => by cases hq }
  | acquired q hp hlk hc hup hk hq hpos hz hf =>
    have hlocked : q.locked = true := by rcases hq with ⟨f, rfl⟩ | ⟨req, x, rfl⟩ <;> rfl
    refine (hr.setLock .seq (hr.lock_free hlk) (by decide)).goto ho hi {
      pos := hpos, sized := hz, fits := hf
      checked := .inr (hc.holds hl)
      lock := by simp [hlocked]
      alone := fun ha => ?_
      up := fun _ => hup.holds hl hr
      line := ?_
      precise := ?_
      stopping := ?_ }
    · rcases Instr.alone_locked hpos hlocked ha with rfl
      exact (hk rfl).holds hl
    · rcases hq with ⟨f, rfl⟩ | ⟨req, x, rfl⟩ <;> exact huart hp
    · rcases hq with ⟨f, rfl⟩ | ⟨req, x, rfl⟩ <;> exact nowUs_le _
    · rcases hq with ⟨f, rfl⟩ | ⟨req, x, rfl⟩ <;> exact nofun
  | released r hp =>
    subst hp
    exact (hr.free hl rfl).goto ho hi (hl.freed (.refl s) rfl (posOk_finish hl.pos) hl.sized hl.line)
  | swallowed req q hj hp =>
    subst hj hp
    exact (hr.free hl rfl).goto ho hi (hl.freed (.refl s) rfl rfl rfl hl.line)
  | answered req x hj hp hc =>
    subst hj hp
    have w := (putPdu_work x s).trans (touch_work _)
    refine ((hr.work w).setLock .free ?_ (by decide)).goto (w.op.trans ho) hi (hl.freed w rfl rfl rfl ?_)
    · rw [kaInside_congr w.ka]
      exact hr.lock_seq (hl.lock.mpr rfl)
    · rw [State.touch_port, (putPdu_port x s).1]
      exact hl.line
  | rejected req x e hj hp =>
    subst hp
    exact (hr.work (putPdu_work x s)).raiseError e (by rw [(putPdu_port x s).1]; exact hl.line)
  | fi f q q' u hj hp hs =>
    subst hp
    have w := fiStep_work (t := u) (by rw [hs]; rfl)
    obtain ⟨hline, hn, hz⟩ := fiStep_lands hs hl.line hl.precise hl.sized
    refine (hr.work w).goto (w.op.trans ho) hi (hl.inside w rfl rfl ?_ hz hl.fits hline hn)
    rcases hj with rfl | rfl <;> rfl
  | fiDone f q ok u q' hp hs hq =>
    subst hp
    have w := fiStep_work (t := u) (by rw [hs]; rfl)
    obtain ⟨hu, hline⟩ := fiStep_done hs
    have hline : u.port.line = .uart := by rw [hline, hl.line]; exact hu
    refine (hr.work w).goto (w.op.trans ho) hi ?_
    rcases hq with ⟨rfl, rfl⟩ | ⟨rfl, rfl⟩
    · exact hl.inside w rfl rfl rfl rfl rfl hline (nowUs_le _)
    · exact hl.inside w rfl rfl rfl rfl rfl hline (nowUs_le _)
  | tx wr req q q' v u hv hs =>
    obtain ⟨hlocked, huart, hz, hf, hreq, hpos⟩ := hv.lands hl
    have w := hv.work.trans (txStep_work (t := u) (by rw [hs]; rfl))
    have hgo := txStep_go hs
    rw [hv.work.regs] at hgo
    refine (hr.work w).goto (w.op.trans ho) hi (hl.inside w hlocked rfl (hpos q' hgo.sends) ?_ (hgo.fits hf) ?_ (nowUs_le _))
    · simp only [Pos.sized, hgo.sized hz, Bool.true_and, Bool.or_eq_true, Bool.not_eq_true', hgo.sends]
      cases hq : q.sends with
      | false => exact .inl rfl
      | true => exact .inr (hreq hq)
    · rw [txStep_line (t := u) (by rw [hs]; rfl), hv.line, hl.line]
      exact huart
  | sent req u hj hp hs =>
    subst hp
    have w := (txStep_work (t := u) (by rw [hs]; rfl)).trans (countSent_work i u)
    obtain ⟨hlocked, hpos, hz, hf, hline, hn⟩ := afterSent_pos req hj s.regs.ctrl.proto
    refine (hr.work w).goto (w.op.trans ho) hi (hl.inside w rfl hlocked hpos hz hf ?_ (by rw [hn]; exact nowUs_le _))
    rw [countSent_port, txStep_line (t := u) (by rw [hs]; rfl), hl.line, hline]
    rfl
  | got wr req x q v u hj hv hs =>
    obtain ⟨hlocked, huart, hz, _⟩ := hv.lands hl
    have w := hv.work.trans (txStep_work (t := u) (by rw [hs]; rfl))
    obtain ⟨hlocked', hpos, hz', hf, hline, hn⟩ := afterGot_pos hv hj ((txStep_got hs).2 hz) s.regs.ctrl.proto
    refine (hr.work w).goto (w.op.trans ho) hi
      (hl.inside w hlocked hlocked' hpos hz' hf ?_ (by rw [hn]; exact nowUs_le _))
    rw [txStep_line (t := u) (by rw [hs]; rfl), hv.line, hl.line, hline]
    exact huart
  | failed wr req q v e hj hv =>
    obtain ⟨_, huart, _⟩ := hv.lands hl
    exact (hr.work hv.work).raiseError e (by rw [hv.line, hl.line]; exact huart)

/-! ### The keep-alive task keeps the invariant -/

/-- What a step of the task has to meet besides its frame. -/
structure TaskLands (s t : State) : Prop where
  kaRun : t.status.kaRun = t.ka.phase.exists
  kaActive : t.status.kaActive = t.ka.phase.ticking
  pdu : t.ka.pdu = s.ka.pdu
  sized : t.ka.phase.sized = true
  stop : t.ka.stopReq = true → t.ka.phase.exists = true
  stopReq : t.ka.phase.exists = true → t.ka.stopReq = s.ka.stopReq
  lockSeq : t.lock = .seq ↔ s.lock = .seq
  lockKa : t.lock = .ka ↔ kaInside t = true

/-- A step of an existing task that keeps to its frame keeps the invariant. -/
theorem State.Inv.of_task {s t : State} (h : s.Inv) (f : TaskFrame s t) (hk : s.ka.phase.exists = true)
    (hl : TaskLands s t) : t.Inv := by
  have hne : s.ka.phase ≠ .off := fun hp => by rw [hp] at hk; cases hk
  have hseq : seqInside t = seqInside s := by rw [seqInside, seqInside, f.op]
  have hclock : clockLimit t = clockLimit s := by rw [clockLimit, clockLimit, f.op]
  have hline : lineNow t = lineNow s := by rw [lineNow, lineNow, f.op]
  exact {
    ram := by rw [f.ram]; exact h.ram
    busy := by rw [f.status, f.op]; exact h.busy
    running := by rw [f.status]; exact h.running
    errDone := by rw [f.status]; exact h.errDone
    errCode := by rw [f.status, f.outs]; exact h.errCode
    errInfo := by rw [f.status, f.outs]; exact h.errInfo
    pos := by rw [f.op, f.regs]; exact h.pos
    kaRun := hl.kaRun
    kaActive := hl.kaActive
    ready := by rw [f.status]; exact h.ready
    kwp := by rw [f.status, f.regs]; exact h.kwp
    task := fun _ => by rw [f.status]; exact h.task hk
    command := fun _ => by rw [hl.pdu]; exact h.command hk
    kaSized := hl.sized
    stop := hl.stop
    lockSeq := by rw [hl.lockSeq, hseq]; exact h.lockSeq
    lockKa := hl.lockKa
    alone := fun o i ho hi ha => by
      rw [f.op] at ho
      exact absurd (h.alone o i ho hi ha) hne
    portUp := fun o i ho hi hp => by
      rw [f.op] at ho
      rw [f.status]
      exact h.portUp o i ho hi hp
    capCount := f.capCount h.capCount
    capdCount := by rw [f.outs, f.dumped]; exact h.capdCount
    canIds := by rw [f.regs]; exact h.canIds
    lastAct := f.lastAct h.lastAct
    errWords := by rw [f.outs]; exact h.errWords
    line := by rw [hline, f.line]; exact h.line
    precise := by
      rw [hclock, State.nowUs, f.clock]
      exact h.precise
    stopping := fun c ho he => by
      rw [f.op] at ho
      rw [hl.stopReq he]
      exact h.stopping c ho hk }

/-- A move inside the task's transaction. -/
theorem TaskLands.inside {s u : State} {p : TickPos} (h : s.Inv) (hin : kaInside s = true) (f : PortFrame s u)
    (hp : kaInside (u.setPhase (.tick p)) = true) (hz : (KaPhase.tick p).sized = true) :
    TaskLands s (u.setPhase (.tick p)) := by
  have hx : s.ka.phase.exists = true ∧ s.ka.phase.ticking = true := by
    unfold kaInside at hin
    split at hin
    · rename_i hq; rw [hq]; exact ⟨rfl, rfl⟩
    · rename_i hq; rw [hq]; exact ⟨rfl, rfl⟩
    · cases hin
  exact {
    kaRun := by
      rw [State.setPhase_status, f.status, h.kaRun, hx.1]
      rfl
    kaActive := by
      rw [State.setPhase_status, f.status, h.kaActive, hx.2]
      rfl
    pdu := by rw [State.setPhase_ka, f.ka]
    sized := hz
    stop := fun _ => rfl
    stopReq := fun _ => by rw [State.setPhase_ka, f.ka]
    lockSeq := by rw [State.setPhase_lock, f.lock]
    lockKa := by
      rw [State.setPhase_lock, f.lock, hp, h.lockKa, hin] }

/-- The task's release of the lock. -/
theorem TaskLands.released {s : State} {p : TickPos} (h : s.Inv) (hin : kaInside s = true)
    (hp : kaInside (kaRelease s p) = false) (hz : (KaPhase.tick p).sized = true) : TaskLands s (kaRelease s p) := by
  have hl := TaskLands.inside (p := .got [0]) h hin (.refl s) rfl rfl
  have hka : s.lock = .ka := h.lockKa.mpr hin
  exact {
    kaRun := hl.kaRun, kaActive := hl.kaActive, pdu := rfl, sized := hz, stop := fun _ => rfl, stopReq := fun _ => rfl
    lockSeq := by simp [hka]
    lockKa := by simp [hp] }

theorem State.Inv.lock_of_outside {s : State} (h : s.Inv) (hin : kaInside s = false) : s.lock ≠ .ka := fun hl => by
  rw [h.lockKa, hin] at hl
  cases hl

theorem KaFrom.exists {s : State} {q : TxPos} (h : KaFrom s q) : s.ka.phase.exists = true := by
  rcases h with h | ⟨_, x, h, _⟩ <;> rw [h] <;> rfl

/-- The transport position the task works at is sized. -/
theorem KaFrom.sized {s : State} {q : TxPos} (h : KaFrom s q) (hi : s.Inv) : q.sized = true := by
  rcases h with h | ⟨rfl, _⟩
  · have hz := hi.kaSized
    rw [h] at hz
    exact hz
  · rfl

theorem kaInside_exists {s : State} (h : kaInside s = true) : s.ka.phase.exists = true := by
  unfold kaInside at h
  split at h
  · rename_i hq; rw [hq]; rfl
  · rename_i hq; rw [hq]; rfl
  · cases h

/-- Every atomic step of the keep-alive task keeps the invariant. -/
theorem KaMove.inv {s t : State} (hm : KaMove s t) (h : s.Inv) : t.Inv := by
  have hf := hm.frame
  cases hm with
  | left c hp hin =>
    exact h.of_task hf hp {
      kaRun := rfl, kaActive := rfl, pdu := rfl, sized := rfl
      stop := nofun, stopReq := nofun, lockSeq := Iff.rfl
      lockKa := ⟨fun hl => absurd hl (h.lock_of_outside hin), nofun⟩ }
  | woke d hp =>
    have he : s.ka.phase.exists = true := by rw [hp]; rfl
    exact h.of_task hf he {
      kaRun := h.kaRun.trans he, kaActive := rfl, pdu := rfl, sized := rfl
      stop := fun _ => rfl, stopReq := fun _ => rfl, lockSeq := Iff.rfl
      lockKa := ⟨fun hl => absurd hl (h.lock_of_outside (by simp [kaInside, hp])), nofun⟩ }
  | acquired hp hl =>
    have he : s.ka.phase.exists = true := by rw [hp]; rfl
    exact h.of_task hf he {
      kaRun := h.kaRun.trans he
      kaActive := h.kaActive.trans (by rw [hp]; rfl)
      pdu := rfl, sized := rfl, stop := fun _ => rfl, stopReq := fun _ => rfl
      lockSeq := by simp [hl]
      lockKa := ⟨fun _ => rfl, fun _ => rfl⟩ }
  | slept d hp hin =>
    exact h.of_task hf hp {
      kaRun := h.kaRun.trans hp, kaActive := rfl, pdu := rfl, sized := rfl
      stop := fun _ => rfl, stopReq := fun _ => rfl, lockSeq := Iff.rfl
      lockKa := ⟨fun hl => absurd hl (h.lock_of_outside hin), nofun⟩ }
  | tx q q' u hq hs =>
    have hp := (txStep_frame .ka false s.ka.pdu q s u (by rw [hs]; rfl)).1
    exact h.of_task hf hq.exists (.inside h hq.inside hp rfl ((txStep_go hs).sized (hq.sized h)))
  | sent q u hq hs =>
    have hp := (txStep_frame .ka false s.ka.pdu q s u (by rw [hs]; rfl)).1
    exact h.of_task hf hq.exists (.inside h hq.inside hp rfl rfl)
  | got q x u hq hs =>
    have hp := (txStep_frame .ka false s.ka.pdu q s u (by rw [hs]; rfl)).1
    exact h.of_task hf hq.exists (.inside h hq.inside hp rfl ((txStep_got hs).2 (hq.sized h)))
  | failed c hin => exact h.of_task hf (kaInside_exists hin) (.released h hin rfl rfl)
  | answered x hp hc =>
    have hin : kaInside s = true := by simp [kaInside, hp]
    have hl := TaskLands.released (p := .ended) h hin rfl rfl
    exact h.of_task hf (kaInside_exists hin)
      ⟨hl.kaRun, hl.kaActive, rfl, rfl, hl.stop, hl.stopReq, hl.lockSeq, hl.lockKa⟩

/-! ### The other events -/

/-- Events that touch neither the block's registers nor OP, the lock and the task: what the invariant says is unchanged. -/
theorem State.Inv.setEnv {s : State} (h : s.Inv) (e : Env) : (s.setEnv e).Inv := { h with }

theorem State.Inv.setSched {s : State} (h : s.Inv) (es : List Event) : (s.setSched es).Inv := { h with }

theorem State.Inv.setHostData {s : State} (h : s.Inv) (w : Word) : (s.setHostData w).Inv := { h with }

theorem State.Inv.setDraws {s : State} (h : s.Inv) (n : Nat) : (s.setDraws n).Inv := { h with }

theorem illegalOp_inv {s : State} {o : Op} {r : DecodeRefusal} (h : s.Inv) (ho : s.op = some o)
    (hr : decodeCode o.code = .error r) : (illegalOp r s).Inv := by
  cases r
  refine (Running.of_inv h ho).raiseError _ ?_
  have hp := h.pos o ho
  simp only [opOk, hr, beq_iff_eq] at hp
  rw [h.line, lineNow_eq ho, hp]
  rfl

/-- A run of the sequencer keeps the invariant. -/
theorem exec_inv {i : Instr} {o : Op} {s t : State} (h : s.Inv) (ho : s.op = some o) (hi : decodeCode o.code = .ok i)
    (he : exec i s = .next t) : t.Inv := by
  have key : t.Inv ∧ Runs i t := exec_keeps (fun s => s.Inv ∧ Runs i s)
    (fun s t o ⟨h, hr⟩ ho hm => ⟨hm.inv h ho (hr o ho), hm.runs hr⟩)
    (fun s t ⟨h, hr⟩ hk => ⟨(kaStep_cases hk).inv h, hr.congr (kaStep_cases hk).frame.op⟩) ⟨h, .of_op ho hi⟩ he
  exact key.1

theorem seqRun_inv {s t : State} (h : s.Inv) (hr : seqRun s = .next t) : t.Inv := by
  rcases seqRun_cases hr with rfl | ⟨o, r, ho, hd, rfl⟩ | ⟨o, i, ho, hi, he⟩
  · exact h
  · exact illegalOp_inv h ho hd
  · exact exec_inv h ho hi he

theorem seqAtom_inv {s t : State} (h : s.Inv) (hr : seqAtom s = .next t) : t.Inv := by
  rcases seqAtom_cases hr with rfl | ⟨o, r, ho, hd, rfl⟩ | ⟨o, i, ho, hi, hm⟩
  · exact h
  · exact illegalOp_inv h ho hd
  · exact hm.inv h ho hi

theorem taskTurn_inv {s : State} (h : s.Inv) : (taskTurn s).Inv := by
  rcases taskTurn_cases s with ht | ht
  · rw [ht]; exact h
  · exact (kaStep_cases ht).inv h

theorem clockStep_inv {s : State} (c : Time) (h : s.Inv) : (clockStep c s).Inv := by
  rcases moveClock_cases s (clockLimit s) c with hm | ⟨u, hu, hlim, hm⟩
  · rw [clockStep, hm]; exact h
  · rw [clockStep, hm]
    exact { h with lastAct := h.lastAct.trans hu, precise := hlim }

theorem blockReset_inv (s : State) : (blockReset s).Inv where
  ram := rfl
  busy := rfl
  running := nofun
  errDone := nofun
  errCode := ⟨nofun, fun h => absurd rfl h⟩
  errInfo := fun _ => rfl
  pos := nofun
  kaRun := rfl
  kaActive := rfl
  ready := nofun
  kwp := nofun
  task := nofun
  command := nofun
  kaSized := rfl
  stop := nofun
  lockSeq := ⟨nofun, nofun⟩
  lockKa := ⟨nofun, nofun⟩
  alone := nofun
  portUp := nofun
  capCount := rfl
  capdCount := rfl
  canIds := ⟨BitVec.zero_and, BitVec.zero_and⟩
  lastAct := le_rfl
  errWords := ⟨BitVec.zero_and, BitVec.zero_and⟩
  line := rfl
  precise := nowUs_le _
  stopping := nofun

/-! ### Host accesses -/

/-- A write to the host's registers keeps the invariant if it leaves the checks of the operation in progress and the
PROTO of an open port, and no reserved bit of a CAN identifier (R31, R36). -/
theorem State.Inv.setRegs {s : State} (h : s.Inv) (r : Regs) (hpos : ∀ o, s.op = some o → opOk r o = true)
    (hp : s.status.portOpen = true → r.ctrl.proto = s.regs.ctrl.proto)
    (hc : r.canTxId &&& 0x60000000 = 0 ∧ r.canRxId &&& 0x60000000 = 0) : (s.setRegs r).Inv :=
  { h with
    pos := hpos
    kwp := fun hr => by
      rw [State.setRegs_regs, hp (h.ready hr)]
      exact h.kwp hr
    canIds := hc }

/-- Operation start (R25). -/
theorem startOp_inv {s : State} (c : Byte) (h : s.Inv) (ho : s.op = none) : (startOp c s).Inv :=
  { h with
    busy := rfl
    running := fun _ => ⟨rfl, rfl⟩
    errDone := nofun
    errCode := ⟨nofun, fun hc => absurd rfl hc⟩
    errInfo := fun _ => rfl
    pos := fun o hs => by
      cases hs
      unfold opOk
      cases decodeCode c with
      | ok i => cases i <;> rfl
      | error r => rfl
    lockSeq := by
      have hl := h.lockSeq
      rw [seqInside, ho] at hl
      exact hl
    alone := fun o i hs hi ha => by
      cases hs
      cases i <;> cases ha
    portUp := fun o i hs hi ha => by
      cases hs
      cases i <;> cases ha
    errWords := ⟨by simp, by simp⟩
    line := by
      have hl := h.line
      rw [lineNow_idle ho] at hl
      exact hl
    precise := nowUs_le _
    stopping := nofun }

theorem poke_inv {s : State} (a : Nat) (b : Byte) (h : s.Inv) : (s.poke a b).Inv := by
  have hw := State.poke_wf s a b h.ram
  obtain ⟨m, hm⟩ := State.poke_eq s a b
  rw [hm] at hw ⊢
  exact { h with ram := hw }

theorem latch_inv {s : State} (r : HostReg) (h : s.Inv) : (latch r s).Inv := by
  unfold latch
  split
  · exact { h with }
  · exact { h with }
  · exact h

theorem hostRead_inv {s : State} (off : BitVec 16) (h : s.Inv) : (hostRead off s).Inv := by
  unfold hostRead
  split
  · exact h.setHostData 0
  · unfold readReg
    split
    · exact (h.setHostData _).setDraws _
    · exact latch_inv _ (h.setHostData _)

theorem Ctrl.write_open (c : Ctrl) (v : Word) : (c.write true v).proto = c.proto := rfl

theorem canIdMask_reserved (v : Word) : v &&& canIdMask &&& 0x60000000 = 0 := by
  rw [BitVec.and_assoc]
  simp [canIdMask]

/-- A write to a register while no operation runs keeps the invariant. -/
theorem writeReg_inv {s : State} (r : HostReg) (v : Word) (h : s.Inv) (ho : s.op = none) : (writeReg r v s).Inv := by
  have regs : ∀ x : Regs, (s.status.portOpen = true → x.ctrl.proto = s.regs.ctrl.proto) →
      (x.canTxId &&& 0x60000000 = 0 ∧ x.canRxId &&& 0x60000000 = 0) → (s.setRegs x).Inv :=
    fun x => h.setRegs x (fun o hs => by rw [ho] at hs; cases hs)
  cases r with
  | cmd => exact startOp_inv _ h ho
  | status => exact { h with }
  | ctrl => exact regs _ (fun hp => by rw [hp]; rfl) h.canIds
  | canTxId => exact regs _ (fun _ => rfl) ⟨canIdMask_reserved v, h.canIds.2⟩
  | canRxId => exact regs _ (fun _ => rfl) ⟨h.canIds.1, canIdMask_reserved v⟩
  | klTxHdr => exact regs _ (fun _ => rfl) h.canIds
  | klRxHdr => exact regs _ (fun _ => rfl) h.canIds
  | canRxMask => exact regs _ (fun _ => rfl) h.canIds
  | txLen => exact regs _ (fun _ => rfl) h.canIds
  | startLen => exact regs _ (fun _ => rfl) h.canIds
  | kaLen => exact regs _ (fun _ => rfl) h.canIds
  | tRxTimeout => exact regs _ (fun _ => rfl) h.canIds
  | tFiTimeout => exact regs _ (fun _ => rfl) h.canIds
  | tFiLow => exact regs _ (fun _ => rfl) h.canIds
  | tFiHigh => exact regs _ (fun _ => rfl) h.canIds
  | fiReadMax => exact regs _ (fun _ => rfl) h.canIds
  | kaPoll => exact regs _ (fun _ => rfl) h.canIds
  | kaIdle => exact regs _ (fun _ => rfl) h.canIds
  | capCfg => exact regs _ (fun _ => rfl) h.canIds
  | capdSel => exact regs _ (fun _ => rfl) h.canIds
  | frmLen => exact { h with }
  | bufram a => exact poke_inv a _ h
  | _ => exact h

theorem hostStep_inv {s : State} (a : HostAccess) (h : s.Inv) : (hostStep a s).Inv := by
  cases a with
  | read off => exact hostRead_inv off h
  | write off v =>
    rcases hostWrite_cases off v s with hw | hw | ⟨r, _, hb, hw⟩
    · rw [hw]; exact h
    · rw [hw]; exact { h with }
    · rw [hw]
      rcases hb with hb | rfl | rfl
      · have ho : s.op = none := by
          have hop := h.busy
          rw [hb] at hop
          exact Option.not_isSome_iff_eq_none.mp (by rw [← hop]; decide)
        exact writeReg_inv r v h ho
      · exact { h with }
      · exact h.setRegs _ h.pos (fun _ => rfl) h.canIds

/-! ### Every step -/

theorem eventStep_inv {e : Event} {s t : State} (h : s.Inv) (he : eventStep e s = .next t) : t.Inv := by
  cases e with
  | host a => cases he; exact hostStep_inv a h
  | run => exact seqRun_inv h he
  | atom => exact seqAtom_inv h he
  | task => cases he; exact taskTurn_inv h
  | clock c => cases he; exact clockStep_inv c h
  | env a =>
    cases he
    obtain ⟨x, hx⟩ := deliver_eq a s
    rw [hx]
    exact h.setEnv x
  | reset => cases he; exact blockReset_inv s

/-- Settles O19: the moves of the sequencer and of the task and the other events each keep the invariant. -/
theorem stepKeepsInv : Obligations.StepKeepsInv := by
  intro s t h hs
  unfold step at hs
  split at hs
  · exact eventStep_inv (h.setSched _) hs
  · split at hs
    · exact seqRun_inv h hs
    · cases hs; exact taskTurn_inv h

end Sys2Proof.Machine
end

