-- ==== Sys2Proof/Proofs/HostInterface.lean ====
section
/-! The host interface: the start of an operation, the sticky bits, PROTO, the latches and the dump's read-out
(spec/10_state.md R20 to R31, R52 to R55, R65). -/

namespace Sys2Proof.Machine

/-! ### Operation start and steps -/

theorem eventStep_run {s : State} {o : Op} {i : Instr} (ho : s.op = some o) (hi : decodeCode o.code = .ok i) :
    eventStep .run s = exec i s := by
  simp [eventStep, seqRun, fetch, ho, hi]

theorem step_scheduled {s : State} {e : Event} {rest : List Event} (h : s.sched = e :: rest) :
    step s = eventStep e (s.setSched rest) := by
  simp [step, h]

/-- Settles O6: each clause is a branch of `step`, the last one for the word's bits 7:0. -/
theorem stepRunsDecoded : Obligations.StepRunsDecoded := by
  refine ⟨fun s e rest h => step_scheduled h, fun s o i ho hi => eventStep_run ho hi, fun s o i hs ho hi => ?_,
    fun s nbits w i hd => ?_⟩
  · simp [step, hs, seqRun, fetch, ho, hi]
  · have hw : decode (BitVec.ofNat 32 (w % 2 ^ nbits)) = .ok i := by
      unfold decodeTableWord at hd
      split at hd
      · cases hd; assumption
      · cases hd
    have hc : opcodeOf (BitVec.ofNat 32 (w % 2 ^ nbits)) = opcode i := opcode_of_decodeCode hw
    rw [step_scheduled (s := s.withFetchWord nbits w) rfl,
      eventStep_run (o := { code := opcodeOf (BitVec.ofNat 32 (w % 2 ^ nbits)), pos := .start }) rfl hw, ← hc]
    rfl

/-- Settles O7: CMD stands at offset 0 and reads 0. -/
theorem cmdStartsOperation : Obligations.CmdStartsOperation := by
  intro s v
  have hcmd : regAt 0x000 = some .cmd := rfl
  refine ⟨fun _ hb => hostWrite_idle v hcmd hb, fun hb => ?_, hostRead_data hcmd (readIsFree_closed rfl)⟩
  exact hostWrite_busy v (by rw [hcmd]; decide) (by rw [hcmd]; decide) hb

/-- A write to a register neither reads nor changes the keep-alive task. -/
theorem writeReg_ka (r : HostReg) (v : Word) (s : State) (k : KeepAlive) :
    writeReg r v s = (writeReg r v { s with ka := k }).setKa s.ka := by
  cases r with
  | bufram a =>
    show s.poke a _ = (State.poke { s with ka := k } a _).setKa s.ka
    unfold State.poke
    split <;> rfl
  | _ => rfl

/-- Settles O8: by the rules of a write while BUSY and while idle. -/
theorem busyWritesRejected : Obligations.BusyWritesRejected := by
  intro s off v
  refine ⟨fun hb h1 h2 => ?_, rfl, rfl, fun hb k => ?_⟩
  · exact hostWrite_busy v (fun h => h1 (regAt_eq h)) (fun h => h2 (regAt_eq h)) hb
  · have hb' : ({ s with ka := k } : State).status.busy = false := hb
    cases hr : regAt off with
    | none => rw [hostWrite_idle_none v hr hb, hostWrite_idle_none v hr hb']; rfl
    | some r => rw [hostWrite_idle v hr hb, hostWrite_idle v hr hb']; exact writeReg_ka r v s k

/-! ### The sticky bits -/

theorem hostRead_status (off : BitVec 16) (s : State) : (hostStep (.read off) s).status = s.status := by
  obtain ⟨w, n, c, h⟩ := hostRead_eq off s
  rw [h]

/-- Only the write to STATUS clears a sticky bit, with a 1 in its place (R28). -/
theorem writeReg_sticky (r : HostReg) (v : Word) (s : State) :
    ((writeReg r v s).status.errSticky = s.status.errSticky ∧ (writeReg r v s).status.overrun = s.status.overrun)
      ∨ r = .status := by
  cases r with
  | status => exact .inr rfl
  | bufram a =>
    obtain ⟨m, hm⟩ := writeReg_bufram a v s
    rw [hm]
    exact .inl ⟨rfl, rfl⟩
  | _ => exact .inl ⟨rfl, rfl⟩

/-- A host access keeps a sticky bit, unless it writes 1 to it. -/
theorem hostStep_sticky (a : HostAccess) (s : State) :
    (s.status.errSticky = true → (hostStep a s).status.errSticky = true
        ∨ ∃ v, a = .write 0x004 v ∧ v.getLsbD 3 = true)
      ∧ (s.status.overrun = true → (hostStep a s).status.overrun = true
        ∨ ∃ v, a = .write 0x004 v ∧ v.getLsbD 4 = true) := by
  cases a with
  | read off =>
    rw [hostRead_status]
    exact ⟨.inl, .inl⟩
  | write off v =>
    rcases hostWrite_cases off v s with hw | hw | ⟨r, hr, _, hw⟩ <;> rw [hw]
    · exact ⟨.inl, .inl⟩
    · exact ⟨.inl, fun _ => .inl rfl⟩
    · rcases writeReg_sticky r v s with ⟨h1, h2⟩ | rfl
      · rw [h1, h2]
        exact ⟨.inl, .inl⟩
      · obtain rfl := regAt_eq hr
        constructor
        · intro h
          cases hv : v.getLsbD 3 with
          | true => exact .inr ⟨v, rfl, hv⟩
          | false =>
            refine .inl ?_
            show (s.status.errSticky && !v.getLsbD 3) = true
            rw [h, hv]
            rfl
        · intro h
          cases hv : v.getLsbD 4 with
          | true => exact .inr ⟨v, rfl, hv⟩
          | false =>
            refine .inl ?_
            show (s.status.overrun && !v.getLsbD 4) = true
            rw [h, hv]
            rfl

/-- Settles O9: every step but a host access and the block reset is framed, and a host access clears a bit by a 1 only. -/
theorem stickyBits : Obligations.StickyBits := by
  refine ⟨fun s t h => ?_, fun s v rest hs => ?_⟩
  · rcases step_cases h with ⟨a, rest, hs, rfl⟩ | ⟨rest, hs, rfl⟩ | hf
    · obtain ⟨h1, h2⟩ := hostStep_sticky a (s.setSched rest)
      refine ⟨fun h => (h1 h).imp id fun ⟨v, ha, hv⟩ => ?_, fun h => (h2 h).imp id fun ⟨v, ha, hv⟩ => ?_⟩
      · exact .inr ⟨v, rest, ha ▸ hs, hv⟩
      · exact .inr ⟨v, rest, ha ▸ hs, hv⟩
    · exact ⟨fun _ => .inr (.inl ⟨rest, hs⟩), fun _ => .inr (.inl ⟨rest, hs⟩)⟩
    · exact ⟨fun h => .inl (hf.errSticky h), fun h => .inl (hf.overrun.trans h)⟩
  · refine ⟨_, step_scheduled hs, fun hv => ?_, fun hv => ?_⟩
    · show (s.status.errSticky && !v.getLsbD 3) = false
      rw [hv, Bool.not_true, Bool.and_false]
    · show (s.status.overrun && !v.getLsbD 4) = false
      rw [hv, Bool.not_true, Bool.and_false]

/-! ### PROTO -/

theorem hostRead_regs (off : BitVec 16) (s : State) : (hostStep (.read off) s).regs = s.regs := by
  obtain ⟨w, n, c, h⟩ := hostRead_eq off s
  rw [h]

theorem writeReg_ctrl (r : HostReg) (v : Word) (s : State) : (writeReg r v s).regs.ctrl = s.regs.ctrl ∨ r = .ctrl := by
  cases r with
  | ctrl => exact .inr rfl
  | bufram a =>
    obtain ⟨m, hm⟩ := writeReg_bufram a v s
    rw [hm]
    exact .inl rfl
  | _ => exact .inl rfl

/-- A host access changes PROTO at a CTRL write with the port closed and no operation running only (R31). -/
theorem hostStep_proto (a : HostAccess) (s : State) (h : (hostStep a s).regs.ctrl.proto ≠ s.regs.ctrl.proto) :
    s.status.portOpen = false ∧ s.status.busy = false ∧ ∃ v, a = .write 0x008 v := by
  cases a with
  | read off => rw [hostRead_regs] at h; exact absurd rfl h
  | write off v =>
    rcases hostWrite_cases off v s with hw | hw | ⟨r, hr, hb, hw⟩ <;> rw [hw] at h
    · exact absurd rfl h
    · exact absurd rfl h
    · rcases writeReg_ctrl r v s with hc | rfl
      · rw [hc] at h; exact absurd rfl h
      · obtain rfl := regAt_eq hr
        refine ⟨?_, by simpa using hb, v, rfl⟩
        by_contra hp
        have hp := eq_true_of_ne_false hp
        simp only [writeReg, State.setRegs_regs, hp] at h
        exact h rfl

/-- What a CTRL write leaves in PROTO, in the words of R31. -/
theorem Ctrl.write_proto (c : Ctrl) (b : Bool) (v : Word) :
    (c.write b v).proto =
      if b = true ∨ v.extractLsb' 0 2 = 3#2 then c.proto
      else if v.extractLsb' 0 2 = 0#2 then .kwpKline
      else if v.extractLsb' 0 2 = 1#2 then .kwpCan
      else .ccpCan := by
  unfold Ctrl.write
  generalize v.extractLsb' 0 2 = x
  cases b with
  | true => simp
  | false =>
    have hx : x = 0#2 ∨ x = 1#2 ∨ x = 2#2 ∨ x = 3#2 := by revert x; decide
    rcases hx with rfl | rfl | rfl | rfl <;> rfl

/-- Settles O10: the CTRL write case by case, and every other step frames PROTO. -/
theorem ctrlProtoLegal : Obligations.CtrlProtoLegal := by
  refine ⟨fun s v hb => ?_, fun s t h hne => ?_⟩
  · rw [hostWrite_idle v (r := .ctrl) rfl hb, ← Ctrl.write_proto]
    rfl
  · rcases step_cases h with ⟨a, rest, hs, rfl⟩ | ⟨rest, hs, rfl⟩ | hf
    · obtain ⟨hp, hb, v, rfl⟩ := hostStep_proto a (s.setSched rest) hne
      exact .inr ⟨hp, hb, v, rest, hs⟩
    · exact .inl ⟨rest, hs⟩
    · rw [hf.regs] at hne
      exact absurd rfl hne

/-! ### The clock and its latches -/

theorem writeReg_clock (r : HostReg) (v : Word) (s : State) : (writeReg r v s).clock = s.clock := by
  cases r with
  | bufram a =>
    obtain ⟨m, hm⟩ := writeReg_bufram a v s
    rw [hm]
    rfl
  | _ => rfl

/-- A host access leaves the clock's registers but for the two latching reads (R54, R55). -/
theorem hostStep_clock (a : HostAccess) (s : State) :
    (hostStep a s).clock = s.clock
      ∨ (a = .read 0x088 ∧ (hostStep a s).clock = { s.clock with timeHiLatch := s.clock.now.extractLsb' 32 32 })
      ∨ a = .read 0x090 ∧ (hostStep a s).clock = { s.clock with lastActHiLatch := s.clock.lastAct.extractLsb' 32 32 } := by
  cases a with
  | read off =>
    cases hr : regAt off with
    | none => rw [hostRead_none s hr]; exact .inl rfl
    | some r =>
      cases hf : readIsFree r s with
      | true => rw [hostRead_free hr hf]; exact .inl rfl
      | false =>
        rw [hostRead_value hr hf]
        by_cases h1 : r = .timeLo
        · subst h1
          exact .inr (.inl ⟨by rw [regAt_eq hr]; rfl, rfl⟩)
        · by_cases h2 : r = .lastActLo
          · subst h2
            exact .inr (.inr ⟨by rw [regAt_eq hr]; rfl, rfl⟩)
          · rw [latch_other _ h1 h2]
            exact .inl rfl
  | write off v =>
    rcases hostWrite_cases off v s with hw | hw | ⟨r, hr, hb, hw⟩ <;> rw [hw]
    · exact .inl rfl
    · exact .inl rfl
    · exact .inl (writeReg_clock r v s)

/-- The latch of TIME_HI is kept by every event but a read of TIME_LO and the block reset (R54). -/
theorem eventStep_timeHi {e : Event} {s t : State} (h : eventStep e s = .next t) (h1 : e ≠ .host (.read 0x088))
    (h2 : e ≠ .reset) : t.clock.timeHiLatch = s.clock.timeHiLatch := by
  by_cases hh : ∃ a, e = .host a
  · obtain ⟨a, rfl⟩ := hh
    cases h
    rcases hostStep_clock a s with hc | ⟨rfl, _⟩ | ⟨_, hc⟩
    · rw [hc]
    · exact absurd rfl h1
    · rw [hc]
  · exact (eventStep_block h (fun a ha => hh ⟨a, ha⟩) h2).timeHi

/-- The latch of LAST_ACT_HI is kept by every event but a read of LAST_ACT_LO and the block reset (R55). -/
theorem eventStep_lastActHi {e : Event} {s t : State} (h : eventStep e s = .next t) (h1 : e ≠ .host (.read 0x090))
    (h2 : e ≠ .reset) : t.clock.lastActHiLatch = s.clock.lastActHiLatch := by
  by_cases hh : ∃ a, e = .host a
  · obtain ⟨a, rfl⟩ := hh
    cases h
    rcases hostStep_clock a s with hc | ⟨_, hc⟩ | ⟨rfl, _⟩
    · rw [hc]
    · rw [hc]
    · exact absurd rfl h1
  · exact (eventStep_block h (fun a ha => hh ⟨a, ha⟩) h2).lastActHi

/-- What each event of a list keeps, the list keeps. -/
theorem runEvents_keeps {α : Type} (f : State → α) (ok : Event → Prop)
    (hf : ∀ e s t, ok e → eventStep e s = .next t → f t = f s) :
    ∀ (es : List Event) (s u : State), (∀ e ∈ es, ok e) → runEvents es s = .next u → f u = f s := by
  intro es
  induction es with
  | nil => intro s u _ h; cases h; rfl
  | cons e es ih =>
    intro s u hok h
    simp only [runEvents] at h
    split at h
    · rename_i t ht
      rw [ih t u (fun e he => hok e (List.mem_cons_of_mem _ he)) h]
      exact hf e s t (hok e List.mem_cons_self) ht
    · cases h
    · cases h

theorem step_clock_forward {s t : State} (h : step s = .next t) : s.clock.now.toNat ≤ t.clock.now.toNat := by
  rcases step_cases h with ⟨a, rest, hs, rfl⟩ | ⟨rest, hs, rfl⟩ | hf
  · rcases hostStep_clock a (s.setSched rest) with hc | ⟨_, hc⟩ | ⟨_, hc⟩
    · rw [hc]; exact le_rfl
    · rw [hc]; exact le_rfl
    · rw [hc]; exact le_rfl
  · exact le_rfl
  · exact hf.now

/-- Settles O14: the low read latches the high word, and no other event touches the latch. -/
theorem clockReads : Obligations.ClockReads := by
  have lo : ∀ s, readIsFree .timeLo s = false := fun s => readIsFree_closed rfl
  have hi : ∀ s, readIsFree .timeHi s = false := fun s => readIsFree_closed rfl
  have alo : ∀ s, readIsFree .lastActLo s = false := fun s => readIsFree_closed rfl
  have ahi : ∀ s, readIsFree .lastActHi s = false := fun s => readIsFree_closed rfl
  refine ⟨fun s t h => step_clock_forward h, fun s => ⟨hostRead_data rfl (lo s), ?_, fun es u hes hu => ?_⟩,
    fun s => ⟨hostRead_data rfl (alo s), ?_, fun es u hes hu => ?_⟩⟩
  · rw [hostRead_value (r := .timeLo) rfl (lo s)]; rfl
  · rw [hostRead_data (r := .timeHi) rfl (hi u)]
    have hk := runEvents_keeps (fun s => s.clock.timeHiLatch) (fun e => e ≠ .host (.read 0x088) ∧ e ≠ .reset)
      (fun e s t he h => eventStep_timeHi h he.1 he.2) es _ u hes hu
    rw [hostRead_value (r := .timeLo) rfl (lo s)] at hk
    exact hk
  · rw [hostRead_value (r := .lastActLo) rfl (alo s)]; rfl
  · rw [hostRead_data (r := .lastActHi) rfl (ahi u)]
    have hk := runEvents_keeps (fun s => s.clock.lastActHiLatch) (fun e => e ≠ .host (.read 0x090) ∧ e ≠ .reset)
      (fun e s t he h => eventStep_lastActHi h he.1 he.2) es _ u hes hu
    rw [hostRead_value (r := .lastActLo) rfl (alo s)] at hk
    exact hk

/-! ### The dump's read-out -/

theorem selected_some {s : State} {i : Nat} {rec : Record} (hs : s.regs.capdSel = BitVec.ofNat 32 i)
    (hc : s.outs.capdCount = BitVec.ofNat 32 s.cap.dumped.length) (hl : s.cap.dumped.length < 2 ^ 32)
    (hr : s.cap.dumped[i]? = some rec) : selected s = some rec := by
  have hi : i < s.cap.dumped.length := (List.getElem?_eq_some_iff.mp hr).1
  have hsel : s.regs.capdSel.toNat = i := by rw [hs, BitVec.toNat_ofNat]; omega
  have hcnt : s.outs.capdCount.toNat = s.cap.dumped.length := by rw [hc, BitVec.toNat_ofNat]; omega
  rw [selected, hsel, hcnt, if_pos hi, hr]

theorem selected_none {s : State} (hc : s.outs.capdCount = BitVec.ofNat 32 s.cap.dumped.length)
    (hl : s.cap.dumped.length < 2 ^ 32) (hs : s.cap.dumped.length ≤ s.regs.capdSel.toNat) : selected s = none := by
  have hcnt : s.outs.capdCount.toNat = s.cap.dumped.length := by rw [hc, BitVec.toNat_ofNat]; omega
  rw [selected, hcnt, if_neg (by omega)]

/-- Settles O15: the selected record is the dump's, and no read-out register is an output of an operation. -/
theorem dumpReadout : Obligations.DumpReadout := by
  intro s h hlen
  refine ⟨fun i rec hrec hbytes => ⟨_, rfl, ?_⟩, fun v off hv hoff => ?_⟩
  · rw [hostWrite_capdSel]
    have hsel : selected (writeReg .capdSel (BitVec.ofNat 32 i) s) = some rec :=
      selected_some rfl h.capdCount hlen hrec
    generalize ht : writeReg .capdSel (BitVec.ofNat 32 i) s = t at hsel
    have hcount : t.outs.capdCount = BitVec.ofNat 32 s.cap.dumped.length := by rw [← ht]; exact h.capdCount
    refine ⟨?_, ?_, ?_, ?_, ?_, fun j hj => ?_⟩
    · rw [hostRead_data (r := .capdCount) rfl (readIsFree_closed rfl)]; exact hcount
    · rw [hostRead_data (r := .capdDir) rfl (readIsFree_closed rfl), regValue, hsel]
      show dirBit rec.dir = _
      cases rec.dir <;> rfl
    · rw [hostRead_data (r := .capdLen) rfl (readIsFree_closed rfl), regValue, hsel]
      simp only
      rw [Nat.mod_eq_of_lt (by omega)]
    · rw [hostRead_data (r := .capdTsLo) rfl (readIsFree_closed rfl), regValue, hsel]
    · rw [hostRead_data (r := .capdTsHi) rfl (readIsFree_closed rfl), regValue, hsel]
    · rw [hostRead_data (regAt_capdData hj) (readIsFree_closed rfl), regValue, hsel]
      simp only
      split
      · rename_i hlt
        rw [List.getD_eq_getElem _ _ hlt]
      · rw [List.getD_eq_default _ _ (by omega)]
        rfl
  · rw [hostWrite_capdSel]
    have hsel : selected (writeReg .capdSel v s) = none := selected_none h.capdCount hlen hv
    generalize writeReg .capdSel v s = t at hsel
    rcases hoff with hoff | ⟨j, hj, rfl⟩
    · simp only [List.mem_cons, List.not_mem_nil, or_false] at hoff
      rcases hoff with rfl | rfl | rfl | rfl
      · rw [hostRead_data (r := .capdDir) rfl (readIsFree_closed rfl), regValue, hsel]
      · rw [hostRead_data (r := .capdLen) rfl (readIsFree_closed rfl), regValue, hsel]
      · rw [hostRead_data (r := .capdTsLo) rfl (readIsFree_closed rfl), regValue, hsel]
      · rw [hostRead_data (r := .capdTsHi) rfl (readIsFree_closed rfl), regValue, hsel]
    · rw [hostRead_data (regAt_capdData hj) (readIsFree_closed rfl), regValue, hsel]

end Sys2Proof.Machine
end

