-- ==== Sys2Proof/Proofs/RegisterMap.lean ====
section
/-! The register map (spec/10_state.md R22 to R30): the words of STATUS and CTRL bit by bit, what each register keeps of a
written value, and that the registers are independent of each other. -/

namespace Sys2Proof.Machine

/-! ### The words of STATUS and CTRL -/

theorem flagAt_getLsbD (b : Bool) (k j : Nat) (hk : k < 32) : (flagAt b k).getLsbD j = (b && decide (j = k)) := by
  unfold flagAt
  cases b with
  | false => simp
  | true =>
    rw [if_pos rfl, BitVec.getLsbD_ofNat, Nat.testBit_two_pow, Bool.true_and]
    by_cases h : j = k
    · subst h
      simp [hk]
    · simp [h, Ne.symm h]

theorem kaExit_outside (x : KaExit) : ∀ j < 32, (j < 8 ∨ 11 ≤ j) → (BitVec.ofNat 32 (x.num * 2 ^ 8)).getLsbD j = false := by
  cases x <;> decide

theorem fiResult_outside (x : FiResult) :
    ∀ j < 32, (j < 12 ∨ 14 ≤ j) → (BitVec.ofNat 32 (x.num * 2 ^ 12)).getLsbD j = false := by
  cases x <;> decide

theorem protoNum_outside (p : Proto) : ∀ j < 32, 2 ≤ j → (BitVec.ofNat 32 (protoNum p)).getLsbD j = false := by
  cases p <;> decide

theorem Status.word_getLsbD (t : Status) (j : Nat) :
    t.word.getLsbD j = (t.busy && decide (j = 0) || t.done && decide (j = 1) || t.err && decide (j = 2)
      || t.errSticky && decide (j = 3) || t.overrun && decide (j = 4) || t.portOpen && decide (j = 5)
      || t.engReady && decide (j = 6) || t.kaRun && decide (j = 7)
      || (BitVec.ofNat 32 (t.kaExit.num * 2 ^ 8)).getLsbD j || (BitVec.ofNat 32 (t.fiResult.num * 2 ^ 12)).getLsbD j
      || t.kaActive && decide (j = 14)) := by
  simp (disch := decide) only [Status.word, BitVec.getLsbD_or, flagAt_getLsbD]

theorem Ctrl.word_getLsbD (c : Ctrl) (j : Nat) :
    c.word.getLsbD j = ((BitVec.ofNat 32 (protoNum c.proto)).getLsbD j || c.klChkVerify && decide (j = 2)
      || c.kaEn && decide (j = 3)) := by
  simp (disch := decide) only [Ctrl.word, BitVec.getLsbD_or, flagAt_getLsbD]

theorem Status.word_flags (t : Status) :
    t.word.getLsbD 0 = t.busy ∧ t.word.getLsbD 1 = t.done ∧ t.word.getLsbD 2 = t.err ∧ t.word.getLsbD 3 = t.errSticky
      ∧ t.word.getLsbD 4 = t.overrun ∧ t.word.getLsbD 5 = t.portOpen ∧ t.word.getLsbD 6 = t.engReady
      ∧ t.word.getLsbD 7 = t.kaRun ∧ t.word.getLsbD 14 = t.kaActive := by
  have hk : ∀ j < 32, (j < 8 ∨ 11 ≤ j) → _ := kaExit_outside t.kaExit
  have hf : ∀ j < 32, (j < 12 ∨ 14 ≤ j) → _ := fiResult_outside t.fiResult
  refine ⟨?_, ?_, ?_, ?_, ?_, ?_, ?_, ?_, ?_⟩ <;>
    (rw [Status.word_getLsbD, hk _ (by decide) (by decide), hf _ (by decide) (by decide)]; simp)

/-- The reserved bits of STATUS read 0 (R26). -/
theorem Status.word_reserved (t : Status) (j : Nat) (h : j = 11 ∨ 15 ≤ j) : t.word.getLsbD j = false := by
  by_cases hj : j < 32
  · rw [Status.word_getLsbD, kaExit_outside _ _ hj (by omega), fiResult_outside _ _ hj (by omega)]
    have h0 : j ≠ 0 ∧ j ≠ 1 ∧ j ≠ 2 ∧ j ≠ 3 ∧ j ≠ 4 ∧ j ≠ 5 ∧ j ≠ 6 ∧ j ≠ 7 ∧ j ≠ 14 := by omega
    simp [h0]
  · exact BitVec.getLsbD_of_ge _ _ (by omega)

theorem Status.word_kaExit (t : Status) :
    t.word.extractLsb' 8 3 = BitVec.ofNat 3 t.kaExit.num := by
  have key : ∀ i < 3, t.word.getLsbD (8 + i) = (BitVec.ofNat 32 (t.kaExit.num * 2 ^ 8)).getLsbD (8 + i) := by
    intro i hi
    rw [Status.word_getLsbD, fiResult_outside _ _ (by omega) (by omega)]
    have h0 : 8 + i ≠ 0 ∧ 8 + i ≠ 1 ∧ 8 + i ≠ 2 ∧ 8 + i ≠ 3 ∧ 8 + i ≠ 4 ∧ 8 + i ≠ 5 ∧ 8 + i ≠ 6 ∧ 8 + i ≠ 7 ∧ 8 + i ≠ 14 := by
      omega
    simp only [h0, decide_false, Bool.and_false, Bool.false_or, Bool.or_false]
  apply BitVec.eq_of_getLsbD_eq
  intro i hi
  rw [BitVec.getLsbD_extractLsb', key i hi]
  generalize t.kaExit = x
  revert i
  cases x <;> decide

theorem Status.word_fiResult (t : Status) :
    t.word.extractLsb' 12 2 = BitVec.ofNat 2 t.fiResult.num := by
  have key : ∀ i < 2, t.word.getLsbD (12 + i) = (BitVec.ofNat 32 (t.fiResult.num * 2 ^ 12)).getLsbD (12 + i) := by
    intro i hi
    rw [Status.word_getLsbD, kaExit_outside _ _ (by omega) (by omega)]
    have h0 : 12 + i ≠ 0 ∧ 12 + i ≠ 1 ∧ 12 + i ≠ 2 ∧ 12 + i ≠ 3 ∧ 12 + i ≠ 4 ∧ 12 + i ≠ 5 ∧ 12 + i ≠ 6 ∧ 12 + i ≠ 7
        ∧ 12 + i ≠ 14 := by omega
    simp only [h0, decide_false, Bool.and_false, Bool.false_or, Bool.or_false]
  apply BitVec.eq_of_getLsbD_eq
  intro i hi
  rw [BitVec.getLsbD_extractLsb', key i hi]
  generalize t.fiResult = x
  revert i
  cases x <;> decide

theorem Ctrl.word_reserved (c : Ctrl) (j : Nat) (h : 4 ≤ j) : c.word.getLsbD j = false := by
  by_cases hj : j < 32
  · rw [Ctrl.word_getLsbD, protoNum_outside _ _ hj (by omega)]
    have h0 : j ≠ 2 ∧ j ≠ 3 := by omega
    simp [h0]
  · exact BitVec.getLsbD_of_ge _ _ (by omega)

theorem Ctrl.word_flags (c : Ctrl) : c.word.getLsbD 2 = c.klChkVerify ∧ c.word.getLsbD 3 = c.kaEn := by
  have hp : ∀ j < 32, 2 ≤ j → _ := protoNum_outside c.proto
  refine ⟨?_, ?_⟩ <;> (rw [Ctrl.word_getLsbD, hp _ (by decide) (by decide)]; simp)

theorem Ctrl.word_proto (c : Ctrl) :
    c.word.extractLsb' 0 2 = BitVec.ofNat 2 (protoNum c.proto) := by
  have key : ∀ i < 2, c.word.getLsbD (0 + i) = (BitVec.ofNat 32 (protoNum c.proto)).getLsbD (0 + i) := by
    intro i hi
    rw [Ctrl.word_getLsbD]
    have h0 : 0 + i ≠ 2 ∧ 0 + i ≠ 3 := by omega
    simp only [h0, decide_false, Bool.and_false, Bool.or_false]
  apply BitVec.eq_of_getLsbD_eq
  intro i hi
  rw [BitVec.getLsbD_extractLsb', key i hi]
  generalize c.proto = x
  revert i
  cases x <;> decide

theorem extractLsb'_eq_zero {w : Word} {k n : Nat} (h : ∀ j, k ≤ j → w.getLsbD j = false) : w.extractLsb' k n = 0 := by
  apply BitVec.eq_of_getLsbD_eq
  intro i hi
  rw [BitVec.getLsbD_extractLsb', h _ (by omega)]
  simp

/-! ### The bits a register keeps of a written value -/

/-- A field of `n` bits read as a word has nothing above it. -/
theorem setWidth_and_not {n : Nat} (x : BitVec n) (m : Word) (hm : ∀ j < n, m.getLsbD j = false) :
    x.setWidth 32 &&& m = 0 := by
  refine and_high_eq_zero n ?_ hm
  rw [BitVec.toNat_setWidth]
  exact (Nat.mod_le _ _).trans_lt x.isLt

/-- Writing `n` low bits and reading them back. -/
theorem extractLsb'_setWidth (v m : Word) (n : Nat) (hm : ∀ j < 32, m.getLsbD j = decide (j < n)) :
    (v.extractLsb' 0 n).setWidth 32 = v &&& m := by
  apply BitVec.eq_of_getLsbD_eq
  intro j hj
  rw [BitVec.getLsbD_setWidth, BitVec.getLsbD_extractLsb', BitVec.getLsbD_and, hm j hj, Nat.zero_add]
  simp [hj, Bool.and_comm]

/-- Two words that agree under a mask agree on each bit of it. -/
theorem getLsbD_of_masked {v w m : Word} (h : v &&& m = w &&& m) (j : Nat) (hm : m.getLsbD j = true) :
    v.getLsbD j = w.getLsbD j := by
  have := congrArg (·.getLsbD j) h
  simpa only [BitVec.getLsbD_and, hm, Bool.and_true] using this

theorem extractLsb'_of_masked {v w m : Word} (h : v &&& m = w &&& m) (n : Nat) (hm : ∀ j < n, m.getLsbD j = true) :
    v.extractLsb' 0 n = w.extractLsb' 0 n := by
  apply BitVec.eq_of_getLsbD_eq
  intro j hj
  rw [BitVec.getLsbD_extractLsb', BitVec.getLsbD_extractLsb', getLsbD_of_masked h _ (hm _ (by omega))]

theorem eq_of_masked_full {v w : Word} (h : v &&& 0xFFFFFFFF#32 = w &&& 0xFFFFFFFF#32) : v = w := by
  have hv : ∀ x : Word, x &&& 0xFFFFFFFF#32 = x := fun x => BitVec.and_allOnes
  rwa [hv, hv] at h

/-! ### Reading after writing -/

theorem writeReg_busy (r : HostReg) (v : Word) (s : State) (hc : r ≠ .cmd) :
    (writeReg r v s).status.busy = s.status.busy := by
  cases r with
  | cmd => exact absurd rfl hc
  | bufram a =>
    obtain ⟨m, hm⟩ := writeReg_bufram a v s
    rw [hm]
    rfl
  | _ => rfl

/-- The registers the host writes and reads back (R23), but for CTRL and STATUS. -/
def HostReg.readWrite : HostReg → Bool
  | .klTxHdr | .klRxHdr | .canTxId | .canRxId | .canRxMask | .txLen | .frmLen | .startLen | .kaLen | .tRxTimeout
  | .tFiTimeout | .tFiLow | .tFiHigh | .fiReadMax | .kaPoll | .kaIdle | .capCfg | .capdSel | .bufram _ => true
  | _ => false

/-- A read-write register reads back the written value's field bits (R24). -/
theorem regValue_writeReg_same (r : HostReg) (v : Word) (s : State) (hr : r.readWrite = true)
    (ha : ∀ a, r = .bufram a → a < ramSize) : regValue r (writeReg r v s) = v &&& fieldMask r := by
  have full : v = v &&& 0xFFFFFFFF#32 := (BitVec.and_allOnes (x := v)).symm
  cases r with
  | klTxHdr => exact extractLsb'_setWidth v _ 16 (by decide)
  | klRxHdr => exact extractLsb'_setWidth v _ 16 (by decide)
  | canTxId => rfl
  | canRxId => rfl
  | txLen => exact extractLsb'_setWidth v _ 9 (by decide)
  | startLen => exact extractLsb'_setWidth v _ 9 (by decide)
  | kaLen => exact extractLsb'_setWidth v _ 9 (by decide)
  | frmLen => exact extractLsb'_setWidth v _ 10 (by decide)
  | fiReadMax => exact extractLsb'_setWidth v _ 8 (by decide)
  | canRxMask => exact full
  | tRxTimeout => exact full
  | tFiTimeout => exact full
  | tFiLow => exact full
  | tFiHigh => exact full
  | kaPoll => exact full
  | kaIdle => exact full
  | capCfg => exact full
  | capdSel => exact full
  | bufram a =>
    show ((s.poke a _).peek a).setWidth 32 = _
    rw [State.peek_poke_same _ _ _ (ha a rfl)]
    exact extractLsb'_setWidth v 0xFF#32 8 (by decide)
  | _ => cases hr

/-- A register the host cannot write. -/
def HostReg.readOnly : HostReg → Bool
  | .errCode | .errInfo | .ccpCtr | .rxLen | .respStatus | .dtoInfo | .txWritten | .capCount | .capdCount | .capdDir
  | .capdLen | .capdTsLo | .capdTsHi | .timeLo | .timeHi | .lastActLo | .lastActHi | .capdData _ => true
  | _ => false

theorem writeReg_readOnly (r : HostReg) (v : Word) (s : State) (hr : r.readOnly = true) : writeReg r v s = s := by
  cases r with
  | errCode => rfl
  | errInfo => rfl
  | ccpCtr => rfl
  | rxLen => rfl
  | respStatus => rfl
  | dtoInfo => rfl
  | txWritten => rfl
  | capCount => rfl
  | capdCount => rfl
  | capdDir => rfl
  | capdLen => rfl
  | capdTsLo => rfl
  | capdTsHi => rfl
  | timeLo => rfl
  | timeHi => rfl
  | lastActLo => rfl
  | lastActHi => rfl
  | capdData i => rfl
  | _ => cases hr

theorem regValue_poke_other (r : HostReg) (s : State) (a : Nat) (b : Byte) (hr : r ≠ .bufram a) :
    regValue r (s.poke a b) = regValue r s := by
  cases r with
  | bufram c =>
    show ((s.poke a b).peek c).setWidth 32 = _
    rw [State.peek_poke_other _ _ _ _ (fun h => hr (by rw [h]))]
    rfl
  | _ =>
    obtain ⟨m, hm⟩ := State.poke_eq s a b
    rw [hm]
    rfl

/-- A write to one register leaves what every other reads, but for CMD and CAPD_SEL (R23): each write is the update of one
field, and no other register reads that field. -/
theorem regValue_writeReg_other (r r' : HostReg) (v : Word) (s : State) (hne : r' ≠ r) (hc : r ≠ .cmd)
    (hs : r ≠ .capdSel) : regValue r' (writeReg r v s) = regValue r' s := by
  cases r with
  | cmd => exact absurd rfl hc
  | capdSel => exact absurd rfl hs
  | bufram a => exact regValue_poke_other r' s a _ hne
  | _ => cases r' <;> first | rfl | exact absurd rfl hne

/-! ### The statements about the map -/

/-- What a read of STATUS and a read of CTRL give, bit by bit. -/
theorem status_ctrl_bits (s : State) :
    (∃ w, w = (hostStep (.read 0x004) s).hostData
        ∧ w.getLsbD 0 = s.status.busy ∧ w.getLsbD 1 = s.status.done ∧ w.getLsbD 2 = s.status.err
        ∧ w.getLsbD 3 = s.status.errSticky ∧ w.getLsbD 4 = s.status.overrun ∧ w.getLsbD 5 = s.status.portOpen
        ∧ w.getLsbD 6 = s.status.engReady ∧ w.getLsbD 7 = s.status.kaRun
        ∧ w.extractLsb' 8 3 = BitVec.ofNat 3 s.status.kaExit.num ∧ w.getLsbD 11 = false
        ∧ w.extractLsb' 12 2 = BitVec.ofNat 2 s.status.fiResult.num
        ∧ w.getLsbD 14 = s.status.kaActive ∧ w.extractLsb' 15 17 = 0#17)
      ∧ ∃ w, w = (hostStep (.read 0x008) s).hostData
        ∧ w.extractLsb' 0 2 = BitVec.ofNat 2 (protoNum s.regs.ctrl.proto)
        ∧ w.getLsbD 2 = s.regs.ctrl.klChkVerify ∧ w.getLsbD 3 = s.regs.ctrl.kaEn ∧ w.extractLsb' 4 28 = 0#28 := by
  obtain ⟨h0, h1, h2, h3, h4, h5, h6, h7, h14⟩ := s.status.word_flags
  obtain ⟨c2, c3⟩ := s.regs.ctrl.word_flags
  have hstatus : (hostStep (.read 0x004) s).hostData = s.status.word :=
    hostRead_data (r := .status) rfl (readIsFree_closed rfl)
  have hctrl : (hostStep (.read 0x008) s).hostData = s.regs.ctrl.word :=
    hostRead_data (r := .ctrl) rfl (readIsFree_closed rfl)
  refine ⟨⟨_, rfl, ?_⟩, _, rfl, ?_⟩
  · rw [hstatus]
    exact ⟨h0, h1, h2, h3, h4, h5, h6, h7, s.status.word_kaExit, s.status.word_reserved 11 (.inl rfl),
      s.status.word_fiResult, h14, extractLsb'_eq_zero fun j hj => s.status.word_reserved j (.inr hj)⟩
  · rw [hctrl]
    exact ⟨s.regs.ctrl.word_proto, c2, c3, extractLsb'_eq_zero fun j hj => s.regs.ctrl.word_reserved j hj⟩

/-- Settles O11: the bits of STATUS and CTRL; every offset's own field, read and written; and the independence of the
registers. -/
theorem registerReadBack : Obligations.RegisterReadBack := by
  refine ⟨fun s => ?_, fun s hb => ?_, fun s off r v hb hr => ?_⟩
  · obtain ⟨⟨w, hw, h0, h1, h2, h3, h4, h5, h6, h7, h8, h11, h12, h14, h15⟩, x, hx, c0, c2, c3, c4⟩ :=
      status_ctrl_bits s
    refine ⟨⟨w, hw, h0, h1, h2, h3, h4, h5, h6, h7, h8.trans ?_, h11, h12.trans ?_, h14, h15⟩, x, hx, c0.trans ?_,
      c2, c3, c4⟩
    · cases s.status.kaExit <;> rfl
    · cases s.status.fiResult <;> rfl
    · cases s.regs.ctrl.proto <;> rfl
  · have read : ∀ (off : BitVec 16) (r : HostReg), regAt off = some r →
        (hostStep (.read off) s).hostData = regValue r s := fun off r hr => hostRead_data hr (readIsFree_idle hb)
    have write : ∀ (off : BitVec 16) (r : HostReg) (v : Word), regAt off = some r →
        hostStep (.write off v) s = writeReg r v s := fun off r v hr => hostWrite_idle v hr hb
    refine ⟨?_, fun v => ?_, fun v => write _ .frmLen v rfl, fun v => ?_, fun a ha => ?_⟩
    · simp only [List.forall_mem_cons, List.not_mem_nil, false_imp_iff, implies_true, and_true]
      exact ⟨read _ .errCode rfl, read _ .errInfo rfl, read _ .klTxHdr rfl, read _ .klRxHdr rfl, read _ .canTxId rfl,
        read _ .canRxId rfl, read _ .canRxMask rfl, read _ .ccpCtr rfl, read _ .txLen rfl, read _ .rxLen rfl,
        read _ .frmLen rfl, read _ .startLen rfl, read _ .kaLen rfl, read _ .respStatus rfl, read _ .dtoInfo rfl,
        read _ .txWritten rfl, read _ .tRxTimeout rfl, read _ .tFiTimeout rfl, read _ .tFiLow rfl, read _ .tFiHigh rfl,
        read _ .fiReadMax rfl, read _ .kaPoll rfl, read _ .kaIdle rfl, read _ .capCfg rfl, read _ .capCount rfl,
        read _ .capdCount rfl, read _ .capdSel rfl⟩
    · simp only [List.forall_mem_cons, List.not_mem_nil, false_imp_iff, implies_true, and_true]
      exact ⟨write _ .klTxHdr v rfl, write _ .klRxHdr v rfl, write _ .canTxId v rfl, write _ .canRxId v rfl,
        write _ .canRxMask v rfl, write _ .txLen v rfl, write _ .startLen v rfl, write _ .kaLen v rfl,
        write _ .tRxTimeout v rfl, write _ .tFiTimeout v rfl, write _ .tFiLow v rfl, write _ .tFiHigh v rfl,
        write _ .fiReadMax v rfl, write _ .kaPoll v rfl, write _ .kaIdle v rfl, write _ .capCfg v rfl,
        write _ .capdSel v rfl⟩
    · simp only [List.forall_mem_cons, List.not_mem_nil, false_imp_iff, implies_true, and_true]
      exact ⟨write _ .errCode v rfl, write _ .errInfo v rfl, write _ .ccpCtr v rfl, write _ .rxLen v rfl,
        write _ .respStatus v rfl, write _ .dtoInfo v rfl, write _ .txWritten v rfl, write _ .capCount v rfl,
        write _ .capdCount v rfl, write _ .capdDir v rfl, write _ .capdLen v rfl, write _ .capdTsLo v rfl,
        write _ .capdTsHi v rfl, write _ .timeLo v rfl, write _ .timeHi v rfl, write _ .lastActLo v rfl,
        write _ .lastActHi v rfl⟩
    · refine ⟨read _ _ (regAt_bufram ha), fun v => ⟨_, rfl, ?_⟩⟩
      rw [write _ _ v (regAt_bufram ha)]
      refine ⟨?_, State.peek_poke_same s a _ ha, fun b hne => State.peek_poke_other s a b _ hne⟩
      obtain ⟨m, hm⟩ := State.poke_eq s a (v.extractLsb' 0 8)
      show s.poke a _ = { s with ram := (s.poke a _).ram }
      rw [hm]
      rfl
  · obtain ⟨_, hram, _⟩ := regAt_some hr
    have busy : r ≠ .cmd → (writeReg r v s).status.busy = false := fun hc => (writeReg_busy r v s hc).trans hb
    rw [hostWrite_idle v hr hb]
    refine ⟨fun hrw => ?_, fun hro => writeReg_readOnly r v s ?_, fun off' r' hr' hne hc hs => ?_⟩
    · have hrw : r.readWrite = true := by
        rcases hrw with hrw | ⟨a, rfl⟩
        · simp only [List.mem_cons, List.not_mem_nil, or_false] at hrw
          rcases hrw with rfl | rfl | rfl | rfl | rfl | rfl | rfl | rfl | rfl | rfl | rfl | rfl | rfl | rfl | rfl | rfl
            | rfl | rfl <;> rfl
        · rfl
      have hc : r ≠ .cmd := fun h => by rw [h] at hrw; cases hrw
      rw [hostRead_data hr (readIsFree_idle (busy hc))]
      exact regValue_writeReg_same r v s hrw hram
    · rcases hro with hro | ⟨i, rfl⟩
      · simp only [List.mem_cons, List.not_mem_nil, or_false] at hro
        rcases hro with rfl | rfl | rfl | rfl | rfl | rfl | rfl | rfl | rfl | rfl | rfl | rfl | rfl | rfl | rfl | rfl
          | rfl <;> rfl
      · rfl
    · rw [hostRead_data hr' (readIsFree_idle (busy hc)), hostRead_data hr' (readIsFree_idle hb)]
      exact regValue_writeReg_other r r' v s hne hc hs

/-! ### Reserved bits -/

/-- The reserved bits of a register's value read 0 (R24). -/
theorem regValue_reserved (r : HostReg) (s : State) (h : s.Inv) : regValue r s &&& ~~~(fieldMask r) = 0 := by
  have full : ∀ w : Word, w &&& ~~~0xFFFFFFFF#32 = 0 := fun w => BitVec.and_zero
  cases r with
  | cmd => exact BitVec.zero_and
  | status =>
    apply BitVec.eq_of_getLsbD_eq
    intro j hj
    have hmask : ∀ j < 32, (~~~(fieldMask .status)).getLsbD j = true → j = 11 ∨ 15 ≤ j := by decide
    rw [BitVec.getLsbD_and]
    cases hm : (~~~(fieldMask .status)).getLsbD j with
    | false => simp
    | true =>
      rw [show (regValue .status s).getLsbD j = false from s.status.word_reserved j (hmask j hj hm)]
      simp
  | ctrl =>
    apply BitVec.eq_of_getLsbD_eq
    intro j hj
    have hmask : ∀ j < 32, (~~~(fieldMask .ctrl)).getLsbD j = true → 4 ≤ j := by decide
    rw [BitVec.getLsbD_and]
    cases hm : (~~~(fieldMask .ctrl)).getLsbD j with
    | false => simp
    | true =>
      rw [show (regValue .ctrl s).getLsbD j = false from s.regs.ctrl.word_reserved j (hmask j hj hm)]
      simp
  | errCode => exact h.errWords.1
  | errInfo => exact h.errWords.2
  | canTxId => exact h.canIds.1
  | canRxId => exact h.canIds.2
  | klTxHdr => exact setWidth_and_not _ _ (by decide)
  | klRxHdr => exact setWidth_and_not _ _ (by decide)
  | ccpCtr => exact setWidth_and_not _ _ (by decide)
  | txLen => exact setWidth_and_not _ _ (by decide)
  | rxLen => exact setWidth_and_not _ _ (by decide)
  | frmLen => exact setWidth_and_not _ _ (by decide)
  | startLen => exact setWidth_and_not _ _ (by decide)
  | kaLen => exact setWidth_and_not _ _ (by decide)
  | respStatus => exact setWidth_and_not _ _ (by decide)
  | dtoInfo => exact setWidth_and_not _ _ (by decide)
  | txWritten => exact setWidth_and_not _ _ (by decide)
  | fiReadMax => exact setWidth_and_not _ _ (by decide)
  | bufram a => exact setWidth_and_not (s.peek a) (~~~0xFF#32) (by decide)
  | capdDir =>
    simp only [regValue]
    split
    · rename_i rec _
      cases rec.dir <;> decide
    · exact BitVec.zero_and
  | capdLen =>
    simp only [regValue]
    split
    · refine and_high_eq_zero 9 ?_ (by decide)
      rw [BitVec.toNat_ofNat]
      omega
    · exact BitVec.zero_and
  | capdData i =>
    simp only [regValue]
    split
    · exact setWidth_and_not _ (~~~0xFF#32) (by decide)
    · exact BitVec.zero_and
  | _ => exact full _

/-- A drawn value has the bits of its register only (R24, R66). -/
theorem outMask_reserved {r : HostReg} (h : openOutput r = true) (w : Word) : w &&& outMask r &&& ~~~(fieldMask r) = 0 := by
  have key : outMask r &&& ~~~(fieldMask r) = 0 := by
    cases r with
    | rxLen => decide
    | frmLen => decide
    | respStatus => decide
    | dtoInfo => decide
    | txWritten => decide
    | ccpCtr => decide
    | bufram a => exact (by decide : 0xFF#32 &&& ~~~0xFF#32 = 0)
    | _ => cases h
  rw [BitVec.and_assoc, key]
  exact BitVec.and_zero

theorem readIsFree_open {r : HostReg} {s : State} (h : readIsFree r s = true) : openOutput r = true := by
  by_contra ho
  rw [readIsFree_closed (eq_false_of_ne_true ho)] at h
  cases h

/-- A write does what any write with the same field bits does (R24). -/
theorem writeReg_masked (r : HostReg) (v w : Word) (s : State) (hc : r ≠ .cmd)
    (h : v &&& fieldMask r = w &&& fieldMask r) : writeReg r v s = writeReg r w s := by
  cases r with
  | cmd => exact absurd rfl hc
  | status =>
    simp only [writeReg, Status.writeClear, getLsbD_of_masked h 3 (by decide), getLsbD_of_masked h 4 (by decide)]
  | ctrl =>
    simp only [writeReg, Ctrl.write, extractLsb'_of_masked h 2 (by decide), getLsbD_of_masked h 2 (by decide),
      getLsbD_of_masked h 3 (by decide)]
  | klTxHdr => simp only [writeReg, extractLsb'_of_masked h 16 (by decide)]
  | klRxHdr => simp only [writeReg, extractLsb'_of_masked h 16 (by decide)]
  | canTxId => simp only [writeReg, show v &&& canIdMask = w &&& canIdMask from h]
  | canRxId => simp only [writeReg, show v &&& canIdMask = w &&& canIdMask from h]
  | txLen => simp only [writeReg, extractLsb'_of_masked h 9 (by decide)]
  | startLen => simp only [writeReg, extractLsb'_of_masked h 9 (by decide)]
  | kaLen => simp only [writeReg, extractLsb'_of_masked h 9 (by decide)]
  | frmLen => simp only [writeReg, extractLsb'_of_masked h 10 (by decide)]
  | fiReadMax => simp only [writeReg, extractLsb'_of_masked h 8 (by decide)]
  | bufram a =>
    have h' : v &&& 0xFF#32 = w &&& 0xFF#32 := h
    simp only [writeReg, extractLsb'_of_masked h' 8 (by decide)]
  | canRxMask => rw [eq_of_masked_full h]
  | tRxTimeout => rw [eq_of_masked_full h]
  | tFiTimeout => rw [eq_of_masked_full h]
  | tFiLow => rw [eq_of_masked_full h]
  | tFiHigh => rw [eq_of_masked_full h]
  | kaPoll => rw [eq_of_masked_full h]
  | kaIdle => rw [eq_of_masked_full h]
  | capCfg => rw [eq_of_masked_full h]
  | capdSel => rw [eq_of_masked_full h]
  | _ => rfl

/-- Settles O12: by the map, the reserved bits of each register's value, and the field bits of each write. -/
theorem reservedBitsReadZero : Obligations.ReservedBitsReadZero := by
  intro s off h
  refine ⟨fun hr => ⟨by rw [hostRead_none s hr]; rfl, fun hb v => hostWrite_idle_none v hr hb⟩, fun ha => ?_,
    fun r hr => ⟨?_, fun hc v w hvw => ?_⟩⟩
  · cases hr : regAt off with
    | none => rfl
    | some r => exact absurd (regAt_aligned hr) ha
  · cases hf : readIsFree r s with
    | true =>
      rw [hostRead_free hr hf]
      exact outMask_reserved (readIsFree_open hf) _
    | false =>
      rw [hostRead_data hr hf]
      exact regValue_reserved r s h
  · have hw := writeReg_masked r v w s hc hvw
    cases hb : s.status.busy with
    | false => rw [hostWrite_idle v hr hb, hostWrite_idle w hr hb, hw]
    | true =>
      by_cases h1 : r = .status
      · subst h1
        obtain rfl := regAt_eq hr
        exact hw
      · by_cases h2 : r = .capdSel
        · subst h2
          obtain rfl := regAt_eq hr
          exact hw
        · have hne : ∀ x, r ≠ x → regAt off ≠ some x := fun x hx hrx => hx (by rw [hr] at hrx; cases hrx; rfl)
          rw [hostWrite_busy v (hne _ h1) (hne _ h2) hb, hostWrite_busy w (hne _ h1) (hne _ h2) hb]

end Sys2Proof.Machine
end

