-- ==== Sys2Proof/Proofs/Transitions.lean ====
section
/-! What the steps of the two agents change and nothing else does: CCP_CTR (spec/45_ccp_engine.md R282), PORT_OPEN and
ENG_READY (spec/44_kwp_engine.md R240), the end of an operation (spec/60_exceptions.md R330, R331), the port under the
lock (spec/10_state.md R57), and the task's isolation (R266). -/

namespace Sys2Proof.Machine

/-! ### The keep-alive task writes no output of the host -/

theorem peek_congr {s t : State} (hr : t.ram = s.ram) (he : t.epoch = s.epoch) (b : Nat) : t.peek b = s.peek b := by
  rw [State.peek, State.peek, hr, he]

/-- Settles O59: the frame of the task's moves. -/
theorem kaIsolation : Obligations.KaIsolation := by
  intro s t h
  have f := (kaStep_cases h).frame
  obtain ⟨_, _, _, he⟩ := f.own
  exact ⟨peek_congr f.ram he, f.outs, f.status, f.regs, f.op, f.dumped, by rw [f.clock], f.own⟩

/-! ### CCP_CTR -/

theorem TxFrom.ccpCtr {i : Instr} {p : Pos} {s v : State} {wr : Bool} {req : List Byte} {q : TxPos}
    (h : TxFrom i p s wr req q v) : v.outs.ccpCtr = s.outs.ccpCtr := by
  cases h with
  | plain => rfl
  | ccp => rw [(ccpBuffer_frame req q s).outs]
  | pending _ x =>
    obtain ⟨m, hm, _⟩ := putPdu_eq x s
    rw [hm]
    rfl

theorem txStep_ccpCtr {a : Agent} {wr : Bool} {req : List Byte} {q : TxPos} {s t : State}
    (h : (txStep a wr req q s).state? = some t) : t.outs.ccpCtr = s.outs.ccpCtr := by
  rw [(txStep_frame a wr req q s t h).1.outs]

theorem fiStep_ccpCtr {f : List Byte} {q : FiPos} {s t : State} (h : (fiStep f q s).state? = some t) :
    t.outs.ccpCtr = s.outs.ccpCtr := by
  rw [(fiStep_frame f q s t h).outs]

theorem EndWork.ccpCtr {i : Instr} {p : Pos} {s u : State} (h : EndWork i p s u) : u.outs.ccpCtr = s.outs.ccpCtr := by
  cases h with
  | nothing => rfl
  | unreadied => rfl
  | dumped => rfl
  | framed f => rw [(putFrame_frame f s).outs]
  | parsed u => obtain ⟨m, hm, _⟩ := putPdu_eq u s; rw [hm]; rfl
  | received u => obtain ⟨m, hm, _⟩ := putPdu_eq u s; rw [hm]; rfl
  | response f => obtain ⟨m, hm, _⟩ := putDto_eq (dtoDecode f) s; rw [hm]; rfl

/-- CCP_CTR counts at the end of CCP_EXEC's send, and at no other move (R282). -/
theorem SeqMove.ccpCtr {i : Instr} {p : Pos} {s t : State} (h : SeqMove i p s t) :
    t.outs.ccpCtr = s.outs.ccpCtr
      ∨ i = .ccpExec ∧ (∃ req, p = .tx req .capOut) ∧ t.outs.ccpCtr = s.outs.ccpCtr + 1 := by
  cases h with
  | refused => exact .inl rfl
  | ended u hp hw => exact .inl hw.ccpCtr
  | ccpFailed f e => obtain ⟨m, hm, _⟩ := putDto_eq (dtoDecode f) s; rw [hm]; exact .inl rfl
  | inited =>
    unfold initEnd
    split <;> exact .inl rfl
  | stopping => exact .inl rfl
  | opening => exact .inl rfl
  | installed => exact .inl rfl
  | filtered => exact .inl rfl
  | closed => exact .inl rfl
  | acquired => exact .inl rfl
  | released => exact .inl rfl
  | swallowed => exact .inl rfl
  | answered req x => obtain ⟨m, hm, _⟩ := putPdu_eq x s; rw [hm]; exact .inl rfl
  | rejected req x e => obtain ⟨m, hm, _⟩ := putPdu_eq x s; rw [hm]; exact .inl rfl
  | fi f q q' u hi hp hf => exact .inl (fiStep_ccpCtr (t := u) (by rw [hf]; rfl))
  | fiDone f q ok u q' hp hf => exact .inl (fiStep_ccpCtr (t := u) (by rw [hf]; rfl))
  | tx wr req q q' v u hv hx => exact .inl ((txStep_ccpCtr (t := u) (by rw [hx]; rfl)).trans hv.ccpCtr)
  | sent req u hi hp hx =>
    have hu := txStep_ccpCtr (t := u) (by rw [hx]; rfl)
    unfold countSent
    split
    · exact .inr ⟨‹_›, ⟨req, hp⟩, by rw [← hu]; rfl⟩
    · exact .inl hu
  | got wr req x q v u hi hv hx => exact .inl ((txStep_ccpCtr (t := u) (by rw [hx]; rfl)).trans hv.ccpCtr)
  | failed wr req q v e hi hv => exact .inl hv.ccpCtr

theorem illegalOp_eq (r : DecodeRefusal) (s : State) : ∃ e, illegalOp r s = raiseError e s := by
  cases r
  exact ⟨_, rfl⟩

/-- A host access clears ERR_CODE at most (R25), and leaves CCP_CTR and the engine's bits. -/
theorem hostStep_outs (a : HostAccess) (s : State) :
    (hostStep a s).outs.ccpCtr = s.outs.ccpCtr
      ∧ ((hostStep a s).outs.errCode = s.outs.errCode ∨ (hostStep a s).outs.errCode = 0)
      ∧ (hostStep a s).status.portOpen = s.status.portOpen ∧ (hostStep a s).status.engReady = s.status.engReady := by
  cases a with
  | read off =>
    obtain ⟨w, n, c, h⟩ := hostRead_eq off s
    rw [h]
    exact ⟨rfl, .inl rfl, rfl, rfl⟩
  | write off v =>
    rcases hostWrite_cases off v s with h | h | ⟨r, _, _, h⟩ <;> rw [h]
    · exact ⟨rfl, .inl rfl, rfl, rfl⟩
    · exact ⟨rfl, .inl rfl, rfl, rfl⟩
    · cases r with
      | cmd => exact ⟨rfl, .inr rfl, rfl, rfl⟩
      | bufram a =>
        obtain ⟨m, hm⟩ := writeReg_bufram a v s
        rw [hm]
        exact ⟨rfl, .inl rfl, rfl, rfl⟩
      | _ => exact ⟨rfl, .inl rfl, rfl, rfl⟩

/-- A clock step changes the clock only. -/
theorem clockStep_eq (t : Time) (s : State) : ∃ c, clockStep t s = s.setClock c := by
  obtain ⟨c, h, _⟩ := moveClock_eq s (clockLimit s) t
  exact ⟨c, h⟩

/-- What an event other than a run and the block reset comes to. -/
theorem eventStep_cases {e : Event} {s t : State} (h : eventStep e s = .next t) (h1 : e ≠ .run) (h2 : e ≠ .reset) :
    (∃ a, e = .host a ∧ t = hostStep a s) ∨ (e = .task ∧ t = taskTurn s) ∨ (∃ c, t = s.setClock c) ∨ (∃ x, t = s.setEnv x)
      ∨ (e = .atom ∧ (t = s ∨ (∃ x o r, t = raiseError x s ∧ s.op = some o ∧ decodeCode o.code = .error r)
        ∨ ∃ o i, s.op = some o ∧ decodeCode o.code = .ok i ∧ SeqMove i o.pos s t)) := by
  cases e with
  | host a => cases h; exact .inl ⟨a, rfl, rfl⟩
  | run => exact absurd rfl h1
  | atom =>
    refine .inr (.inr (.inr (.inr ⟨rfl, ?_⟩)))
    rcases seqAtom_cases h with rfl | ⟨o, r, ho, hr, rfl⟩ | hm
    · exact .inl rfl
    · obtain ⟨x, hx⟩ := illegalOp_eq r s
      exact .inr (.inl ⟨x, o, r, hx, ho, hr⟩)
    · exact .inr (.inr hm)
  | task => cases h; exact .inr (.inl ⟨rfl, rfl⟩)
  | clock c => cases h; exact .inr (.inr (.inl (clockStep_eq c s)))
  | env a => cases h; exact .inr (.inr (.inr (.inl (deliver_eq a s))))
  | reset => exact absurd rfl h2

/-- Settles O27: CCP_CTR is in the frame of every event but the one move. -/
theorem counterOnlyByCcpExec : Obligations.CounterOnlyByCcpExec := by
  intro s t e h h1 h2 hne
  rcases eventStep_cases h h1 h2 with ⟨a, _, rfl⟩ | ⟨_, rfl⟩ | ⟨c, rfl⟩ | ⟨x, rfl⟩ | ⟨rfl, hm⟩
  · exact absurd (hostStep_outs a s).1 hne
  · rw [(taskTurn_frame s).outs] at hne
    exact absurd rfl hne
  · exact absurd rfl hne
  · exact absurd rfl hne
  · rcases hm with rfl | ⟨x, _, _, rfl, _⟩ | ⟨⟨c, p⟩, i, ho, hi, hm⟩
    · exact absurd rfl hne
    · exact absurd rfl hne
    · rcases hm.ccpCtr with hc | ⟨rfl, ⟨req, rfl⟩, hc⟩
      · exact absurd hc hne
      · exact ⟨rfl, ⟨c, req, ho, hi⟩, hc⟩

/-! ### PORT_OPEN and ENG_READY -/

theorem EndWork.status {i : Instr} {p : Pos} {s u : State} (h : EndWork i p s u) :
    u.status = s.status ∨ i = .closePort ∧ u.status = { s.status with engReady := false } := by
  cases h with
  | unreadied hi => exact .inr ⟨hi, rfl⟩
  | nothing => exact .inl rfl
  | dumped => exact .inl rfl
  | framed f => exact .inl (putFrame_frame f s).status
  | parsed u => obtain ⟨m, hm, _⟩ := putPdu_eq u s; rw [hm]; exact .inl rfl
  | received u => obtain ⟨m, hm, _⟩ := putPdu_eq u s; rw [hm]; exact .inl rfl
  | response f => obtain ⟨m, hm, _⟩ := putDto_eq (dtoDecode f) s; rw [hm]; exact .inl rfl

theorem WorkFrame.engine {s t : State} (h : WorkFrame s t) :
    t.status.portOpen = s.status.portOpen ∧ t.status.engReady = s.status.engReady := by
  rw [h.status]
  exact ⟨rfl, rfl⟩

theorem initEnd_status (s : State) : (initEnd s).op = none ∧ (initEnd s).status.err = false
    ∧ (initEnd s).status.portOpen = s.status.portOpen ∧ (initEnd s).status.engReady = true := by
  unfold initEnd
  split <;> exact ⟨rfl, rfl, rfl, rfl⟩

/-- What a move of the sequencer does to PORT_OPEN and ENG_READY (R29, R216, R240). -/
inductive EngineMove (i : Instr) (s t : State) : Prop where
  | kept (hp : t.status.portOpen = s.status.portOpen) (hr : t.status.engReady = s.status.engReady)
  | opened (hi : i = .openPort ∨ i = .kwpInit) (ha : s.env.openAns.head? = some t.status.portOpen)
      (hs : s.status.portOpen = false) (hr : t.status.engReady = s.status.engReady)
  | closed (hi : i = .closePort) (hp : t.status.portOpen = false ∨ t.status.portOpen = s.status.portOpen)
      (hr : t.status.engReady = false)
  | ready (hi : i = .kwpInit) (hp : t.status.portOpen = s.status.portOpen) (hr : t.status.engReady = true)
      (ho : t.op = none) (he : t.status.err = false)

theorem EngineMove.of_work {i : Instr} {s t : State} (h : WorkFrame s t) : EngineMove i s t :=
  .kept h.engine.1 h.engine.2

theorem SeqMove.engine {i : Instr} {p : Pos} {s t : State} (h : SeqMove i p s t) : EngineMove i s t := by
  cases h with
  | refused => exact .kept rfl rfl
  | ended u hp hw =>
    rcases hw.status with hs | ⟨hi, hs⟩
    · exact .kept (by rw [endOp_status, hs]) (by rw [endOp_status, hs])
    · exact .closed hi (.inr (by rw [endOp_status, hs])) (by rw [endOp_status, hs])
  | ccpFailed f e => obtain ⟨m, hm, _⟩ := putDto_eq (dtoDecode f) s; rw [hm]; exact .kept rfl rfl
  | inited hi hp hc hk hup =>
    obtain ⟨ho, he, hpo, hr⟩ := initEnd_status s
    exact .ready hi hpo hr ho he
  | stopping => exact .kept rfl rfl
  | opening ok rest hi hc hup hans =>
    refine .opened ?_ (by rw [hans]; rfl) hup rfl
    rcases hi with ⟨rfl, _⟩ | ⟨rfl, _⟩
    · exact .inl rfl
    · exact .inr rfl
  | installed => exact .kept rfl rfl
  | filtered => exact .kept rfl rfl
  | closed hi => exact .closed hi (.inl rfl) rfl
  | acquired => exact .kept rfl rfl
  | released => exact .kept rfl rfl
  | swallowed => exact .kept rfl rfl
  | answered req x => obtain ⟨m, hm, _⟩ := putPdu_eq x s; rw [hm]; exact .kept rfl rfl
  | rejected req x e => obtain ⟨m, hm, _⟩ := putPdu_eq x s; rw [hm]; exact .kept rfl rfl
  | fi f q q' u hi hp hf =>
    have h := (fiStep_work (t := u) (by rw [hf]; rfl)).engine
    exact .kept h.1 h.2
  | fiDone f q ok u q' hp hf =>
    have h := (fiStep_work (t := u) (by rw [hf]; rfl)).engine
    exact .kept h.1 h.2
  | tx wr req q q' v u hv hx =>
    have h := (hv.work.trans (txStep_work (t := u) (by rw [hx]; rfl))).engine
    exact .kept h.1 h.2
  | sent req u hi hp hx =>
    have h := ((txStep_work (t := u) (by rw [hx]; rfl)).trans (countSent_work i u)).engine
    exact .kept h.1 h.2
  | got wr req x q v u hi hv hx =>
    have h := (hv.work.trans (txStep_work (t := u) (by rw [hx]; rfl))).engine
    exact .kept h.1 h.2
  | failed wr req q v e hi hv =>
    have h := hv.work.engine
    exact .kept h.1 h.2

/-- Settles O28: the four kinds of move, and the frame of every other event. -/
theorem engineTransitions : Obligations.EngineTransitions := by
  intro s t e hinv h h1 h2
  have kept : ∀ {P Q : Prop}, t.status.portOpen = s.status.portOpen → t.status.engReady = s.status.engReady →
      (t.status.portOpen ≠ s.status.portOpen → P) ∧ (t.status.engReady ≠ s.status.engReady → Q) :=
    fun hp hr => ⟨fun hne => absurd hp hne, fun hne => absurd hr hne⟩
  have htinv := eventStep_inv hinv h
  rcases eventStep_cases h h1 h2 with ⟨a, _, rfl⟩ | ⟨_, rfl⟩ | ⟨c, rfl⟩ | ⟨x, rfl⟩ | ⟨rfl, hm⟩
  · exact kept (hostStep_outs a s).2.2.1 (hostStep_outs a s).2.2.2
  · have f := (taskTurn_frame s).status
    exact kept (by rw [f]) (by rw [f])
  · exact kept rfl rfl
  · exact kept rfl rfl
  · rcases hm with rfl | ⟨x, _, _, rfl, _⟩ | ⟨o, i, ho, hi, hm⟩
    · exact kept rfl rfl
    · exact kept rfl rfl
    · rcases hm.engine with ⟨hp, hr⟩ | ⟨hj, ha, hs, hr⟩ | ⟨hj, hp, hr⟩ | ⟨hj, hp, hr, hop, he⟩
      · exact kept hp hr
      · refine ⟨fun hne => ⟨rfl, o, i, ho, hi, .inl ?_⟩, fun hne => absurd hr hne⟩
        have ht : t.status.portOpen = true := by
          rw [hs] at hne
          exact eq_true_of_ne_false hne
        exact ⟨ht, hj, by rw [ha, ht]⟩
      · refine ⟨fun hne => ⟨rfl, o, i, ho, hi, .inr ⟨?_, hj⟩⟩, fun _ => ⟨rfl, o, i, ho, hi, .inr ⟨hr, hj⟩⟩⟩
        exact hp.resolve_right hne
      · exact ⟨fun hne => absurd hp hne, fun _ => ⟨rfl, o, i, ho, hi, .inl ⟨hr, hj, hop, he, htinv.ready hr⟩⟩⟩

/-! ### The port under the lock -/

/-- A task outside its transaction does not reach the port. -/
theorem KaMove.port {s t : State} (h : KaMove s t) (hin : kaInside s = false) : t.port = s.port := by
  cases h with
  | tx q q' u hf => rw [hf.inside] at hin; cases hin
  | sent q u hf => rw [hf.inside] at hin; cases hin
  | got q x u hf => rw [hf.inside] at hin; cases hin
  | _ => rfl

theorem KaMove.lock {s t : State} (h : KaMove s t) : t.lock = s.lock ∨ s.lock = .free ∨ t.lock = .free := by
  cases h with
  | left => exact .inl rfl
  | woke => exact .inl rfl
  | acquired hp hl => exact .inr (.inl hl)
  | slept => exact .inl rfl
  | tx q q' u hf h => exact .inl (txStep_work (t := u) (by rw [h]; rfl)).lock
  | sent q u hf h => exact .inl (txStep_work (t := u) (by rw [h]; rfl)).lock
  | got q x u hf h => exact .inl (txStep_work (t := u) (by rw [h]; rfl)).lock
  | failed => exact .inr (.inr rfl)
  | answered => exact .inr (.inr rfl)

theorem raiseError_lock_cases (e : Err) (s : State) :
    (raiseError e s).lock = s.lock ∨ (raiseError e s).lock = .free := by
  rw [raiseError_lock]
  split
  · exact .inr rfl
  · exact .inl rfl

theorem initEnd_lock (s : State) : (initEnd s).lock = s.lock ∧ (initEnd s).port = s.port := by
  unfold initEnd
  split <;> exact ⟨rfl, rfl⟩

/-- The sequencer takes the lock only when it is free, and gives it back to nobody. -/
theorem SeqMove.lock {i : Instr} {p : Pos} {s t : State} (h : SeqMove i p s t) :
    t.lock = s.lock ∨ s.lock = .free ∨ t.lock = .free := by
  have raised : ∀ {u : State} (e : Err), u.lock = s.lock →
      (raiseError e u).lock = s.lock ∨ s.lock = .free ∨ (raiseError e u).lock = .free := by
    intro u e hu
    rw [← hu]
    exact (raiseError_lock_cases e u).imp id .inr
  cases h with
  | refused e => exact raised e rfl
  | ended u hp hw => exact .inl hw.port.2
  | ccpFailed f e => exact raised e (putDto_port _ s).2
  | inited => exact .inl (initEnd_lock s).1
  | stopping => exact .inl rfl
  | opening => exact .inl rfl
  | installed => exact .inl rfl
  | filtered => exact .inl rfl
  | closed => exact .inl rfl
  | acquired q hp hl => exact .inr (.inl hl)
  | released => exact .inr (.inr rfl)
  | swallowed => exact .inr (.inr rfl)
  | answered => exact .inr (.inr rfl)
  | rejected req x e => exact raised e (putPdu_port x s).2
  | fi f q q' u hi hp hf => exact .inl (fiStep_work (t := u) (by rw [hf]; rfl)).lock
  | fiDone f q ok u q' hp hf => exact .inl (fiStep_work (t := u) (by rw [hf]; rfl)).lock
  | tx wr req q q' v u hv hx => exact .inl (hv.work.trans (txStep_work (t := u) (by rw [hx]; rfl))).lock
  | sent req u hi hp hx => exact .inl ((txStep_work (t := u) (by rw [hx]; rfl)).trans (countSent_work i u)).lock
  | got wr req x q v u hi hv hx => exact .inl (hv.work.trans (txStep_work (t := u) (by rw [hx]; rfl))).lock
  | failed wr req q v e hi hv => exact raised e hv.work.lock

/-- The sequencer reaches the port inside its locked region, or while no task exists (R246). -/
theorem SeqMove.port {i : Instr} {p : Pos} {s t : State} (h : SeqMove i p s t) (hl : Landing i p s) (hr : Running s)
    (hp : p.locked = false) (hk : kaInside s = true) : t.port = s.port := by
  have exists_task : s.ka.phase ≠ .off := fun h => by simp [kaInside, h] at hk
  cases h with
  | refused => rfl
  | ended u _ hw => exact hw.port.1
  | ccpFailed f e => exact (putDto_port _ s).1
  | inited => exact (initEnd_lock s).2
  | stopping => rfl
  | opening ok rest hi hc hup => exact absurd (hr.no_port hup) exists_task
  | installed q hi hp hq hpos =>
    subst hp
    exact absurd (hl.alone (by rcases hi with rfl | rfl <;> rfl)) exists_task
  | filtered q hi hp hq hpos =>
    subst hp
    exact absurd (hl.alone (by rcases hi with rfl | rfl <;> rfl)) exists_task
  | closed hi hp hoff => exact absurd hoff exists_task
  | acquired => rfl
  | released => rfl
  | swallowed => rfl
  | answered req x hi hq => subst hq; cases hp
  | rejected req x e hi hq => subst hq; cases hp
  | fi f q q' u hi hq => subst hq; cases hp
  | fiDone f q ok u q' hq => subst hq; cases hp
  | tx wr req q q' v u hv => rw [(hv.lands hl).1] at hp; cases hp
  | sent req u hi hq => subst hq; cases hp
  | got wr req x q v u hi hv => rw [(hv.lands hl).1] at hp; cases hp
  | failed wr req q v e hi hv => rw [(hv.lands hl).1] at hp; cases hp

theorem hostStep_lock (a : HostAccess) (s : State) : (hostStep a s).lock = s.lock := by
  cases a with
  | read off =>
    obtain ⟨w, n, c, h⟩ := hostRead_eq off s
    rw [h]
  | write off v =>
    rcases hostWrite_cases off v s with h | h | ⟨r, _, _, h⟩ <;> rw [h]
    · rfl
    · cases r with
      | bufram a =>
        obtain ⟨m, hm⟩ := writeReg_bufram a v s
        rw [hm]
        rfl
      | _ => rfl

/-- Settles O25: the agent without the lock is outside its locked region, where it does not reach the port. -/
theorem lockExcludes : Obligations.LockExcludes := by
  intro s t e hinv h
  refine ⟨fun hl he => ?_, fun hl he => ?_, fun hrun hne => ?_⟩
  · subst he
    cases h
    have hin : kaInside s = false := by
      have hk := hinv.lockKa
      rw [hl] at hk
      simpa using hk
    rcases taskTurn_cases s with ht | ht
    · rw [ht]
    · exact (kaStep_cases ht).port hin
  · subst he
    have hin : kaInside s = true := hinv.lockKa.mp hl
    rcases seqAtom_cases h with rfl | ⟨o, r, _, _, rfl⟩ | ⟨o, i, ho, hi, hm⟩
    · rfl
    · cases r; rfl
    · have hland := Landing.of_inv hinv ho hi
      refine hm.port hland (Running.of_inv hinv ho) ?_ hin
      by_contra hp
      rw [hland.lock.mpr (eq_true_of_ne_false hp)] at hl
      cases hl
  · by_cases hreset : e = .reset
    · subst hreset
      cases h
      exact .inr rfl
    · rcases eventStep_cases h hrun hreset with ⟨a, _, rfl⟩ | ⟨_, rfl⟩ | ⟨c, rfl⟩ | ⟨x, rfl⟩ | ⟨rfl, hm⟩
      · exact absurd (hostStep_lock a s) hne
      · rcases taskTurn_cases s with ht | ht
        · rw [ht] at hne; exact absurd rfl hne
        · exact (kaStep_cases ht).lock.resolve_left hne
      · exact absurd rfl hne
      · exact absurd rfl hne
      · rcases hm with rfl | ⟨x, _, _, rfl, _⟩ | ⟨o, i, ho, hi, hm⟩
        · exact absurd rfl hne
        · exact .inr ((raiseError_lock_cases x s).resolve_left hne)
        · exact hm.lock.resolve_left hne

/-! ### The end of an operation -/

/-- If no operation is in progress, DONE is set, and ERR only together with ERR_STICKY. -/
def Reported (s : State) : Prop :=
  s.status.busy = false → s.status.done = true ∧ (s.status.err = true → s.status.errSticky = true)

theorem Reported.congr {s t : State} (h : Reported s) (ht : t.status.busy = s.status.busy ∧ t.status.done = s.status.done
    ∧ t.status.err = s.status.err ∧ t.status.errSticky = s.status.errSticky) : Reported t := by
  obtain ⟨h1, h2, h3, h4⟩ := ht
  rw [Reported, h1, h2, h3, h4]
  exact h

theorem Reported.work {s t : State} (h : Reported s) (w : WorkFrame s t) : Reported t :=
  h.congr (by rw [w.status]; exact ⟨rfl, rfl, rfl, rfl⟩)

theorem Reported.task {s t : State} (h : Reported s) (f : TaskFrame s t) : Reported t :=
  h.congr (by rw [f.status]; exact ⟨rfl, rfl, rfl, rfl⟩)

theorem raiseError_reported (e : Err) (s : State) : Reported (raiseError e s) := fun _ => ⟨rfl, fun _ => rfl⟩

theorem endOp_reported (s : State) : Reported (endOp s) := fun _ => ⟨rfl, nofun⟩

theorem SeqMove.reported {i : Instr} {p : Pos} {s t : State} (hm : SeqMove i p s t) (h : Reported s) : Reported t := by
  cases hm with
  | refused e => exact raiseError_reported e s
  | ended u => exact endOp_reported u
  | ccpFailed f e => exact raiseError_reported e _
  | inited =>
    unfold initEnd
    split <;> exact endOp_reported _
  | stopping => exact h.congr ⟨rfl, rfl, rfl, rfl⟩
  | opening => exact h.congr ⟨rfl, rfl, rfl, rfl⟩
  | installed => exact h.congr ⟨rfl, rfl, rfl, rfl⟩
  | filtered => exact h.congr ⟨rfl, rfl, rfl, rfl⟩
  | closed => exact h.congr ⟨rfl, rfl, rfl, rfl⟩
  | acquired => exact h.congr ⟨rfl, rfl, rfl, rfl⟩
  | released => exact h.congr ⟨rfl, rfl, rfl, rfl⟩
  | swallowed => exact h.congr ⟨rfl, rfl, rfl, rfl⟩
  | answered req x => exact (h.work ((putPdu_work x s).trans (touch_work _))).congr ⟨rfl, rfl, rfl, rfl⟩
  | rejected req x e => exact raiseError_reported e _
  | fi f q q' u hi hp hf => exact (h.work (fiStep_work (t := u) (by rw [hf]; rfl))).congr ⟨rfl, rfl, rfl, rfl⟩
  | fiDone f q ok u q' hp hf => exact (h.work (fiStep_work (t := u) (by rw [hf]; rfl))).congr ⟨rfl, rfl, rfl, rfl⟩
  | tx wr req q q' v u hv hx =>
    exact (h.work (hv.work.trans (txStep_work (t := u) (by rw [hx]; rfl)))).congr ⟨rfl, rfl, rfl, rfl⟩
  | sent req u hi hp hx =>
    exact (h.work ((txStep_work (t := u) (by rw [hx]; rfl)).trans (countSent_work i u))).congr ⟨rfl, rfl, rfl, rfl⟩
  | got wr req x q v u hi hv hx =>
    exact (h.work (hv.work.trans (txStep_work (t := u) (by rw [hx]; rfl)))).congr ⟨rfl, rfl, rfl, rfl⟩
  | failed wr req q v e => exact raiseError_reported e v

theorem seqRun_reported {s t : State} (h : Reported s) (hr : seqRun s = .next t) : Reported t := by
  rcases seqRun_cases hr with rfl | ⟨o, r, _, _, rfl⟩ | ⟨o, i, _, _, he⟩
  · exact h
  · obtain ⟨e, he⟩ := illegalOp_eq r s
    rw [he]
    exact raiseError_reported e s
  · exact exec_keeps Reported (fun _ _ _ hs _ hm => hm.reported hs) (fun _ _ hs hk => hs.task (kaStep_cases hk).frame) h he

/-- While BUSY no host access ends the operation (R65). -/
theorem hostStep_busy (a : HostAccess) (s : State) (hb : s.status.busy = true) : (hostStep a s).status.busy = true := by
  cases a with
  | read off => rw [hostRead_status]; exact hb
  | write off v =>
    rcases hostWrite_cases off v s with h | h | ⟨r, _, hr, h⟩ <;> rw [h]
    · exact hb
    · exact hb
    · rcases hr with hr | rfl | rfl
      · rw [hb] at hr; cases hr
      · exact hb
      · exact hb

theorem eventStep_reported {e : Event} {s t : State} (h : eventStep e s = .next t) (hb : s.status.busy = true)
    (hreset : e ≠ .reset) : Reported t := by
  have hs : Reported s := fun hf => by rw [hb] at hf; cases hf
  by_cases hrun : e = .run
  · subst hrun
    exact seqRun_reported hs h
  · rcases eventStep_cases h hrun hreset with ⟨a, _, rfl⟩ | ⟨_, rfl⟩ | ⟨c, rfl⟩ | ⟨x, rfl⟩ | ⟨rfl, hm⟩
    · exact fun hf => by rw [hostStep_busy a s hb] at hf; cases hf
    · exact hs.task (taskTurn_frame s)
    · exact hs
    · exact hs
    · rcases hm with rfl | ⟨x, _, _, rfl, _⟩ | ⟨o, i, ho, hi, hm⟩
      · exact hs
      · exact raiseError_reported x s
      · exact hm.reported hs

/-- R311, R312: the code words of the listed errors, and no others. -/
theorem Err.codeWord_listed (e : Err) :
    e.codeWord ∈ [0x0000#32, 0x0001#32, 0x0102#32, 0x0202#32, 0x0302#32, 0x0402#32, 0x0502#32, 0x0602#32, 0x0003#32,
      0x0004#32, 0x0105#32, 0x0205#32, 0x0305#32, 0x0106#32, 0x0206#32, 0x0306#32, 0x0406#32, 0x0506#32, 0x0107#32,
      0x0008#32, 0x0009#32, 0x010A#32, 0x020A#32] := by
  cases e with
  | timeout c b => cases c <;> simp [Err.codeWord, Err.sub, Err.cls]
  | violation c b => cases c <;> simp [Err.codeWord, Err.sub, Err.cls]
  | argument c b => cases c <;> simp [Err.codeWord, Err.sub, Err.cls]
  | illegal c b => cases c <;> simp [Err.codeWord, Err.sub, Err.cls]
  | _ => simp [Err.codeWord, Err.sub, Err.cls]

/-- Settles O24: the two ends of an operation report themselves, and the invariant ties the error registers to ERR. -/
theorem operationEnds : Obligations.OperationEnds := by
  refine ⟨fun s t hinv h hb hbt hreset => ?_, fun s t h hne => ?_⟩
  · have ht : t.Inv := stepKeepsInv s t hinv h
    have hrep : Reported t := by
      unfold step at h
      split at h
      · rename_i e rest hs
        exact eventStep_reported h hb fun he => hreset rest (by rw [hs, he])
      · have hidle : Reported s := fun hf => by rw [hb] at hf; cases hf
        split at h
        · exact seqRun_reported hidle h
        · cases h; exact hidle.task (taskTurn_frame s)
    have hop : t.op = none := by
      have hbusy := ht.busy
      rw [hbt] at hbusy
      exact Option.not_isSome_iff_eq_none.mp (by rw [← hbusy]; decide)
    obtain ⟨hdone, hsticky⟩ := hrep hbt
    refine ⟨hdone, hop, fun hl => ?_, fun he => ⟨hsticky he, ht.errCode.mp he⟩, fun he => ⟨?_, ht.errInfo he⟩⟩
    · rw [ht.lockSeq, seqInside, hop] at hl
      cases hl
    · by_contra hc
      rw [ht.errCode.mpr hc] at he
      cases he
  · rcases step_cases h with ⟨a, rest, hs, rfl⟩ | ⟨rest, hs, rfl⟩ | hf
    · rcases (hostStep_outs a (s.setSched rest)).2.1 with h | h
      · exact absurd h hne
      · rw [h]; exact List.mem_cons_self
    · exact List.mem_cons_self
    · rcases hf.errCode with h | ⟨e, h⟩
      · exact absurd h hne
      · rw [h]; exact e.codeWord_listed

end Sys2Proof.Machine
end

