-- ==== Sys2Proof/Proofs/OpenOutputs.lean ====
section
/-! The outputs R66 leaves open while an operation may write them (log 12): what each output write changes among them, and
that an operation writes only those the table gives it. -/

namespace Sys2Proof.Machine

/-! ### The open outputs after each output write -/

/-- Nothing an open output reads is changed. -/
def SameOutputs (s t : State) : Prop :=
  t.ram = s.ram ∧ t.epoch = s.epoch ∧ t.outs = { s.outs with
    errCode := t.outs.errCode, errInfo := t.outs.errInfo, capCount := t.outs.capCount, capdCount := t.outs.capdCount }

theorem regValue_same {r : HostReg} {s t : State} (ho : openOutput r = true) (h : SameOutputs s t) :
    regValue r t = regValue r s := by
  obtain ⟨hr, he, ho'⟩ := h
  cases r with
  | bufram a => simp only [regValue, peek_congr hr he]
  | rxLen => simp only [regValue]; rw [ho']
  | frmLen => simp only [regValue]; rw [ho']
  | respStatus => simp only [regValue]; rw [ho']
  | dtoInfo => simp only [regValue]; rw [ho']
  | txWritten => simp only [regValue]; rw [ho']
  | ccpCtr => simp only [regValue]; rw [ho']
  | _ => cases ho

section
variable {r : HostReg} (ho : openOutput r = true)

include ho in
theorem regValue_setFrmLen (hr : isFrameOut r = false) (n : Nat) (s : State) :
    regValue r (s.setFrmLen n) = regValue r s := by
  cases r with
  | frmLen => cases hr
  | bufram a => rfl
  | rxLen => rfl
  | respStatus => rfl
  | dtoInfo => rfl
  | txWritten => rfl
  | ccpCtr => rfl
  | _ => cases ho

include ho in
theorem regValue_setTxWritten (hr : r ≠ .txWritten) (n : Int) (s : State) :
    regValue r (s.setTxWritten n) = regValue r s := by
  cases r with
  | txWritten => exact absurd rfl hr
  | frmLen => rfl
  | bufram a => rfl
  | rxLen => rfl
  | respStatus => rfl
  | dtoInfo => rfl
  | ccpCtr => rfl
  | _ => cases ho

/-- A byte outside FRMBUF. -/
theorem outside_frmBuf {a : Nat} (h : isFrameOut (.bufram a) = false) : a < frmBuf ∨ startBuf ≤ a := by
  simp only [isFrameOut, Bool.and_eq_false_iff, decide_eq_false_iff_not, not_le, not_lt] at h
  exact h

include ho in
theorem regValue_putFrame (hr : isFrameOut r = false) (f : List Byte) (hf : f.length ≤ 512) (s : State) :
    regValue r (putFrame f s) = regValue r s := by
  obtain ⟨m, hm, _⟩ := putFrame_eq f s
  cases r with
  | frmLen => cases hr
  | bufram a =>
    have ha := outside_frmBuf hr
    simp only [startBuf] at ha
    simp only [regValue]
    rw [putFrame_peek f s a (by simp only [frmBuf] at ha ⊢; omega)]
  | rxLen => rw [hm]; rfl
  | respStatus => rw [hm]; rfl
  | dtoInfo => rw [hm]; rfl
  | txWritten => rw [hm]; rfl
  | ccpCtr => rw [hm]; rfl
  | _ => cases ho

/-- A byte outside RXBUF. -/
theorem outside_rxBuf {a : Nat} (h : isPduOut (.bufram a) = false) : a < rxBuf ∨ frmBuf ≤ a := by
  simp only [isPduOut, Bool.and_eq_false_iff, decide_eq_false_iff_not, not_le, not_lt] at h
  exact h

include ho in
theorem regValue_putPdu (hr : isPduOut r = false) (u : List Byte) (hu : u.length ≤ 256) (s : State) :
    regValue r (putPdu u s) = regValue r s := by
  obtain ⟨m, hm, _⟩ := putPdu_eq u s
  cases r with
  | rxLen => cases hr
  | respStatus => cases hr
  | bufram a =>
    have ha := outside_rxBuf hr
    simp only [regValue]
    rw [putPdu_peek u s a (by simp only [rxBuf, frmBuf] at ha ⊢; omega)]
  | frmLen => rw [hm]; rfl
  | dtoInfo => rw [hm]; rfl
  | txWritten => rw [hm]; rfl
  | ccpCtr => rw [hm]; rfl
  | _ => cases ho

theorem putDto_peek (d : Dto) (s : State) (b : Nat) (h : b < rxBuf ∨ rxBuf + (d.data.length + 1) ≤ b) :
    (putDto d s).peek b = s.peek b :=
  State.peek_memWrite_other s rxBuf b (d.rc :: d.data) h

include ho in
theorem regValue_putDto (hr : isPduOut r = false) (hi : r ≠ .dtoInfo) (f : List Byte) (s : State) :
    regValue r (putDto (dtoDecode f) s) = regValue r s := by
  have hd : (dtoDecode f).data.length ≤ 5 := by simp [dtoDecode]
  obtain ⟨m, hm, _⟩ := putDto_eq (dtoDecode f) s
  cases r with
  | rxLen => cases hr
  | respStatus => cases hr
  | dtoInfo => exact absurd rfl hi
  | bufram a =>
    have ha := outside_rxBuf hr
    simp only [regValue]
    rw [putDto_peek _ s a (by simp only [rxBuf, frmBuf] at ha ⊢; omega)]
  | frmLen => rw [hm]; rfl
  | txWritten => rw [hm]; rfl
  | ccpCtr => rw [hm]; rfl
  | _ => cases ho

theorem regValue_fiStore (hr : isFrameOut r = false) (k : Nat) (last : Option Byte) (hk : k ≤ 255) (s : State) :
    regValue r (fiStore k last s) = regValue r s := by
  cases last with
  | none => rfl
  | some b =>
    refine regValue_poke_other r s (frmBuf + (k - 1)) b fun h => ?_
    rw [h] at hr
    have ha := outside_frmBuf hr
    simp only [frmBuf, startBuf] at ha
    omega

/-! ### The transport -/

include ho in
theorem regValue_countSent {i : Instr} (hr : i = .ccpExec → r ≠ .ccpCtr) (s : State) :
    regValue r (countSent i s) = regValue r s := by
  unfold countSent
  split
  · rename_i hi
    cases r with
    | ccpCtr => exact absurd rfl (hr hi)
    | frmLen => rfl
    | bufram a => rfl
    | rxLen => rfl
    | respStatus => rfl
    | dtoInfo => rfl
    | txWritten => rfl
    | _ => cases ho
  · rfl

include ho in
theorem regValue_capPush (d : Dir) (bs : List Byte) (s : State) : regValue r (capPush d bs s) = regValue r s := by
  obtain ⟨c, o, hq, _, hc, _⟩ := capPush_eq d bs s
  refine regValue_same ho ?_
  rw [hq]
  refine ⟨rfl, rfl, ?_⟩
  rw [State.setOuts_outs, hc]

/-- `r` is none of the outputs a transport step at `q` may write under `pr`: the frame outputs on the K-Line and in a CAN
receive, TX_WRITTEN in a send but over ISO-TP (R222, R223). -/
def TxLeaves (r : HostReg) (pr : Proto) (q : TxPos) : Prop :=
  (pr = .kwpKline ∨ pr = .ccpCan ∧ q.sends = false → isFrameOut r = false)
    ∧ (pr ≠ .kwpCan → q.sends = true → r ≠ .txWritten)

theorem SameOutputs.of_read {s t : State} (h : PortFrame s t ∧ t.ram = s.ram ∧ t.outs = s.outs) : SameOutputs s t :=
  ⟨h.2.1, h.1.epoch, by rw [h.2.2]⟩

include ho in
theorem regValue_sendStep {a : Agent} {req : List Byte} {s t : State} {q : TxPos} (hq : q.sends = true)
    (hl : TxLeaves r s.regs.ctrl.proto q) (hreq : pduLenOk req.length = true)
    (h : (sendStep a true req s).state? = some t) : regValue r t = regValue r s := by
  simp only [pduLenOk, Bool.and_eq_true, decide_eq_true_eq] at hreq
  obtain ⟨hframe, htx⟩ := hl
  unfold sendStep at h
  split at h
  · rename_i hp
    cases hw : portWrite a (klEncode s.regs.klTxHdr req) s with
    | none => simp [hw, TxRes.state?] at h
    | some x =>
      obtain ⟨n, u⟩ := x
      simp only [hw] at h
      cases h
      have hlen := klEncode_length s.regs.klTxHdr req hreq.2
      have hf := hframe (.inl hp)
      simp only [if_true]
      rw [regValue_setTxWritten ho (htx (by rw [hp]; decide) hq), regValue_putFrame ho hf _ (by omega)]
      exact regValue_same ho (.of_read (portWrite_frame _ _ _ _ _ hw))
  · cases h
    exact regValue_same ho ⟨rfl, rfl, rfl⟩
  · cases h
    exact regValue_same ho ⟨rfl, rfl, rfl⟩

include ho in
/-- A transport step of the sequencer leaves every other open output. -/
theorem regValue_txStep {a : Agent} {req : List Byte} {q : TxPos} {s t : State} (hz : q.sized = true)
    (hf : q.fits s.regs.ctrl.proto = true) (hreq : q.sends = true → pduLenOk req.length = true)
    (hl : TxLeaves r s.regs.ctrl.proto q) (h : (txStep a true req q s).state? = some t) :
    regValue r t = regValue r s := by
  have read : ∀ {t : State}, PortFrame s t ∧ t.ram = s.ram ∧ t.outs = s.outs → regValue r t = regValue r s :=
    fun h => regValue_same ho (.of_read h)
  cases q with
  | syncSend =>
    rcases syncStep_frame a s t .send _ h with h | h
    · exact read h
    · exact regValue_sendStep ho rfl hl (hreq rfl) h
  | send => exact regValue_sendStep ho rfl hl (hreq rfl) h
  | capOut =>
    cases h
    rw [regValue_capPush ho, if_pos rfl]
    rcases canWritten_eq s with hc | ⟨hp, hc⟩
    · rw [hc]
    · rw [hc, regValue_setTxWritten ho (hl.2 (by rw [hp]; decide) rfl)]
  | syncRecv =>
    rcases syncStep_frame a s t .recv _ h with h | h
    · exact read h
    · exact read (recvStep_frame a s t h)
  | recv => exact read (recvStep_frame a s t h)
  | klId c => exact read (klReadStep_frame _ _ _ _ _ h)
  | klLen c i0 i1 => exact read (klReadStep_frame _ _ _ _ _ h)
  | klBody head n => exact read (klReadStep_frame _ _ _ _ _ h)
  | klSum head pdu => exact read (klReadStep_frame _ _ _ _ _ h)
  | klJudge head pdu cs =>
    have hp : s.regs.ctrl.proto = .kwpKline := eq_of_beq hf
    simp only [TxPos.sized, pduLenOk, Bool.and_eq_true, decide_eq_true_eq] at hz
    simp only [txStep] at h
    split at h
    · exact read (recvStep_frame a s t h)
    · cases h; rfl
    · cases h
      rw [regValue_capPush ho, if_pos trivial, regValue_putFrame ho (hl.1 (.inl hp))]
      simp only [List.length_append, List.length_cons, List.length_nil]
      omega
  | isoGot pdu =>
    simp only [txStep] at h
    split at h
    · cases h; rfl
    · cases h; exact regValue_capPush ho _ _ s
  | canGot frame =>
    have hp : s.regs.ctrl.proto = .ccpCan := eq_of_beq hf
    simp only [TxPos.sized, canDataOk, decide_eq_true_eq] at hz
    simp only [txStep] at h
    split at h
    · cases h; rfl
    · cases h
      rw [regValue_capPush ho, if_pos trivial, regValue_putFrame ho (hl.1 (.inr ⟨hp, rfl⟩)) _ (by omega)]
  | raise e => cases h; rfl

/-- A transport step with `wr = 0` writes no open output (R245, R266). -/
theorem regValue_txStep_silent {r : HostReg} (ho : openOutput r = true) {a : Agent} {req : List Byte} {q : TxPos}
    {s t : State} (h : (txStep a false req q s).state? = some t) : regValue r t = regValue r s := by
  obtain ⟨hf, hw⟩ := txStep_frame a false req q s t h
  obtain ⟨hr, hout⟩ := hw rfl
  exact regValue_same ho ⟨hr, hf.epoch, by rw [hout]⟩

/-! ### FastInit -/

theorem holdStep_outputs {n : Nat} {self after : FiPos} {s t : State} (h : (holdStep n self after s).state? = some t) :
    SameOutputs s t := by
  unfold holdStep at h
  split at h
  · cases h; exact ⟨rfl, rfl, rfl⟩
  · split at h
    · cases h
    · rename_i c rest hc
      cases h
      obtain ⟨k, hk, _⟩ := moveClock_eq (s.setEnv { s.env with clockIn := rest }) (holdLimit n) c
      simp only [hk]
      exact ⟨rfl, rfl, rfl⟩

include ho in
/-- A step of FastInit writes the frame outputs and TX_WRITTEN only (R196, R200). -/
theorem regValue_fiStep {f : List Byte} {q : FiPos} {s t : State} (hframe : isFrameOut r = false)
    (htx : r ≠ .txWritten) (hz : (Pos.fi f q).sized = true) (h : (fiStep f q s).state? = some t) :
    regValue r t = regValue r s := by
  cases q with
  | setTimeout => cases h; exact regValue_same ho ⟨rfl, rfl, rfl⟩
  | low st =>
    cases h
    cases st with
    | native => exact regValue_same ho ⟨rfl, rfl, rfl⟩
    | alternate =>
      refine Eq.trans (regValue_same ho ?_) (regValue_setFrmLen ho hframe 0 s)
      exact ⟨rfl, rfl, rfl⟩
  | holdLow st n => exact regValue_same ho (holdStep_outputs h)
  | high st n =>
    cases h
    cases st <;> exact regValue_same ho ⟨rfl, rfl, rfl⟩
  | holdHigh st n => exact regValue_same ho (holdStep_outputs h)
  | release n => cases h; exact regValue_same ho ⟨rfl, rfl, rfl⟩
  | send st n =>
    simp only [fiStep] at h
    cases hw : portWrite .seq f s with
    | none => rw [hw] at h; cases h
    | some x =>
      rw [hw] at h
      cases h
      rw [regValue_setTxWritten ho htx]
      exact regValue_same ho (.of_read (portWrite_frame _ _ _ _ _ hw))
  | read st k last =>
    simp only [Pos.sized, decide_eq_true_eq] at hz
    have hs := regValue_fiStore hframe k last (by omega) s
    simp only [fiStep] at h
    cases hr : portRead .seq 1 (fiStore k last s) with
    | wait => rw [hr] at h; cases h
    | timeout u =>
      rw [hr] at h
      cases h
      exact (regValue_same ho (.of_read (portRead_frame _ _ _ _ (by rw [hr]; rfl)))).trans hs
    | bytes bs u =>
      rw [hr] at h
      cases h
      exact (regValue_same ho (.of_read (portRead_frame _ _ _ _ (by rw [hr]; rfl)))).trans hs
  | close x k last =>
    simp only [Pos.sized, decide_eq_true_eq] at hz
    cases h
    rw [← regValue_fiStore hframe k last hz s, ← regValue_setFrmLen ho hframe k (fiStore k last s)]
    exact regValue_same ho ⟨rfl, rfl, rfl⟩

/-! ### An operation writes the outputs the table gives it -/

include ho in
theorem EndWork.regValue {i : Instr} {p : Pos} {s u : State} (hw : EndWork i p s u) (hl : Landing i p s)
    (hm : mayWrite i s.regs.ctrl.proto r = false) : regValue r u = Machine.regValue r s := by
  cases hw with
  | nothing => rfl
  | unreadied => exact regValue_same ho ⟨rfl, rfl, rfl⟩
  | dumped => exact regValue_same ho ⟨rfl, rfl, rfl⟩
  | framed f hi hf =>
    refine regValue_putFrame ho ?_ f (by omega) s
    rcases hi with rfl | rfl <;> exact hm
  | parsed u hi hu =>
    subst hi
    exact regValue_putPdu ho hm u (by omega) s
  | received u hi hp hpr =>
    subst hp
    have hz := hl.sized
    simp only [Pos.sized, Ret.sized, pduLenOk, Bool.and_eq_true, decide_eq_true_eq] at hz
    refine regValue_putPdu ho ?_ u (by omega) s
    rcases hi with rfl | rfl <;> simp_all [mayWrite]
  | response f hi =>
    have hr : isPduOut r = false ∧ r ≠ .dtoInfo := by rcases hi with rfl | rfl <;> simp_all [mayWrite]
    exact regValue_putDto ho hr.1 hr.2 f s

/-- Under which conditions the table gives an operation no output of the transport. -/
theorem TxFrom.leaves {i : Instr} {p : Pos} {s v : State} {req : List Byte} {q : TxPos}
    (hv : TxFrom i p s true req q v) (hl : Landing i p s) (hm : mayWrite i s.regs.ctrl.proto r = false) :
    TxLeaves r s.regs.ctrl.proto q := by
  cases hv with
  | plain _ _ _ _ _ hi =>
    have hpos := hl.pos
    have hc := hl.checked
    rcases hi with ⟨rfl, _⟩ | ⟨rfl, _⟩ | ⟨rfl, _⟩ | ⟨rfl, _⟩ | ⟨_, h⟩
    · cases hp : s.regs.ctrl.proto <;> simp_all [TxLeaves, mayWrite, posOk]
    · cases hp : s.regs.ctrl.proto <;> simp_all [TxLeaves, mayWrite, posOk]
    · cases hp : s.regs.ctrl.proto <;> simp_all [TxLeaves, mayWrite, posOk]
    · cases hp : s.regs.ctrl.proto <;> simp_all [TxLeaves, mayWrite, posOk, checkedBy, Instr.allowedUnder]
    · cases h
  | ccp => simp_all [TxLeaves, mayWrite]
  | pending =>
    have hc := hl.checked
    cases hp : s.regs.ctrl.proto <;>
      simp_all [TxLeaves, mayWrite, checkedBy, Instr.allowedUnder, TxPos.sends]

include ho in
theorem TxFrom.regValue {i : Instr} {p : Pos} {s v : State} {wr : Bool} {req : List Byte} {q : TxPos}
    (hv : TxFrom i p s wr req q v) (hl : Landing i p s) (hm : mayWrite i s.regs.ctrl.proto r = false) :
    regValue r v = Machine.regValue r s := by
  have hland := hv.lands hl
  cases hv with
  | plain => rfl
  | ccp =>
    obtain ⟨_, _, _, _, hreq, _⟩ := hland
    by_cases hq : q = .syncSend
    · subst hq
      have hlen := hreq rfl
      simp only [pduLenOk, Bool.and_eq_true, decide_eq_true_eq] at hlen
      rw [ccpBuffer, if_pos rfl]
      exact regValue_putFrame ho (by simp_all [mayWrite]) req (by omega) s
    · rw [ccpBuffer_other req q s hq]
  | pending _ x =>
    have hz := hl.sized
    simp only [Pos.sized, pduLenOk, Bool.and_eq_true, decide_eq_true_eq] at hz
    exact regValue_putPdu ho (by simp_all [mayWrite]) x (by omega) s

include ho in
theorem TxFrom.regValue_step {i : Instr} {p : Pos} {s v t : State} {wr : Bool} {req : List Byte} {q : TxPos}
    (hv : TxFrom i p s wr req q v) (hl : Landing i p s) (hm : mayWrite i s.regs.ctrl.proto r = false)
    (h : (txStep .seq wr req q v).state? = some t) : Machine.regValue r t = Machine.regValue r s := by
  rw [← hv.regValue ho hl hm]
  cases wr with
  | false => exact regValue_txStep_silent ho h
  | true =>
    obtain ⟨_, _, hz, hf, hreq, _⟩ := hv.lands hl
    have hregs := hv.work.regs
    exact regValue_txStep ho hz (by rw [hregs]; exact hf) hreq (by rw [hregs]; exact hv.leaves hl hm) h

/-- The end of a send is a step of the transport at its own position: CCP_EXEC's buffer write is long done. -/
theorem TxFrom.of_sent {i : Instr} (hi : i = .tpSend ∨ i = .tpSr ∨ i = .kwpExec ∨ i = .ccpExec) (req : List Byte)
    (s : State) : TxFrom i (.tx req .capOut) s true req .capOut s := by
  rcases hi with rfl | rfl | rfl | rfl
  · exact .plain _ _ _ _ _ (.inl ⟨rfl, rfl⟩)
  · exact .plain _ _ _ _ _ (.inr (.inr (.inl ⟨rfl, rfl⟩)))
  · exact .plain _ _ _ _ _ (.inr (.inr (.inr (.inl ⟨rfl, rfl⟩))))
  · have h := TxFrom.ccp req .capOut s
    rwa [ccpBuffer_other req .capOut s (by decide)] at h

include ho in
/-- A step of FastInit is taken by operations that may write its outputs (R201, R245). -/
theorem regValue_fiMove {i : Instr} {f : List Byte} {q : FiPos} {s u : State} (hi : i = .fiSeq ∨ i = .kwpInit)
    (hl : Landing i (.fi f q) s) (hm : mayWrite i s.regs.ctrl.proto r = false)
    (h : (fiStep f q s).state? = some u) : regValue r u = regValue r s := by
  have hp : s.regs.ctrl.proto = .kwpKline := eq_of_beq hl.fits
  have hr : isFrameOut r = false ∧ r ≠ .txWritten := by rcases hi with rfl | rfl <;> simp_all [mayWrite]
  exact regValue_fiStep ho hr.1 hr.2 hl.sized h

include ho in
/-- A move of an operation leaves every open output the table does not give it (R66; log 12). -/
theorem SeqMove.regValue {i : Instr} {p : Pos} {s t : State} (h : SeqMove i p s t) (hl : Landing i p s)
    (hm : mayWrite i s.regs.ctrl.proto r = false) : regValue r t = Machine.regValue r s := by
  have same : ∀ {u t : State}, Machine.regValue r u = Machine.regValue r s → SameOutputs u t →
      Machine.regValue r t = Machine.regValue r s := fun hu ht => (regValue_same ho ht).trans hu
  have quiet : ∀ {t : State}, SameOutputs s t → Machine.regValue r t = Machine.regValue r s := fun ht => same rfl ht
  cases h with
  | refused => exact quiet ⟨rfl, rfl, rfl⟩
  | ended u hp hw => exact same (hw.regValue ho hl hm) ⟨rfl, rfl, rfl⟩
  | ccpFailed f e hi =>
    subst hi
    exact same (regValue_putDto ho (by simp_all [mayWrite]) (by simp_all [mayWrite]) f s) ⟨rfl, rfl, rfl⟩
  | inited =>
    unfold initEnd
    split <;> exact quiet ⟨rfl, rfl, rfl⟩
  | stopping => exact quiet ⟨rfl, rfl, rfl⟩
  | opening => exact quiet ⟨rfl, rfl, rfl⟩
  | installed => exact quiet ⟨rfl, rfl, rfl⟩
  | filtered => exact quiet ⟨rfl, rfl, rfl⟩
  | closed => exact quiet ⟨rfl, rfl, rfl⟩
  | acquired => exact quiet ⟨rfl, rfl, rfl⟩
  | released => exact quiet ⟨rfl, rfl, rfl⟩
  | swallowed => exact quiet ⟨rfl, rfl, rfl⟩
  | answered req x hi hp =>
    subst hi hp
    have hz := hl.sized
    simp only [Pos.sized, pduLenOk, Bool.and_eq_true, decide_eq_true_eq] at hz
    exact same (regValue_putPdu ho (by simp_all [mayWrite]) x (by omega) s) ⟨rfl, rfl, rfl⟩
  | rejected req x e hi hp =>
    subst hi hp
    have hz := hl.sized
    simp only [Pos.sized, pduLenOk, Bool.and_eq_true, decide_eq_true_eq] at hz
    exact same (regValue_putPdu ho (by simp_all [mayWrite]) x (by omega) s) ⟨rfl, rfl, rfl⟩
  | fi f q q' u hi hp hf =>
    subst hp
    exact same (regValue_fiMove ho hi hl hm (u := u) (by rw [hf]; rfl)) ⟨rfl, rfl, rfl⟩
  | fiDone f q ok u q' hp hf hq =>
    subst hp
    have hi : i = .fiSeq ∨ i = .kwpInit := hq.imp And.left And.left
    exact same (regValue_fiMove ho hi hl hm (u := u) (by rw [hf]; rfl)) ⟨rfl, rfl, rfl⟩
  | tx wr req q q' v u hv hx => exact same (hv.regValue_step ho hl hm (t := u) (by rw [hx]; rfl)) ⟨rfl, rfl, rfl⟩
  | sent req u hi hp hx =>
    subst hp
    have hu := (TxFrom.of_sent hi req s).regValue_step ho hl hm (t := u) (by rw [hx]; rfl)
    refine same ((regValue_countSent ho ?_ u).trans hu) ⟨rfl, rfl, rfl⟩
    rintro rfl rfl
    cases hm
  | got wr req x q v u hi hv hx => exact same (hv.regValue_step ho hl hm (t := u) (by rw [hx]; rfl)) ⟨rfl, rfl, rfl⟩
  | failed wr req q v e hi hv => exact same (hv.regValue ho hl hm) ⟨rfl, rfl, rfl⟩

end

theorem TaskFrame.outputs {s t : State} (f : TaskFrame s t) : SameOutputs s t :=
  ⟨f.ram, f.own.2.2.2, by rw [f.outs]⟩

/-- A run leaves every open output the table does not give its operation. -/
theorem exec_regValue {i : Instr} {o : Op} {s t : State} {r : HostReg} (h : s.Inv) (ho : s.op = some o)
    (hi : decodeCode o.code = .ok i) (he : exec i s = .next t) (hr : openOutput r = true)
    (hm : mayWrite i s.regs.ctrl.proto r = false) : regValue r t = regValue r s := by
  have key : (t.Inv ∧ Runs i t) ∧ t.regs.ctrl = s.regs.ctrl ∧ regValue r t = regValue r s := by
    refine exec_keeps (fun u => (u.Inv ∧ Runs i u) ∧ u.regs.ctrl = s.regs.ctrl ∧ regValue r u = regValue r s)
      ?_ ?_ ⟨⟨h, .of_op ho hi⟩, rfl, rfl⟩ he
    · rintro u v o' ⟨⟨hu, hruns⟩, hctrl, hval⟩ ho' hmove
      have hi' := hruns o' ho'
      refine ⟨⟨hmove.inv hu ho' hi', hmove.runs hruns⟩, ?_, ?_⟩
      · rw [hmove.block.regs]; exact hctrl
      · exact (hmove.regValue hr (Landing.of_inv hu ho' hi') (by rw [hctrl]; exact hm)).trans hval
    · rintro u v ⟨⟨hu, hruns⟩, hctrl, hval⟩ hk
      have f := (kaStep_cases hk).frame
      exact ⟨⟨(kaStep_cases hk).inv hu, hruns.congr f.op⟩, by rw [f.regs]; exact hctrl,
        (regValue_same hr f.outputs).trans hval⟩
  exact key.2.2

/-- Settles O13: the rules of a read, and the outputs each move leaves. -/
theorem busyReads : Obligations.BusyReads := by
  refine ⟨fun s off r hr => ⟨fun hfree h1 h2 => ?_, fun o i ho hi hb => ⟨fun hm => ?_, fun hm => ?_⟩⟩,
    fun i o s t r h ho hi he hr hm => exec_regValue h ho hi he hr hm⟩
  · have hf : readIsFree r s = false := hfree.elim readIsFree_idle readIsFree_closed
    rw [hostRead_value hr hf, latch_other _ h1 h2]
    rfl
  · exact hostRead_data hr (by rw [readIsFree_running hb ho hi]; exact hm)
  · rw [hostRead_free hr (by rw [readIsFree_running hb ho hi]; exact hm)]
    rfl

end Sys2Proof.Machine
end

