-- ==== Sys2Proof/Proofs/SendRuns.lean ====
section
/-! Whole runs of TP_SEND (spec/43_transport.md R220, R226): the chain of its five steps, and what the last state holds. -/

namespace Sys2Proof.Machine

/-! ### Captures and calls in the words of the claims -/

/-- CapPush in the words of R218. -/
theorem capPush_pushed (d : Dir) (bs : List Byte) (s : State) :
    capPush d bs s =
      (s.setCap { s.cap with live := pushed s.regs.capCfg s.clock.now d bs s.cap.live }).setOuts
        { s.outs with capCount := countOf s (pushed s.regs.capCfg s.clock.now d bs s.cap.live) } := by
  unfold capPush pushed countOf capDisable
  split
  · rfl
  · rfl

/-- One more primitive of the sequencer at the same clock value. -/
theorem madeCalls_snoc (now : Time) (cs : List PortCall) (c : PortCall) (log : List PortEvent) :
    madeCalls now (cs ++ [c]) log = { agent := .seq, time := now, call := c } :: madeCalls now cs log := by
  simp [madeCalls]

theorem SameOwn.epoch {s t : State} (h : SameOwn s t) : t.epoch = s.epoch := h.2.2.2

theorem SameOwn.trans {s u t : State} (h : SameOwn s u) (h' : SameOwn u t) : SameOwn s t := by
  obtain ⟨a1, a2, a3, a4⟩ := h
  obtain ⟨b1, b2, b3, b4⟩ := h'
  exact ⟨b1.trans a1, b2.trans a2, b3.trans a3, b4.trans a4⟩

theorem memRead_same {s t : State} (hr : t.ram = s.ram) (he : t.epoch = s.epoch) (a n : Nat) :
    t.memRead a n = s.memRead a n :=
  State.memRead_congr _ _ _ _ fun i _ => peek_congr hr he (a + i)

theorem canWritten_other {s : State} (h : s.regs.ctrl.proto ≠ .ccpCan) : canWritten s = s :=
  (canWritten_eq s).resolve_right fun hc => h hc.1

theorem canWritten_can {s : State} (h : s.regs.ctrl.proto = .ccpCan) : canWritten s = s.setTxWritten 8 := by
  simp [canWritten, h]

theorem runBudget_ge (s : State) : ∃ n, runBudget s = n + 64 := ⟨2 * s.env.pending, rfl⟩

/-! ### The chain of TP_SEND -/

/-- TP_SEND's steps after the send primitive: CapPush, release, end. -/
def tpSendRest (p : List Byte) (w : State) : State :=
  endOp (releaseTo ((capPush .outgoing p (canWritten w)).goto (.release .unit)) (.finish .unit))

/-- TP_SEND past its checks, the lock free, and its send primitive answered. -/
theorem exec_tpSend {s w : State} {p : List Byte} (hs : Started .tpSend s) (hu : sendUnit s = .ok p)
    (hl : s.lock = .free)
    (hw : sendStep .seq true p ((s.setLock .seq).goto (.tx p .send)) = .go .capOut w)
    (hop : w.op = ((s.setLock .seq).goto (.tx p .send)).op) :
    exec .tpSend s = .next (tpSendRest p (w.goto (.tx p .capOut))) := by
  obtain ⟨n, hn⟩ := runBudget_ge s
  have hop0 : ((s.setLock .seq).goto (.tx p .send)).op = some { code := opcode .tpSend, pos := .tx p .send } := by
    rw [State.goto_op, State.setLock_op, hs]
    rfl
  have hop1 : (w.goto (.tx p .capOut)).op = some { code := opcode .tpSend, pos := .tx p .capOut } := by
    rw [State.goto_op, hop, hop0]
    rfl
  have hop2 : ((capPush .outgoing p (canWritten (w.goto (.tx p .capOut)))).goto (.release .unit)).op =
      some { code := opcode .tpSend, pos := .release .unit } := by
    rw [State.goto_op, (capPush_frame _ _ _).op, (canWritten_frame _).op, hop1]
    rfl
  rw [exec_eq, hn]
  calc runOp stepTpSend (n + 64) s
      = runOp stepTpSend (n + 63) ((s.setLock .seq).goto (.tx p .send)) :=
        runOp_go _ _ _ _ _ hs (by simp only [stepTpSend, hu, acquireThen, hl, if_true])
    _ = runOp stepTpSend (n + 62) (w.goto (.tx p .capOut)) :=
        runOp_go _ _ _ _ _ hop0 (by simp only [stepTpSend, seqTx, seqTxWith, txStep, hw])
    _ = runOp stepTpSend (n + 61) ((capPush .outgoing p (canWritten (w.goto (.tx p .capOut)))).goto (.release .unit)) :=
        runOp_go _ _ _ _ _ hop1 rfl
    _ = runOp stepTpSend (n + 60) (releaseTo ((capPush .outgoing p (canWritten (w.goto (.tx p .capOut)))).goto
          (.release .unit)) (.finish .unit)) := runOp_go _ _ _ _ _ hop2 rfl
    _ = runOp stepTpSend (n + 59) (tpSendRest p (w.goto (.tx p .capOut))) :=
        runOp_go _ _ _ _ { code := opcode .tpSend, pos := .finish .unit } (by rw [releaseTo_op, hop2]; rfl) rfl
    _ = .next (tpSendRest p (w.goto (.tx p .capOut))) := runOp_idle _ _ _ rfl

/-- What the end of TP_SEND leaves of the state `v` in which its send is over but for TX_WRITTEN on CAN. -/
theorem tpSendRest_holds (p : List Byte) (v : State) :
    ∃ t live, t = tpSendRest p v ∧ live = pushed v.regs.capCfg v.clock.now .outgoing p v.cap.live
      ∧ t.status = v.status.ended ∧ t.op = none ∧ t.lock = .free ∧ t.regs = v.regs ∧ SameOwn v t ∧ t.ram = v.ram
      ∧ t.outs = { (canWritten v).outs with capCount := countOf v live } ∧ t.cap = { v.cap with live := live }
      ∧ t.clock = v.clock ∧ t.ka = v.ka ∧ t.env = v.env ∧ t.port = v.port := by
  refine ⟨_, _, rfl, rfl, ?_⟩
  unfold tpSendRest
  rw [capPush_pushed]
  rcases canWritten_eq v with h | ⟨_, h⟩ <;> rw [h]
  · exact ⟨rfl, rfl, rfl, rfl, ⟨rfl, rfl, rfl, rfl⟩, rfl, rfl, rfl, rfl, rfl, rfl, rfl⟩
  · exact ⟨rfl, rfl, rfl, rfl, ⟨rfl, rfl, rfl, rfl⟩, rfl, rfl, rfl, rfl, rfl, rfl, rfl⟩

theorem sendUnit_pdu {s : State} (hup : s.status.portOpen = true) (hp : s.regs.ctrl.proto ≠ .ccpCan)
    (h1 : 1 ≤ s.regs.txLen.toNat) (h2 : s.regs.txLen.toNat ≤ 255) :
    sendUnit s = .ok (s.memRead txBuf s.regs.txLen.toNat) := by
  have ht : txPdu s = .ok (s.memRead txBuf s.regs.txLen.toNat) := if_neg (by omega)
  unfold sendUnit
  rw [hup]
  cases hpr : s.regs.ctrl.proto with
  | kwpKline => exact ht
  | kwpCan => exact ht
  | ccpCan => exact absurd hpr hp

theorem sendUnit_frame {s : State} (hup : s.status.portOpen = true) (hp : s.regs.ctrl.proto = .ccpCan)
    (hm : s.outs.frmLen = 8) : sendUnit s = .ok (s.memRead frmBuf 8) := by
  unfold sendUnit
  rw [hup, hp]
  simp [ccpFrame, hm]

/-- What the K-Line send leaves when PortWrite is answered `n`: the frame in FRMBUF, FRMLEN and TX_WRITTEN. -/
def klineSent (f : List Byte) (n : Int) (ws : List Int) (s : State) : State :=
  (putFrame f ((logCall .seq (.write f) s).setEnv { s.env with writeAns := ws })).setTxWritten n

theorem sendStep_kline {s : State} (p : List Byte) {n : Int} {ws : List Int} (hp : s.regs.ctrl.proto = .kwpKline)
    (ha : s.env.writeAns = n :: ws) :
    sendStep .seq true p s = .go .capOut (klineSent (klEncode s.regs.klTxHdr p) n ws s) := by
  simp only [sendStep, hp, portWrite, ha]
  rfl

/-- The K-Line send writes FRMBUF, FRMLEN, TX_WRITTEN, the environment's answers and the log. -/
theorem klineSent_fields (f : List Byte) (n : Int) (ws : List Int) (s : State) :
    (klineSent f n ws s).status = s.status ∧ (klineSent f n ws s).op = s.op ∧ (klineSent f n ws s).regs = s.regs
      ∧ SameOwn s (klineSent f n ws s)
      ∧ (klineSent f n ws s).outs =
          { s.outs with frmLen := BitVec.ofNat 10 f.length, txWritten := BitVec.ofInt 16 n }
      ∧ (klineSent f n ws s).cap = s.cap ∧ (klineSent f n ws s).clock = s.clock ∧ (klineSent f n ws s).ka = s.ka
      ∧ (klineSent f n ws s).env = { s.env with writeAns := ws }
      ∧ (klineSent f n ws s).port = { s.port with log := madeCalls s.clock.now [.write f] s.port.log } := by
  obtain ⟨m, hm, _⟩ := putFrame_eq f ((logCall .seq (.write f) s).setEnv { s.env with writeAns := ws })
  unfold klineSent
  rw [hm]
  exact ⟨rfl, rfl, rfl, ⟨rfl, rfl, rfl, rfl⟩, rfl, rfl, rfl, rfl, rfl, rfl⟩

theorem klineSent_memRead (f : List Byte) (n : Int) (ws : List Int) (s : State) (hf : f.length ≤ 512) :
    (klineSent f n ws s).memRead frmBuf f.length = f := by
  have hpeek : ∀ b, (klineSent f n ws s).peek b =
    (putFrame f ((logCall .seq (.write f) s).setEnv { s.env with writeAns := ws })).peek b := fun _ => rfl
  rw [State.memRead_congr _ _ _ _ fun i _ => hpeek (frmBuf + i)]
  exact putFrame_memRead f _ hf

theorem klineSent_peek (f : List Byte) (n : Int) (ws : List Int) (s : State) (b : Nat)
    (hb : b < frmBuf ∨ frmBuf + f.length ≤ b) : (klineSent f n ws s).peek b = s.peek b :=
  putFrame_peek f _ b hb

/-- TP_SEND over the K-Line (R220, R222). -/
theorem exec_tpSend_kline {s : State} (hs : Started .tpSend s) (hup : s.status.portOpen = true) (hl : s.lock = .free)
    (hp : s.regs.ctrl.proto = .kwpKline) (h1 : 1 ≤ s.regs.txLen.toNat) (h2 : s.regs.txLen.toNat ≤ 255)
    {n : Int} {ws : List Int} (hans : s.env.writeAns = n :: ws) :
    ∃ p f live t, p = s.memRead 0x000 s.regs.txLen.toNat ∧ f = klEncode s.regs.klTxHdr p
      ∧ live = pushed s.regs.capCfg s.clock.now .outgoing p s.cap.live ∧ exec .tpSend s = .next t
      ∧ EndsAs s.status.ended s t ∧ HoldsAt t 0x200 f ∧ SameOutside s t 0x200 f.length
      ∧ t.outs = { s.outs with
          frmLen := BitVec.ofNat 10 f.length, txWritten := BitVec.ofInt 16 n, capCount := countOf s live }
      ∧ t.cap = { s.cap with live := live } ∧ t.clock = s.clock ∧ t.ka = s.ka
      ∧ t.env = { s.env with writeAns := ws }
      ∧ t.port = { s.port with log := madeCalls s.clock.now [.write f] s.port.log } := by
  obtain ⟨p, hpdef⟩ : ∃ p, p = s.memRead txBuf s.regs.txLen.toNat := ⟨_, rfl⟩
  obtain ⟨s0, hs0⟩ : ∃ s0, s0 = (s.setLock .seq).goto (.tx p .send) := ⟨_, rfl⟩
  obtain ⟨f, hf⟩ : ∃ f, f = klEncode s0.regs.klTxHdr p := ⟨_, rfl⟩
  obtain ⟨w, hwdef⟩ : ∃ w, w = klineSent f n ws s0 := ⟨_, rfl⟩
  have hlen : f.length ≤ 260 := by rw [hf]; exact klEncode_length _ _ (by rw [hpdef, State.memRead_length]; exact h2)
  have hunit : sendUnit s = .ok p := by rw [hpdef]; exact sendUnit_pdu hup (by rw [hp]; decide) h1 h2
  have hsend : sendStep .seq true p s0 = .go .capOut w := by
    rw [hwdef, hf]
    exact sendStep_kline p (by rw [hs0]; exact hp) (by rw [hs0]; exact hans)
  obtain ⟨b1, b2, b3, b4, b5, b6, b7, b8, b9, b10⟩ := klineSent_fields f n ws s0
  rw [← hwdef] at b1 b2 b3 b4 b5 b6 b7 b8 b9 b10
  obtain ⟨t, live, ht, hlive, a1, a2, a3, a4, a5, a9, a10, a11, a12, a13, a14, a15⟩ :=
    tpSendRest_holds p (w.goto (.tx p .capOut))
  have hexec := exec_tpSend hs hunit hl (hs0 ▸ hsend) (by rw [b2, hs0])
  have hnocan : (w.goto (.tx p .capOut)).regs.ctrl.proto ≠ .ccpCan := by
    rw [State.goto_regs, b3, hs0, State.goto_regs, State.setLock_regs, hp]
    decide
  have peek : ∀ b, t.peek b = w.peek b := peek_congr a9 a5.epoch
  have peek0 : ∀ b, s0.peek b = s.peek b := by rw [hs0]; exact fun b => rfl
  rw [canWritten_other hnocan] at a10
  simp only [countOf, State.goto_regs, State.goto_cap, State.goto_clock, State.goto_status, State.goto_outs,
    State.goto_ka, State.goto_env, State.goto_port, b1, b3, b5, b6, b7, b8, b9, b10] at a1 a4 hlive a10 a11 a12 a13 a14 a15
  have own0 : SameOwn s s0 := by rw [hs0]; exact ⟨rfl, rfl, rfl, rfl⟩
  have own : SameOwn s t := own0.trans (b4.trans a5)
  rw [← ht] at hexec
  have hmem : HoldsAt t 0x200 f := by
    rw [HoldsAt, State.memRead_congr t w _ _ fun i _ => peek _, hwdef]
    exact klineSent_memRead f n ws s0 (by omega)
  have hout : SameOutside s t 0x200 f.length := fun b hb => by
    rw [peek b, hwdef, klineSent_peek f n ws s0 b hb, peek0 b]
  subst hs0
  exact ⟨p, f, live, t, hpdef, hf, hlive, hexec, ⟨a1, a2, a3.trans hl.symm, a4, own⟩, hmem, hout, a10, a11, a12, a13, a14,
    a15⟩

/-- TP_SEND over a send primitive that returns at once and writes no buffer: ISO-TP or a CAN frame (R222). -/
theorem exec_tpSend_can {s : State} {p : List Byte} {c : PortCall} (hs : Started .tpSend s) (hu : sendUnit s = .ok p)
    (hl : s.lock = .free)
    (hw : sendStep .seq true p ((s.setLock .seq).goto (.tx p .send)) =
      .go .capOut (logCall .seq c ((s.setLock .seq).goto (.tx p .send)))) :
    ∃ live t, live = pushed s.regs.capCfg s.clock.now .outgoing p s.cap.live ∧ exec .tpSend s = .next t
      ∧ EndsAs s.status.ended s t ∧ SameRam s t ∧ t.outs = { (canWritten s).outs with capCount := countOf s live }
      ∧ t.cap = { s.cap with live := live } ∧ t.clock = s.clock ∧ t.ka = s.ka ∧ t.env = s.env
      ∧ t.port = { s.port with log := madeCalls s.clock.now [c] s.port.log } := by
  obtain ⟨t, live, ht, hlive, a1, a2, a3, a4, a5, a9, a10, a11, a12, a13, a14, a15⟩ :=
    tpSendRest_holds p ((logCall .seq c ((s.setLock .seq).goto (.tx p .send))).goto (.tx p .capOut))
  have hexec := exec_tpSend hs hu hl hw rfl
  rw [← ht] at hexec
  have hout : (canWritten ((logCall .seq c ((s.setLock .seq).goto (.tx p .send))).goto (.tx p .capOut))).outs
      = (canWritten s).outs := by
    cases hp : s.regs.ctrl.proto <;> simp [canWritten, hp]
  rw [hout] at a10
  exact ⟨live, t, hlive, hexec, ⟨a1, a2, a3.trans hl.symm, a4, a5⟩, peek_congr a9 a5.epoch, a10, a11, a12, a13, a14, a15⟩

/-- Settles O48: the chain of TP_SEND under each PROTO. -/
theorem tpSendCompletes : Obligations.TpSendCompletes := by
  intro s hs hup hl
  refine ⟨fun hp h1 h2 n ws hans => exec_tpSend_kline hs hup hl hp h1 h2 hans, fun hp h1 h2 => ?_, fun hp hm => ?_⟩
  · have hu := sendUnit_pdu hup (by rw [hp]; decide) h1 h2
    obtain ⟨live, t, h⟩ := exec_tpSend_can (c := .isoTpSend s.regs.canTxId (s.memRead txBuf s.regs.txLen.toNat)) hs hu hl
      (by simp [sendStep, hp, isoTpSend])
    rw [canWritten_other (by rw [hp]; decide)] at h
    exact ⟨_, live, t, rfl, h⟩
  · have hu := sendUnit_frame hup hp hm
    obtain ⟨live, t, h⟩ := exec_tpSend_can (c := .canWrite s.regs.canTxId (s.memRead frmBuf 8)) hs hu hl
      (by simp [sendStep, hp, canWrite])
    rw [canWritten_can hp] at h
    exact ⟨_, live, t, rfl, h⟩

end Sys2Proof.Machine
end

