-- ==== Sys2Proof/Proofs/ExecRuns.lean ====
section
/-! Whole runs of KWP_EXEC over ISO-TP (spec/44_kwp_engine.md R242, R243, R250): what stands while replies come in, the loop
over the pending ones, and the two ends. -/

namespace Sys2Proof.Machine

/-! ### Counted steps -/

/-- From `s` the sequencer is at `t` after `k` atomic steps, whatever is left of the bound. -/
def StepsTo (f : Pos → State → Micro) (k : Nat) (s t : State) : Prop := ∀ n, runOp f (n + k) s = runOp f n t

theorem StepsTo.refl (f : Pos → State → Micro) (s : State) : StepsTo f 0 s s := fun _ => rfl

theorem StepsTo.head {f : Pos → State → Micro} {k : Nat} {s u t : State} {o : Op} (ho : s.op = some o)
    (hf : f o.pos s = .go u) (h : StepsTo f k u t) : StepsTo f (k + 1) s t := fun n =>
  (runOp_go f (n + k) s u o ho hf).trans (h n)

theorem StepsTo.trans {f : Pos → State → Micro} {j k : Nat} {s u t : State} (h : StepsTo f j s u)
    (h' : StepsTo f k u t) : StepsTo f (k + j) s t := fun n => by
  rw [← Nat.add_assoc, h, h']

/-- An operation that ends within its bound. -/
theorem exec_of_stepsTo {i : Instr} {k : Nat} {s t : State} (h : StepsTo (opStep i) k s t) (ht : t.op = none)
    (hk : k ≤ runBudget s) : exec i s = .next t := by
  rw [exec_eq, ← Nat.sub_add_cancel hk, h, runOp_idle _ _ _ ht]

/-! ### Captures of several units -/

theorem pushedAll_snoc (cfg : Word) (now : Time) (us : List (Dir × List Byte)) (u : Dir × List Byte)
    (live : List Record) :
    pushedAll cfg now (us ++ [u]) live = pushed cfg now u.1 u.2 (pushedAll cfg now us live) := by
  induction us generalizing live with
  | nil => rfl
  | cons v us ih => exact ih _

/-- CAP_COUNT after one capture and after the next one (R218). -/
theorem countOf_next {s w : State} {live : List Record} (hr : w.regs = s.regs) (hc : w.outs.capCount = countOf s live)
    (live' : List Record) : countOf w live' = countOf s live' := by
  unfold countOf at *
  rw [hr]
  split
  · rw [hc, if_pos ‹_›]
  · rfl

theorem foldl_max_snoc (qs : List (List Byte)) (q : List Byte) :
    ((qs ++ [q]).map List.length).foldl max 0 = max ((qs.map List.length).foldl max 0) q.length := by
  simp

/-! ### The state while replies come in -/

theorem HoldsAt.congr {s t : State} {a : Nat} {bs : List Byte} (h : HoldsAt s a bs) (hr : t.ram = s.ram)
    (he : t.epoch = s.epoch) : HoldsAt t a bs :=
  (memRead_same hr he _ _).trans h

/-- What KWP_EXEC captures of a request and its replies, in order. -/
def exchange (p : List Byte) (qs : List (List Byte)) : List (Dir × List Byte) :=
  (.outgoing, p) :: qs.map fun q => (.incoming, q)

theorem exchange_snoc (p : List Byte) (qs : List (List Byte)) (q : List Byte) :
    exchange p (qs ++ [q]) = exchange p qs ++ [(.incoming, q)] := by
  simp [exchange]

/-- CAP_LIVE once the request `p` and the replies `qs` are captured. -/
def liveAfter (s : State) (p : List Byte) (qs : List (List Byte)) : List Record :=
  pushedAll s.regs.capCfg s.clock.now (exchange p qs) s.cap.live

/-- RXLEN and RESP_STATUS once the replies `qs` were written to RXBUF. -/
def rxLenAfter (s : State) (qs : List (List Byte)) : BitVec 9 :=
  (qs.getLast?.map fun q => BitVec.ofNat 9 q.length).getD s.outs.rxLen

def respAfter (s : State) (qs : List (List Byte)) : BitVec 8 := (qs.getLast?.map fun q => q.headD 0).getD s.outs.respStatus

/-- `w` is `s` with the request `p` of KWP_EXEC sent over ISO-TP, `n` receives made that leave `rest` to come, and the
replies `qs` written to RXBUF. -/
structure Exchanged (s : State) (p : List Byte) (qs : List (List Byte)) (n : Nat) (rest : List RxItem) (w : State) :
    Prop where
  op : ∃ q, w.op = some { code := opcode .kwpExec, pos := q }
  lock : w.lock = .seq
  status : w.status = s.status
  regs : w.regs = s.regs
  own : SameOwn s w
  clock : w.clock = s.clock
  ka : w.ka = s.ka
  cap : w.cap = { s.cap with live := liveAfter s p qs }
  outs : w.outs = { s.outs with
    rxLen := rxLenAfter s qs, respStatus := respAfter s qs, capCount := countOf s (liveAfter s p qs) }
  env : w.env = { s.env with isoIn := rest }
  port : w.port =
    { timeout := s.regs.tRxTimeout, line := s.port.line
      log := madeCalls s.clock.now (syncCalls s ++ [.isoTpSend s.regs.canTxId p] ++ List.replicate n .isoTpRecv)
        s.port.log }
  outside : SameOutside s w 0x100 ((qs.map List.length).foldl max 0)
  holds : ∀ q, qs.getLast? = some q → HoldsAt w 0x100 q

section
variable {s w : State} {p : List Byte} {qs : List (List Byte)} {n : Nat} {x : RxItem} {rest : List RxItem}

theorem Exchanged.goto (h : Exchanged s p qs n rest w) (q : Pos) : Exchanged s p qs n rest (w.goto q) := by
  obtain ⟨q', hop⟩ := h.op
  exact { h with
    op := ⟨q, by rw [State.goto_op, hop]; rfl⟩
    holds := fun u hu => (h.holds u hu).congr rfl rfl }

theorem Exchanged.goto_op (h : Exchanged s p qs n rest w) (q : Pos) :
    (w.goto q).op = some { code := opcode .kwpExec, pos := q } := by
  obtain ⟨q', hop⟩ := h.op
  rw [State.goto_op, hop]
  rfl

/-- The position after `IsoTpRecv` answered `x`. -/
def afterIso : RxItem → TxPos
  | .timeout => .raise (.timeout .isotpRx 0)
  | .data u => .isoGot u

/-- `IsoTpRecv` and the answer it takes. -/
def received (p : List Byte) (w : State) : State :=
  ((logCall .seq .isoTpRecv w).setEnv { w.env with isoIn := w.env.isoIn.tail }).goto
    (.tx p (afterIso (w.env.isoIn.headD .timeout)))

/-- A receive with an answer at hand. -/
theorem recvStep_iso (hp : w.regs.ctrl.proto = .kwpCan) (hx : w.env.isoIn = x :: rest) :
    recvStep .seq w = .go (afterIso (w.env.isoIn.headD .timeout))
      ((logCall .seq .isoTpRecv w).setEnv { w.env with isoIn := w.env.isoIn.tail }) := by
  cases x <;> simp [recvStep, hp, isoTpRecv, hx, afterIso]

theorem Exchanged.receive (h : Exchanged s p qs n (x :: rest) w) : Exchanged s p qs (n + 1) rest (received p w) := by
  have hcalls : madeCalls s.clock.now (syncCalls s ++ [.isoTpSend s.regs.canTxId p] ++ List.replicate (n + 1) .isoTpRecv)
      s.port.log = { agent := .seq, time := w.clock.now, call := .isoTpRecv } :: w.port.log := by
    rw [List.replicate_succ', ← List.append_assoc, madeCalls_snoc, h.port, h.clock]
  have hlog : Exchanged s p qs (n + 1) rest
      ((logCall .seq .isoTpRecv w).setEnv { w.env with isoIn := w.env.isoIn.tail }) := by
    refine { h with env := ?_, port := ?_, holds := fun u hu => (h.holds u hu).congr rfl rfl }
    · show { w.env with isoIn := w.env.isoIn.tail } = _
      rw [h.env]
      rfl
    · rw [hcalls]
      simp only [State.setEnv_port, logCall, State.setPort_port, h.port]
  exact hlog.goto _

/-- CapPush of the reply `q`, and `q` in RXBUF (R243). -/
def answered (p q : List Byte) (w : State) : State := putPdu q ((capPush .incoming q w).goto (.got p q))

theorem Exchanged.answer {q : List Byte} (h : Exchanged s p qs n rest w) (hq : q.length ≤ 255) :
    Exchanged s p (qs ++ [q]) n rest (answered p q w) := by
  have hlive : pushed w.regs.capCfg w.clock.now .incoming q w.cap.live = liveAfter s p (qs ++ [q]) := by
    rw [liveAfter, exchange_snoc, pushedAll_snoc, h.regs, h.clock, h.cap]
    rfl
  have hcount : countOf w (liveAfter s p (qs ++ [q])) = countOf s (liveAfter s p (qs ++ [q])) :=
    countOf_next h.regs (by rw [h.outs]) _
  have hpush := capPush_pushed .incoming q w
  rw [hlive, hcount] at hpush
  obtain ⟨pos, hop⟩ := h.op
  obtain ⟨m, hm, _⟩ := putPdu_eq q ((capPush .incoming q w).goto (.got p q))
  have hpeek : SameOutside s (answered p q w) 0x100 (((qs ++ [q]).map List.length).foldl max 0) := fun b hb => by
    rw [foldl_max_snoc] at hb
    rw [answered, putPdu_peek q _ b (by simp only [rxBuf]; omega), hpush]
    exact h.outside b (by omega)
  have hmem : HoldsAt (answered p q w) 0x100 q := putPdu_memRead q _ (by omega)
  have hrx : rxLenAfter s (qs ++ [q]) = BitVec.ofNat 9 q.length := by simp [rxLenAfter]
  have hresp : respAfter s (qs ++ [q]) = q.headD 0 := by simp [respAfter]
  rw [answered] at hpeek hmem ⊢
  refine ⟨⟨.got p q, ?_⟩, ?_, ?_, ?_, ?_, ?_, ?_, ?_, ?_, ?_, ?_, hpeek, fun u hu => ?_⟩
  case refine_12 =>
    obtain rfl : q = u := by simpa using hu
    exact hmem
  all_goals rw [hm, hpush]
  · show Option.map _ w.op = _
    rw [hop]
    rfl
  · exact h.lock
  · exact h.status
  · exact h.regs
  · exact h.own
  · exact h.clock
  · exact h.ka
  · simp only [State.setOuts_cap, State.setRam_cap, State.goto_cap, State.setCap_cap, h.cap]
  · rw [hrx, hresp]
    simp only [State.setOuts_outs, State.goto_outs, h.outs]
  · exact h.env
  · exact h.port

end

/-! ### The loop over the pending replies -/

section
variable {s w : State} {p : List Byte} {qs : List (List Byte)} {n : Nat} {x : RxItem} {rest : List RxItem}

/-- The reply `q` has come in: two steps take it to the classification. -/
theorem stepKwpExec_isoGot {q : List Byte} (h1 : 1 ≤ q.length) (h2 : q.length ≤ 255) :
    stepKwpExec (.tx p (.isoGot q)) w = .go ((capPush .incoming q w).goto (.got p q)) := by
  have : ¬(q.length = 0 ∨ q.length > 255) := by omega
  simp only [stepKwpExec, seqTx, seqTxWith, txStep, this, if_false]

/-- A pending reply is read past with no new request (R242). -/
theorem stepKwpExec_pending {q : List Byte} (hc : kwpClassify (p.headD 0) q = .pending)
    (hp : (putPdu q w).regs.ctrl.proto = .kwpCan) (hx : (putPdu q w).env.isoIn = x :: rest) :
    stepKwpExec (.got p q) w = .go (received p (putPdu q w)) := by
  simp only [stepKwpExec, hc, seqTx, seqTxWith, txStep, recvStep_iso hp hx]
  rfl

theorem length_of_pending {sid : Byte} {q : List Byte} (h : kwpClassify sid q = .pending) : 3 ≤ q.length := by
  by_contra hlt
  simp only [kwpClassify, show q.length < 3 by omega, if_true] at h
  split_ifs at h

theorem Exchanged.received_op (h : Exchanged s p qs n (x :: rest) w) :
    (received p w).op = some { code := opcode .kwpExec, pos := .tx p (afterIso x) } := by
  obtain ⟨q, hop⟩ := h.op
  rw [received, State.goto_op, State.setEnv_op, logCall, State.setPort_op, hop, h.env]
  rfl

theorem Exchanged.push_op (h : Exchanged s p qs n rest w) (d : Dir) (u : List Byte) (q : Pos) :
    ((capPush d u w).goto q).op = some { code := opcode .kwpExec, pos := q } := by
  obtain ⟨q', hop⟩ := h.op
  rw [State.goto_op, (capPush_frame _ _ _).op, hop]
  rfl

/-- A reply of 1 to 255 bytes that has come in is captured, and then classified. -/
theorem Exchanged.reply_stepsTo {u : List Byte} (h : Exchanged s p qs n (.data u :: rest) w) (h1 : 1 ≤ u.length)
    (h2 : u.length ≤ 255) {k : Nat} {v t : State}
    (hv : stepKwpExec (.got p u) ((capPush .incoming u (received p w)).goto (.got p u)) = .go v)
    (ht : StepsTo stepKwpExec k v t) : StepsTo stepKwpExec (k + 2) (received p w) t :=
  .head h.received_op (stepKwpExec_isoGot h1 h2) (.head (h.receive.push_op _ _ _) hv ht)

/-- One pending reply: two steps, and the next receive. -/
theorem Exchanged.pending_stepsTo {q : List Byte} (h : Exchanged s p qs n (.data q :: rest) w) (hne : rest ≠ [])
    (hp : s.regs.ctrl.proto = .kwpCan) (hq : q.length ≤ 255) (hc : kwpClassify (p.headD 0) q = .pending) :
    StepsTo stepKwpExec 2 (received p w) (received p (answered p q (received p w))) := by
  have ha := h.receive.answer hq
  obtain ⟨y, r, rfl⟩ := List.exists_cons_of_ne_nil hne
  have h3 := length_of_pending hc
  exact h.reply_stepsTo (by omega) hq (stepKwpExec_pending (x := y) (rest := r) hc (ha.regs ▸ hp) (by
    rw [← answered, ha.env])) (.refl _ _)

/-- The loop over the pending replies (R242), before an answer `x`. -/
theorem pendings_stepsTo (hp : s.regs.ctrl.proto = .kwpCan) (pend : List (List Byte)) :
    ∀ (qs : List (List Byte)) (n : Nat) (w : State), Exchanged s p qs n (pend.map .data ++ x :: rest) w →
      (∀ q ∈ pend, q.length ≤ 255 ∧ kwpClassify (p.headD 0) q = .pending) →
      ∃ w', Exchanged s p (qs ++ pend) (n + pend.length) (x :: rest) w'
        ∧ StepsTo stepKwpExec (2 * pend.length) (received p w) (received p w') := by
  induction pend with
  | nil => exact fun qs n w h _ => ⟨w, by simpa using h, .refl _ _⟩
  | cons q pend ih =>
    intro qs n w h hall
    obtain ⟨hq, hc⟩ := hall q (by simp)
    have hstep := h.pending_stepsTo (by simp) hp hq hc
    obtain ⟨w', hw', hrun⟩ := ih _ _ _ (h.receive.answer hq) fun u hu => hall u (by simp [hu])
    refine ⟨w', ?_, hstep.trans hrun⟩
    rw [List.append_assoc, Nat.add_assoc, Nat.add_comm 1] at hw'
    exact hw'

/-! ### The request -/

/-- PORT_TO, LINE and the log once the request is sent (R217, R222). -/
def portSent (s : State) (p : List Byte) : Port :=
  { timeout := s.regs.tRxTimeout, line := s.port.line
    log := madeCalls s.clock.now (syncCalls s ++ [.isoTpSend s.regs.canTxId p]) s.port.log }

/-- The request is sent and not yet captured. -/
def requested (s : State) (p : List Byte) : State :=
  ((s.setLock .seq).setPort (portSent s p)).setOp (some { code := opcode .kwpExec, pos := .tx p .capOut })

theorem requested_exchanged (hp : s.regs.ctrl.proto = .kwpCan) :
    Exchanged s p [] 0 s.env.isoIn ((capPush .outgoing p (canWritten (requested s p))).goto (.tx p .recv)) := by
  rw [canWritten_other (s := requested s p) (by rw [show (requested s p).regs = s.regs from rfl, hp]; decide),
    capPush_pushed]
  refine ⟨⟨_, rfl⟩, rfl, rfl, rfl, ⟨rfl, rfl, rfl, rfl⟩, rfl, rfl, rfl, rfl, rfl, ?_, fun b _ => rfl, nofun⟩
  rw [List.replicate_zero, List.append_nil]
  rfl

/-- The send with PORT_TO in step: it stands where TP_SEND's and KWP_EXEC's request does. -/
theorem stepKwpExec_send (hp : w.regs.ctrl.proto = .kwpCan) {q : TxPos}
    (hq : q = .send ∨ q = .syncSend ∧ w.port.timeout = w.regs.tRxTimeout) :
    stepKwpExec (.tx p q) w = .go ((isoTpSend .seq p w).goto (.tx p .capOut)) := by
  rcases hq with rfl | ⟨rfl, ht⟩
  · simp only [stepKwpExec, seqTx, seqTxWith, txStep, sendStep, hp]
  · simp only [stepKwpExec, seqTx, seqTxWith, txStep, syncStep, ht, ne_eq, not_true, if_false, sendStep, hp]

/-- SyncTimeout's own step (R217). -/
theorem stepKwpExec_sync (ht : w.port.timeout ≠ w.regs.tRxTimeout) :
    stepKwpExec (.tx p .syncSend) w = .go ((portSetTimeout .seq w.regs.tRxTimeout w).goto (.tx p .send)) := by
  simp only [stepKwpExec, seqTx, seqTxWith, txStep, syncStep, ht, ne_eq, not_false_eq_true, if_true]

/-- The lock is taken and the transaction begins. -/
def begunTx (s : State) (p : List Byte) : State :=
  (s.setLock .seq).setOp (some { code := opcode .kwpExec, pos := .tx p .syncSend })

theorem goto_begunTx (hs : Started .kwpExec s) : (s.setLock .seq).goto (.tx p .syncSend) = begunTx s p := by
  rw [State.goto, State.setLock_op, hs]
  rfl

theorem portSent_synced (ht : s.port.timeout = s.regs.tRxTimeout) :
    (isoTpSend .seq p (begunTx s p)).port = portSent s p := by
  rw [portSent, syncCalls, if_pos ht, ← ht]
  rfl

theorem portSent_sync (ht : s.port.timeout ≠ s.regs.tRxTimeout) :
    (isoTpSend .seq p ((portSetTimeout .seq s.regs.tRxTimeout (begunTx s p)).goto (.tx p .send))).port =
      portSent s p := by
  rw [portSent, syncCalls, if_neg ht]
  rfl

/-- The request goes out in one step, or in two with SyncTimeout. -/
theorem send_stepsTo (hp : s.regs.ctrl.proto = .kwpCan) :
    ∃ k ≤ 2, StepsTo stepKwpExec k (begunTx s p) (requested s p) := by
  by_cases ht : s.port.timeout = s.regs.tRxTimeout
  · have hsend := stepKwpExec_send (p := p) (w := begunTx s p) hp (.inr ⟨rfl, ht⟩)
    have hreq : (isoTpSend .seq p (begunTx s p)).goto (.tx p .capOut) = requested s p := by
      rw [requested, ← portSent_synced ht]
      rfl
    rw [hreq] at hsend
    exact ⟨1, by omega, .head rfl hsend (.refl _ _)⟩
  · have hsync := stepKwpExec_sync (p := p) (w := begunTx s p) ht
    have hsend := stepKwpExec_send (p := p) (q := .send)
      (w := (portSetTimeout .seq s.regs.tRxTimeout (begunTx s p)).goto (.tx p .send)) hp (.inl rfl)
    have hreq : (isoTpSend .seq p ((portSetTimeout .seq s.regs.tRxTimeout (begunTx s p)).goto (.tx p .send))).goto
        (.tx p .capOut) = requested s p := by
      rw [requested, ← portSent_sync ht]
      rfl
    rw [hreq] at hsend
    exact ⟨2, le_rfl, .head rfl hsync (.head rfl hsend (.refl _ _))⟩

/-- From the start of KWP_EXEC, past its checks, to the first receive. -/
theorem start_stepsTo (hs : Started .kwpExec s) (hr : s.status.engReady = true) (hp : s.regs.ctrl.proto = .kwpCan)
    (hl : s.lock = .free) (h1 : 1 ≤ s.regs.txLen.toNat) (h2 : s.regs.txLen.toNat ≤ 255)
    (hpdef : p = s.memRead txBuf s.regs.txLen.toNat) (hx : s.env.isoIn = x :: rest) :
    ∃ k w, k ≤ 5 ∧ Exchanged s p [] 0 s.env.isoIn w ∧ StepsTo stepKwpExec k s (received p w) := by
  have htx : txPdu s = .ok p := by rw [hpdef]; exact if_neg (by omega)
  have hstart : stepKwpExec .start s = .go (begunTx s p) := by
    simp [stepKwpExec, hp, hr, htx, acquireThen, hl, goto_begunTx hs]
  obtain ⟨w, hwdef⟩ : ∃ w, w = (capPush .outgoing p (canWritten (requested s p))).goto (.tx p .recv) := ⟨_, rfl⟩
  have hw : Exchanged s p [] 0 s.env.isoIn w := hwdef ▸ requested_exchanged hp
  have hpush : stepKwpExec (.tx p .capOut) (requested s p) = .go w := by rw [hwdef]; rfl
  have hop : w.op = some { code := opcode .kwpExec, pos := .tx p .recv } := by
    rw [hwdef, State.goto_op, (capPush_frame _ _ _).op, (canWritten_frame _).op]
    rfl
  have hrecv : stepKwpExec (.tx p .recv) w = .go (received p w) := by
    simp only [stepKwpExec, seqTx, seqTxWith, txStep,
      recvStep_iso (w := w) (x := x) (rest := rest) (by rw [hw.regs, hp]) (by rw [hw.env, hx])]
    rfl
  obtain ⟨k, hk, hsend⟩ := send_stepsTo (p := p) hp
  have hlast : StepsTo stepKwpExec 2 (requested s p) (received p w) := .head rfl hpush (.head hop hrecv (.refl _ _))
  exact ⟨2 + k + 1, w, by omega, hw, .head hs hstart (hsend.trans hlast)⟩

/-- The request sent and the pending replies read past, all counted. -/
theorem exchange_stepsTo (pend : List (List Byte)) (hs : Started .kwpExec s) (hr : s.status.engReady = true)
    (hp : s.regs.ctrl.proto = .kwpCan) (hl : s.lock = .free) (h1 : 1 ≤ s.regs.txLen.toNat)
    (h2 : s.regs.txLen.toNat ≤ 255) (hpdef : p = s.memRead txBuf s.regs.txLen.toNat)
    (hall : ∀ q ∈ pend, q.length ≤ 255 ∧ kwpClassify (p.headD 0) q = .pending)
    (hx : s.env.isoIn = pend.map .data ++ x :: rest) :
    ∃ k w, k + 3 ≤ runBudget s ∧ Exchanged s p pend pend.length (x :: rest) w
      ∧ StepsTo stepKwpExec k s (received p w) := by
  obtain ⟨y, r, hyr⟩ := List.exists_cons_of_ne_nil (l := pend.map RxItem.data ++ x :: rest) (by simp)
  obtain ⟨k, w, hk, hw, hrun⟩ := start_stepsTo hs hr hp hl h1 h2 hpdef (hx.trans hyr)
  obtain ⟨w', hw', hloop⟩ := pendings_stepsTo hp pend [] 0 w (hx ▸ hw) hall
  refine ⟨2 * pend.length + k, w', ?_, by simpa using hw', hrun.trans hloop⟩
  have : s.env.isoIn.length = pend.length + (rest.length + 1) := by rw [hx]; simp
  simp only [runBudget, Env.pending, this]
  omega

end

/-! ### The two ends -/

/-- `t` is `z` with the operation over, the lock given back and buffers, captures, answers and port left as they were. -/
structure Concluded (z t : State) : Prop where
  op : t.op = none
  lock : t.lock = .free
  regs : t.regs = z.regs
  own : SameOwn z t
  ka : t.ka = z.ka
  ram : t.ram = z.ram
  cap : t.cap = z.cap
  env : t.env = z.env
  port : t.port = z.port

theorem concluded_positive (z : State) : Concluded z (endOp (releaseTo z.touch (.finish .unit))) :=
  ⟨rfl, rfl, rfl, ⟨rfl, rfl, rfl, rfl⟩, rfl, rfl, rfl, rfl, rfl⟩

theorem concluded_raiseError (e : Err) {z : State} (h : z.lock = .seq) : Concluded z (raiseError e z) :=
  ⟨rfl, by rw [raiseError_lock, if_pos h], rfl, ⟨rfl, rfl, rfl, rfl⟩, rfl, rfl, rfl, rfl, rfl⟩

theorem Concluded.peek {z t : State} (h : Concluded z t) (b : Nat) : t.peek b = z.peek b :=
  peek_congr h.ram h.own.epoch b

theorem Concluded.holdsAt {z t : State} (h : Concluded z t) {a : Nat} {bs : List Byte} (hz : HoldsAt z a bs) :
    HoldsAt t a bs :=
  hz.congr h.ram h.own.epoch

section
variable {s w : State} {p : List Byte} {qs : List (List Byte)} {n : Nat} {rest : List RxItem}

/-- A reply that is not pending ends the transaction: three steps for a positive one, two for an error (R241, R250). -/
theorem Exchanged.terminal_stepsTo {u : List Byte} (h : Exchanged s p qs n (.data u :: rest) w) (h1 : 1 ≤ u.length)
    (h2 : u.length ≤ 255) :
    (kwpClassify (p.headD 0) u = .positive → StepsTo stepKwpExec 3 (received p w)
        (endOp (releaseTo (answered p u (received p w)).touch (.finish .unit))))
      ∧ ∀ e, kwpClassify (p.headD 0) u = .error e →
        StepsTo stepKwpExec 2 (received p w) (raiseError e (answered p u (received p w))) := by
  constructor
  · intro hc
    have hgot : stepKwpExec (.got p u) ((capPush .incoming u (received p w)).goto (.got p u)) =
        .go (releaseTo (answered p u (received p w)).touch (.finish .unit)) := by
      simp only [stepKwpExec, hc]
      rfl
    obtain ⟨q, hop⟩ := (h.receive.answer h2).op
    have hend : (releaseTo (answered p u (received p w)).touch (.finish .unit)).op =
        some { code := opcode .kwpExec, pos := .finish .unit } := by
      rw [releaseTo_op, State.touch_op, hop]
      rfl
    exact h.reply_stepsTo h1 h2 hgot (.head hend rfl (.refl _ _))
  · intro e hc
    have hgot : stepKwpExec (.got p u) ((capPush .incoming u (received p w)).goto (.got p u)) =
        .go (raiseError e (answered p u (received p w))) := by
      simp only [stepKwpExec, hc]
      rfl
    exact h.reply_stepsTo h1 h2 hgot (.refl _ _)

/-- A receive that fails is reported by the next step (R314). -/
theorem Exchanged.fails_stepsTo {x : RxItem} {e : Err} (h : Exchanged s p qs n (x :: rest) w)
    (he : x = .timeout ∧ e = .timeout .isotpRx 0
      ∨ ∃ u, x = .data u ∧ (u.length = 0 ∨ 255 < u.length) ∧ e = .violation .badFormat 0) :
    StepsTo stepKwpExec 1 (received p w) (raiseError e (received p w)) := by
  refine .head h.received_op ?_ (.refl _ _)
  rcases he with ⟨rfl, rfl⟩ | ⟨u, rfl, hu, rfl⟩
  · rfl
  · simp only [afterIso, stepKwpExec, seqTx, seqTxWith, txStep, gt_iff_lt, hu, if_true]

end

theorem memRead_headD (s : State) (a n : Nat) (h : 1 ≤ n) : (s.memRead a n).headD 0 = s.peek a := by
  cases n with
  | zero => omega
  | succ n => rfl

section
variable {s : State} {p : List Byte} {pend : List (List Byte)} {rest : List RxItem}

/-- A whole run over pending replies and a terminal one `u` (R250): `z` has `u` in RXBUF, and the verdict picks the end. -/
theorem exec_kwpExec_terminal (hs : Started .kwpExec s) (hr : s.status.engReady = true)
    (hp : s.regs.ctrl.proto = .kwpCan) (hl : s.lock = .free) (h1 : 1 ≤ s.regs.txLen.toNat)
    (h2 : s.regs.txLen.toNat ≤ 255) (hpdef : p = s.memRead txBuf s.regs.txLen.toNat)
    (hall : ∀ q ∈ pend, q.length ≤ 255 ∧ kwpClassify (p.headD 0) q = .pending) {u : List Byte} (hu1 : 1 ≤ u.length)
    (hu2 : u.length ≤ 255) (hu : kwpClassify (p.headD 0) u ≠ .pending)
    (hx : s.env.isoIn = pend.map .data ++ .data u :: rest) :
    ∃ z t, Exchanged s p (pend ++ [u]) (pend.length + 1) rest z ∧ Concluded z t ∧ exec .kwpExec s = .next t
      ∧ (kwpClassify (p.headD 0) u = .positive → t = endOp (releaseTo z.touch (.finish .unit)))
      ∧ ∀ e, kwpClassify (p.headD 0) u = .error e → t = raiseError e z := by
  obtain ⟨k, w, hk, hw, hrun⟩ := exchange_stepsTo pend hs hr hp hl h1 h2 hpdef hall hx
  have hz := hw.receive.answer hu2
  obtain ⟨hpos, herr⟩ := hw.terminal_stepsTo hu1 hu2
  cases hv : kwpClassify (p.headD 0) u with
  | positive =>
    exact ⟨_, _, hz, concluded_positive _, exec_of_stepsTo (hrun.trans (hpos hv)) rfl (by omega), fun _ => rfl, nofun⟩
  | pending => exact absurd hv hu
  | error e =>
    refine ⟨_, _, hz, concluded_raiseError e hz.lock, exec_of_stepsTo (hrun.trans (herr e hv)) rfl (by omega), nofun, ?_⟩
    rintro _ ⟨⟩
    rfl

/-- A whole run over pending replies and a receive that fails (R314). -/
theorem exec_kwpExec_fails (hs : Started .kwpExec s) (hr : s.status.engReady = true)
    (hp : s.regs.ctrl.proto = .kwpCan) (hl : s.lock = .free) (h1 : 1 ≤ s.regs.txLen.toNat)
    (h2 : s.regs.txLen.toNat ≤ 255) (hpdef : p = s.memRead txBuf s.regs.txLen.toNat)
    (hall : ∀ q ∈ pend, q.length ≤ 255 ∧ kwpClassify (p.headD 0) q = .pending) {x : RxItem} {e : Err}
    (he : x = .timeout ∧ e = .timeout .isotpRx 0
      ∨ ∃ u, x = .data u ∧ (u.length = 0 ∨ 255 < u.length) ∧ e = .violation .badFormat 0)
    (hx : s.env.isoIn = pend.map .data ++ x :: rest) :
    ∃ z, Exchanged s p pend (pend.length + 1) rest z ∧ exec .kwpExec s = .next (raiseError e z) := by
  obtain ⟨k, w, hk, hw, hrun⟩ := exchange_stepsTo pend hs hr hp hl h1 h2 hpdef hall hx
  exact ⟨_, hw.receive, exec_of_stepsTo (hrun.trans (hw.fails_stepsTo he)) rfl (by omega)⟩

end

/-- Settles O55: the request, the loop over the pending replies, and the end the next answer brings. -/
theorem kwpExecIso : Obligations.KwpExecIso := by
  intro s pend rest hs hr hp hl h1 h2 hpend
  obtain ⟨p, hpdef⟩ : ∃ p, p = s.memRead txBuf s.regs.txLen.toNat := ⟨_, rfl⟩
  have hsid : p.headD 0 = s.peek 0x000 := hpdef ▸ memRead_headD s txBuf _ h1
  rw [← hsid] at hpend ⊢
  constructor
  · intro u hu1 hu2 hu hx
    obtain ⟨z, t, hz, hc, hexec, hgood, hbad⟩ :=
      exec_kwpExec_terminal hs hr hp hl h1 h2 hpdef hpend hu1 hu2 hu hx
    have hlive : liveAfter s p (pend ++ [u]) = pushedAll s.regs.capCfg s.clock.now
        ((.outgoing, p) :: (pend.map fun q => (.incoming, q)) ++ [(.incoming, u)]) s.cap.live := by
      rw [liveAfter, exchange_snoc]
      rfl
    have houts := hz.outs
    rw [show rxLenAfter s (pend ++ [u]) = BitVec.ofNat 9 u.length by simp [rxLenAfter],
      show respAfter s (pend ++ [u]) = u.headD 0 by simp [respAfter]] at houts
    refine ⟨p, liveAfter s p (pend ++ [u]), _, t, hpdef, hlive, hexec, hc.op, hc.lock, hc.regs.trans hz.regs,
      hz.own.trans hc.own, hc.ka.trans hz.ka, rfl, hc.holdsAt (hz.holds u (by simp)),
      fun b hb => (hc.peek b).trans (hz.outside b hb), hc.cap.trans hz.cap, hc.env.trans hz.env, hc.port.trans hz.port,
      fun hv => ?_, fun e hv => ?_⟩
    · rw [hgood hv]
      refine ⟨?_, ?_, houts⟩
      · rw [endOp_status, releaseTo_status, State.touch_status, hz.status]
        rfl
      · rw [endOp_clock, releaseTo_clock, State.touch_clock, hz.clock]
    · rw [hbad e hv]
      refine ⟨?_, hz.clock, ?_⟩
      · rw [raiseError_status, hz.status]
        rfl
      · rw [raiseError_outs, houts]
  · intro x e hx he
    obtain ⟨z, hz, hexec⟩ := exec_kwpExec_fails hs hr hp hl h1 h2 hpdef hpend he hx
    have hc := concluded_raiseError e hz.lock
    refine ⟨p, liveAfter s p pend, _, _, hpdef, rfl, hexec,
      ⟨?_, hc.op, hc.lock.trans hl.symm, hc.regs.trans hz.regs, hz.own.trans hc.own⟩, hz.clock, hz.ka, rfl,
      fun b hb => (hc.peek b).trans (hz.outside b hb), fun q hq => hc.holdsAt (hz.holds q hq), ?_, hz.cap, hz.env,
      hz.port⟩
    · rw [raiseError_status, hz.status]
      rfl
    · rw [raiseError_outs, hz.outs, rxLenAfter, respAfter]
      cases pend.getLast? <;> rfl

end Sys2Proof.Machine
end

