-- ==== Sys2Proof/Proofs/RunStops.lean ====
section
/-! A run of an operation as events of the interleaving, and where it stops (spec/20_memory.md R90, R93;
spec/44_kwp_engine.md R264, R265; log 1, 28): every atomic step uses up some of the effort that is left, and a run is given
more steps than the effort it starts with. -/

namespace Sys2Proof.Machine

/-! ### A run is a sequence of atomic events -/

theorem runEvents_snoc {es : List Event} {e : Event} {s t u : State} (h : runEvents es s = .next t)
    (he : eventStep e t = .next u) : runEvents (es ++ [e]) s = .next u := by
  induction es generalizing s with
  | nil =>
    cases h
    simp only [List.nil_append, runEvents, he]
  | cons e' es ih =>
    simp only [List.cons_append, runEvents] at h ⊢
    cases hs : eventStep e' s with
    | next v => rw [hs] at h; exact ih h
    | fault r => rw [hs] at h; cases h
    | refused r => rw [hs] at h; cases h

theorem eventStep_atom {i : Instr} {s t : State} {o : Op} (ho : s.op = some o) (hi : decodeCode o.code = .ok i)
    (h : opStep i o.pos s = .go t) : eventStep .atom s = .next t := by
  simp only [eventStep, seqAtom, ho, hi, h]

theorem eventStep_task {s t : State} (h : kaStep s = some t) : eventStep .task s = .next t := by
  simp only [eventStep, taskTurn, h, Option.getD_some]

/-- From `s` the atomic events of the two agents lead to `t`. -/
def AtomsLead (s t : State) : Prop :=
  ∃ es : List Event, (∀ e ∈ es, e = .atom ∨ e = .task) ∧ runEvents es s = .next t

theorem AtomsLead.refl (s : State) : AtomsLead s s := ⟨[], nofun, rfl⟩

theorem AtomsLead.snoc {s t u : State} {e : Event} (h : AtomsLead s t) (he : e = .atom ∨ e = .task)
    (hu : eventStep e t = .next u) : AtomsLead s u := by
  obtain ⟨es, hes, hrun⟩ := h
  refine ⟨es ++ [e], fun x hx => ?_, runEvents_snoc hrun hu⟩
  rcases List.mem_append.mp hx with hx | hx
  · exact hes x hx
  · rw [List.mem_singleton.mp hx]
    exact he

/-- Settles O21: each turn of the run is one event, and OP goes on naming the same operation. -/
theorem runIsAtomic : Obligations.RunIsAtomic := by
  intro i o s t ho hi h
  rw [exec_eq] at h
  refine (runOp_keeps (opStep i) (fun u => AtomsLead s u ∧ Runs i u) ?_ ?_ _ s t ⟨.refl s, .of_op ho hi⟩ h).1
  · rintro u v o' ⟨hlead, hr⟩ ho' hv
    exact ⟨hlead.snoc (.inl rfl) (eventStep_atom ho' (hr o' ho') hv), (opStep_cases hv).runs hr⟩
  · rintro u v ⟨hlead, hr⟩ hv
    exact ⟨hlead.snoc (.inr rfl) (eventStep_task hv), hr.congr (kaStep_cases hv).frame.op⟩

/-! ### The environment's answers a step takes -/

/-- A read of `n ≥ 1` bytes that does not wait takes something off the line. -/
theorem lineTake_shortens {n : Nat} {line rest : List LineItem} (hn : 1 ≤ n)
    (h : lineTake n line = .timeout rest ∨ ∃ bs, lineTake n line = .bytes bs rest) : rest.length < line.length := by
  rcases h with h | ⟨bs, h⟩
  · induction n generalizing line with
    | zero => omega
    | succ n ih =>
      cases line with
      | nil => cases h
      | cons x line =>
        cases x with
        | gap => cases h; exact Nat.lt_succ_self _
        | byte b =>
          simp only [lineTake] at h
          split at h
          · cases h
          · rename_i r hr
            cases h
            cases n with
            | zero => cases hr
            | succ n => exact (ih (by omega) hr).trans (Nat.lt_succ_self _)
          · cases h
  · obtain ⟨hl, rfl⟩ := lineTake_bytes n line rest bs h
    simp only [List.length_append, List.length_map]
    omega

theorem portRead_pending {a : Agent} {n : Nat} {s t : State} (hn : 1 ≤ n) (h : (portRead a n s).state? = some t) :
    t.env.pending < s.env.pending := by
  unfold portRead at h
  split at h
  · cases h
  · rename_i rest hl
    cases h
    have := lineTake_shortens hn (.inl hl)
    simp only [State.setEnv_env, Env.pending]
    omega
  · rename_i bs rest hl
    cases h
    have := lineTake_shortens hn (.inr ⟨bs, hl⟩)
    simp only [State.setEnv_env, Env.pending]
    omega

theorem canRead_pending {a : Agent} {s t : State} (h : (canRead a s).state? = some t) :
    t.env.pending < s.env.pending := by
  unfold canRead at h
  split at h <;> rename_i hc <;> cases h <;> simp only [State.setEnv_env, Env.pending, hc, List.length_cons] <;> omega

theorem isoTpRecv_pending {a : Agent} {s t : State} (h : (isoTpRecv a s).state? = some t) :
    t.env.pending < s.env.pending := by
  unfold isoTpRecv at h
  split at h <;> rename_i hc <;> cases h <;> simp only [State.setEnv_env, Env.pending, hc, List.length_cons] <;> omega

theorem recvStep_pending {a : Agent} {s u : State} {q : TxPos} (h : recvStep a s = .go q u) :
    u.env.pending < s.env.pending := by
  unfold recvStep at h
  split at h
  · split at h
    · cases h
    · rename_i v hr
      cases h
      exact portRead_pending le_rfl (by rw [hr]; rfl)
    · rename_i bs v hr
      have huv : u = v := by
        simp only at h
        split at h <;> cases h <;> rfl
      exact huv ▸ portRead_pending le_rfl (by rw [hr]; rfl)
  · split at h <;> rename_i hr <;> cases h <;> exact isoTpRecv_pending (by rw [hr]; rfl)
  · split at h <;> rename_i hr <;> cases h <;> exact canRead_pending (by rw [hr]; rfl)

theorem klReadStep_pending {a : Agent} {n : Nat} {s u : State} {next : List Byte → TxPos} {q : TxPos} (hn : 1 ≤ n)
    (h : klReadStep a n s next = .go q u) : u.env.pending < s.env.pending := by
  unfold klReadStep at h
  split at h <;> rename_i hr <;> cases h <;> exact portRead_pending hn (by rw [hr]; rfl)

theorem putFrame_env (f : List Byte) (s : State) : (putFrame f s).env = s.env := by
  obtain ⟨m, hm, _⟩ := putFrame_eq f s
  rw [hm]
  rfl

theorem putPdu_env (u : List Byte) (s : State) : (putPdu u s).env = s.env := by
  obtain ⟨m, hm, _⟩ := putPdu_eq u s
  rw [hm]
  rfl

theorem capPush_env (d : Dir) (bs : List Byte) (s : State) : (capPush d bs s).env = s.env := by
  rw [capPush_pushed]
  rfl

theorem canWritten_env (s : State) : (canWritten s).env = s.env := by
  rcases canWritten_eq s with h | ⟨_, h⟩ <;> rw [h]
  rfl

theorem countSent_env (i : Instr) (s : State) : (countSent i s).env = s.env := by
  unfold countSent
  split <;> rfl

theorem fiStore_env (k : Nat) (last : Option Byte) (s : State) : (fiStore k last s).env = s.env := by
  obtain ⟨m, hm⟩ := fiStore_eq k last s
  rw [hm]
  rfl

theorem portWrite_pending {a : Agent} {f : List Byte} {s t : State} {n : Int} (h : portWrite a f s = some (n, t)) :
    t.env.pending = s.env.pending := by
  unfold portWrite at h
  split at h <;> cases h
  rfl

/-- No send primitive takes an answer of the reads. -/
theorem sendStep_pending {a : Agent} {wr : Bool} {req : List Byte} {s u : State} {q : TxPos}
    (h : sendStep a wr req s = .go q u) : u.env.pending = s.env.pending := by
  unfold sendStep at h
  split at h
  · simp only at h
    split at h
    · cases h
    · rename_i n v hw
      cases h
      rw [← portWrite_pending hw]
      cases wr
      · rfl
      · simp only [if_true, State.setTxWritten_env, putFrame_env]
  · cases h; rfl
  · cases h; rfl

/-! ### The effort that is left

Every position has a rank, so that a step that takes no answer of the environment goes down in rank, and one that takes an
answer goes up by one rank at most. The bound of a run counts each answer twice. -/

/-- The rank of a position of the transport: a receive may come round again, but for an answer it takes (R144, R242). -/
def TxPos.rank : TxPos → Nat
  | .syncSend => 7
  | .send => 6
  | .capOut => 5
  | .recv => 3
  | _ => 4

theorem TxPos.le_rank (q : TxPos) : 3 ≤ q.rank := by cases q <;> simp [TxPos.rank]

theorem TxPos.rank_le (q : TxPos) : q.rank ≤ 7 := by cases q <;> simp [TxPos.rank]

theorem TxPos.rank_le_of_recv {q : TxPos} (h : q.sends = false) : q.rank ≤ 4 := by
  cases q <;> simp_all [TxPos.rank, TxPos.sends]

/-- A step inside the receive takes an answer, but for SyncTimeout's own (R217, R223). -/
theorem txStep_takes {a : Agent} {wr : Bool} {req : List Byte} {q q' : TxPos} {s u : State}
    (h : txStep a wr req q s = .go q' u) (hq : q.sends = false) (hz : q.sized = true) :
    u.env.pending < s.env.pending ∨ q = .syncRecv ∧ q' = .recv ∧ u.env = s.env := by
  cases q with
  | syncRecv =>
    rcases syncStep_cases h with ⟨_, h⟩ | ⟨_, h⟩
    · cases h; exact .inr ⟨rfl, rfl, rfl⟩
    · exact .inl (recvStep_pending h.symm)
  | recv => exact .inl (recvStep_pending h)
  | klId c => exact .inl (klReadStep_pending (by omega) h)
  | klLen c i0 i1 => exact .inl (klReadStep_pending le_rfl h)
  | klBody head n =>
    simp only [TxPos.sized, pduLenOk, Bool.and_eq_true, decide_eq_true_eq] at hz
    obtain ⟨_, hn, _⟩ := hz
    exact .inl (klReadStep_pending hn h)
  | klSum head pdu => exact .inl (klReadStep_pending le_rfl h)
  | klJudge head pdu cs =>
    simp only [txStep] at h
    split at h
    · exact .inl (recvStep_pending h)
    · cases h
    · cases h
  | isoGot pdu =>
    simp only [txStep] at h
    split at h <;> cases h
  | canGot frame =>
    simp only [txStep] at h
    split at h <;> cases h
  | _ => cases hq <;> cases h

/-- A step of the send goes down in rank and takes no answer of the reads (R217, R222). -/
theorem txStep_send_rank {a : Agent} {wr : Bool} {req : List Byte} {q q' : TxPos} {s u : State}
    (h : txStep a wr req q s = .go q' u) (hq : q.sends = true) : q'.rank < q.rank ∧ u.env.pending = s.env.pending := by
  have sent : sendStep a wr req s = .go q' u → q' = .capOut ∧ u.env.pending = s.env.pending := fun h => by
    refine ⟨?_, sendStep_pending h⟩
    rcases sendStep_cases a wr req s with hs | ⟨v, hs⟩ <;> rw [hs] at h <;> cases h
    rfl
  cases q with
  | syncSend =>
    rcases syncStep_cases h with ⟨_, h⟩ | ⟨_, h⟩
    · cases h; exact ⟨by decide, rfl⟩
    · obtain ⟨rfl, hp⟩ := sent h.symm
      exact ⟨by decide, hp⟩
  | send =>
    obtain ⟨rfl, hp⟩ := sent h
    exact ⟨by decide, hp⟩
  | capOut => cases h
  | _ => cases hq

/-- One step of the transport, for either agent. -/
theorem txStep_spends {a : Agent} {wr : Bool} {req : List Byte} {q q' : TxPos} {s u : State}
    (h : txStep a wr req q s = .go q' u) (hz : q.sized = true) :
    2 * u.env.pending + q'.rank < 2 * s.env.pending + q.rank := by
  cases hq : q.sends with
  | true =>
    obtain ⟨hr, hp⟩ := txStep_send_rank h hq
    omega
  | false =>
    have hq' := TxPos.rank_le_of_recv ((txStep_go h).sends.trans hq)
    have hle := q.le_rank
    rcases txStep_takes h hq hz with hp | ⟨rfl, rfl, he⟩
    · omega
    · rw [he]
      simp [TxPos.rank]

theorem txStep_sent_env {a : Agent} {wr : Bool} {req : List Byte} {q : TxPos} {s u : State}
    (h : txStep a wr req q s = .sent u) : u.env = s.env := by
  cases txStep_sent h
  cases h
  rw [capPush_env]
  cases wr
  · rfl
  · exact canWritten_env s

/-- A unit comes out of the receive in a step that takes no answer. -/
theorem txStep_got_rank {a : Agent} {wr : Bool} {req x : List Byte} {q : TxPos} {s u : State}
    (h : txStep a wr req q s = .got x u) : q.rank = 4 ∧ u.env = s.env := by
  have recv : recvStep a s ≠ .got x u := fun h => by
    rcases recvStep_cases a s with hw | ⟨_, _, hw, _⟩ <;> rw [hw] at h <;> cases h
  have read : ∀ n next, klReadStep a n s next ≠ .got x u := fun n next h => by
    rcases klReadStep_cases a n s next with hw | ⟨_, hw⟩ | ⟨_, _, _, hw⟩ <;> rw [hw] at h <;> cases h
  cases q with
  | syncRecv =>
    rcases syncStep_cases h with ⟨_, h⟩ | ⟨_, h⟩
    · cases h
    · exact (recv h.symm).elim
  | recv => exact (recv h).elim
  | klId c => exact (read _ _ h).elim
  | klLen c i0 i1 => exact (read _ _ h).elim
  | klBody head n => exact (read _ _ h).elim
  | klSum head pdu => exact (read _ _ h).elim
  | klJudge head pdu cs =>
    simp only [txStep] at h
    split at h
    · exact (recv h).elim
    · cases h
    · cases h
      rw [capPush_env]
      cases wr
      · exact ⟨rfl, rfl⟩
      · exact ⟨rfl, putFrame_env _ _⟩
  | isoGot pdu =>
    simp only [txStep] at h
    split at h <;> cases h
    exact ⟨rfl, capPush_env _ _ _⟩
  | canGot frame =>
    simp only [txStep] at h
    split at h <;> cases h
    rw [capPush_env]
    cases wr
    · exact ⟨rfl, rfl⟩
    · exact ⟨rfl, putFrame_env _ _⟩
  | raise e => cases h
  | _ => exact absurd (txStep_got h).1 (by decide)

/-- The native strategy comes before the alternate one (R200). -/
def Strategy.rank : Strategy → Nat
  | .native => 7
  | .alternate => 0

/-- The rank of a position of FastInit: a hold and a read may come round again, but for an answer each (R191, R196). -/
def FiPos.rank : FiPos → Nat
  | .setTimeout => 20
  | .low st => st.rank + 12
  | .holdLow st _ => st.rank + 11
  | .high st _ => st.rank + 10
  | .holdHigh st _ => st.rank + 9
  | .release _ => 8
  | .send st _ => st.rank + 7
  | .read st _ _ => st.rank + 6
  | .close _ _ _ => 5

theorem FiPos.le_rank (q : FiPos) : 5 ≤ q.rank := by
  cases q <;> simp only [FiPos.rank] <;> omega

theorem fiWindowEnd_rank (st : Strategy) (k : Nat) (last : Option Byte) :
    (fiWindowEnd st k last).rank < st.rank + 6 := by
  rcases fiWindowEnd_cases st k last with ⟨r, _, _, h⟩ | ⟨_, rfl, h⟩ | ⟨_, rfl, h⟩ <;> rw [h]
  · simp only [FiPos.rank]
    omega
  · decide
  · decide

theorem fiWindow_rank (st : Strategy) (k : Nat) (last : Option Byte) (s : State) :
    (fiWindow st k last s).rank ≤ st.rank + 6 := by
  rcases fiWindow_cases st k last s with ⟨_, h⟩ | ⟨_, h⟩ <;> rw [h]
  · exact le_rfl
  · exact (fiWindowEnd_rank st k last).le

theorem moveClock_env (s : State) (limit : Nat) (t : Time) : (s.moveClock limit t).env = s.env := by
  obtain ⟨c, hc, _⟩ := moveClock_eq s limit t
  rw [hc]
  rfl

/-- A hold window is left without an answer, or takes one clock reading (R191). -/
theorem holdStep_takes {n : Nat} {self after q : FiPos} {s u : State} (h : holdStep n self after s = .go q u) :
    q = after ∧ u.env = s.env ∨ (q = self ∨ q = after) ∧ u.env.pending < s.env.pending := by
  unfold holdStep at h
  split at h
  · cases h; exact .inl ⟨rfl, rfl⟩
  · split at h
    · cases h
    · rename_i c rest hc
      cases h
      refine .inr ⟨?_, ?_⟩
      · split
        · exact .inr rfl
        · exact .inl rfl
      · simp only [moveClock_env, State.setEnv_env, Env.pending, hc, List.length_cons]
        omega

theorem holdStep_spends {n : Nat} {self after q : FiPos} {s u : State} (h : holdStep n self after s = .go q u)
    (hr : after.rank < self.rank) : 2 * u.env.pending + q.rank < 2 * s.env.pending + self.rank := by
  rcases holdStep_takes h with ⟨rfl, he⟩ | ⟨rfl | rfl, he⟩
  · rw [he]; omega
  · omega
  · omega

/-- One step of FastInit that does not end it. -/
theorem fiStep_spends {f : List Byte} {q q' : FiPos} {s u : State} (h : fiStep f q s = .go q' u) :
    2 * u.env.pending + q'.rank < 2 * s.env.pending + q.rank := by
  cases q with
  | setTimeout => cases h; simp [FiPos.rank, Strategy.rank]
  | low st => cases h; cases st <;> simp [FiPos.rank]
  | holdLow st t => exact holdStep_spends h (by simp [FiPos.rank])
  | high st t => cases h; cases st <;> simp [FiPos.rank]
  | holdHigh st t => exact holdStep_spends h (by cases st <;> simp [FiPos.rank, Strategy.rank])
  | release t => cases h; simp [FiPos.rank, Strategy.rank]
  | send st t =>
    simp only [fiStep] at h
    split at h
    · cases h
    · rename_i n v hw
      cases h
      have hr := fiWindow_rank st 0 none v
      rw [State.setTxWritten_env, portWrite_pending hw, FiPos.rank]
      omega
  | read st k last =>
    simp only [fiStep] at h
    split at h
    · cases h
    · rename_i v hr
      cases h
      have hp := portRead_pending (t := u) le_rfl (by rw [hr]; rfl)
      have hw := fiWindowEnd_rank st k none
      rw [fiStore_env] at hp
      rw [FiPos.rank]
      omega
    · rename_i bs v hr
      cases h
      have hp := portRead_pending (t := u) le_rfl (by rw [hr]; rfl)
      have hw := fiWindow_rank st (k + 1) (some (bs.headD 0)) u
      rw [fiStore_env] at hp
      rw [FiPos.rank]
      omega
  | close r k last => cases h

/-- FastInit ends at its last position, in a step that takes no answer. -/
theorem fiStep_done_rank {f : List Byte} {q : FiPos} {ok : Bool} {s u : State} (h : fiStep f q s = .done ok u) :
    q.rank = 5 ∧ u.env = s.env := by
  cases q with
  | close r k last => cases h; exact ⟨rfl, fiStore_env k last s⟩
  | holdLow st t =>
    simp only [fiStep, holdStep] at h
    split at h
    · cases h
    · split at h <;> cases h
  | holdHigh st t =>
    simp only [fiStep, holdStep] at h
    split at h
    · cases h
    · split at h <;> cases h
  | send st t =>
    simp only [fiStep] at h
    split at h <;> cases h
  | read st k last =>
    simp only [fiStep] at h
    split at h <;> cases h
  | _ => cases h

/-- The rank of a position of an operation. -/
def Pos.rank : Pos → Nat
  | .start => 25
  | .stopped => 24
  | .opened => 23
  | .filter => 22
  | .body => 21
  | .fi _ p => p.rank
  | .tx _ q => q.rank
  | .got _ _ => 3
  | .release _ => 2
  | .finish _ => 1
  | .raise _ => 1

theorem Pos.rank_tx (req : List Byte) (q : TxPos) : (Pos.tx req q).rank = q.rank := rfl

theorem Pos.rank_pos (p : Pos) : 0 < p.rank := by
  cases p with
  | fi f q => exact Nat.lt_of_lt_of_le (by decide) q.le_rank
  | tx req q => exact Nat.lt_of_lt_of_le (by decide) q.le_rank
  | _ => exact Nat.succ_pos _

/-- The rank of the keep-alive task's phase, while the sequencer waits for the task: it then falls asleep no more. -/
def KaPhase.rank : KaPhase → Nat
  | .off => 0
  | .wait _ => 1
  | .tick .enter => 8
  | .tick (.tx q) => q.rank
  | .tick (.got _) => 3
  | .tick .ended => 2
  | .tick (.leave _) => 2

/-- The effort that is left to an operation in progress. -/
def State.effort (s : State) : Nat :=
  match s.op with
  | none => 0
  | some o => 2 * s.env.pending + o.pos.rank + s.ka.phase.rank

theorem effort_idle {s : State} (h : s.op = none) : s.effort = 0 := by simp only [State.effort, h]

theorem effort_running {s : State} {o : Op} (ho : s.op = some o) :
    s.effort = 2 * s.env.pending + o.pos.rank + s.ka.phase.rank := by simp only [State.effort, ho]

theorem idle_of_effort {s : State} (h : s.effort = 0) : s.op = none := by
  cases ho : s.op with
  | none => rfl
  | some o =>
    have := o.pos.rank_pos
    rw [effort_running ho] at h
    omega

/-- A step that ends the operation. -/
theorem effort_ends {s t : State} {o : Op} (ho : s.op = some o) (ht : t.op = none) : t.effort < s.effort := by
  have := o.pos.rank_pos
  rw [effort_idle ht, effort_running ho]
  omega

/-- A step of the sequencer that goes on at `q`. -/
theorem effort_goto {s u : State} {o : Op} {q : Pos} (ho : s.op = some o) (hop : u.op = s.op)
    (hk : u.ka.phase = s.ka.phase) (h : 2 * u.env.pending + q.rank < 2 * s.env.pending + o.pos.rank) :
    (u.goto q).effort < s.effort := by
  have hg : (u.goto q).op = some { o with pos := q } := by rw [State.goto_op, hop, ho]; rfl
  rw [effort_running hg, effort_running ho, State.goto_env, State.goto_ka, hk]
  exact Nat.add_lt_add_right h _

/-! ### Every step of the sequencer lowers the effort -/

theorem ccpEnd_op (f : List Byte) (s : State) : (ccpEnd f s).op = none := by
  unfold ccpEnd
  simp only
  split <;> rfl

theorem opStep_finish {i : Instr} {r : Ret} {s t : State} (h : opStep i (.finish r) s = .go t) : t.op = none := by
  cases i with
  | kwpInit => cases h; exact (initEnd_status s).1
  | fiSeq =>
    cases r with
    | fastInit ok => cases ok <;> cases h <;> rfl
    | _ => cases h
  | ccpExec =>
    cases r with
    | data f => cases h; exact ccpEnd_op f s
    | _ => cases h
  | _ => cases h <;> rfl

theorem opStep_raise {i : Instr} {e : Err} {s t : State} (h : opStep i (.raise e) s = .go t) : t.op = none := by
  cases i <;> cases h <;> rfl

/-- A step out of the lock that goes on comes from a position of high rank. -/
theorem opStep_rank {i : Instr} {p : Pos} {s t : State} (h : opStep i p s = .go t) (hp : p.locked = false)
    (ht : t.op ≠ none) : 21 ≤ p.rank := by
  cases p with
  | finish r => exact (ht (opStep_finish h)).elim
  | raise e => exact (ht (opStep_raise h)).elim
  | start => decide
  | stopped => decide
  | opened => decide
  | filter => decide
  | body => decide
  | _ => cases hp

/-- The first position of a locked region ranks below every position outside it that leads there. -/
theorem lockedStart_rank {q : Pos} (hq : (∃ f, q = .fi f .setTimeout) ∨ ∃ req x, q = .tx req x) : q.rank < 21 := by
  rcases hq with ⟨f, rfl⟩ | ⟨req, x, rfl⟩
  · exact Nat.lt_succ_self _
  · exact Nat.lt_of_le_of_lt x.rank_le (by decide)

/-- The position the transport starts from ranks no higher than OP's, and its pure work takes no answer. -/
theorem TxFrom.effort {i : Instr} {p : Pos} {s v : State} {wr : Bool} {req : List Byte} {q : TxPos}
    (h : TxFrom i p s wr req q v) : q.rank ≤ p.rank ∧ v.env = s.env := by
  cases h with
  | plain => exact ⟨le_rfl, rfl⟩
  | ccp =>
    refine ⟨le_rfl, ?_⟩
    unfold ccpBuffer
    split
    · exact putFrame_env req s
    · rfl
  | pending _ x => exact ⟨le_rfl, putPdu_env x s⟩

theorem afterSent_rank (req : List Byte) (i : Instr) : (afterSent req i).rank ≤ 4 := by
  cases i <;> simp [afterSent, Pos.rank, TxPos.rank]

theorem afterGot_rank (req x : List Byte) (i : Instr) : (afterGot req x i).rank ≤ 3 := by
  cases i <;> simp [afterGot, Pos.rank]

theorem opStep_effort {i : Instr} {s t : State} {o : Op} (h : opStep i o.pos s = .go t) (ho : s.op = some o)
    (hl : Landing i o.pos s) : t.effort < s.effort := by
  have hm := opStep_cases h
  have hgo : ∀ (u : State) (q : Pos), u.op = s.op → (u.goto q).op ≠ none := fun u q hu => by
    rw [State.goto_op, hu, ho]
    nofun
  generalize hpeq : o.pos = p at h hm hl
  cases hm with
  | refused => exact effort_ends ho rfl
  | ended => exact effort_ends ho rfl
  | ccpFailed => exact effort_ends ho rfl
  | inited => exact effort_ends ho (initEnd_status s).1
  | stopping hi hp => exact effort_goto ho rfl rfl (by rw [hpeq, hp]; simp [Pos.rank])
  | opening ok rest hi =>
    have hp : 23 < p.rank := by
      rcases hi with ⟨_, rfl⟩ | ⟨_, rfl | rfl, _⟩ <;> decide
    have hq : (if ok then Pos.opened else .raise .openingPort).rank ≤ 23 := by cases ok <;> decide
    exact effort_goto ho rfl rfl (by rw [hpeq]; show 2 * s.env.pending + _ < _; omega)
  | installed q hi hp hq =>
    refine effort_goto ho rfl rfl ?_
    rw [hpeq, hp]
    rcases hq with rfl | rfl | rfl <;> simp [Pos.rank]
  | filtered q hi hp hq =>
    refine effort_goto ho rfl rfl ?_
    rw [hpeq, hp]
    rcases hq with rfl | rfl <;> simp [Pos.rank]
  | closed hi hp => exact effort_goto ho rfl rfl (by rw [hpeq]; rcases hp with rfl | rfl <;> simp [unready, Pos.rank])
  | acquired q hp hlock hc hup hk hq =>
    have hr := opStep_rank h hp (hgo _ q rfl)
    have hlt := lockedStart_rank hq
    exact effort_goto ho rfl rfl (by rw [hpeq, State.setLock_env]; omega)
  | released r hp => exact effort_goto (u := s.setLock .free) ho rfl rfl (by rw [hpeq, hp]; simp [Pos.rank])
  | swallowed req q hi hp =>
    have := q.le_rank
    exact effort_goto (u := s.setLock .free) ho rfl rfl (by rw [hpeq, hp]; simp only [Pos.rank, State.setLock_env]; omega)
  | answered req x hi hp =>
    have hw := putPdu_work x s
    refine effort_goto (u := (putPdu x s).touch.setLock .free) ho hw.op (congrArg KeepAlive.phase hw.ka) ?_
    rw [hpeq, hp, State.setLock_env, State.touch_env, putPdu_env]
    simp [Pos.rank]
  | rejected => exact effort_ends ho rfl
  | fi f q q' u hi hp hf =>
    have hw := fiStep_work (t := u) (by rw [hf]; rfl)
    exact effort_goto ho hw.op (congrArg KeepAlive.phase hw.ka) (by rw [hpeq, hp]; exact fiStep_spends hf)
  | fiDone f q ok u q' hp hf hq =>
    have hw := fiStep_work (t := u) (by rw [hf]; rfl)
    obtain ⟨hr, he⟩ := fiStep_done_rank hf
    have hq' : q'.rank ≤ 4 := by rcases hq with ⟨_, rfl⟩ | ⟨_, rfl⟩ <;> simp [Pos.rank, TxPos.rank]
    exact effort_goto ho hw.op (congrArg KeepAlive.phase hw.ka) (by rw [hpeq, hp, he, Pos.rank]; omega)
  | tx wr req q q' v u hv hx =>
    have hw := hv.work.trans (txStep_work (t := u) (by rw [hx]; rfl))
    obtain ⟨hr, he⟩ := hv.effort
    obtain ⟨_, _, hz, _⟩ := hv.lands hl
    have hs := txStep_spends hx hz
    rw [he] at hs
    exact effort_goto ho hw.op (congrArg KeepAlive.phase hw.ka) (by rw [hpeq, Pos.rank_tx]; omega)
  | sent req u hi hp hx =>
    have hw := (txStep_work (t := u) (by rw [hx]; rfl)).trans (countSent_work i u)
    have hr := afterSent_rank req i
    refine effort_goto ho hw.op (congrArg KeepAlive.phase hw.ka) ?_
    rw [hpeq, hp, countSent_env, txStep_sent_env hx, Pos.rank_tx, show TxPos.capOut.rank = 5 from rfl]
    omega
  | got wr req x q v u hi hv hx =>
    have hw := hv.work.trans (txStep_work (t := u) (by rw [hx]; rfl))
    obtain ⟨hr, he⟩ := hv.effort
    obtain ⟨hq, he'⟩ := txStep_got_rank hx
    have hr' := afterGot_rank req x i
    exact effort_goto ho hw.op (congrArg KeepAlive.phase hw.ka) (by rw [hpeq, he', he]; omega)
  | failed => exact effort_ends ho rfl

/-! ### While the sequencer waits for the task -/

/-- The two waits of the sequencer for the task: for the lock, and inside StopKeepAlive (R57, R264). -/
def TaskAwaited (p : Pos) (s : State) : Prop :=
  p.locked = false ∧ s.lock ≠ .free ∨ p = .stopped ∧ s.ka.phase ≠ .off

theorem acquireThen_waits {s : State} {q : Pos} (h : acquireThen s q = .waitTask) : s.lock ≠ .free := by
  unfold acquireThen at h
  split at h
  · cases h
  · assumption

theorem stopThen_waits {s : State} {k : Micro} (h : stopThen s k = .waitTask) : k = .waitTask := by
  unfold stopThen at h
  split at h
  · exact h
  · cases h

theorem stoppedThen_waits {s : State} {k : Micro} (h : stoppedThen s k = .waitTask) :
    s.ka.phase ≠ .off ∨ k = .waitTask := by
  unfold stoppedThen at h
  split at h
  · exact .inr h
  · exact .inl ‹_›

theorem openStep_waits (s : State) : openStep s ≠ .waitTask := by
  unfold openStep
  split <;> nofun

theorem closeBody_waits (s : State) : closeBody s ≠ .waitTask := by
  unfold closeBody
  split <;> nofun

theorem initBody_waits {s : State} (h : initBody s = .waitTask) : s.lock ≠ .free := by
  unfold initBody at h
  split at h
  · exact acquireThen_waits h
  · cases h

theorem initOpen_waits {s : State} (h : initOpen s = .waitTask) : s.lock ≠ .free := by
  unfold initOpen at h
  split at h
  · exact initBody_waits h
  · exact (openStep_waits s h).elim

theorem seqFi_waits (f : List Byte) (q : FiPos) (s : State) (k : Bool → State → State) : seqFi f q s k ≠ .waitTask := by
  unfold seqFi
  split <;> nofun

/-- The transport never waits for the task: the sequencer holds the lock. -/
theorem seqTxWith_waits (wr : Bool) (req : List Byte) (q : TxPos) (s : State) {onSent : State → Micro}
    {onGot : List Byte → State → Micro} {onFail : Err → State → Micro} (h1 : ∀ u, onSent u ≠ .waitTask)
    (h2 : ∀ x u, onGot x u ≠ .waitTask) (h3 : ∀ e u, onFail e u ≠ .waitTask) :
    seqTxWith wr req q s onSent onGot onFail ≠ .waitTask := by
  unfold seqTxWith
  split
  · nofun
  · nofun
  · exact h1 _
  · exact h2 _ _
  · exact h3 _ _

theorem seqTx_waits (req : List Byte) (q : TxPos) (s : State) {onSent : State → Micro}
    {onGot : List Byte → State → Micro} (h1 : ∀ u, onSent u ≠ .waitTask) (h2 : ∀ x u, onGot x u ≠ .waitTask) :
    seqTx req q s onSent onGot ≠ .waitTask :=
  seqTxWith_waits true req q s h1 h2 fun _ _ h => by cases h

theorem stepOpen_waits (p : Pos) (s : State) : stepOpen p s ≠ .waitTask := fun h => by
  cases p with
  | start =>
    simp only [stepOpen] at h
    split at h
    · cases h
    · exact openStep_waits s h
  | _ => cases h

theorem stepKlEnc_waits (p : Pos) (s : State) : stepKlEnc p s ≠ .waitTask := fun h => by
  cases p with
  | start =>
    simp only [stepKlEnc] at h
    split at h <;> cases h
  | _ => cases h

theorem stepKlParse_waits (p : Pos) (s : State) : stepKlParse p s ≠ .waitTask := fun h => by
  cases p with
  | start =>
    simp only [stepKlParse] at h
    split at h
    · cases h
    · split at h <;> cases h
  | _ => cases h

theorem stepCroEnc_waits (p : Pos) (s : State) : stepCroEnc p s ≠ .waitTask := fun h => by
  cases p with
  | start =>
    simp only [stepCroEnc] at h
    split at h <;> cases h
  | _ => cases h

theorem stepDtoDec_waits (p : Pos) (s : State) : stepDtoDec p s ≠ .waitTask := fun h => by
  cases p with
  | start =>
    simp only [stepDtoDec] at h
    split at h
    · cases h
    · split at h <;> cases h
  | _ => cases h

theorem stepClose_waits {p : Pos} {s : State} (h : stepClose p s = .waitTask) : TaskAwaited p s := by
  cases p with
  | start => exact (closeBody_waits s (stopThen_waits h)).elim
  | stopped =>
    rcases stoppedThen_waits h with hk | h
    · exact .inr ⟨rfl, hk⟩
    · exact (closeBody_waits s h).elim
  | _ => cases h

theorem stepFiSeq_waits {p : Pos} {s : State} (h : stepFiSeq p s = .waitTask) : TaskAwaited p s := by
  cases p with
  | start =>
    simp only [stepFiSeq] at h
    split at h
    · cases h
    · split at h
      · cases h
      · split at h
        · cases h
        · exact .inl ⟨rfl, acquireThen_waits h⟩
  | fi f q => exact (seqFi_waits _ _ _ _ h).elim
  | finish r =>
    cases r with
    | fastInit ok => cases ok <;> cases h
    | _ => cases h
  | _ => cases h

theorem stepTpSend_waits {p : Pos} {s : State} (h : stepTpSend p s = .waitTask) : TaskAwaited p s := by
  cases p with
  | start =>
    simp only [stepTpSend] at h
    split at h
    · cases h
    · exact .inl ⟨rfl, acquireThen_waits h⟩
  | tx req q => exact (seqTx_waits _ _ _ (fun _ h => by cases h) (fun _ _ h => by cases h) h).elim
  | _ => cases h

theorem stepTpRecv_waits {p : Pos} {s : State} (h : stepTpRecv p s = .waitTask) : TaskAwaited p s := by
  cases p with
  | start =>
    simp only [stepTpRecv] at h
    split at h
    · cases h
    · exact .inl ⟨rfl, acquireThen_waits h⟩
  | tx req q => exact (seqTx_waits _ _ _ (fun _ h => by cases h) (fun _ _ h => by cases h) h).elim
  | _ => cases h

theorem stepTpSr_waits {p : Pos} {s : State} (h : stepTpSr p s = .waitTask) : TaskAwaited p s := by
  cases p with
  | start =>
    simp only [stepTpSr] at h
    split at h
    · cases h
    · exact .inl ⟨rfl, acquireThen_waits h⟩
  | tx req q => exact (seqTx_waits _ _ _ (fun _ h => by cases h) (fun _ _ h => by cases h) h).elim
  | _ => cases h

theorem stepKwpInit_waits {p : Pos} {s : State} (h : stepKwpInit p s = .waitTask) : TaskAwaited p s := by
  cases p with
  | start =>
    simp only [stepKwpInit] at h
    split at h
    · cases h
    · exact .inl ⟨rfl, initOpen_waits (stopThen_waits h)⟩
  | stopped =>
    rcases stoppedThen_waits h with hk | h
    · exact .inr ⟨rfl, hk⟩
    · exact .inl ⟨rfl, initOpen_waits h⟩
  | body => exact .inl ⟨rfl, initBody_waits h⟩
  | fi f q => exact (seqFi_waits _ _ _ _ h).elim
  | tx req q =>
    exact (seqTxWith_waits _ _ _ _ (fun _ h => by cases h) (fun _ _ h => by cases h) (fun _ _ h => by cases h) h).elim
  | _ => cases h

theorem stepKwpExec_waits {p : Pos} {s : State} (h : stepKwpExec p s = .waitTask) : TaskAwaited p s := by
  cases p with
  | start =>
    simp only [stepKwpExec] at h
    split at h
    · cases h
    · split at h
      · cases h
      · split at h
        · cases h
        · exact .inl ⟨rfl, acquireThen_waits h⟩
  | tx req q => exact (seqTx_waits _ _ _ (fun _ h => by cases h) (fun _ _ h => by cases h) h).elim
  | got req x =>
    simp only [stepKwpExec] at h
    split at h
    · cases h
    · exact (seqTx_waits _ _ _ (fun _ h => by cases h) (fun _ _ h => by cases h) h).elim
    · cases h
  | _ => cases h

theorem stepCcpExec_waits {p : Pos} {s : State} (h : stepCcpExec p s = .waitTask) : TaskAwaited p s := by
  cases p with
  | start =>
    simp only [stepCcpExec] at h
    split at h
    · cases h
    · split at h
      · cases h
      · split at h
        · cases h
        · exact .inl ⟨rfl, acquireThen_waits h⟩
  | tx req q => exact (seqTx_waits _ _ _ (fun _ h => by cases h) (fun _ _ h => by cases h) h).elim
  | finish r => cases r <;> cases h
  | _ => cases h

/-- The sequencer waits for the task for the lock and inside StopKeepAlive only. -/
theorem opStep_waits {i : Instr} {p : Pos} {s : State} (h : opStep i p s = .waitTask) : TaskAwaited p s := by
  cases i with
  | openPort => exact (stepOpen_waits p s h).elim
  | closePort => exact stepClose_waits h
  | capDump => cases p <;> cases h
  | klEnc => exact (stepKlEnc_waits p s h).elim
  | klParse => exact (stepKlParse_waits p s h).elim
  | croEnc => exact (stepCroEnc_waits p s h).elim
  | dtoDec => exact (stepDtoDec_waits p s h).elim
  | fiSeq => exact stepFiSeq_waits h
  | tpSend => exact stepTpSend_waits h
  | tpRecv => exact stepTpRecv_waits h
  | tpSr => exact stepTpSr_waits h
  | kwpInit => exact stepKwpInit_waits h
  | kwpExec => exact stepKwpExec_waits h
  | ccpExec => exact stepCcpExec_waits h

/-- Where the sequencer waits for it, the task holds the lock or is asked to stop. -/
theorem TaskAwaited.pressed {s : State} {o : Op} {i : Instr} (h : TaskAwaited o.pos s) (hs : s.Inv) (ho : s.op = some o)
    (hi : decodeCode o.code = .ok i) : kaInside s = true ∨ s.ka.stopReq = true := by
  have hl := Landing.of_inv hs ho hi
  rcases h with ⟨hp, hfree⟩ | ⟨hp, hk⟩
  · refine .inl (hs.lockKa.mp ?_)
    cases hlock : s.lock with
    | free => exact (hfree hlock).elim
    | seq =>
      rw [hl.lock, hp] at hlock
      cases hlock
    | ka => rfl
  · refine .inr (hl.stopping hp ?_)
    cases hph : s.ka.phase with
    | off => exact (hk hph).elim
    | _ => rfl

/-- Outside its transaction and not asleep the task is in a tick. -/
theorem KaPhase.rank_of_exists {p : KaPhase} (he : p.exists = true) (hw : ∀ d, p ≠ .wait d) : 2 ≤ p.rank := by
  cases p with
  | off => cases he
  | wait d => exact (hw d rfl).elim
  | tick q =>
    cases q with
    | tx x => exact (by decide : 2 ≤ 3).trans x.le_rank
    | _ => simp [KaPhase.rank]

theorem kaInside_rank {s : State} (h : kaInside s = true) : 3 ≤ s.ka.phase.rank := by
  unfold kaInside at h
  split at h
  · rename_i q hq
    rw [hq]
    exact q.le_rank
  · rename_i x hq
    rw [hq]
    exact le_rfl
  · cases h

theorem KaFrom.rank {s : State} {q : TxPos} (h : KaFrom s q) : q.rank = s.ka.phase.rank := by
  rcases h with h | ⟨rfl, x, h, _⟩ <;> rw [h] <;> rfl

/-- A step of the task, once it does not sleep. -/
theorem KaMove.spends {s t : State} (hm : KaMove s t) (hs : s.Inv) (hw : ∀ d, s.ka.phase ≠ .wait d) :
    2 * t.env.pending + t.ka.phase.rank < 2 * s.env.pending + s.ka.phase.rank := by
  cases hm with
  | left c hp =>
    have := KaPhase.rank_of_exists hp hw
    show 2 * s.env.pending + 0 < _
    omega
  | woke d hp => exact (hw d hp).elim
  | acquired hp => simp [hp, KaPhase.rank, TxPos.rank]
  | slept d hp =>
    have := KaPhase.rank_of_exists hp hw
    show 2 * s.env.pending + 1 < _
    omega
  | tx q q' u hf hx =>
    have := txStep_spends hx (hf.sized hs)
    rw [hf.rank] at this
    exact this
  | sent q u hf hx =>
    have hq : s.ka.phase.rank = 5 := by rw [← hf.rank, txStep_sent hx]; rfl
    rw [State.setPhase_env, txStep_sent_env hx, hq]
    show _ + 3 < _
    omega
  | got q x u hf hx =>
    obtain ⟨hq, he⟩ := txStep_got_rank hx
    rw [State.setPhase_env, he, ← hf.rank, hq]
    show _ + 3 < _
    omega
  | failed c hin =>
    have := kaInside_rank hin
    show 2 * s.env.pending + 2 < _
    omega
  | answered x hp =>
    rw [hp]
    show 2 * s.env.pending + 2 < 2 * s.env.pending + 3
    omega

/-- A sleeping task that is asked to stop exits (R260, R264). -/
theorem kaStep_wait_stop {s : State} {d : Nat} (hp : s.ka.phase = .wait d) (hr : s.ka.stopReq = true) :
    kaStep s = some (kaLeave .stopped s) := by
  simp only [kaStep, hp, hr, if_true]

theorem kaStep_effort {i : Instr} {s t : State} {o : Op} (hk : kaStep s = some t) (hs : s.Inv) (ho : s.op = some o)
    (hi : decodeCode o.code = .ok i) (hwait : opStep i o.pos s = .waitTask) : t.effort < s.effort := by
  have hpress := (opStep_waits hwait).pressed hs ho hi
  have hspend : 2 * t.env.pending + t.ka.phase.rank < 2 * s.env.pending + s.ka.phase.rank := by
    by_cases hw : ∃ d, s.ka.phase = .wait d
    · obtain ⟨d, hd⟩ := hw
      have hr := hpress.resolve_left (by simp [kaInside, hd])
      rw [kaStep_wait_stop hd hr] at hk
      cases hk
      rw [hd]
      exact Nat.lt_succ_self _
    · exact (kaStep_cases hk).spends hs (not_exists.mp hw)
  rw [effort_running ho, effort_running ((kaStep_cases hk).frame.op.trans ho)]
  omega

/-! ### Where a run stops -/

/-- A run whose steps lower a measure `m` that the bound exceeds stops at the end of the operation, or where there is no
step. -/
theorem runOp_ends_or_waits (f : Pos → State → Micro) (P : State → Prop) (m : State → Nat)
    (hz : ∀ s, m s = 0 → s.op = none)
    (hf : ∀ s t o, P s → s.op = some o → f o.pos s = .go t → P t ∧ m t < m s)
    (hk : ∀ s t o, P s → s.op = some o → f o.pos s = .waitTask → kaStep s = some t → P t ∧ m t < m s) :
    ∀ n s t, P s → m s ≤ n → runOp f n s = .next t →
      t.op = none ∨ P t ∧ ∃ o, t.op = some o ∧ (f o.pos t = .waitEnv ∨ f o.pos t = .waitTask ∧ kaStep t = none) := by
  intro n
  induction n with
  | zero =>
    intro s t _ hm h
    cases h
    exact .inl (hz s (Nat.le_zero.mp hm))
  | succ n ih =>
    intro s t hs hm h
    cases ho : s.op with
    | none =>
      rw [runOp_idle f _ s ho] at h
      cases h
      exact .inl ho
    | some o =>
      simp only [runOp, ho] at h
      cases hstep : f o.pos s with
      | go u =>
        obtain ⟨hu, hlt⟩ := hf s u o hs ho hstep
        rw [hstep] at h
        exact ih u t hu (by omega) h
      | waitEnv =>
        rw [hstep] at h
        cases h
        exact .inr ⟨hs, o, ho, .inl hstep⟩
      | waitTask =>
        rw [hstep] at h
        cases hka : kaStep s with
        | none =>
          rw [hka] at h
          cases h
          exact .inr ⟨hs, o, ho, .inr ⟨hstep, hka⟩⟩
        | some u =>
          obtain ⟨hu, hlt⟩ := hk s u o hs ho hstep hka
          rw [hka] at h
          exact ih u t hu (by omega) h
      | lost => rw [hstep] at h; cases h

theorem Strategy.rank_le (st : Strategy) : st.rank ≤ 7 := by cases st <;> decide

theorem FiPos.rank_le (q : FiPos) : q.rank ≤ 20 := by
  cases q with
  | setTimeout => exact le_rfl
  | low st => exact (Nat.add_le_add_right st.rank_le 12).trans (by decide)
  | holdLow st t => exact (Nat.add_le_add_right st.rank_le 11).trans (by decide)
  | high st t => exact (Nat.add_le_add_right st.rank_le 10).trans (by decide)
  | holdHigh st t => exact (Nat.add_le_add_right st.rank_le 9).trans (by decide)
  | release t => exact (by decide : 8 ≤ 20)
  | send st t => exact (Nat.add_le_add_right st.rank_le 7).trans (by decide)
  | read st k last => exact (Nat.add_le_add_right st.rank_le 6).trans (by decide)
  | close r k last => exact (by decide : 5 ≤ 20)

theorem Pos.rank_le (p : Pos) : p.rank ≤ 25 := by
  cases p with
  | fi f q => exact q.rank_le.trans (by decide)
  | tx req q => exact q.rank_le.trans (by decide)
  | _ => simp [Pos.rank]

theorem KaPhase.rank_le (p : KaPhase) : p.rank ≤ 8 := by
  cases p with
  | tick q =>
    cases q with
    | tx x => exact x.rank_le.trans (by decide)
    | _ => simp [KaPhase.rank]
  | _ => simp [KaPhase.rank]

theorem effort_le_runBudget (s : State) : s.effort ≤ runBudget s := by
  cases ho : s.op with
  | none => rw [effort_idle ho]; exact Nat.zero_le _
  | some o =>
    have := o.pos.rank_le
    have := s.ka.phase.rank_le
    rw [effort_running ho, runBudget]
    omega

/-- Settles O22: the effort falls with every step of either agent, and the bound of a run is not below it. -/
theorem execEndsOrWaits : Obligations.ExecEndsOrWaits := by
  intro i o s t hs ho hi h
  rw [exec_eq] at h
  have hstop := runOp_ends_or_waits (opStep i) (fun u => u.Inv ∧ Runs i u) State.effort (fun _ => idle_of_effort)
    (fun u v o' hu ho' hv => by
      obtain ⟨hinv, hr⟩ := hu
      have hm := opStep_cases hv
      exact ⟨⟨hm.inv hinv ho' (hr o' ho'), hm.runs hr⟩,
        opStep_effort hv ho' (Landing.of_inv hinv ho' (hr o' ho'))⟩)
    (fun u v o' hu ho' hw hv => by
      obtain ⟨hinv, hr⟩ := hu
      have hm := kaStep_cases hv
      exact ⟨⟨hm.inv hinv, hr.congr hm.frame.op⟩, kaStep_effort hv hinv ho' (hr o' ho') hw⟩)
    _ s t ⟨hs, .of_op ho hi⟩ (effort_le_runBudget s) h
  rcases hstop with hend | ⟨⟨_, hr⟩, o', ho', hw⟩
  · exact .inl hend
  · exact .inr ⟨o', i, ho', hr o' ho', hw⟩

end Sys2Proof.Machine
end

