-- ==== Sys2Proof/Proofs/RecvRuns.lean ====
section
/-! Whole runs of TP_RECV over CAN (spec/43_transport.md R217, R223, R227): the steps to the receive primitive's answer,
and the ends of an accepted unit and of an error. -/

namespace Sys2Proof.Machine

/-! ### The receive primitive and its answer -/

/-- The position after `CanRead` answered `x`. -/
def afterCan : RxItem → TxPos
  | .timeout => .raise (.timeout .canRx 0)
  | .data u => .canGot (u.take 8)

/-- In every state with the registers and answers of `s` the receive performs `c`, leaves `env`, and goes on at `q`. -/
def Hears (s : State) (c : PortCall) (env : Env) (q : TxPos) : Prop :=
  ∀ w : State, w.regs = s.regs → w.env = s.env → recvStep .seq w = .go q ((logCall .seq c w).setEnv env)

section
variable {s : State} {c : PortCall} {env : Env} {q : TxPos} {x : RxItem} {rest : List RxItem} {u : List Byte}

theorem hears_iso (hp : s.regs.ctrl.proto = .kwpCan) (hx : s.env.isoIn = x :: rest) :
    Hears s .isoTpRecv { s.env with isoIn := rest } (afterIso x) := fun w hr he => by
  rw [recvStep_iso (by rw [hr, hp]) (by rw [he, hx]), he, hx]
  rfl

theorem hears_can (hp : s.regs.ctrl.proto = .ccpCan) (hx : s.env.canIn = x :: rest) :
    Hears s .canRead { s.env with canIn := rest } (afterCan x) := fun w hr he => by
  cases x <;> simp only [recvStep, hr, hp, canRead, he, hx, afterCan]

/-- The lock is taken and the receive begins. -/
def begunRecv (s : State) : State :=
  (s.setLock .seq).setOp (some { code := opcode .tpRecv, pos := .tx [] .syncRecv })

/-- PORT_TO, LINE and the log once the receive primitive `c` is performed, after SyncTimeout if that was due (R217). -/
def portHeard (s : State) (c : PortCall) : Port :=
  { timeout := s.regs.tRxTimeout, line := s.port.line
    log := madeCalls s.clock.now (syncCalls s ++ [c]) s.port.log }

/-- The receive primitive has answered. -/
def heard (s : State) (c : PortCall) (env : Env) (q : TxPos) : State :=
  (((s.setLock .seq).setPort (portHeard s c)).setEnv env).setOp (some { code := opcode .tpRecv, pos := .tx [] q })

theorem portHeard_synced (ht : s.port.timeout = s.regs.tRxTimeout) :
    (logCall .seq c (begunRecv s)).port = portHeard s c := by
  rw [portHeard, syncCalls, if_pos ht, ← ht]
  rfl

/-- SyncTimeout's own step is over (R217). -/
def syncedRecv (s : State) : State := (portSetTimeout .seq s.regs.tRxTimeout (begunRecv s)).goto (.tx [] .recv)

theorem portHeard_sync (ht : s.port.timeout ≠ s.regs.tRxTimeout) :
    (logCall .seq c (syncedRecv s)).port = portHeard s c := by
  rw [portHeard, syncCalls, if_neg ht]
  rfl

theorem stepTpRecv_start (hs : Started .tpRecv s) (hup : s.status.portOpen = true) (hl : s.lock = .free) :
    stepTpRecv .start s = .go (begunRecv s) := by
  have hgo : (s.setLock .seq).goto (.tx [] .syncRecv) = begunRecv s := by
    rw [State.goto, State.setLock_op, hs]
    rfl
  simp only [stepTpRecv, hup, Bool.not_true, Bool.false_eq_true, if_false, acquireThen, hl, if_true, hgo]

/-- A transport step that goes on. -/
theorem stepTpRecv_go {w v : State} {q' : TxPos} (h : txStep .seq true [] q w = .go q' v) :
    stepTpRecv (.tx [] q) w = .go (v.goto (.tx [] q')) := by
  simp only [stepTpRecv, seqTx, seqTxWith, h]

/-- From the start of TP_RECV to the answer: the acquire, SyncTimeout where PORT_TO is out of step, the primitive. -/
theorem heard_stepsTo (hs : Started .tpRecv s) (hup : s.status.portOpen = true) (hl : s.lock = .free)
    (h : Hears s c env q) : ∃ k ≤ 3, StepsTo stepTpRecv k s (heard s c env q) := by
  have hstart := stepTpRecv_start hs hup hl
  by_cases ht : s.port.timeout = s.regs.tRxTimeout
  · have hrecv : txStep .seq true [] .syncRecv (begunRecv s) = .go q ((logCall .seq c (begunRecv s)).setEnv env) :=
      (if_neg (not_not.mpr ht)).trans (h _ (by simp [begunRecv]) (by simp [begunRecv]))
    have hend : ((logCall .seq c (begunRecv s)).setEnv env).goto (.tx [] q) = heard s c env q := by
      rw [heard, ← portHeard_synced ht]
      simp only [begunRecv, logCall, State.goto, State.setEnv, State.setPort, State.setOp, State.setLock, Option.map_some]
    exact ⟨2, by omega, .head hs hstart (.head rfl (hend ▸ stepTpRecv_go hrecv) (.refl _ _))⟩
  · have hsync : txStep .seq true [] .syncRecv (begunRecv s) =
        .go .recv (portSetTimeout .seq s.regs.tRxTimeout (begunRecv s)) := if_pos ht
    have hrecv : txStep .seq true [] .recv (syncedRecv s) = .go q ((logCall .seq c (syncedRecv s)).setEnv env) :=
      h _ (by simp [syncedRecv, begunRecv]) (by simp [syncedRecv, begunRecv])
    have hend : ((logCall .seq c (syncedRecv s)).setEnv env).goto (.tx [] q) = heard s c env q := by
      rw [heard, ← portHeard_sync ht]
      simp only [syncedRecv, begunRecv, portSetTimeout, logCall, State.goto, State.setEnv, State.setPort, State.setOp,
        State.setLock, Option.map_some]
    have hop : (syncedRecv s).op = some { code := opcode .tpRecv, pos := .tx [] .recv } := rfl
    exact ⟨3, le_rfl, .head hs hstart (.head rfl (stepTpRecv_go hsync)
      (.head hop (hend ▸ stepTpRecv_go hrecv) (.refl _ _)))⟩

/-! ### The end of an accepted unit -/

/-- The last steps of TP_RECV once the unit `u` is captured: release, outputs, end. -/
def recvRest (u : List Byte) (v : State) : State :=
  endOp (recvOutputs (.data u) (releaseTo (v.goto (.release (.data u))) (.finish (.data u))))

theorem got_stepsTo {v : State} (h : txStep .seq true [] q (heard s c env q) = .got u v) :
    StepsTo stepTpRecv 3 (heard s c env q) (recvRest u v) := by
  have hop : v.op = some { code := opcode .tpRecv, pos := .tx [] q } :=
    (txStep_work (t := v) (by rw [h]; rfl)).op
  have hgot : stepTpRecv (.tx [] q) (heard s c env q) = .go (v.goto (.release (.data u))) := by
    simp only [stepTpRecv, seqTx, seqTxWith, h]
  have hrel : (v.goto (.release (.data u))).op = some { code := opcode .tpRecv, pos := .release (.data u) } := by
    rw [State.goto_op, hop]
    rfl
  have hfin : (releaseTo (v.goto (.release (.data u))) (.finish (.data u))).op =
      some { code := opcode .tpRecv, pos := .finish (.data u) } := by
    rw [releaseTo_op, hrel]
    rfl
  exact .head rfl hgot (.head hrel rfl (.head hfin rfl (.refl _ _)))

/-- A whole run of TP_RECV whose receive is answered by an acceptable unit. -/
theorem exec_tpRecv_got {v : State} (hs : Started .tpRecv s) (hup : s.status.portOpen = true) (hl : s.lock = .free)
    (h : Hears s c env q) (hx : txStep .seq true [] q (heard s c env q) = .got u v) :
    exec .tpRecv s = .next (recvRest u v) := by
  obtain ⟨k, hk, hrun⟩ := heard_stepsTo hs hup hl h
  exact exec_of_stepsTo (hrun.trans (got_stepsTo hx)) rfl (by rw [runBudget]; omega)

/-- `t` is `z` with the operation over in success, the lock given back and everything but buffers, outputs and captures as
it was. -/
structure Closes (z t : State) : Prop where
  status : t.status = z.status.ended
  op : t.op = none
  lock : t.lock = .free
  regs : t.regs = z.regs
  own : SameOwn z t
  clock : t.clock = z.clock
  ka : t.ka = z.ka
  env : t.env = z.env
  port : t.port = z.port

/-- The output writes of TP_RECV change buffer RAM and output registers only (R227). -/
theorem recvOutputs_eq (r : Ret) (s : State) : ∃ m o, recvOutputs r s = (s.setRam m).setOuts o := by
  unfold recvOutputs
  split
  · obtain ⟨m, hm, _⟩ := putPdu_eq _ s
    exact ⟨m, _, hm⟩
  · obtain ⟨m, hm, _⟩ := putPdu_eq _ s
    exact ⟨m, _, hm⟩
  · exact ⟨s.ram, s.outs, rfl⟩

theorem recvOutputs_iso (hp : s.regs.ctrl.proto = .kwpCan) : recvOutputs (.data u) s = putPdu u s := by
  simp only [recvOutputs, hp]

theorem recvOutputs_can (hp : s.regs.ctrl.proto = .ccpCan) : recvOutputs (.data u) s = s := by
  simp only [recvOutputs, hp]

theorem closes_recvRest (u : List Byte) (v : State) : Closes v (recvRest u (capPush .incoming u v)) := by
  obtain ⟨m, o, h⟩ := recvOutputs_eq (.data u)
    (releaseTo ((capPush .incoming u v).goto (.release (.data u))) (.finish (.data u)))
  rw [recvRest, h, capPush_pushed]
  refine ⟨?_, ?_, ?_, ?_, ⟨?_, ?_, ?_, ?_⟩, ?_, ?_, ?_, ?_⟩ <;> simp [Status.ended]

theorem Closes.of_putFrame {z t : State} (h : Closes (putFrame u z) t) : Closes z t := by
  obtain ⟨m, hm, _⟩ := putFrame_eq u z
  rw [hm] at h
  exact ⟨h.status, h.op, h.lock, h.regs, h.own, h.clock, h.ka, h.env, h.port⟩

theorem Closes.of_heard {t : State} (h : Closes (heard s c env q) t) (hl : s.lock = .free) :
    EndsAs s.status.ended s t ∧ t.clock = s.clock ∧ t.ka = s.ka ∧ t.env = env ∧ t.port = portHeard s c :=
  ⟨⟨h.status, h.op, h.lock.trans hl.symm, h.regs, h.own⟩, h.clock, h.ka, h.env, h.port⟩

/-- Over ISO-TP the PDU lands in RXBUF (R227). -/
theorem recvRest_iso {v : State} (hp : v.regs.ctrl.proto = .kwpCan) (hu : u.length ≤ 256) :
    ∃ live, live = pushed v.regs.capCfg v.clock.now .incoming u v.cap.live
      ∧ HoldsAt (recvRest u (capPush .incoming u v)) 0x100 u
      ∧ SameOutside v (recvRest u (capPush .incoming u v)) 0x100 u.length
      ∧ (recvRest u (capPush .incoming u v)).outs = { v.outs with
          rxLen := BitVec.ofNat 9 u.length, respStatus := u.headD 0, capCount := countOf v live }
      ∧ (recvRest u (capPush .incoming u v)).cap = { v.cap with live := live } := by
  obtain ⟨w, hw⟩ : ∃ w, w = releaseTo ((capPush .incoming u v).goto (.release (.data u))) (.finish (.data u)) := ⟨_, rfl⟩
  have hrest : recvRest u (capPush .incoming u v) = endOp (putPdu u w) := by
    rw [recvRest, ← hw, recvOutputs_iso]
    rw [hw, releaseTo_regs, State.goto_regs, (capPush_frame _ _ _).regs, hp]
  rw [hrest]
  have hpeek : ∀ b, w.peek b = v.peek b := by
    rw [hw, capPush_pushed]
    exact fun b => rfl
  refine ⟨_, rfl, HoldsAt.congr (s := putPdu u w) (putPdu_memRead u w hu) rfl rfl,
    fun b hb => (putPdu_peek u w b hb).trans (hpeek b), ?_⟩
  obtain ⟨m, hm, _⟩ := putPdu_eq u w
  rw [hm, hw, capPush_pushed]
  exact ⟨rfl, rfl⟩

/-- Under PROTO 2 TP_RECV writes no output at its end (R227). -/
theorem recvRest_can {v : State} (hp : v.regs.ctrl.proto = .ccpCan) :
    ∃ live, live = pushed v.regs.capCfg v.clock.now .incoming u v.cap.live
      ∧ (∀ b, (recvRest u (capPush .incoming u v)).peek b = v.peek b)
      ∧ (recvRest u (capPush .incoming u v)).outs = { v.outs with capCount := countOf v live }
      ∧ (recvRest u (capPush .incoming u v)).cap = { v.cap with live := live } := by
  refine ⟨_, rfl, ?_⟩
  rw [recvRest, recvOutputs_can, capPush_pushed]
  · exact ⟨fun b => rfl, rfl, rfl⟩
  · rw [releaseTo_regs, State.goto_regs, (capPush_frame _ _ _).regs, hp]

/-- TP_RECV over ISO-TP (R223, R227). -/
theorem exec_tpRecv_iso (hs : Started .tpRecv s) (hup : s.status.portOpen = true) (hl : s.lock = .free)
    (hp : s.regs.ctrl.proto = .kwpCan) (hx : s.env.isoIn = .data u :: rest) (h1 : 1 ≤ u.length) (h2 : u.length ≤ 255) :
    ∃ t live, exec .tpRecv s = .next t ∧ live = pushed s.regs.capCfg s.clock.now .incoming u s.cap.live
      ∧ EndsAs s.status.ended s t ∧ HoldsAt t 0x100 u ∧ SameOutside s t 0x100 u.length
      ∧ t.outs = { s.outs with
          rxLen := BitVec.ofNat 9 u.length, respStatus := u.headD 0, capCount := countOf s live }
      ∧ t.cap = { s.cap with live := live } ∧ t.clock = s.clock ∧ t.ka = s.ka
      ∧ t.env = { s.env with isoIn := rest }
      ∧ t.port =
        { timeout := s.regs.tRxTimeout, line := s.port.line
          log := madeCalls s.clock.now (syncCalls s ++ [.isoTpRecv]) s.port.log } := by
  have hlen : ¬(u.length = 0 ∨ u.length > 255) := by omega
  have hexec := exec_tpRecv_got (u := u) hs hup hl (hears_iso hp hx) (if_neg hlen)
  obtain ⟨hends, hclock, hka, henv, hport⟩ := (closes_recvRest u _).of_heard hl
  obtain ⟨live, hlive, hmem, hout, houts, hcap⟩ := recvRest_iso (u := u)
    (v := heard s .isoTpRecv { s.env with isoIn := rest } (afterIso (.data u))) hp (by omega)
  exact ⟨_, live, hexec, hlive, hends, hmem, hout, houts, hcap, hclock, hka, henv, hport⟩

/-- TP_RECV of a CCP frame: the frame in FRMBUF (R223, R227). -/
theorem exec_tpRecv_can (hs : Started .tpRecv s) (hup : s.status.portOpen = true) (hl : s.lock = .free)
    (hp : s.regs.ctrl.proto = .ccpCan) (hx : s.env.canIn = .data u :: rest) (h8 : u.length = 8) :
    ∃ t live, exec .tpRecv s = .next t ∧ live = pushed s.regs.capCfg s.clock.now .incoming u s.cap.live
      ∧ EndsAs s.status.ended s t ∧ HoldsAt t 0x200 u ∧ SameOutside s t 0x200 8
      ∧ t.outs = { s.outs with frmLen := 8, capCount := countOf s live }
      ∧ t.cap = { s.cap with live := live } ∧ t.clock = s.clock ∧ t.ka = s.ka
      ∧ t.env = { s.env with canIn := rest }
      ∧ t.port =
        { timeout := s.regs.tRxTimeout, line := s.port.line
          log := madeCalls s.clock.now (syncCalls s ++ [.canRead]) s.port.log } := by
  have hhear := hears_can hp hx
  rw [afterCan, List.take_of_length_le h8.le] at hhear
  obtain ⟨z, hz⟩ : ∃ z, z = heard s .canRead { s.env with canIn := rest } (.canGot u) := ⟨_, rfl⟩
  have hexec := exec_tpRecv_got (u := u) (v := capPush .incoming u (putFrame u z)) hs hup hl hhear
    (hz ▸ if_neg (by omega))
  have hclose := (closes_recvRest u (putFrame u z)).of_putFrame
  obtain ⟨live, hlive, hpeek, houts, hcap⟩ := recvRest_can (u := u) (v := putFrame u z)
    (by rw [(putFrame_frame u z).regs, hz]; exact hp)
  have hmem : HoldsAt (recvRest u (capPush .incoming u (putFrame u z))) 0x200 u :=
    (State.memRead_congr _ _ _ _ fun i _ => hpeek _).trans (putFrame_memRead u z (by omega))
  have hout : SameOutside z (recvRest u (capPush .incoming u (putFrame u z))) 0x200 8 := fun b hb =>
    (hpeek b).trans (putFrame_peek u z b (h8 ▸ hb))
  obtain ⟨m, hm, _⟩ := putFrame_eq u z
  rw [hm, h8] at hlive
  have hcount : countOf (putFrame u z) live = countOf z live := by rw [hm, h8]; rfl
  have hfrm : (putFrame u z).outs = { z.outs with frmLen := 8 } := by rw [hm, h8]; rfl
  have hsame : (putFrame u z).cap = z.cap := by rw [hm]; rfl
  rw [hcount, hfrm] at houts
  rw [hsame] at hcap
  subst hz
  obtain ⟨hends, hclock, hka, henv, hport⟩ := hclose.of_heard hl
  exact ⟨_, live, hexec, hlive, hends, hmem, hout, houts, hcap, hclock, hka, henv, hport⟩

/-! ### An error -/

/-- A receive that fails is reported in the step after it (R314). -/
theorem exec_tpRecv_fails {e : Err} (hs : Started .tpRecv s) (hup : s.status.portOpen = true) (hl : s.lock = .free)
    (h : Hears s c env q) (hx : txStep .seq true [] q (heard s c env q) = .fail e (heard s c env q)) :
    exec .tpRecv s = .next (raiseError e (heard s c env q)) := by
  obtain ⟨k, hk, hrun⟩ := heard_stepsTo hs hup hl h
  have hfail : stepTpRecv (.tx [] q) (heard s c env q) = .go (raiseError e (heard s c env q)) := by
    simp only [stepTpRecv, seqTx, seqTxWith, hx]
  exact exec_of_stepsTo (hrun.trans (.head rfl hfail (.refl _ _))) rfl (by rw [runBudget]; omega)

/-- What a failed receive leaves. -/
theorem raiseError_heard (e : Err) (hl : s.lock = .free) :
    EndsAs s.status.failed s (raiseError e (heard s c env q)) ∧ SameRam s (raiseError e (heard s c env q))
      ∧ (raiseError e (heard s c env q)).outs = { s.outs with errCode := e.codeWord, errInfo := e.infoWord }
      ∧ (raiseError e (heard s c env q)).cap = s.cap ∧ (raiseError e (heard s c env q)).clock = s.clock
      ∧ (raiseError e (heard s c env q)).ka = s.ka ∧ (raiseError e (heard s c env q)).env = env
      ∧ (raiseError e (heard s c env q)).port = portHeard s c := by
  refine ⟨⟨?_, ?_, ?_, ?_, ?_, ?_, ?_, ?_⟩, peek_congr ?_ ?_, ?_, ?_, ?_, ?_, ?_, ?_⟩ <;>
    simp [heard, Status.failed, hl]

/-- The answers over ISO-TP that are errors (R223). -/
theorem txStep_iso_fails {e : Err} {w : State} (he : x = .timeout ∧ e = .timeout .isotpRx 0
      ∨ ∃ u, x = .data u ∧ (u.length = 0 ∨ 255 < u.length) ∧ e = .violation .badFormat 0) :
    txStep .seq true [] (afterIso x) w = .fail e w := by
  rcases he with ⟨rfl, rfl⟩ | ⟨u, rfl, hu, rfl⟩
  · rfl
  · exact if_pos hu

/-- The answers of `CanRead` that are errors (R223). -/
theorem txStep_can_fails {e : Err} {w : State} (he : x = .timeout ∧ e = .timeout .canRx 0
      ∨ ∃ u, x = .data u ∧ u.length < 8 ∧ e = .timeout .canRx (BitVec.ofNat 8 u.length)) :
    txStep .seq true [] (afterCan x) w = .fail e w := by
  rcases he with ⟨rfl, rfl⟩ | ⟨u, rfl, hu, rfl⟩
  · rfl
  · rw [afterCan, List.take_of_length_le hu.le]
    exact if_pos hu

end

/-- Settles O50: the two accepted answers, and an error of either transport. -/
theorem tpRecvCan : Obligations.TpRecvCan := by
  intro s hs hup hl
  refine ⟨fun hp u rest hx h1 h2 => exec_tpRecv_iso hs hup hl hp hx h1 h2,
    fun hp u rest hx h8 => exec_tpRecv_can hs hup hl hp hx h8, ?_⟩
  rintro e call env (⟨hp, rfl, x, rest, hx, rfl, he⟩ | ⟨hp, rfl, x, rest, hx, rfl, he⟩)
  · exact ⟨_, exec_tpRecv_fails hs hup hl (hears_iso hp hx) (txStep_iso_fails he), raiseError_heard e hl⟩
  · exact ⟨_, exec_tpRecv_fails hs hup hl (hears_can hp hx) (txStep_can_fails he), raiseError_heard e hl⟩

end Sys2Proof.Machine
end

