-- ==== Sys2Proof/Proofs/Encoding.lean ====
section
/-! The operation encoding (spec/30_encoding.md R120 to R126): the decoder and the encoder are inverse on operation codes,
R122's list of illegal codes is the decoder's, and what an operation refused at its first line leaves. -/

namespace Sys2Proof.Machine

/-! ### The code and the word -/

@[simp] theorem decodeCode_opcode (i : Instr) : decodeCode (opcode i) = .ok i := by
  cases i <;> rfl

theorem decodeCode_ok_iff {c : Byte} {i : Instr} : decodeCode c = .ok i ↔ c = opcode i :=
  ⟨opcode_of_decodeCode, fun h => h ▸ decodeCode_opcode i⟩

/-- A refused code is the one the refusal names. -/
theorem code_of_decodeCode_error {c : Byte} {r : DecodeRefusal} (h : decodeCode c = .error r) : r = .unknownOpcode c := by
  unfold decodeCode at h
  split at h <;> cases h
  rfl

/-- R120's mask keeps the operation code and nothing else. -/
theorem and_mask_eq (w : Word) : w &&& 0x000000FF#32 = (opcodeOf w).setWidth 32 := by
  apply BitVec.eq_of_toNat_eq
  have hmask : (w &&& 0x000000FF#32).toNat = w.toNat % 256 := Nat.and_two_pow_sub_one_eq_mod w.toNat 8
  rw [hmask]
  simp only [opcodeOf, BitVec.toNat_setWidth, BitVec.extractLsb'_toNat, Nat.shiftRight_zero]
  omega

theorem setWidth_code_inj {c d : Byte} : c.setWidth 32 = d.setWidth 32 ↔ c = d := by
  refine ⟨fun h => ?_, congrArg _⟩
  simpa using congrArg (BitVec.setWidth 8) h

theorem opcodeOf_encode (i : Instr) : opcodeOf (encode i) = opcode i := by
  cases i <;> rfl

theorem decode_encode (i : Instr) : decode (encode i) = .ok i := by
  rw [decode, opcodeOf_encode, decodeCode_opcode]

/-- Settles O2: both sides say that the word's low byte is the operation's code. -/
theorem decodeByMask : Obligations.DecodeByMask := fun w i => calc
  decode w = .ok i ↔ opcodeOf w = opcode i := decodeCode_ok_iff
  _ ↔ (opcodeOf w).setWidth 32 = encode i := setWidth_code_inj.symm
  _ ↔ w &&& 0x000000FF#32 = encode i := by rw [and_mask_eq]

/-- Settles O1: fourteen of the words are the encoder's own, and the mask takes bits 31:8 from the fifteenth. -/
theorem decodeWrittenWords : Obligations.DecodeWrittenWords :=
  ⟨decode_encode .openPort, decode_encode .closePort, decode_encode .capDump, decode_encode .klEnc,
    decode_encode .klParse, decode_encode .croEnc, decode_encode .dtoDec, decode_encode .fiSeq, decode_encode .tpSend,
    decode_encode .tpRecv, decode_encode .tpSr, decode_encode .kwpInit, decode_encode .kwpExec, decode_encode .ccpExec,
    (decodeByMask _ .kwpExec).2 rfl, rfl, rfl⟩

/-! ### R122's list -/

/-- R122 looks at the operation code only. -/
theorem cmdWordOk_congr {v w : Word} (h : opcodeOf v = opcodeOf w) : cmdWordOk v = cmdWordOk w := by
  unfold opcodeOf at h
  unfold cmdWordOk
  rw [h]

theorem cmdWordOk_encode (i : Instr) : cmdWordOk (encode i) = true := by
  cases i <;> rfl

/-- A word that is no operation's lies in one of R122's ranges: only the decoder's last branch refuses, and there the code
differs from the fourteen of the table. -/
theorem cmdWordOk_of_refused {w : Word} {r : DecodeRefusal} (h : decode w = .error r) : cmdWordOk w = false := by
  have hc : (w.extractLsb' 0 8).toNat = (opcodeOf w).toNat := rfl
  unfold decode decodeCode at h
  split at h <;> cases h
  simp only [imp_false] at *
  simp only [cmdWordOk, hc, Bool.not_eq_false', Bool.or_eq_true, Bool.and_eq_true, beq_iff_eq, decide_eq_true_eq]
  omega

theorem cmdWordOk_iff (w : Word) : cmdWordOk w = true ↔ ∃ i, decode w = .ok i := by
  constructor
  · intro h
    cases hd : decode w with
    | ok i => exact ⟨i, rfl⟩
    | error r => rw [cmdWordOk_of_refused hd] at h; cases h
  · rintro ⟨i, hi⟩
    have hc : opcodeOf w = opcodeOf (encode i) := (decodeCode_ok_iff.1 hi).trans (opcodeOf_encode i).symm
    rw [cmdWordOk_congr hc, cmdWordOk_encode]

theorem decode_of_not_cmdWordOk {w : Word} (h : cmdWordOk w = false) :
    decode w = .error (.unknownOpcode (opcodeOf w)) := by
  cases hd : decode w with
  | ok i => rw [(cmdWordOk_iff w).2 ⟨i, hd⟩] at h; cases h
  | error r => rw [code_of_decodeCode_error hd]

/-! ### Refused at the first line -/

/-- Error entry with no lock, primitive or output before it. -/
theorem raiseError_raisedOnly (e : Err) (s : State) : RaisedOnly e s (raiseError e s) :=
  ⟨rfl, rfl, rfl, rfl, ⟨rfl, rfl, rfl, rfl⟩, rfl, rfl, rfl, rfl, rfl, rfl, fun _ => rfl⟩

/-- Error entry writes over all that the start of an operation has changed (R25, R330). -/
theorem RaisedOnly.of_startOp {e : Err} {c : Byte} {s t : State} (h : RaisedOnly e (startOp c s) t) : RaisedOnly e s t := h

theorem codeWord_unknownOpcode (c : Byte) : (Err.illegal .unknownOpcode c).codeWord = 0x010A := by
  simp [Err.codeWord, Err.sub, Err.cls]

theorem codeWord_wrongProto (c : Byte) : (Err.illegal .wrongProto c).codeWord = 0x020A := by
  simp [Err.codeWord, Err.sub, Err.cls]

/-- ERR_INFO of ILLEGAL_COMMAND is the operation code alone (R313). -/
theorem infoWord_illegal (x : IllegalCause) (c : Byte) : (Err.illegal x c).infoWord = c.setWidth 32 := by
  simp [Err.infoWord, Err.cat, Err.aux, Err.code, BitVec.ofNat_toNat]

/-- A run of the sequencer on a code outside the table (R122). -/
theorem seqRun_startOp_illegal {c : Byte} (s : State) (h : decodeCode c = .error (.unknownOpcode c)) :
    seqRun (startOp c s) = .next (raiseError (.illegal .unknownOpcode c) (startOp c s)) := by
  have hf : fetch (startOp c s) = some (.error (.unknownOpcode c)) := congrArg some h
  rw [seqRun, hf]
  rfl

/-- Settles O3: R122's list is the decoder's, and the run after the CMD write is error entry. -/
theorem illegalCodeEnds : Obligations.IllegalCodeEnds := by
  refine ⟨cmdWordOk_iff, fun s w _ hidle hw => ?_⟩
  have hstart : hostStep (.write 0x000 w) s = startOp (opcodeOf w) s := hostWrite_idle (r := .cmd) w rfl hidle
  rw [hstart]
  exact ⟨rfl, _, seqRun_startOp_illegal s (decode_of_not_cmdWordOk hw), (raiseError_raisedOnly _ _).of_startOp,
    codeWord_unknownOpcode _, infoWord_illegal _ _⟩

/-! ### PROTO -/

/-- The column "PROTO allowed" of R120, by the operations it restricts. -/
theorem allowedUnder_eq_false_iff (i : Instr) (p : Proto) : i.allowedUnder p = false ↔
    (i = .fiSeq ∧ (p = .kwpCan ∨ p = .ccpCan)) ∨ (i = .kwpInit ∧ p = .ccpCan) ∨ (i = .kwpExec ∧ p = .ccpCan)
      ∨ (i = .ccpExec ∧ (p = .kwpKline ∨ p = .kwpCan)) := by
  cases i
  case fiSeq | kwpInit | kwpExec | ccpExec => cases p <;> decide
  all_goals simp [Instr.allowedUnder]

/-- The first line of an operation that its PROTO forbids. -/
theorem opStep_start_wrongProto {i : Instr} {s : State} (h : i.allowedUnder s.regs.ctrl.proto = false) :
    opStep i .start s = .go (raiseError (.illegal .wrongProto (opcode i)) s) := by
  rcases (allowedUnder_eq_false_iff i _).1 h with ⟨rfl, hp⟩ | ⟨rfl, hp⟩ | ⟨rfl, hp⟩ | ⟨rfl, hp⟩
  · exact if_pos (by rcases hp with hp | hp <;> simp [hp])
  · have hchecks : initChecks s = .error (.illegal .wrongProto 0x50) := if_pos hp
    simp only [opStep, stepKwpInit, hchecks, opcode]
  · exact if_pos hp
  · exact if_pos (by rcases hp with hp | hp <;> simp [hp])

/-- An operation that ends in its first step. -/
theorem exec_of_start {i : Instr} {s t : State} (hs : Started i s) (h : opStep i .start s = .go t) (ht : t.op = none) :
    exec i s = .next t :=
  exec_of_stepsTo (.head hs h (.refl _ _)) ht (by rw [runBudget]; omega)

/-- Settles O4: the check of PROTO is the first line of the operations R120 restricts. -/
theorem wrongProtoEnds : Obligations.WrongProtoEnds :=
  ⟨allowedUnder_eq_false_iff, fun _ s hs hp =>
    ⟨_, exec_of_start hs (opStep_start_wrongProto hp) rfl, raiseError_raisedOnly _ s, codeWord_wrongProto _,
      infoWord_illegal _ _⟩⟩

end Sys2Proof.Machine
end

