-- ==== Sys2Proof/Proofs/KlineCodec.lean ====
section
/-! The K-Line codec as functions of byte strings (spec/40_kline_codec.md R101 to R104, R142 to R151): what a frame read
does with every shape of input, what a frame then comes to, and the encoder as one source of such frames. -/

namespace Sys2Proof.Machine

/-! ### One frame -/

section
variable {short : Err} {head d src rest : List Byte} {cs c i0 i1 l : Byte} {n : Nat}

theorem klReadBody_whole (hn : n = d.length) :
    klReadBody short head n (d ++ cs :: rest) = .ok { head := head, pdu := d, cs := cs, rest := rest } := by
  subst hn
  simp [klReadBody]

theorem klReadBody_short (h : src.length ≤ n) : klReadBody short head n src = .error short := by
  simp only [klReadBody, List.drop_eq_nil_of_le h]

/-- A source longer than the PDU holds the PDU and the checksum byte. -/
theorem exists_body (h : n < src.length) : ∃ d cs rest, src = d ++ cs :: rest ∧ n = d.length :=
  ⟨src.take n, src[n], src.drop (n + 1), by simp, by simp only [List.length_take]; omega⟩

theorem klReadBody_ok {r : KlRead} (h : klReadBody short head n src = .ok r) :
    r.head = head ∧ src = r.pdu ++ [r.cs] ++ r.rest ∧ n = r.pdu.length := by
  rcases Nat.lt_or_ge n src.length with hlt | hge
  · obtain ⟨d, cs, rest, rfl, hn⟩ := exists_body hlt
    rw [klReadBody_whole hn] at h
    cases h
    exact ⟨rfl, by simp, hn⟩
  · rw [klReadBody_short hge] at h
    cases h

theorem klReadBody_error {e : Err} (h : klReadBody short head n src = .error e) : src.length ≤ n ∧ e = short := by
  rcases Nat.lt_or_ge n src.length with hlt | hge
  · obtain ⟨d, cs, rest, rfl, hn⟩ := exists_body hlt
    rw [klReadBody_whole hn] at h
    cases h
  · rw [klReadBody_short hge] at h
    cases h
    exact ⟨hge, rfl⟩

theorem klReadFrame_badCounter (h : c.toNat < 0x80) :
    klReadFrame short (c :: src) = .error (.violation .badFormat c) := by
  simp only [klReadFrame, h, if_true]

theorem klReadFrame_noId (h : 0x80 ≤ c.toNat) (hs : src.length < 2) : klReadFrame short (c :: src) = .error short := by
  simp only [klReadFrame, Nat.not_lt.mpr h, if_false]
  match src, hs with
  | [], _ => rfl
  | [_], _ => rfl

theorem klReadFrame_counted (h : 0x81 ≤ c.toNat) :
    klReadFrame short (c :: i0 :: i1 :: src) = klReadBody short [c, i0, i1] (c.toNat - 0x80) src := by
  have h80 : ¬ c.toNat < 0x80 := by omega
  have hne : c ≠ 0x80 := fun hc => by simp [hc] at h
  simp only [klReadFrame, h80, if_false, hne]

theorem klReadFrame_noLength : klReadFrame short [0x80, i0, i1] = .error short := rfl

theorem klReadFrame_zeroLength :
    klReadFrame short (0x80 :: i0 :: i1 :: 0 :: src) = .error (.violation .badFormat 0x80) := rfl

theorem klReadFrame_long (h : 1 ≤ l.toNat) :
    klReadFrame short (0x80 :: i0 :: i1 :: l :: src) = klReadBody short [0x80, i0, i1, l] l.toNat src := by
  have hne : l ≠ 0 := fun hl => by simp [hl] at h
  exact if_neg hne

/-- What a byte source offers the frame read, up to its PDU (R103, R145, R148, R151). -/
inductive FrameStart : List Byte → Prop where
  | empty : FrameStart []
  | badCounter (c : Byte) (src : List Byte) (h : c.toNat < 0x80) : FrameStart (c :: src)
  | noId (c : Byte) (src : List Byte) (h : 0x80 ≤ c.toNat) (hs : src.length < 2) : FrameStart (c :: src)
  | counted (c i0 i1 : Byte) (src : List Byte) (h : 0x81 ≤ c.toNat) : FrameStart (c :: i0 :: i1 :: src)
  | noLength (i0 i1 : Byte) : FrameStart [0x80, i0, i1]
  | zeroLength (i0 i1 : Byte) (src : List Byte) : FrameStart (0x80 :: i0 :: i1 :: 0 :: src)
  | long (i0 i1 l : Byte) (src : List Byte) (h : 1 ≤ l.toNat) : FrameStart (0x80 :: i0 :: i1 :: l :: src)

theorem frameStart (src : List Byte) : FrameStart src := by
  rcases src with _ | ⟨c, src⟩
  · exact .empty
  by_cases hlow : c.toNat < 0x80
  · exact .badCounter c src hlow
  rcases src with _ | ⟨i0, _ | ⟨i1, src⟩⟩
  · exact .noId c [] (by omega) (by simp)
  · exact .noId c [i0] (by omega) (by simp)
  by_cases hc : c.toNat = 0x80
  · obtain rfl : c = 0x80 := BitVec.eq_of_toNat_eq hc
    rcases src with _ | ⟨l, src⟩
    · exact .noLength i0 i1
    by_cases hl : l.toNat = 0
    · obtain rfl : l = 0 := BitVec.eq_of_toNat_eq hl
      exact .zeroLength i0 i1 src
    · exact .long i0 i1 l src (by omega)
  · exact .counted c i0 i1 src (by omega)

/-- A whole frame is read, whatever follows it (R103). -/
theorem klReadFrame_whole (h : klHeadFor head d.length) :
    klReadFrame short (head ++ d ++ [cs] ++ rest) = .ok { head := head, pdu := d, cs := cs, rest := rest } := by
  rw [List.append_assoc, List.append_assoc, List.singleton_append]
  rcases h with ⟨c, i0, i1, rfl, hc, hn⟩ | ⟨i0, i1, l, rfl, hl, hn⟩
  · exact (klReadFrame_counted hc).trans (klReadBody_whole hn.symm)
  · exact (klReadFrame_long hl).trans (klReadBody_whole hn.symm)

/-- A proper part of a frame is a short read (R151). -/
theorem klReadFrame_take (h : klHeadFor head d.length) {k : Nat} (hk : k < (head ++ d ++ [cs]).length) :
    klReadFrame short ((head ++ d ++ [cs]).take k) = .error short := by
  have hbody : ∀ j, j ≤ d.length → ((d ++ [cs]).take j).length ≤ d.length := fun j hj => by
    rw [List.length_take]
    omega
  simp only [List.length_append, List.length_singleton] at hk
  rcases h with ⟨c, i0, i1, rfl, hc, hn⟩ | ⟨i0, i1, l, rfl, hl, hn⟩
  · match k with
    | 0 => rfl
    | 1 => exact klReadFrame_noId (by omega) (by simp)
    | 2 => exact klReadFrame_noId (by omega) (by simp)
    | j + 3 =>
      rw [List.length_cons, List.length_cons, List.length_singleton] at hk
      exact (klReadFrame_counted hc).trans (klReadBody_short (hn ▸ hbody j (by omega)))
  · match k with
    | 0 => rfl
    | 1 => exact klReadFrame_noId (by decide) (by simp)
    | 2 => exact klReadFrame_noId (by decide) (by simp)
    | 3 => exact klReadFrame_noLength
    | j + 4 =>
      simp only [List.length_cons, List.length_nil] at hk
      exact (klReadFrame_long hl).trans (klReadBody_short (hn ▸ hbody j (by omega)))

/-- What a successful frame read has taken off the source. -/
theorem klReadFrame_ok {r : KlRead} (h : klReadFrame short src = .ok r) :
    klHeadFor r.head r.pdu.length ∧ src = r.head ++ r.pdu ++ [r.cs] ++ r.rest := by
  cases frameStart src with
  | empty => cases h
  | badCounter c src hc => rw [klReadFrame_badCounter hc] at h; cases h
  | noId c src hc hs => rw [klReadFrame_noId hc hs] at h; cases h
  | noLength i0 i1 => cases h
  | zeroLength i0 i1 src => cases h
  | counted c i0 i1 src hc =>
    rw [klReadFrame_counted hc] at h
    obtain ⟨hh, rfl, hn⟩ := klReadBody_ok h
    exact ⟨.inl ⟨c, i0, i1, hh, hc, hn.symm⟩, by simp [hh]⟩
  | long i0 i1 l src hl =>
    rw [klReadFrame_long hl] at h
    obtain ⟨hh, rfl, hn⟩ := klReadBody_ok h
    exact ⟨.inr ⟨i0, i1, l, hh, hl, hn.symm⟩, by simp [hh]⟩

end

/-! ### The verdict on a whole frame -/

theorem klChecksum_eq (bs : List Byte) : klChecksum bs = BitVec.ofNat 8 (byteSum bs) := rfl

section
variable {hdr : BitVec 16} {verify : Bool} {head d : List Byte} {cs : Byte}

/-- Another id drops the frame before its checksum is looked at (R146, R147). -/
theorem klVerdict_foreign (h : headId head ≠ hdr.toNat) : klVerdict hdr verify head d cs = .foreign := if_pos h

theorem klVerdict_accept (h : headId head = hdr.toNat)
    (hs : verify = true → cs = BitVec.ofNat 8 (byteSum (head ++ d))) : klVerdict hdr verify head d cs = .accept := by
  refine (if_neg (not_not.mpr h)).trans (if_neg ?_)
  cases verify with
  | false => simp
  | true => simp [klChecksum_eq, hs rfl]

theorem klVerdict_refuse (h : headId head = hdr.toNat) (hs : cs ≠ BitVec.ofNat 8 (byteSum (head ++ d))) :
    klVerdict hdr true head d cs = .refuse (.checksum cs (BitVec.ofNat 8 (byteSum (head ++ d)))) :=
  (if_neg (not_not.mpr h)).trans (if_pos (by simpa [klChecksum_eq] using hs))

end

/-! ### Decoding, one frame at a time -/

section
variable {short : Err} {hdr : BitVec 16} {verify : Bool} {src : List Byte} {r : KlRead} {e : Err}

theorem klReadFrame_shortens (h : klReadFrame short src = .ok r) : r.rest.length < src.length := by
  obtain ⟨_, hsrc⟩ := klReadFrame_ok h
  rw [hsrc]
  simp only [List.length_append, List.length_singleton]
  omega

section Turns
variable (n : Nat)

theorem klDecodeFrom_error (h : klReadFrame short src = .error e) :
    klDecodeFrom short hdr verify (n + 1) src = .error e := by
  simp only [klDecodeFrom, h]

theorem klDecodeFrom_foreign (h : klReadFrame short src = .ok r)
    (hv : klVerdict hdr verify r.head r.pdu r.cs = .foreign) :
    klDecodeFrom short hdr verify (n + 1) src = klDecodeFrom short hdr verify n r.rest := by
  simp only [klDecodeFrom, h, hv]

theorem klDecodeFrom_refuse (h : klReadFrame short src = .ok r)
    (hv : klVerdict hdr verify r.head r.pdu r.cs = .refuse e) :
    klDecodeFrom short hdr verify (n + 1) src = .error e := by
  simp only [klDecodeFrom, h, hv]

theorem klDecodeFrom_accept (h : klReadFrame short src = .ok r)
    (hv : klVerdict hdr verify r.head r.pdu r.cs = .accept) :
    klDecodeFrom short hdr verify (n + 1) src = .ok (r.pdu, r.head ++ r.pdu ++ [r.cs]) := by
  simp only [klDecodeFrom, h, hv]

end Turns

/-- A bound above the source's length is never the reason the decoding ends (R144). -/
theorem klDecodeFrom_congr (n m : Nat) (src : List Byte) (hn : src.length < n) (hm : src.length < m) :
    klDecodeFrom short hdr verify n src = klDecodeFrom short hdr verify m src := by
  induction n generalizing m src with
  | zero => omega
  | succ n ih =>
    obtain ⟨m, rfl⟩ : ∃ k, m = k + 1 := ⟨m - 1, by omega⟩
    cases hr : klReadFrame short src with
    | error e => rw [klDecodeFrom_error n hr, klDecodeFrom_error m hr]
    | ok r =>
      have := klReadFrame_shortens hr
      cases hv : klVerdict hdr verify r.head r.pdu r.cs with
      | foreign =>
        rw [klDecodeFrom_foreign n hr hv, klDecodeFrom_foreign m hr hv]
        exact ih m r.rest (by omega) (by omega)
      | refuse e => rw [klDecodeFrom_refuse n hr hv, klDecodeFrom_refuse m hr hv]
      | accept => rw [klDecodeFrom_accept n hr hv, klDecodeFrom_accept m hr hv]

theorem klDecode_error (h : klReadFrame short src = .error e) : klDecode short hdr verify src = .error e :=
  klDecodeFrom_error _ h

theorem klDecode_foreign (h : klReadFrame short src = .ok r)
    (hv : klVerdict hdr verify r.head r.pdu r.cs = .foreign) :
    klDecode short hdr verify src = klDecode short hdr verify r.rest :=
  (klDecodeFrom_foreign _ h hv).trans (klDecodeFrom_congr _ _ _ (klReadFrame_shortens h) (Nat.lt_succ_self _))

theorem klDecode_refuse (h : klReadFrame short src = .ok r)
    (hv : klVerdict hdr verify r.head r.pdu r.cs = .refuse e) : klDecode short hdr verify src = .error e :=
  klDecodeFrom_refuse _ h hv

theorem klDecode_accept (h : klReadFrame short src = .ok r)
    (hv : klVerdict hdr verify r.head r.pdu r.cs = .accept) :
    klDecode short hdr verify src = .ok (r.pdu, r.head ++ r.pdu ++ [r.cs]) :=
  klDecodeFrom_accept _ h hv

end

/-- Settles O33: a whole frame is read, and its verdict decides. -/
theorem klDecodeFrames : Obligations.KlDecodeFrames := by
  intro short hdr verify head d rest cs hh
  exact ⟨fun hid hs => klDecode_accept (klReadFrame_whole hh) (klVerdict_accept hid hs),
    fun hid => klDecode_foreign (klReadFrame_whole hh) (klVerdict_foreign hid)⟩

/-- Settles O34: the three places where a frame read fails, and the verdict on a wrong checksum. -/
theorem klDecodeRefuses : Obligations.KlDecodeRefuses := by
  intro short hdr verify rest
  refine ⟨fun c hc => klDecode_error (klReadFrame_badCounter hc),
    fun i0 i1 => klDecode_error klReadFrame_zeroLength, fun head d cs hh => ⟨fun hid hs => ?_, fun k hk => ?_⟩⟩
  · exact klDecode_refuse (klReadFrame_whole hh) (klVerdict_refuse hid hs)
  · exact klDecode_error (klReadFrame_take hh hk)

/-! ### The encoder -/

section
variable {hdr : BitVec 16} {d : List Byte} {n : Nat}

theorem klHead_counted (h : n < 127) :
    klHead hdr n = [BitVec.ofNat 8 (0x80 + n), hdr.extractLsb' 8 8, hdr.extractLsb' 0 8] := if_pos h

theorem klHead_long (h : 127 ≤ n) : klHead hdr n = [0x80, hdr.extractLsb' 8 8, hdr.extractLsb' 0 8, BitVec.ofNat 8 n] :=
  if_neg (by omega)

theorem counter_toNat (h : n < 127) : (BitVec.ofNat 8 (0x80 + n)).toNat = 0x80 + n := by
  rw [BitVec.toNat_ofNat]
  omega

theorem length_toNat (h : n ≤ 255) : (BitVec.ofNat 8 n).toNat = n := by
  rw [BitVec.toNat_ofNat]
  omega

/-- The encoder's heads are among those the decoder takes (R101 to R103). -/
theorem klHeadFor_klHead (h1 : 1 ≤ n) (h2 : n ≤ 255) : klHeadFor (klHead hdr n) n := by
  rcases Nat.lt_or_ge n 127 with h | h
  · refine .inl ⟨_, _, _, klHead_counted h, ?_, ?_⟩ <;> rw [counter_toNat h] <;> omega
  · refine .inr ⟨_, _, _, klHead_long h, ?_, ?_⟩ <;> rw [length_toNat h2] ; omega

theorem headId_klHead (hdr : BitVec 16) (n : Nat) : headId (klHead hdr n) = hdr.toNat := by
  have hid : (hdr.extractLsb' 8 8).toNat * 256 + (hdr.extractLsb' 0 8).toNat = hdr.toNat := by
    simp only [BitVec.extractLsb'_toNat, Nat.shiftRight_eq_div_pow]
    omega
  unfold klHead
  split <;> exact hid

theorem klEncode_eq (hdr : BitVec 16) (d : List Byte) :
    klEncode hdr d = klHead hdr d.length ++ d ++ [klChecksum (klHead hdr d.length ++ d)] := rfl

/-- The checksum is the last byte: the sum of all earlier ones modulo 256 (R104). -/
theorem klEncode_getLast (hdr : BitVec 16) (d : List Byte) :
    (klEncode hdr d).getLast? = some (BitVec.ofNat 8 (byteSum (klEncode hdr d).dropLast)) := by
  rw [klEncode_eq, List.getLast?_concat, List.dropLast_concat, klChecksum_eq]

theorem klVerdict_klEncode (hdr : BitVec 16) (verify : Bool) (d : List Byte) :
    klVerdict hdr verify (klHead hdr d.length) d (klChecksum (klHead hdr d.length ++ d)) = .accept :=
  klVerdict_accept (headId_klHead _ _) fun _ => rfl

/-- Decoding an encoded frame, whatever follows it (R152). -/
theorem klDecode_klEncode (short : Err) (hdr : BitVec 16) (verify : Bool) (rest : List Byte) (h1 : 1 ≤ d.length)
    (h2 : d.length ≤ 255) : klDecode short hdr verify (klEncode hdr d ++ rest) = .ok (d, klEncode hdr d) :=
  klDecode_accept (klReadFrame_whole (klHeadFor_klHead h1 h2)) (klVerdict_klEncode hdr verify d)

/-- Settles O32: the encoder's frame is one the decoder reads whole, with its own id and checksum. -/
theorem klineRoundTrip : Obligations.KlineRoundTrip := fun short hdr verify d rest h1 h2 =>
  ⟨klDecode_klEncode short hdr verify rest h1 h2, klEncode_getLast hdr d⟩

/-- The test of `klFrameOk` on the last byte. -/
theorem klChecksum_concat (m : List Byte) :
    ((m ++ [klChecksum m]).getLastD 0 == BitVec.ofNat 8 (byteSum (m ++ [klChecksum m]).dropLast)) = true := by
  rw [List.getLastD_concat, List.dropLast_concat, klChecksum_eq, beq_self_eq_true]

theorem klFrameOk_counted {c i0 i1 : Byte} (hc : 0x81 ≤ c.toNat) (hd : c.toNat = 0x80 + d.length)
    (hn : d.length < 127) :
    klFrameOk (c :: i0 :: i1 :: (d ++ [klChecksum (c :: i0 :: i1 :: d)])) = true := by
  have hne : (c == 0x80) = false := beq_eq_false_iff_ne.mpr fun h => by simp [h] at hc
  have hsum := klChecksum_concat (c :: i0 :: i1 :: d)
  simp only [List.cons_append] at hsum
  simp only [klFrameOk, hne, Bool.false_eq_true, if_false, hsum, Bool.and_true, Bool.and_eq_true, decide_eq_true_eq,
    beq_iff_eq, List.length_append, List.length_singleton]
  omega

theorem klFrameOk_long {i0 i1 l : Byte} (hl : 127 ≤ d.length) (hd : l.toNat = d.length) :
    klFrameOk (0x80 :: i0 :: i1 :: l :: (d ++ [klChecksum (0x80 :: i0 :: i1 :: l :: d)])) = true := by
  have hsum := klChecksum_concat (0x80 :: i0 :: i1 :: l :: d)
  simp only [List.cons_append] at hsum
  simp only [klFrameOk, beq_self_eq_true, if_true, hsum, Bool.and_true, decide_eq_true_eq, List.length_append,
    List.length_singleton, hd]
  exact hl

theorem klFrameOk_klEncode (hdr : BitVec 16) (h1 : 1 ≤ d.length) (h2 : d.length ≤ 255) :
    klFrameOk (klEncode hdr d) = true := by
  rw [klEncode_eq]
  rcases Nat.lt_or_ge d.length 127 with h | h
  · have hc := counter_toNat h
    rw [klHead_counted h]
    exact klFrameOk_counted (by omega) hc h
  · rw [klHead_long h]
    exact klFrameOk_long h (length_toNat h2)

theorem klHead_length (hdr : BitVec 16) (n : Nat) : (klHead hdr n).length = if n < 127 then 3 else 4 := by
  unfold klHead
  split <;> rfl

theorem klEncode_length_eq (hdr : BitVec 16) (d : List Byte) :
    (klEncode hdr d).length = if d.length < 127 then d.length + 4 else d.length + 5 := by
  rw [klEncode_eq, List.length_append, List.length_append, klHead_length, List.length_singleton]
  split <;> omega

/-- Settles O31: the two heads, the checksum and the length of an encoded frame. -/
theorem klEncodeForms : Obligations.KlEncodeForms := by
  intro hdr d h1 h2
  refine ⟨klFrameOk_klEncode hdr h1 h2, fun h => ⟨_, by rw [klEncode_eq, klHead_counted h]⟩,
    fun h => ⟨_, by rw [klEncode_eq, klHead_long h]⟩, klEncode_getLast hdr d, klEncode_length_eq hdr d, fun h => ?_,
    fun h => ?_⟩
  · rw [klEncode_eq, klHead_counted (by omega), h]
    rfl
  · rw [klEncode_eq, klHead_long (by omega), h]
    exact ⟨rfl, rfl⟩

end

end Sys2Proof.Machine
end

