-- ==== Sys2Proof/Proofs/KlineOps.lean ====
section
/-! The codec operations KL_ENC and KL_PARSE (spec/40_kline_codec.md R143, R155), each one step that reads a buffer,
writes another and ends, and the round trip through both (R152). -/

namespace Sys2Proof.Machine

/-- The length an ARGUMENT error reports is the low byte of its register (R313). -/
theorem lenByte_toNat {w : Nat} (x : BitVec w) : lenByte x.toNat = x.extractLsb' 0 8 :=
  BitVec.eq_of_toNat_eq (by simp [lenByte])

/-- The frame `f` written to FRMBUF, and the end. -/
theorem endOp_putFrame (s : State) {f : List Byte} (hf : f.length ≤ 512) :
    EndsAs s.status.ended s (endOp (putFrame f s)) ∧ NoTraffic s (endOp (putFrame f s))
      ∧ (endOp (putFrame f s)).cap = s.cap
      ∧ (endOp (putFrame f s)).outs = { s.outs with frmLen := BitVec.ofNat 10 f.length }
      ∧ HoldsAt (endOp (putFrame f s)) 0x200 f ∧ SameOutside s (endOp (putFrame f s)) 0x200 f.length := by
  have hmem : HoldsAt (endOp (putFrame f s)) 0x200 f := HoldsAt.congr (putFrame_memRead f s hf) rfl rfl
  have hout : SameOutside s (endOp (putFrame f s)) 0x200 f.length := fun b hb => putFrame_peek f s b hb
  obtain ⟨m, hm, _⟩ := putFrame_eq f s
  rw [hm] at hmem hout ⊢
  exact ⟨⟨rfl, rfl, rfl, rfl, ⟨rfl, rfl, rfl, rfl⟩⟩, ⟨rfl, rfl, rfl, rfl, rfl⟩, rfl, rfl, hmem, hout⟩

/-- The PDU `u` written to RXBUF, and the end. -/
theorem endOp_putPdu (s : State) {u : List Byte} (hu : u.length ≤ 256) :
    EndsAs s.status.ended s (endOp (putPdu u s)) ∧ NoTraffic s (endOp (putPdu u s))
      ∧ (endOp (putPdu u s)).cap = s.cap
      ∧ (endOp (putPdu u s)).outs = { s.outs with rxLen := BitVec.ofNat 9 u.length, respStatus := u.headD 0 }
      ∧ HoldsAt (endOp (putPdu u s)) 0x100 u ∧ SameOutside s (endOp (putPdu u s)) 0x100 u.length := by
  have hmem : HoldsAt (endOp (putPdu u s)) 0x100 u := HoldsAt.congr (putPdu_memRead u s hu) rfl rfl
  have hout : SameOutside s (endOp (putPdu u s)) 0x100 u.length := fun b hb => putPdu_peek u s b hb
  obtain ⟨m, hm, _⟩ := putPdu_eq u s
  rw [hm] at hmem hout ⊢
  exact ⟨⟨rfl, rfl, rfl, rfl, ⟨rfl, rfl, rfl, rfl⟩⟩, ⟨rfl, rfl, rfl, rfl, rfl⟩, rfl, rfl, hmem, hout⟩

/-! ### KL_ENC -/

section
variable {s : State}

theorem txPdu_ok (h1 : 1 ≤ s.regs.txLen.toNat) (h2 : s.regs.txLen.toNat ≤ 255) :
    txPdu s = .ok (s.memRead txBuf s.regs.txLen.toNat) := if_neg (by omega)

theorem txPdu_error (h : s.regs.txLen.toNat = 0 ∨ 255 < s.regs.txLen.toNat) :
    txPdu s = .error (.argument .klLen (s.regs.txLen.extractLsb' 0 8)) := by
  rw [← lenByte_toNat]
  exact if_pos (by omega)

theorem exec_klEnc (hs : Started .klEnc s) (h1 : 1 ≤ s.regs.txLen.toNat) (h2 : s.regs.txLen.toNat ≤ 255) :
    exec .klEnc s = .next (endOp (putFrame (klEncode s.regs.klTxHdr (s.memRead txBuf s.regs.txLen.toNat)) s)) :=
  exec_of_start hs (by simp only [opStep, stepKlEnc, txPdu_ok h1 h2]) rfl

theorem exec_klEnc_refused (hs : Started .klEnc s) (h : s.regs.txLen.toNat = 0 ∨ 255 < s.regs.txLen.toNat) :
    exec .klEnc s = .next (raiseError (.argument .klLen (s.regs.txLen.extractLsb' 0 8)) s) :=
  exec_of_start hs (by simp only [opStep, stepKlEnc, txPdu_error h]) rfl

/-- Settles O38: the one step of KL_ENC, and what its frame write leaves. -/
theorem klEncCompletes : Obligations.KlEncCompletes := fun s hs =>
  ⟨fun h1 h2 => ⟨_, _, rfl, exec_klEnc hs h1 h2, endOp_putFrame s
      ((klEncode_length _ _ (by rw [State.memRead_length]; exact h2)).trans (by omega))⟩,
    fun h => ⟨_, exec_klEnc_refused hs h, raiseError_raisedOnly _ s⟩⟩

/-! ### KL_PARSE -/

theorem exec_klParse_tooLong (hs : Started .klParse s) (h : 512 < s.outs.frmLen.toNat) :
    exec .klParse s = .next (raiseError (.argument .frameLen (s.outs.frmLen.extractLsb' 0 8)) s) :=
  exec_of_start hs (by simp only [opStep, stepKlParse, gt_iff_lt, h, if_true, lenByte_toNat]) rfl

theorem exec_klParse {d f : List Byte} (hs : Started .klParse s) (h : s.outs.frmLen.toNat ≤ 512)
    (hd : klDecode (.timeout .klParse 0) s.regs.klRxHdr s.regs.ctrl.klChkVerify (parseSource s) = .ok (d, f)) :
    exec .klParse s = .next (endOp (putPdu d s)) :=
  exec_of_start hs (by simp only [opStep, stepKlParse, gt_iff_lt, Nat.not_lt.mpr h, if_false, hd]) rfl

theorem exec_klParse_error {e : Err} (hs : Started .klParse s) (h : s.outs.frmLen.toNat ≤ 512)
    (hd : klDecode (.timeout .klParse 0) s.regs.klRxHdr s.regs.ctrl.klChkVerify (parseSource s) = .error e) :
    exec .klParse s = .next (raiseError e s) :=
  exec_of_start hs (by simp only [opStep, stepKlParse, gt_iff_lt, Nat.not_lt.mpr h, if_false, hd]) rfl

/-- Settles O39: the one step of KL_PARSE, its length check first, then what the decoding answers. -/
theorem klParseCompletes : Obligations.KlParseCompletes := fun s hs =>
  ⟨fun h => ⟨_, exec_klParse_tooLong hs h, raiseError_raisedOnly _ s⟩,
    fun h => ⟨fun _ _ hd => ⟨_, exec_klParse hs h hd, endOp_putPdu s ((klDecodeFrom_length _ hd).trans (by omega))⟩,
      fun e hd => ⟨_, exec_klParse_error hs h hd, raiseError_raisedOnly e s⟩⟩⟩

end

/-! ### The round trip -/

/-- A CMD write of KL_PARSE while idle (R25). -/
theorem hostStep_klParse {s : State} (h : s.status.busy = false) :
    hostStep (.write 0x000 0x00000011) s = startOp (opcode .klParse) s := hostWrite_idle (r := .cmd) _ rfl h

/-- KL_PARSE of an encoded frame of its own id, with either value of KL_CHK_VERIFY (R152, R155). -/
theorem exec_klParse_klEncode {s : State} {d : List Byte} (hs : Started .klParse s) (h1 : 1 ≤ d.length)
    (h2 : d.length ≤ 255) (hlen : s.outs.frmLen = BitVec.ofNat 10 (klEncode s.regs.klRxHdr d).length)
    (hmem : HoldsAt s 0x200 (klEncode s.regs.klRxHdr d)) : exec .klParse s = .next (endOp (putPdu d s)) := by
  have hf := klEncode_length s.regs.klRxHdr d h2
  have hn : s.outs.frmLen.toNat = (klEncode s.regs.klRxHdr d).length := by
    rw [hlen, BitVec.toNat_ofNat]
    omega
  have hsrc : parseSource s = klEncode s.regs.klRxHdr d ++ [] := by
    rw [parseSource, hn, List.append_nil]
    exact hmem
  exact exec_klParse hs (by omega) (hsrc ▸ klDecode_klEncode _ _ _ [] h1 h2)

/-- Settles O40: what KL_ENC leaves in FRMBUF is an encoded frame of KL_PARSE's own id. -/
theorem klEncThenParse : Obligations.KlEncThenParse := by
  intro s hs h1 h2 hid
  obtain ⟨d, hd⟩ : ∃ d, d = s.memRead 0x000 s.regs.txLen.toNat := ⟨_, rfl⟩
  have hlen : d.length = s.regs.txLen.toNat := by rw [hd, State.memRead_length]
  obtain ⟨f, t, hf, hexec, ⟨hstatus, _, _, hregs, _⟩, _, _, houts, hmem, _⟩ := (klEncCompletes s hs).1 h1 h2
  obtain ⟨v, hv⟩ : ∃ v, v = startOp (opcode .klParse) t := ⟨_, rfl⟩
  have hframe : f = klEncode v.regs.klRxHdr d := by
    rw [hf, ← hd, ← hid, hv, ← hregs]
    rfl
  have hparse : exec .klParse v = .next (endOp (putPdu d v)) := by
    refine exec_klParse_klEncode (by rw [hv]; rfl) (by omega) (by omega) ?_ ?_ <;> rw [← hframe, hv]
    · exact congrArg Outs.frmLen houts
    · exact hmem.congr rfl rfl
  obtain ⟨⟨hend, hop, _⟩, _, _, hout, hpdu, _⟩ := endOp_putPdu v (u := d) (by omega)
  refine ⟨t, _, hexec, by rw [hostStep_klParse (by rw [hstatus]; rfl), ← hv, hparse], ?_, ?_, hop, ?_, ?_, ?_⟩
  · rw [hend]
    rfl
  · rw [hend]
    rfl
  · rw [hout]
    simp [hlen]
  · rw [← hd, ← hlen]
    exact hpdu
  · rw [hout, ← memRead_headD s 0x000 s.regs.txLen.toNat h1, ← hd]

end Sys2Proof.Machine
end

