-- ==== Sys2Proof/Proofs/KlineLine.lean ====
section
/-! The K-Line as the sequencer reads it (spec/40_kline_codec.md R144, R145, R156): one primitive after the other, each
a `PortRead` of a known number of bytes. A frame is read by its three or four further reads, and a byte stream is
decoded exactly as KlDecode decodes it as a string. -/

namespace Sys2Proof.Machine

/-! ### One read of the line -/

theorem madeCalls_append (now : Time) (cs cs' : List PortCall) (log : List PortEvent) :
    madeCalls now (cs ++ cs') log = madeCalls now cs' (madeCalls now cs log) := by
  simp [madeCalls]

/-- `w` after the sequencer has performed `cs`, with `line` still to come from the K-Line. -/
def readsDone (cs : List PortCall) (line : List LineItem) (w : State) : State :=
  (w.setPort { w.port with log := madeCalls w.clock.now cs w.port.log }).setEnv { w.env with lineIn := line }

section
variable {n : Nat} {bs : List Byte} {line : List LineItem} {w : State} {next : List Byte → TxPos}

/-- A read that meets a silence loses the bytes before it (R87). -/
theorem lineTake_gap (h : bs.length < n) : lineTake n (bs.map .byte ++ .gap :: line) = .timeout line := by
  induction bs generalizing n with
  | nil =>
    obtain ⟨n, rfl⟩ : ∃ k, n = k + 1 := ⟨n - 1, by rw [List.length_nil] at h; omega⟩
    rfl
  | cons b bs ih =>
    rw [List.length_cons] at h
    obtain ⟨n, rfl⟩ : ∃ k, n = k + 1 := ⟨n - 1, by omega⟩
    simp only [List.map_cons, List.cons_append, lineTake, ih (n := n) (by omega)]

theorem klReadStep_bytes (hn : bs.length = n) (h : w.env.lineIn = bs.map .byte ++ line) :
    klReadStep .seq n w next = .go (next bs) (readsDone [.read n] line w) := by
  rw [klReadStep, portRead_of_bytes .seq bs line w n hn h]
  rfl

theorem klReadStep_gap (hn : bs.length < n) (h : w.env.lineIn = bs.map .byte ++ .gap :: line) :
    klReadStep .seq n w next = .go (.raise (.timeout .klRx 0)) (readsDone [.read n] line w) := by
  rw [klReadStep, portRead, h, lineTake_gap hn]
  rfl

end

/-- The position after the counter byte `c` was read (R148). -/
def afterCounter (c : Byte) : TxPos := if c.toNat < 0x80 then .raise (.violation .badFormat c) else .klId c

/-- The position after the line answered the first read of a receive. -/
def afterLine : LineItem → TxPos
  | .byte c => afterCounter c
  | .gap => .raise (.timeout .klRx 0)

/-- Over the K-Line the first primitive of a receive is a read like the others. -/
theorem recvStep_kline {w : State} (hp : w.regs.ctrl.proto = .kwpKline) :
    recvStep .seq w = klReadStep .seq 1 w fun bs => afterCounter (bs.headD 0) := by
  simp only [recvStep, hp, klReadStep, afterCounter]
  cases portRead .seq 1 w with
  | wait => rfl
  | timeout s => rfl
  | bytes bs s => exact (apply_ite (TxRes.go · s) _ _ _).symm

theorem recvStep_item {w : State} {x : LineItem} {line : List LineItem} (hp : w.regs.ctrl.proto = .kwpKline)
    (h : w.env.lineIn = x :: line) : recvStep .seq w = .go (afterLine x) (readsDone [.read 1] line w) := by
  rw [recvStep_kline hp]
  cases x with
  | byte c => exact klReadStep_bytes (bs := [c]) rfl h
  | gap => exact klReadStep_gap (bs := []) Nat.zero_lt_one h

/-! ### Reads one after the other -/

/-- The operation whose atomic step is `f` carries the transport work of request `req` in its position. -/
def CarriesTx (f : Pos → State → Micro) (wr : Bool) (req : List Byte) : Prop :=
  ∀ (q q' : TxPos) (w v : State), txStep .seq wr req q w = .go q' v → f (.tx req q) w = .go (v.goto (.tx req q'))

/-- `w` with its transport work at `q`, the calls `cs` made and `line` to come. -/
def reading (req : List Byte) (w : State) (cs : List PortCall) (line : List LineItem) (q : TxPos) : State :=
  (readsDone cs line w).goto (.tx req q)

/-- The reads `calls` take the transport work of `w` from `q`, with `line` to come, to `q'`, with `line'` to come: one
step and at least one item of the line for each. -/
structure LineSteps (f : Pos → State → Micro) (req : List Byte) (w : State) (calls : List PortCall)
    (line : List LineItem) (q : TxPos) (line' : List LineItem) (q' : TxPos) : Prop where
  steps : ∀ cs, StepsTo f calls.length (reading req w cs line q) (reading req w (cs ++ calls) line' q')
  reads : ∀ c ∈ calls, ∃ n, c = .read n
  left : line' <:+ line
  takes : calls.length + line'.length ≤ line.length

section
variable {f : Pos → State → Micro} {wr : Bool} {req : List Byte} {w : State} {o : Op} {q q' q'' : TxPos} {n : Nat}
  {bs : List Byte} {line line' line'' : List LineItem} {calls calls' cs : List PortCall} {next : List Byte → TxPos}

theorem reading_readsDone :
    (readsDone calls line' (reading req w cs line q)).goto (.tx req q') = reading req w (cs ++ calls) line' q' := by
  simp only [reading, readsDone, madeCalls_append, State.goto, State.setPort, State.setEnv, State.setOp, Option.map_map]
  rfl

theorem reading_op (ho : w.op = some o) : (reading req w cs line q).op = some { o with pos := .tx req q } := by
  rw [reading, State.goto_op, readsDone, State.setEnv_op, State.setPort_op, ho]
  rfl

theorem LineSteps.refl : LineSteps f req w [] line q line q where
  steps cs := by
    rw [List.append_nil]
    exact .refl _ _
  reads := by simp
  left := List.suffix_refl _
  takes := by simp

theorem LineSteps.trans (h : LineSteps f req w calls line q line' q')
    (h' : LineSteps f req w calls' line' q' line'' q'') :
    LineSteps f req w (calls ++ calls') line q line'' q'' where
  steps cs := by
    rw [List.length_append, Nat.add_comm, ← List.append_assoc]
    exact (h.steps cs).trans (h'.steps (cs ++ calls))
  reads c hc := (List.mem_append.mp hc).elim (h.reads c) (h'.reads c)
  left := h'.left.trans h.left
  takes := by
    have := h.takes
    have := h'.takes
    rw [List.length_append]
    omega

/-- One read. -/
theorem LineSteps.single (hf : CarriesTx f wr req) (ho : w.op = some o) (hl : line' <:+ line)
    (hlen : line'.length < line.length)
    (h : ∀ v : State, v.regs = w.regs → v.env.lineIn = line →
      txStep .seq wr req q v = .go q' (readsDone [.read n] line' v)) :
    LineSteps f req w [.read n] line q line' q' where
  steps cs := by
    refine .head (reading_op ho) (hf _ _ _ _ (h _ rfl rfl)) ?_
    rw [reading_readsDone]
    exact .refl _ _
  reads c hc := ⟨n, List.mem_singleton.mp hc⟩
  left := hl
  takes := by
    rw [List.length_singleton]
    omega

/-- A read whose bytes are there. -/
theorem LineSteps.bytes (hf : CarriesTx f wr req) (ho : w.op = some o) (h1 : 1 ≤ n) (hn : bs.length = n)
    (h : ∀ v : State, txStep .seq wr req q v = klReadStep .seq n v next) :
    LineSteps f req w [.read n] (bs.map .byte ++ line) q line (next bs) :=
  .single hf ho (List.suffix_append _ _) (by rw [List.length_append, List.length_map]; omega)
    fun v _ hv => (h v).trans (klReadStep_bytes hn hv)

/-- A read that meets a silence. -/
theorem LineSteps.gap (hf : CarriesTx f wr req) (ho : w.op = some o) (hn : bs.length < n)
    (h : ∀ v : State, txStep .seq wr req q v = klReadStep .seq n v next) :
    LineSteps f req w [.read n] (bs.map .byte ++ .gap :: line) q line (.raise (.timeout .klRx 0)) :=
  .single hf ho ((List.suffix_cons _ _).trans (List.suffix_append _ _))
    (by rw [List.length_append, List.length_cons]; omega) fun v _ hv => (h v).trans (klReadStep_gap hn hv)

/-- The first read of a receive, at a position that begins one. -/
theorem LineSteps.recv {x : LineItem} (hf : CarriesTx f wr req) (ho : w.op = some o)
    (hp : w.regs.ctrl.proto = .kwpKline)
    (h : ∀ v : State, v.regs = w.regs → txStep .seq wr req q v = recvStep .seq v) :
    LineSteps f req w [.read 1] (x :: line) q line (afterLine x) :=
  .single hf ho (List.suffix_cons _ _) (by rw [List.length_cons]; omega)
    fun v hr hv => (h v hr).trans (recvStep_item (by rw [hr, hp]) hv)

end

/-! ### A whole frame -/

/-- The reads of a frame after its counter byte (R145). -/
def furtherReads (head : List Byte) (n : Nat) : List PortCall :=
  if head.length = 3 then [.read 2, .read n, .read 1] else [.read 2, .read 1, .read n, .read 1]

section
variable {f : Pos → State → Micro} {wr : Bool} {req : List Byte} {w : State} {o : Op} {head d src : List Byte}
  {c cs i0 i1 l : Byte} {n : Nat} {line tail : List LineItem} {e : Err}

theorem afterCounter_klId (h : 0x80 ≤ c.toNat) : afterCounter c = .klId c := if_neg (by omega)

/-- The read of the id of a counted frame. -/
theorem counted_lineSteps (hf : CarriesTx f wr req) (ho : w.op = some o) (h : 0x81 ≤ c.toNat) :
    LineSteps f req w [.read 2] (.byte i0 :: .byte i1 :: line) (afterCounter c) line
      (.klBody [c, i0, i1] (c.toNat - 0x80)) := by
  have hne : c ≠ 0x80 := fun hc => by simp [hc] at h
  have hread := LineSteps.bytes (w := w) (line := line) (q := .klId c) (bs := [i0, i1]) (n := 2) hf ho (by omega) rfl
    fun _ => rfl
  rw [if_neg hne] at hread
  rw [afterCounter_klId (by omega)]
  exact hread

/-- The read of the id of a long-form frame. -/
theorem longId_lineSteps (hf : CarriesTx f wr req) (ho : w.op = some o) :
    LineSteps f req w [.read 2] (.byte i0 :: .byte i1 :: line) (afterCounter 0x80) line (.klLen 0x80 i0 i1) :=
  LineSteps.bytes (q := .klId 0x80) (n := 2) (bs := [i0, i1]) hf ho (by omega) rfl fun _ => rfl

/-- The reads of the id and the length byte of a long-form frame. -/
theorem long_lineSteps (hf : CarriesTx f wr req) (ho : w.op = some o) :
    LineSteps f req w [.read 2, .read 1] (.byte i0 :: .byte i1 :: .byte l :: line) (afterCounter 0x80) line
      (if l = 0 then .raise (.violation .badFormat 0x80) else .klBody [0x80, i0, i1, l] l.toNat) :=
  (longId_lineSteps hf ho).trans
    (LineSteps.bytes (q := .klLen 0x80 i0 i1) (n := 1) (bs := [l]) (line := line) hf ho le_rfl rfl fun _ => rfl)

/-- The reads of the PDU and the checksum. -/
theorem body_lineSteps (hf : CarriesTx f wr req) (ho : w.op = some o) (h1 : 1 ≤ n) (hn : d.length = n) :
    LineSteps f req w [.read n, .read 1] ((d ++ [cs]).map .byte ++ line) (.klBody head n) line
      (.klJudge head d cs) := by
  have hread := LineSteps.bytes (w := w) (line := .byte cs :: line) (q := .klBody head n) hf ho h1 hn fun _ => rfl
  have hsum := LineSteps.bytes (w := w) (line := line) (q := .klSum head d) (bs := [cs]) hf ho le_rfl rfl fun _ => rfl
  rw [List.map_append, List.append_assoc]
  exact hread.trans hsum

theorem klHeadFor_cons (h : klHeadFor head n) : head = head.headD 0 :: head.tail := by
  rcases h with ⟨c, i0, i1, rfl, _⟩ | ⟨i0, i1, l, rfl, _⟩ <;> rfl

/-- A whole frame on the line is read by its three or four further reads, to the judgement on it (R145). -/
theorem frame_lineSteps (hf : CarriesTx f wr req) (ho : w.op = some o) (hh : klHeadFor head d.length) :
    LineSteps f req w (furtherReads head d.length) ((head.tail ++ d ++ [cs]).map .byte ++ line)
      (afterCounter (head.headD 0)) line (.klJudge head d cs) := by
  rw [List.append_assoc, List.map_append, List.append_assoc]
  rcases hh with ⟨c, i0, i1, rfl, hc, hn⟩ | ⟨i0, i1, l, rfl, hl, hn⟩
  · exact (counted_lineSteps hf ho hc).trans (hn ▸ body_lineSteps hf ho (by omega) rfl)
  · have hlong := long_lineSteps (w := w) (i0 := i0) (i1 := i1) (l := l) (line := (d ++ [cs]).map .byte ++ line) hf ho
    rw [if_neg fun h : l = 0 => by simp [h] at hl, ← hn] at hlong
    exact hlong.trans (body_lineSteps hf ho (by omega) rfl)

theorem frameReads_eq (hdr : BitVec 16) (n : Nat) : frameReads n = .read 1 :: furtherReads (klHead hdr n) n := by
  unfold frameReads furtherReads
  rw [klHead_length]
  split <;> rfl

theorem furtherReads_length (head : List Byte) (n : Nat) : (furtherReads head n).length ≤ 4 := by
  unfold furtherReads
  split <;> simp

/-- An encoded frame on the line, its first item `x` read: the reads R145 gives it, and no more. -/
theorem klEncode_lineSteps {hdr : BitVec 16} {x : LineItem} {rest : List LineItem} (hf : CarriesTx f wr req)
    (ho : w.op = some o) (h1 : 1 ≤ d.length) (h2 : d.length ≤ 255)
    (hx : (klEncode hdr d).map .byte ++ rest = x :: line) :
    ∃ calls, frameReads d.length = .read 1 :: calls ∧ calls.length ≤ 4
      ∧ LineSteps f req w calls line (afterLine x) rest
        (.klJudge (klHead hdr d.length) d (klChecksum (klHead hdr d.length ++ d))) := by
  have hh := klHeadFor_klHead (hdr := hdr) h1 h2
  have hframe := frame_lineSteps (w := w) (cs := klChecksum (klHead hdr d.length ++ d)) (line := rest) hf ho hh
  rw [klEncode_eq] at hx
  generalize klChecksum (klHead hdr d.length ++ d) = c at hx hframe ⊢
  rw [klHeadFor_cons hh, List.cons_append, List.cons_append, List.map_cons, List.cons_append] at hx
  obtain ⟨rfl, rfl⟩ := List.cons.inj hx
  exact ⟨_, frameReads_eq hdr _, furtherReads_length _ _, hframe⟩

/-! ### A frame that fails -/

/-- A PDU or checksum that is cut short is cut short by a silence. -/
theorem shortBody_lineSteps {calls : List PortCall} {q : TxPos} (hf : CarriesTx f wr req) (ho : w.op = some o)
    (hl : LineSteps f req w calls line q (src.map .byte ++ tail) (.klBody head n)) (h1 : 1 ≤ n)
    (hr : klReadBody (.timeout .klRx 0) head n src = .error e) (ht : e = .timeout .klRx 0 → tail.head? = some .gap) :
    ∃ calls line', LineSteps f req w calls line q line' (.raise e) := by
  obtain ⟨hs, rfl⟩ := klReadBody_error hr
  obtain ⟨rest, rfl⟩ := List.head?_eq_some_iff.mp (ht rfl)
  rcases Nat.lt_or_eq_of_le hs with hlt | heq
  · exact ⟨_, _, hl.trans (.gap hf ho hlt fun _ => rfl)⟩
  · exact ⟨_, _, (hl.trans (.bytes hf ho h1 heq fun _ => rfl)).trans
      (.gap (bs := []) hf ho Nat.zero_lt_one fun _ => rfl)⟩

/-- A frame that the decoder refuses before it is whole, or one cut short by a silence, ends in its error. -/
theorem failed_lineSteps (hf : CarriesTx f wr req) (ho : w.op = some o)
    (hr : klReadFrame (.timeout .klRx 0) (c :: src) = .error e) (ht : e = .timeout .klRx 0 → tail.head? = some .gap) :
    ∃ calls line', LineSteps f req w calls (src.map .byte ++ tail) (afterCounter c) line' (.raise e) := by
  have hshort : e = .timeout .klRx 0 → ∃ line, tail = .gap :: line := fun h => List.head?_eq_some_iff.mp (ht h)
  cases frameStart (c :: src) with
  | badCounter _ _ hc =>
    rw [klReadFrame_badCounter hc] at hr
    cases hr
    rw [afterCounter, if_pos hc]
    exact ⟨_, _, .refl⟩
  | noId _ _ hc hs =>
    rw [klReadFrame_noId hc hs] at hr
    cases hr
    obtain ⟨rest, rfl⟩ := hshort rfl
    rw [afterCounter_klId hc]
    exact ⟨_, _, .gap hf ho hs fun _ => rfl⟩
  | counted _ i0 i1 src hc =>
    rw [klReadFrame_counted hc] at hr
    exact shortBody_lineSteps hf ho (counted_lineSteps hf ho hc) (by omega) hr ht
  | noLength i0 i1 =>
    cases hr
    obtain ⟨rest, rfl⟩ := hshort rfl
    exact ⟨_, _, (longId_lineSteps hf ho).trans (LineSteps.gap (bs := []) hf ho Nat.zero_lt_one fun _ => rfl)⟩
  | zeroLength i0 i1 src =>
    cases hr
    exact ⟨_, _, long_lineSteps (l := 0) hf ho⟩
  | long i0 i1 l src hl =>
    rw [klReadFrame_long hl] at hr
    have hlong := long_lineSteps (w := w) (i0 := i0) (i1 := i1) (l := l) (line := src.map .byte ++ tail) hf ho
    rw [if_neg fun h : l = 0 => by simp [h] at hl] at hlong
    exact shortBody_lineSteps hf ho hlong hl hr ht

end

/-! ### A byte stream -/

/-- Where the transport work stands once the line's bytes `bs`, with `tail` behind them, are decoded, and what is left:
at the judgement that accepts KlDecode's frame, or where KlDecode's error is raised. -/
inductive LineJudged (wr : Bool) (req : List Byte) (r : Regs) (bs : List Byte) (tail : List LineItem) :
    TxPos → List LineItem → Prop where
  | accepted (head d : List Byte) (cs : Byte) (pre post : List Byte) (hh : klHeadFor head d.length)
      (hv : klVerdict r.klRxHdr r.ctrl.klChkVerify head d cs = .accept)
      (hd : klDecode (.timeout .klRx 0) r.klRxHdr r.ctrl.klChkVerify bs = .ok (d, head ++ d ++ [cs]))
      (hbs : bs = pre ++ (head ++ d ++ [cs]) ++ post) :
      LineJudged wr req r bs tail (.klJudge head d cs) (post.map .byte ++ tail)
  | refused (q : TxPos) (line : List LineItem) (e : Err)
      (hq : ∀ v : State, v.regs = r → txStep .seq wr req q v = .fail e v)
      (hd : klDecode (.timeout .klRx 0) r.klRxHdr r.ctrl.klChkVerify bs = .error e) :
      LineJudged wr req r bs tail q line

section
variable {f : Pos → State → Micro} {wr : Bool} {req : List Byte} {w : State} {o : Op} {tail : List LineItem}

/-- A string that is decoded, or cut short by a silence, has a first item on the line. -/
theorem exists_item {r : Regs} {bs : List Byte}
    (ht : klDecode (.timeout .klRx 0) r.klRxHdr r.ctrl.klChkVerify bs = .error (.timeout .klRx 0) →
      tail.head? = some .gap) : ∃ x line, bs.map .byte ++ tail = x :: line := by
  cases bs with
  | cons b bs => exact ⟨_, _, rfl⟩
  | nil =>
    obtain ⟨rest, rfl⟩ := List.head?_eq_some_iff.mp (ht rfl)
    exact ⟨_, _, rfl⟩

/-- A frame the decoder drops changes nothing of what follows it. -/
theorem LineJudged.after_foreign {r : Regs} {bs : List Byte} {k : KlRead} {q : TxPos} {line : List LineItem}
    (hr : klReadFrame (.timeout .klRx 0) bs = .ok k)
    (hv : klVerdict r.klRxHdr r.ctrl.klChkVerify k.head k.pdu k.cs = .foreign)
    (h : LineJudged wr req r k.rest tail q line) : LineJudged wr req r bs tail q line := by
  have hdec := klDecode_foreign hr hv
  obtain ⟨_, hsrc⟩ := klReadFrame_ok hr
  cases h with
  | accepted head d cs pre post hh hv hd hbs =>
    exact .accepted head d cs (k.head ++ k.pdu ++ [k.cs] ++ pre) post hh hv (hdec.trans hd) (by rw [hsrc, hbs]; simp)
  | refused _ _ e hq hd => exact .refused q line e hq (hdec.trans hd)

/-- The line is decoded frame by frame as KlDecode decodes its bytes (R144, R156): after the first item `x` was read,
with `line` behind it. -/
theorem decode_lineSteps (hf : CarriesTx f wr req) (ho : w.op = some o) (hp : w.regs.ctrl.proto = .kwpKline)
    {bs : List Byte} {x : LineItem} {line : List LineItem} (hx : bs.map .byte ++ tail = x :: line)
    (ht : klDecode (.timeout .klRx 0) w.regs.klRxHdr w.regs.ctrl.klChkVerify bs = .error (.timeout .klRx 0) →
      tail.head? = some .gap) :
    ∃ calls line' q, LineSteps f req w calls line (afterLine x) line' q ∧ LineJudged wr req w.regs bs tail q line' := by
  cases hr : klReadFrame (.timeout .klRx 0) bs with
  | error e =>
    have hd := klDecode_error (hdr := w.regs.klRxHdr) (verify := w.regs.ctrl.klChkVerify) hr
    cases bs with
    | nil =>
      cases hr
      obtain ⟨rest, rfl⟩ := List.head?_eq_some_iff.mp (ht hd)
      cases hx
      exact ⟨_, _, _, .refl, .refused _ _ _ (fun _ _ => rfl) hd⟩
    | cons c src =>
      cases hx
      obtain ⟨calls, line', hl⟩ := failed_lineSteps (w := w) hf ho hr fun he => ht (by rw [hd, he])
      exact ⟨_, _, _, hl, .refused _ _ _ (fun _ _ => rfl) hd⟩
  | ok k =>
    obtain ⟨hh, hsrc⟩ := klReadFrame_ok hr
    have hlen := klReadFrame_shortens hr
    have hframe := frame_lineSteps (w := w) (cs := k.cs) (line := k.rest.map .byte ++ tail) hf ho hh
    have hline : bs.map .byte ++ tail = .byte (k.head.headD 0) ::
        ((k.head.tail ++ k.pdu ++ [k.cs]).map .byte ++ (k.rest.map .byte ++ tail)) := by
      rw [hsrc, klHeadFor_cons hh]
      simp
    obtain ⟨rfl, rfl⟩ := List.cons.inj (hx.symm.trans hline)
    cases hv : klVerdict w.regs.klRxHdr w.regs.ctrl.klChkVerify k.head k.pdu k.cs with
    | accept =>
      exact ⟨_, _, _, hframe, .accepted _ _ _ [] k.rest hh hv (klDecode_accept hr hv) (by simpa using hsrc)⟩
    | refuse e =>
      refine ⟨_, _, _, hframe, .refused _ _ e (fun v hregs => ?_) (klDecode_refuse hr hv)⟩
      simp only [txStep, hregs, hv]
    | foreign =>
      have ht' : klDecode (.timeout .klRx 0) w.regs.klRxHdr w.regs.ctrl.klChkVerify k.rest = .error (.timeout .klRx 0) →
          tail.head? = some .gap := fun h => ht ((klDecode_foreign hr hv).trans h)
      obtain ⟨y, rest, hy⟩ := exists_item ht'
      have hnext : LineSteps f req w [.read 1] (y :: rest) (.klJudge k.head k.pdu k.cs) rest (afterLine y) :=
        .recv hf ho hp fun v hregs => by simp only [txStep, hregs, hv]
      obtain ⟨calls, line', q, hl, hj⟩ := decode_lineSteps hf ho hp hy ht'
      exact ⟨_, _, _, hframe.trans (hy ▸ hnext.trans hl), hj.after_foreign hr hv⟩
termination_by bs.length

end

end Sys2Proof.Machine
end

