-- ==== Sys2Proof/Proofs/KlineRecv.lean ====
section
/-! Whole runs of TP_RECV over the K-Line (spec/43_transport.md R217, R223, R227): the steps to the decoder's judgement,
and the ends of an accepted frame and of an error. -/

namespace Sys2Proof.Machine

section
variable {s : State} {x : LineItem} {line : List LineItem} {q q' : TxPos} {bs : List Byte} {tail : List LineItem}
  {cs calls : List PortCall} {env : Env}

theorem hears_kline (hp : s.regs.ctrl.proto = .kwpKline) (hx : s.env.lineIn = x :: line) :
    Hears s (.read 1) { s.env with lineIn := line } (afterLine x) := fun w hr he => by
  rw [recvStep_item (by rw [hr, hp]) (by rw [he, hx]), ← he]
  rfl

theorem carriesTx_tpRecv : CarriesTx stepTpRecv true [] := fun _ _ _ _ h => stepTpRecv_go h

/-- TP_RECV's receive has performed `cs`, after SyncTimeout if that was due (R217), and stands at `q`. -/
def listening (s : State) (cs : List PortCall) (env : Env) (q : TxPos) : State :=
  (((s.setLock .seq).setPort
    { timeout := s.regs.tRxTimeout, line := s.port.line
      log := madeCalls s.clock.now (syncCalls s ++ cs) s.port.log }).setEnv env).setOp
    (some { code := opcode .tpRecv, pos := .tx [] q })

theorem reading_listening : reading [] (listening s cs env q) calls line q' =
    listening s (cs ++ calls) { env with lineIn := line } q' := by
  simp only [reading, readsDone, listening, ← List.append_assoc, madeCalls_append _ (syncCalls s ++ cs) calls,
    State.goto, State.setEnv, State.setPort, State.setOp, State.setLock, Option.map_some]

/-- TP_RECV decodes the line to the judgement KlDecode comes to (R144, R227), with steps to spare. -/
theorem tpRecv_judged (hs : Started .tpRecv s) (hup : s.status.portOpen = true) (hl : s.lock = .free)
    (hp : s.regs.ctrl.proto = .kwpKline) (hx : s.env.lineIn = bs.map .byte ++ tail)
    (ht : klDecode (.timeout .klRx 0) s.regs.klRxHdr s.regs.ctrl.klChkVerify bs = .error (.timeout .klRx 0) →
      tail.head? = some .gap) :
    ∃ k calls line q, StepsTo stepTpRecv k s (listening s calls { s.env with lineIn := line } q) ∧ k + 3 ≤ runBudget s
      ∧ (∀ c ∈ calls, ∃ n, c = .read n) ∧ line <:+ s.env.lineIn ∧ LineJudged true [] s.regs bs tail q line := by
  obtain ⟨x, line, hitem⟩ := exists_item ht
  obtain ⟨k, hk, hheard⟩ := heard_stepsTo hs hup hl (hears_kline hp (hx.trans hitem))
  obtain ⟨w, hw⟩ : ∃ w, w = listening s [.read 1] { s.env with lineIn := line } (afterLine x) := ⟨_, rfl⟩
  have hregs : w.regs = s.regs := by rw [hw]; rfl
  have hop : w.op = some { code := opcode .tpRecv, pos := .tx [] (afterLine x) } := by rw [hw]; rfl
  obtain ⟨calls, line', q, hread, hj⟩ :=
    decode_lineSteps carriesTx_tpRecv hop (hregs.symm ▸ hp) hitem (hregs.symm ▸ ht)
  have hfirst : heard s (.read 1) { s.env with lineIn := line } (afterLine x) = w := by rw [hw]; rfl
  have hbegin : reading [] w [] line (afterLine x) = w := by rw [hw]; exact reading_listening
  have hend : reading [] w ([] ++ calls) line' q = listening s (.read 1 :: calls) { s.env with lineIn := line' } q := by
    rw [hw]
    exact reading_listening
  have hsteps := hread.steps []
  rw [hbegin, hend] at hsteps
  rw [hfirst] at hheard
  rw [hregs] at hj
  have htakes := hread.takes
  have hbudget : 2 * (line.length + 1) + 64 ≤ runBudget s := by
    rw [runBudget, Env.pending, hx, hitem, List.length_cons]
    omega
  have hk' : calls.length + k + 3 ≤ runBudget s := by omega
  have hreads : ∀ c ∈ .read 1 :: calls, ∃ n, c = .read n := by simpa using hread.reads
  have hleft : line' <:+ s.env.lineIn := by
    rw [hx, hitem]
    exact hread.left.trans (List.suffix_cons _ _)
  exact ⟨_, _, line', q, hheard.trans hsteps, hk', hreads, hleft, hj⟩

/-! ### The end of an accepted frame -/

/-- From the end of the receive: release, outputs, end. -/
theorem recvRest_stepsTo {w v : State} {u : List Byte} (hop : w.op = some { code := opcode .tpRecv, pos := .tx [] q })
    (h : txStep .seq true [] q w = .got u v) : StepsTo stepTpRecv 3 w (recvRest u v) := by
  have hv : v.op = some { code := opcode .tpRecv, pos := .tx [] q } :=
    (txStep_work (t := v) (by rw [h]; rfl)).op.trans hop
  have hgot : stepTpRecv (.tx [] q) w = .go (v.goto (.release (.data u))) := by
    simp only [stepTpRecv, seqTx, seqTxWith, h]
  have hrel : (v.goto (.release (.data u))).op = some { code := opcode .tpRecv, pos := .release (.data u) } := by
    rw [State.goto_op, hv]
    rfl
  have hfin : (releaseTo (v.goto (.release (.data u))) (.finish (.data u))).op =
      some { code := opcode .tpRecv, pos := .finish (.data u) } := by
    rw [releaseTo_op, hrel]
    rfl
  exact .head hop hgot (.head hrel rfl (.head hfin rfl (.refl _ _)))

/-- The accepted frame is captured, and lands in FRMBUF (R223). -/
theorem txStep_accept {w : State} {head d : List Byte} {c : Byte}
    (hv : klVerdict w.regs.klRxHdr w.regs.ctrl.klChkVerify head d c = .accept) :
    txStep .seq true [] (.klJudge head d c) w = .got d (capPush .incoming d (putFrame (head ++ d ++ [c]) w)) := by
  simp only [txStep, hv]
  rfl

/-- What TP_RECV's end leaves of the frame `f` and its PDU `d` (R227). -/
theorem recvRest_kline {y : State} {f d : List Byte} (hp : y.regs.ctrl.proto = .kwpKline) (hf : f.length ≤ 512)
    (hd : d.length ≤ 256) :
    ∃ t live, t = recvRest d (capPush .incoming d (putFrame f y))
      ∧ live = pushed y.regs.capCfg y.clock.now .incoming d y.cap.live ∧ Closes y t
      ∧ HoldsAt t 0x200 f ∧ HoldsAt t 0x100 d ∧ SameOutside2 y t 0x200 f.length 0x100 d.length
      ∧ t.outs = { y.outs with
          frmLen := BitVec.ofNat 10 f.length, rxLen := BitVec.ofNat 9 d.length, respStatus := d.headD 0
          capCount := countOf y live }
      ∧ t.cap = { y.cap with live := live } := by
  obtain ⟨z, hz⟩ : ∃ z, z = releaseTo ((capPush .incoming d (putFrame f y)).goto (.release (.data d)))
    (.finish (.data d)) := ⟨_, rfl⟩
  have hregs : z.regs = y.regs := by
    rw [hz, releaseTo_regs, State.goto_regs, (capPush_frame _ _ _).regs, (putFrame_frame _ _).regs]
  have hrest : recvRest d (capPush .incoming d (putFrame f y)) = endOp (putPdu d z) := by
    rw [recvRest, ← hz]
    simp only [recvOutputs, hregs, hp]
  have hpeek : ∀ b, z.peek b = (putFrame f y).peek b := by
    rw [hz]
    exact peek_congr (by simp) (by simp [(capPush_frame _ _ _).epoch])
  obtain ⟨_, _, hcap, houts, hpdu, hout⟩ := endOp_putPdu z hd
  have hmem : HoldsAt (endOp (putPdu d z)) 0x200 f := by
    refine (State.memRead_congr _ _ _ _ fun i _ => ?_).trans (putFrame_memRead f y hf)
    rw [hout _ (.inr (by omega)), hpeek]
  have hsame : SameOutside2 y (endOp (putPdu d z)) 0x200 f.length 0x100 d.length := fun b hb hb' => by
    rw [hout b hb', hpeek, putFrame_peek f y b hb]
  obtain ⟨m, hm, _⟩ := putFrame_eq f y
  refine ⟨_, _, rfl, rfl, (closes_recvRest d _).of_putFrame, ?_⟩
  rw [hrest]
  refine ⟨hmem, hpdu, hsame, ?_, ?_⟩
  · rw [houts, hz, capPush_pushed, hm]
    rfl
  · rw [hcap, hz, capPush_pushed, hm]
    rfl

/-- What a failed receive leaves. -/
theorem raiseError_listening (e : Err) (hl : s.lock = .free) :
    EndsAs s.status.failed s (raiseError e (listening s cs env q)) ∧ SameRam s (raiseError e (listening s cs env q))
      ∧ (raiseError e (listening s cs env q)).outs = { s.outs with errCode := e.codeWord, errInfo := e.infoWord }
      ∧ (raiseError e (listening s cs env q)).cap = s.cap ∧ (raiseError e (listening s cs env q)).clock = s.clock
      ∧ (raiseError e (listening s cs env q)).ka = s.ka ∧ (raiseError e (listening s cs env q)).env = env
      ∧ (raiseError e (listening s cs env q)).port =
        { timeout := s.regs.tRxTimeout, line := s.port.line
          log := madeCalls s.clock.now (syncCalls s ++ cs) s.port.log } := by
  refine ⟨⟨?_, ?_, ?_, ?_, ?_, ?_, ?_, ?_⟩, peek_congr ?_ ?_, ?_, ?_, ?_, ?_, ?_, ?_⟩ <;>
    simp [listening, Status.failed, hl]

end

theorem klHeadFor_length {head : List Byte} {n : Nat} (h : klHeadFor head n) : head.length ≤ 4 := by
  rcases h with ⟨c, i0, i1, rfl, _⟩ | ⟨i0, i1, l, rfl, _⟩ <;> simp

/-- Settles O49: the run to the decoder's judgement, and the end it brings. -/
theorem tpRecvDecodesKline : Obligations.TpRecvDecodesKline := by
  intro s bs tail hs hup hl hp hx
  constructor
  · intro d f hdec
    obtain ⟨k, calls, line, q, hrun, hk, hreads, _, hj⟩ := tpRecv_judged hs hup hl hp hx (by rw [hdec]; nofun)
    cases hj with
    | refused _ _ e _ hd => rw [hdec] at hd; cases hd
    | accepted head d cs pre post hh hv hd hbs =>
      obtain ⟨rfl, rfl⟩ := Prod.mk.inj (Except.ok.inj (hdec.symm.trans hd))
      have hdlen := klDecodeFrom_length _ hdec
      have hhead := klHeadFor_length hh
      obtain ⟨t, live, ht, hlive, hclose, hframe, hpdu, hout, houts, hcap⟩ := recvRest_kline
        (y := listening s calls { s.env with lineIn := post.map .byte ++ tail } (.klJudge head d cs))
        (f := head ++ d ++ [cs]) (d := d) hp (by simp; omega) (by omega)
      have hend := hrun.trans (recvRest_stepsTo rfl (txStep_accept hv))
      rw [← ht] at hend
      exact ⟨t, pre, post, calls, live, exec_of_stepsTo hend hclose.op (by omega), hbs, hreads, hlive,
        ⟨hclose.status, hclose.op, hclose.lock.trans hl.symm, hclose.regs, hclose.own⟩, hframe, hpdu, hout, houts, hcap,
        hclose.clock, hclose.ka, hclose.env, hclose.port⟩
  · intro e hdec htail
    obtain ⟨k, calls, line, q, hrun, hk, hreads, hleft, hj⟩ := tpRecv_judged hs hup hl hp hx
      (fun h => htail (Except.error.inj (hdec.symm.trans h)))
    cases hj with
    | accepted head d cs pre post hh hv hd hbs => rw [hdec] at hd; cases hd
    | refused _ _ e' hq hd =>
      obtain rfl : e = e' := Except.error.inj (hdec.symm.trans hd)
      have hfail : stepTpRecv (.tx [] q) (listening s calls { s.env with lineIn := line } q) =
          .go (raiseError e (listening s calls { s.env with lineIn := line } q)) := by
        simp only [stepTpRecv, seqTx, seqTxWith, hq (listening s calls { s.env with lineIn := line } q) rfl]
      exact ⟨_, calls, line, exec_of_stepsTo (hrun.trans (.head rfl hfail (.refl _ _))) rfl (by omega), hreads, hleft,
        raiseError_listening _ hl⟩

end Sys2Proof.Machine
end

