-- ==== Sys2Proof/Proofs/KlineExec.lean ====
section
/-! Whole runs of KWP_EXEC over the K-Line (spec/40_kline_codec.md R145; spec/44_kwp_engine.md R242, R243, R250): what
stands while replies come in, the loop over the pending ones, and the two ends. -/

namespace Sys2Proof.Machine

/-! ### The state while replies come in -/

/-- The last frame sent or received once the replies `qs` to the request `p` came in. -/
def frameAfter (s : State) (p : List Byte) (qs : List (List Byte)) : List Byte :=
  (qs.map (klEncode s.regs.klRxHdr)).getLastD (klEncode s.regs.klTxHdr p)

/-- How far FRMBUF was written by then. -/
def frameExtent (s : State) (p : List Byte) (qs : List (List Byte)) : Nat :=
  ((klEncode s.regs.klTxHdr p :: qs.map (klEncode s.regs.klRxHdr)).map List.length).foldl max 0

/-- The reads of the replies `qs` (R145). -/
def replyReads (qs : List (List Byte)) : List PortCall := (qs.map fun q => frameReads q.length).flatten

/-- What the line delivers of the replies `qs`. -/
def replyItems (s : State) (qs : List (List Byte)) : List LineItem :=
  ((qs.map (klEncode s.regs.klRxHdr)).flatten).map .byte

/-- `w` is `s` with the request `p` of KWP_EXEC sent over the K-Line and answered `n`, the reads `calls` made that leave
`line` to come, and the replies `qs` written to FRMBUF and RXBUF. -/
structure KlExchanged (s : State) (p : List Byte) (n : Int) (ws : List Int) (qs : List (List Byte))
    (calls : List PortCall) (line : List LineItem) (w : State) : Prop where
  op : ∃ q, w.op = some { code := opcode .kwpExec, pos := q }
  lock : w.lock = .seq
  status : w.status = s.status
  regs : w.regs = s.regs
  own : SameOwn s w
  clock : w.clock = s.clock
  ka : w.ka = s.ka
  cap : w.cap = { s.cap with live := liveAfter s p qs }
  outs : w.outs = { s.outs with
    frmLen := BitVec.ofNat 10 (frameAfter s p qs).length, txWritten := BitVec.ofInt 16 n, rxLen := rxLenAfter s qs
    respStatus := respAfter s qs, capCount := countOf s (liveAfter s p qs) }
  env : w.env = { s.env with writeAns := ws, lineIn := line }
  port : w.port =
    { timeout := s.regs.tRxTimeout, line := s.port.line
      log := madeCalls s.clock.now (syncCalls s ++ [.write (klEncode s.regs.klTxHdr p)] ++ calls) s.port.log }
  outside : SameOutside2 s w 0x100 ((qs.map List.length).foldl max 0) 0x200 (frameExtent s p qs)
  holds : ∀ q, qs.getLast? = some q → HoldsAt w 0x100 q
  frame : HoldsAt w 0x200 (frameAfter s p qs)

theorem frameAfter_snoc (s : State) (p : List Byte) (qs : List (List Byte)) (q : List Byte) :
    frameAfter s p (qs ++ [q]) = klEncode s.regs.klRxHdr q := by
  simp [frameAfter]

theorem frameExtent_snoc (s : State) (p : List Byte) (qs : List (List Byte)) (q : List Byte) :
    frameExtent s p (qs ++ [q]) = max (frameExtent s p qs) (klEncode s.regs.klRxHdr q).length := by
  simp [frameExtent]

section
variable {s w z : State} {p q : List Byte} {n : Int} {ws : List Int} {qs : List (List Byte)} {calls cs : List PortCall}
  {line line' rest : List LineItem}

/-- More reads. -/
theorem KlExchanged.reads (h : KlExchanged s p n ws qs calls line w) (x : TxPos) :
    KlExchanged s p n ws qs (calls ++ cs) line' (reading p w cs line' x) := by
  obtain ⟨pos, hop⟩ := h.op
  refine { h with
    op := ⟨.tx p x, ?_⟩, env := ?_, port := ?_
    holds := fun u hu => (h.holds u hu).congr rfl rfl, frame := h.frame.congr rfl rfl }
  · exact reading_op hop
  · rw [reading, State.goto_env, readsDone, State.setEnv_env, h.env]
  · rw [reading, State.goto_port, readsDone, State.setEnv_port, State.setPort_port, h.port, h.clock,
      ← List.append_assoc, madeCalls_append _ _ cs]

/-- The reply `q` accepted by the decoder: its frame in FRMBUF, and captured (R223). -/
def klCaptured (p q : List Byte) (w : State) : State :=
  (capPush .incoming q (putFrame (klEncode w.regs.klRxHdr q) w)).goto (.got p q)

/-- The reply `q` in RXBUF too (R243). -/
def klAnswered (p q : List Byte) (w : State) : State := putPdu q (klCaptured p q w)

/-- A reply changes buffers, captures and output registers. -/
theorem klAnswered_eq (p q : List Byte) (w : State) :
    ∃ m live, live = pushed w.regs.capCfg w.clock.now .incoming q w.cap.live
      ∧ klAnswered p q w = (((w.setRam m).setCap { w.cap with live := live }).setOuts { w.outs with
          frmLen := BitVec.ofNat 10 (klEncode w.regs.klRxHdr q).length, rxLen := BitVec.ofNat 9 q.length
          respStatus := q.headD 0, capCount := countOf w live }).goto (.got p q) := by
  obtain ⟨m, hm, _⟩ := putFrame_eq (klEncode w.regs.klRxHdr q) w
  obtain ⟨m', hm', _⟩ := putPdu_eq q (klCaptured p q w)
  refine ⟨m', _, rfl, ?_⟩
  rw [klAnswered, hm', klCaptured, capPush_pushed, hm]
  rfl

theorem klCaptured_peek (b : Nat) :
    (klCaptured p q w).peek b = (putFrame (klEncode w.regs.klRxHdr q) w).peek b :=
  peek_congr (by simp [klCaptured]) (by simp [klCaptured, (capPush_frame _ _ _).epoch]) b

/-- The PDU in RXBUF leaves the frame in FRMBUF (R82). -/
theorem klAnswered_frame (hq : q.length ≤ 255) : HoldsAt (klAnswered p q w) 0x200 (klEncode w.regs.klRxHdr q) := by
  have hf := klEncode_length w.regs.klRxHdr q hq
  refine (State.memRead_congr _ _ _ _ fun i _ => ?_).trans (putFrame_memRead _ w (by omega))
  rw [klAnswered, putPdu_peek _ _ _ (.inr (by simp only [rxBuf]; omega)), klCaptured_peek]

theorem KlExchanged.answer (h : KlExchanged s p n ws qs calls line w) (hq : q.length ≤ 255) :
    KlExchanged s p n ws (qs ++ [q]) calls line (klAnswered p q w) := by
  obtain ⟨m, live, hlive, heq⟩ := klAnswered_eq p q w
  have hnext : live = liveAfter s p (qs ++ [q]) := by
    rw [hlive, liveAfter, exchange_snoc, pushedAll_snoc, h.regs, h.clock, h.cap]
    rfl
  have hcount : countOf w live = countOf s live := countOf_next h.regs (by rw [h.outs]) _
  have hframe := klAnswered_frame (p := p) (w := w) hq
  have hpdu : HoldsAt (klAnswered p q w) 0x100 q := putPdu_memRead q _ (by omega)
  have hout : SameOutside2 s (klAnswered p q w) 0x100 (((qs ++ [q]).map List.length).foldl max 0) 0x200
      (frameExtent s p (qs ++ [q])) := fun b hb hb' => by
    rw [foldl_max_snoc] at hb
    rw [frameExtent_snoc] at hb'
    rw [klAnswered, putPdu_peek q _ b (by simp only [rxBuf]; omega), klCaptured_peek,
      putFrame_peek _ w b (by rw [h.regs]; simp only [frmBuf]; omega)]
    exact h.outside b (by omega) (by omega)
  have hrx : rxLenAfter s (qs ++ [q]) = BitVec.ofNat 9 q.length := by simp [rxLenAfter]
  have hresp : respAfter s (qs ++ [q]) = q.headD 0 := by simp [respAfter]
  obtain ⟨pos, hop⟩ := h.op
  rw [h.regs] at hframe
  rw [hcount, h.regs, hnext] at heq
  refine ⟨⟨.got p q, ?_⟩, ?_, ?_, ?_, ?_, ?_, ?_, ?_, ?_, ?_, ?_, hout, fun u hu => ?_, ?_⟩
  case refine_12 =>
    obtain rfl : q = u := by simpa using hu
    exact hpdu
  case refine_13 =>
    rw [frameAfter_snoc]
    exact hframe
  all_goals rw [heq]
  · rw [State.goto_op, State.setOuts_op, State.setCap_op, State.setRam_op, hop]
    rfl
  · exact h.lock
  · exact h.status
  · exact h.regs
  · exact h.own
  · exact h.clock
  · exact h.ka
  · simp only [State.goto_cap, State.setOuts_cap, State.setCap_cap, h.cap]
  · rw [hrx, hresp, frameAfter_snoc]
    simp only [State.goto_outs, State.setOuts_outs, h.outs]
  · exact h.env
  · exact h.port

end

/-! ### One reply -/

section
variable {s w v t : State} {p q u : List Byte} {n : Int} {ws : List Int} {qs : List (List Byte)} {calls : List PortCall}
  {x y : LineItem} {line rest : List LineItem} {k : Nat}

theorem carriesTx_kwpExec : CarriesTx stepKwpExec true p := fun _ _ _ _ h => by
  simp only [stepKwpExec, seqTx, seqTxWith, h]

/-- The decoder's judgement on the encoded reply `q`: it is captured. -/
theorem stepKwpExec_judge (hid : w.regs = s.regs) :
    stepKwpExec (.tx p (.klJudge (klHead s.regs.klRxHdr q.length) q
      (klChecksum (klHead s.regs.klRxHdr q.length ++ q)))) w = .go (klCaptured p q w) := by
  have hv := klVerdict_klEncode w.regs.klRxHdr w.regs.ctrl.klChkVerify q
  rw [← hid]
  simp only [stepKwpExec, seqTx, seqTxWith, txStep, hv]
  rfl

/-- A reply on the line is read by the reads of its frame and no more, captured, and then classified: `z` stands at the
judgement. -/
theorem KlExchanged.reply_stepsTo (h : KlExchanged s p n ws qs calls (x :: line) w) (h1 : 1 ≤ q.length)
    (h2 : q.length ≤ 255) (hx : (klEncode s.regs.klRxHdr q).map .byte ++ rest = x :: line) :
    ∃ z, KlExchanged s p n ws qs (calls ++ frameReads q.length) rest z
      ∧ ∀ k v t, stepKwpExec (.got p q) (klCaptured p q z) = .go v → StepsTo stepKwpExec k v t →
        ∃ j ≤ 6, StepsTo stepKwpExec (k + j) (reading p w [.read 1] line (afterLine x)) t := by
  obtain ⟨o, hop⟩ := h.op
  obtain ⟨further, hreads, hlen, hline⟩ := klEncode_lineSteps (req := p) carriesTx_kwpExec hop h1 h2 hx
  obtain ⟨z, hz⟩ : ∃ z, z = reading p w ([.read 1] ++ further) rest (.klJudge (klHead s.regs.klRxHdr q.length) q
    (klChecksum (klHead s.regs.klRxHdr q.length ++ q))) := ⟨_, rfl⟩
  have hzx : KlExchanged s p n ws qs (calls ++ frameReads q.length) rest z := by
    rw [hz, hreads]
    exact h.reads _
  have hzop : z.op = _ := hz ▸ reading_op hop
  have hcop : (klCaptured p q z).op = some { code := opcode .kwpExec, pos := .got p q } := by
    rw [klCaptured, State.goto_op, (capPush_frame _ _ _).op, (putFrame_frame _ _).op, hzop]
    rfl
  have hread := hline.steps [.read 1]
  rw [← hz] at hread
  refine ⟨z, hzx, fun k v t hv ht => ⟨2 + further.length, by omega, ?_⟩⟩
  rw [← Nat.add_assoc]
  exact hread.trans (.head hzop (stepKwpExec_judge hzx.regs) (.head hcop hv ht))

/-- A receive begins with its first read. -/
theorem KlExchanged.recvStep_item (h : KlExchanged s p n ws qs calls (x :: line) w)
    (hp : s.regs.ctrl.proto = .kwpKline) :
    recvStep .seq w = .go (afterLine x) (readsDone [.read 1] line w) :=
  Machine.recvStep_item (by rw [h.regs, hp]) (by rw [h.env])

/-- A pending reply is read past with no new request (R242). -/
theorem KlExchanged.pending_stepsTo (h : KlExchanged s p n ws qs calls (x :: line) w)
    (hp : s.regs.ctrl.proto = .kwpKline) (h2 : q.length ≤ 255) (hc : kwpClassify (p.headD 0) q = .pending)
    (hx : (klEncode s.regs.klRxHdr q).map .byte ++ y :: rest = x :: line) :
    ∃ k w', KlExchanged s p n ws (qs ++ [q]) (calls ++ frameReads q.length) (y :: rest) w' ∧ k ≤ 6
      ∧ StepsTo stepKwpExec k (reading p w [.read 1] line (afterLine x))
        (reading p w' [.read 1] rest (afterLine y)) := by
  obtain ⟨z, hz, hsteps⟩ := h.reply_stepsTo (by have := length_of_pending hc; omega) h2 hx
  have hw := hz.answer h2
  have hgot : stepKwpExec (.got p q) (klCaptured p q z) =
      .go (reading p (klAnswered p q z) [.read 1] rest (afterLine y)) := by
    have hrecv := hw.recvStep_item hp
    rw [klAnswered] at hrecv
    simp only [stepKwpExec, hc, seqTx, seqTxWith, txStep, hrecv]
    rfl
  obtain ⟨j, hj, hrun⟩ := hsteps 0 _ _ hgot (.refl _ _)
  exact ⟨_, _, hw, by omega, hrun⟩

/-! ### The loop over the pending replies -/

theorem replyItems_cons (s : State) (q : List Byte) (qs : List (List Byte)) :
    replyItems s (q :: qs) = (klEncode s.regs.klRxHdr q).map .byte ++ replyItems s qs := by
  simp [replyItems]

/-- The loop over the pending replies (R242), up to the next item `y`; each takes more items than half its steps. -/
theorem klPendings_stepsTo (hp : s.regs.ctrl.proto = .kwpKline) (pend : List (List Byte)) :
    ∀ (qs : List (List Byte)) (calls : List PortCall) (w : State) (x : LineItem) (line : List LineItem),
      KlExchanged s p n ws qs calls (x :: line) w → replyItems s pend ++ y :: rest = x :: line →
      (∀ q ∈ pend, q.length ≤ 255 ∧ kwpClassify (p.headD 0) q = .pending) →
      ∃ k w', KlExchanged s p n ws (qs ++ pend) (calls ++ replyReads pend) (y :: rest) w'
        ∧ k + 2 * rest.length ≤ 2 * line.length
        ∧ StepsTo stepKwpExec k (reading p w [.read 1] line (afterLine x))
          (reading p w' [.read 1] rest (afterLine y)) := by
  induction pend with
  | nil =>
    intro qs calls w x line h hx _
    obtain ⟨rfl, rfl⟩ := List.cons.inj hx
    exact ⟨0, w, by simpa [replyReads] using h, by omega, .refl _ _⟩
  | cons q pend ih =>
    intro qs calls w x line h hx hall
    obtain ⟨hq, hc⟩ := hall q (by simp)
    obtain ⟨x', line', hx'⟩ := List.exists_cons_of_ne_nil (l := replyItems s pend ++ y :: rest) (by simp)
    rw [replyItems_cons, List.append_assoc, hx'] at hx
    obtain ⟨k, v, hv, hk, hrun⟩ := h.pending_stepsTo hp hq hc hx
    obtain ⟨j, w', hw', hj, hloop⟩ := ih _ _ v x' line' hv hx' fun u hu => hall u (by simp [hu])
    have hlen := congrArg List.length hx
    rw [List.length_append, List.length_map, List.length_cons, List.length_cons, klEncode_length_eq] at hlen
    have h3 := length_of_pending hc
    refine ⟨_, w', ?_, ?_, hrun.trans hloop⟩
    · rw [List.append_assoc, List.append_assoc] at hw'
      exact hw'
    · split at hlen <;> omega

end

/-! ### The request -/

section
variable {s w : State} {p : List Byte} {n : Int} {ws : List Int} {x : LineItem} {line : List LineItem} {q : TxPos}

/-- The lock is taken and PORT_TO in step, the request still to be sent (R217). -/
def synced (s : State) (p : List Byte) (q : TxPos) : State :=
  ((s.setLock .seq).setPort
    { timeout := s.regs.tRxTimeout, line := s.port.line, log := madeCalls s.clock.now (syncCalls s) s.port.log }).setOp
    (some { code := opcode .kwpExec, pos := .tx p q })

theorem begunTx_synced (ht : s.port.timeout = s.regs.tRxTimeout) : begunTx s p = synced s p .syncSend := by
  rw [synced, syncCalls, if_pos ht, ← ht]
  rfl

theorem portSetTimeout_synced (ht : s.port.timeout ≠ s.regs.tRxTimeout) :
    (portSetTimeout .seq s.regs.tRxTimeout (begunTx s p)).goto (.tx p .send) = synced s p .send := by
  rw [synced, syncCalls, if_neg ht]
  rfl

/-- The request's frame is written, and answered `n` (R222). -/
def klRequested (s : State) (p : List Byte) (n : Int) (ws : List Int) (q : TxPos) : State :=
  klineSent (klEncode s.regs.klTxHdr p) n ws (synced s p q)

theorem stepKwpExec_klSend (hp : s.regs.ctrl.proto = .kwpKline) (ha : s.env.writeAns = n :: ws)
    (hq : q = .send ∨ q = .syncSend) :
    stepKwpExec (.tx p q) (synced s p q) = .go ((klRequested s p n ws q).goto (.tx p .capOut)) := by
  have hsend := sendStep_kline (s := synced s p q) p hp ha
  have htx : txStep .seq true p q (synced s p q) = .go .capOut (klRequested s p n ws q) := by
    rcases hq with rfl | rfl
    · exact hsend
    · exact (if_neg (not_not.mpr rfl)).trans hsend
  exact carriesTx_kwpExec _ _ _ _ htx

/-- The request goes out in one step, or in two with SyncTimeout. -/
theorem klSend_stepsTo (hp : s.regs.ctrl.proto = .kwpKline) (ha : s.env.writeAns = n :: ws) :
    ∃ k q, k ≤ 2 ∧ StepsTo stepKwpExec k (begunTx s p) ((klRequested s p n ws q).goto (.tx p .capOut)) := by
  by_cases ht : s.port.timeout = s.regs.tRxTimeout
  · rw [begunTx_synced ht]
    exact ⟨1, .syncSend, by omega, .head rfl (stepKwpExec_klSend hp ha (.inr rfl)) (.refl _ _)⟩
  · have hsync := stepKwpExec_sync (p := p) (w := begunTx s p) ht
    rw [show (begunTx s p).regs = s.regs from rfl, portSetTimeout_synced ht] at hsync
    exact ⟨2, .send, le_rfl, .head rfl hsync (.head rfl (stepKwpExec_klSend hp ha (.inl rfl)) (.refl _ _))⟩

/-- The request is captured (R220): nothing is read yet. -/
theorem klRequested_exchanged (hp : s.regs.ctrl.proto = .kwpKline) (ha : s.env.writeAns = n :: ws)
    (hlen : p.length ≤ 255) :
    KlExchanged s p n ws [] [] s.env.lineIn
      ((capPush .outgoing p (canWritten ((klRequested s p n ws q).goto (.tx p .capOut)))).goto (.tx p .recv)) := by
  obtain ⟨v, hv⟩ : ∃ v, v = klRequested s p n ws q := ⟨_, rfl⟩
  have hf : (klEncode s.regs.klTxHdr p).length ≤ 260 := klEncode_length _ p hlen
  have hlock : v.lock = .seq :=
    (sendStep_frame .seq true p (synced s p q) v (by rw [sendStep_kline (s := synced s p q) p hp ha, hv]; rfl)).1.lock
  obtain ⟨hst, hop, hr, hown, ho, hc, hcl, hk, he, hpt⟩ :=
    klineSent_fields (klEncode s.regs.klTxHdr p) n ws (synced s p q)
  have hmem := klineSent_memRead (klEncode s.regs.klTxHdr p) n ws (synced s p q) (by omega)
  have hout := klineSent_peek (klEncode s.regs.klTxHdr p) n ws (synced s p q)
  rw [← klRequested, ← hv] at hst hop hr hown ho hc hcl hk he hpt hmem hout
  rw [← hv, canWritten_other (by rw [State.goto_regs, hr]; exact hp ▸ nofun), capPush_pushed]
  refine ⟨⟨.tx p .recv, ?_⟩, hlock, hst, hr, hown, hcl, hk, ?_, ?_, he, ?_, fun b _ hb => ?_, nofun, ?_⟩
  · simp only [State.goto_op, State.setOuts_op, State.setCap_op, hop]
    rfl
  · simp only [State.goto_cap, State.setOuts_cap, State.setCap_cap, State.goto_regs, State.goto_clock, hc, hr, hcl]
    rfl
  · simp only [State.goto_outs, State.setOuts_outs, State.goto_regs, State.goto_clock, State.goto_cap, countOf, hc, hr,
      hcl, ho]
    rfl
  · simp only [State.goto_port, State.setOuts_port, State.setCap_port, hpt, List.append_nil, madeCalls_append]
    rfl
  · exact hout b (by simpa [frameExtent, frmBuf] using hb)
  · exact HoldsAt.congr (s := v) hmem rfl rfl

/-- From the start of KWP_EXEC, past its checks, to the first read. -/
theorem klStart_stepsTo (hs : Started .kwpExec s) (hr : s.status.engReady = true) (hp : s.regs.ctrl.proto = .kwpKline)
    (hl : s.lock = .free) (h1 : 1 ≤ s.regs.txLen.toNat) (h2 : s.regs.txLen.toNat ≤ 255)
    (hpdef : p = s.memRead txBuf s.regs.txLen.toNat) (ha : s.env.writeAns = n :: ws) (hx : s.env.lineIn = x :: line) :
    ∃ k w, k ≤ 5 ∧ KlExchanged s p n ws [] [] (x :: line) w
      ∧ StepsTo stepKwpExec k s (reading p w [.read 1] line (afterLine x)) := by
  have hstart : stepKwpExec .start s = .go (begunTx s p) := by
    simp [stepKwpExec, hp, hr, txPdu_ok h1 h2, acquireThen, hl, goto_begunTx hs, hpdef]
  obtain ⟨k, q, hk, hsend⟩ := klSend_stepsTo (p := p) hp ha
  obtain ⟨w, hw⟩ : ∃ w, w = (capPush .outgoing p (canWritten ((klRequested s p n ws q).goto (.tx p .capOut)))).goto
    (.tx p .recv) := ⟨_, rfl⟩
  have hex : KlExchanged s p n ws [] [] (x :: line) w := by
    rw [hw, ← hx]
    exact klRequested_exchanged hp ha (by rw [hpdef, State.memRead_length]; exact h2)
  have hsent : ((klRequested s p n ws q).goto (.tx p .capOut)).op =
      some { code := opcode .kwpExec, pos := .tx p .capOut } := by
    obtain ⟨_, hop, _⟩ := klineSent_fields (klEncode s.regs.klTxHdr p) n ws (synced s p q)
    rw [State.goto_op, klRequested, hop]
    rfl
  have hop : w.op = some { code := opcode .kwpExec, pos := .tx p .recv } := by
    rw [hw, State.goto_op, (capPush_frame _ _ _).op, (canWritten_frame _).op, hsent]
    rfl
  have hpush : stepKwpExec (.tx p .capOut) ((klRequested s p n ws q).goto (.tx p .capOut)) = .go w := by
    rw [hw]
    rfl
  have hrecv : stepKwpExec (.tx p .recv) w = .go (reading p w [.read 1] line (afterLine x)) := by
    simp only [stepKwpExec, seqTx, seqTxWith, txStep, hex.recvStep_item hp]
    rfl
  have hlast : StepsTo stepKwpExec 2 ((klRequested s p n ws q).goto (.tx p .capOut)) _ :=
    .head hsent hpush (.head hop hrecv (.refl _ _))
  exact ⟨2 + k + 1, w, by omega, hex, .head hs hstart (hsend.trans hlast)⟩

/-- The request sent and the pending replies read past, with steps to spare for what is left of the line. -/
theorem klExchange_stepsTo {rest : List LineItem} {pend : List (List Byte)} (hs : Started .kwpExec s)
    (hr : s.status.engReady = true) (hp : s.regs.ctrl.proto = .kwpKline) (hl : s.lock = .free)
    (h1 : 1 ≤ s.regs.txLen.toNat) (h2 : s.regs.txLen.toNat ≤ 255) (hpdef : p = s.memRead txBuf s.regs.txLen.toNat)
    (ha : s.env.writeAns = n :: ws) (hall : ∀ q ∈ pend, q.length ≤ 255 ∧ kwpClassify (p.headD 0) q = .pending)
    (hx : s.env.lineIn = replyItems s pend ++ x :: rest) :
    ∃ k w, k + rest.length + 10 ≤ runBudget s ∧ KlExchanged s p n ws pend (replyReads pend) (x :: rest) w
      ∧ StepsTo stepKwpExec k s (reading p w [.read 1] rest (afterLine x)) := by
  obtain ⟨y, line, hy⟩ := List.exists_cons_of_ne_nil (l := replyItems s pend ++ x :: rest) (by simp)
  obtain ⟨k, w, hk, hw, hrun⟩ := klStart_stepsTo hs hr hp hl h1 h2 hpdef ha (hx.trans hy)
  obtain ⟨j, w', hw', hj, hloop⟩ := klPendings_stepsTo hp pend [] [] w y line hw hy hall
  refine ⟨_, w', ?_, hw', hrun.trans hloop⟩
  rw [runBudget, Env.pending, hx, hy, List.length_cons]
  omega

end

/-! ### The two ends -/

section
variable {s w : State} {p u : List Byte} {n : Int} {ws : List Int} {qs pend : List (List Byte)} {calls : List PortCall}
  {x : LineItem} {line rest : List LineItem}

/-- A reply that is not pending ends the transaction (R241, R250): `z` has it in RXBUF, and the verdict picks the
end. -/
theorem KlExchanged.terminal_stepsTo (h : KlExchanged s p n ws qs calls (x :: line) w) (h1 : 1 ≤ u.length)
    (h2 : u.length ≤ 255) (hu : kwpClassify (p.headD 0) u ≠ .pending)
    (hx : (klEncode s.regs.klRxHdr u).map .byte ++ rest = x :: line) :
    ∃ k z t, k ≤ 7 ∧ KlExchanged s p n ws (qs ++ [u]) (calls ++ frameReads u.length) rest z ∧ Concluded z t
      ∧ StepsTo stepKwpExec k (reading p w [.read 1] line (afterLine x)) t
      ∧ (kwpClassify (p.headD 0) u = .positive → t = endOp (releaseTo z.touch (.finish .unit)))
      ∧ ∀ e, kwpClassify (p.headD 0) u = .error e → t = raiseError e z := by
  obtain ⟨z, hz, hsteps⟩ := h.reply_stepsTo h1 h2 hx
  have hans := hz.answer h2
  cases hv : kwpClassify (p.headD 0) u with
  | pending => exact absurd hv hu
  | positive =>
    have hgot : stepKwpExec (.got p u) (klCaptured p u z) =
        .go (releaseTo (klAnswered p u z).touch (.finish .unit)) := by
      simp only [stepKwpExec, hv]
      rfl
    obtain ⟨q, hop⟩ := hans.op
    have hend : (releaseTo (klAnswered p u z).touch (.finish .unit)).op =
        some { code := opcode .kwpExec, pos := .finish .unit } := by
      rw [releaseTo_op, State.touch_op, hop]
      rfl
    obtain ⟨j, hj, hrun⟩ := hsteps 1 _ _ hgot (.head hend rfl (.refl _ _))
    exact ⟨_, _, _, by omega, hans, concluded_positive _, hrun, fun _ => rfl, nofun⟩
  | error e =>
    have hgot : stepKwpExec (.got p u) (klCaptured p u z) = .go (raiseError e (klAnswered p u z)) := by
      simp only [stepKwpExec, hv]
      rfl
    obtain ⟨j, hj, hrun⟩ := hsteps 0 _ _ hgot (.refl _ _)
    refine ⟨_, _, _, by omega, hans, concluded_raiseError e hans.lock, hrun, nofun, ?_⟩
    rintro _ ⟨⟩
    rfl

/-- A receive that fails, foreign frames before it dropped, is reported by the step after the decoder's judgement
(R314). -/
theorem KlExchanged.fails_stepsTo {bs : List Byte} {e : Err} (h : KlExchanged s p n ws qs calls (x :: rest) w)
    (hp : s.regs.ctrl.proto = .kwpKline) (hx : bs.map .byte ++ line = x :: rest)
    (hd : klDecode (.timeout .klRx 0) s.regs.klRxHdr s.regs.ctrl.klChkVerify bs = .error e)
    (ht : e = .timeout .klRx 0 → line.head? = some .gap) :
    ∃ k more rest' z, k ≤ rest.length + 1 ∧ KlExchanged s p n ws qs (calls ++ more) rest' z
      ∧ (∀ c ∈ more, ∃ n, c = .read n) ∧ rest' <:+ rest
      ∧ StepsTo stepKwpExec k (reading p w [.read 1] rest (afterLine x)) (raiseError e z) := by
  obtain ⟨o, hop⟩ := h.op
  obtain ⟨more, rest', q, hread, hj⟩ := decode_lineSteps (req := p) carriesTx_kwpExec hop (h.regs.symm ▸ hp) hx
    (fun hd' => ht (Except.error.inj (hd.symm.trans (h.regs ▸ hd'))))
  rw [h.regs] at hj
  cases hj with
  | accepted head d cs pre post hh hv hd' hbs => rw [hd] at hd'; cases hd'
  | refused _ _ e' hq hd' =>
    obtain rfl : e = e' := Except.error.inj (hd.symm.trans hd')
    obtain ⟨z, hzdef⟩ : ∃ z, z = reading p w ([.read 1] ++ more) rest' q := ⟨_, rfl⟩
    have hz : KlExchanged s p n ws qs (calls ++ ([.read 1] ++ more)) rest' z := hzdef ▸ h.reads q
    have hfail : stepKwpExec (.tx p q) z = .go (raiseError e z) := by
      simp only [stepKwpExec, seqTx, seqTxWith, hq z hz.regs]
    have hsteps := hread.steps [.read 1]
    rw [← hzdef] at hsteps
    have htakes := hread.takes
    refine ⟨_, _, rest', z, ?_, hz, ?_, hread.left, hsteps.trans (.head (hzdef ▸ reading_op hop) hfail (.refl _ _))⟩
    · omega
    · simpa using hread.reads

/-- A whole run over pending replies and a terminal one `u` (R250). -/
theorem exec_kwpExec_klTerminal (hs : Started .kwpExec s) (hr : s.status.engReady = true)
    (hp : s.regs.ctrl.proto = .kwpKline) (hl : s.lock = .free) (h1 : 1 ≤ s.regs.txLen.toNat)
    (h2 : s.regs.txLen.toNat ≤ 255) (hpdef : p = s.memRead txBuf s.regs.txLen.toNat) (ha : s.env.writeAns = n :: ws)
    (hall : ∀ q ∈ pend, q.length ≤ 255 ∧ kwpClassify (p.headD 0) q = .pending) (hu1 : 1 ≤ u.length)
    (hu2 : u.length ≤ 255) (hu : kwpClassify (p.headD 0) u ≠ .pending)
    (hx : s.env.lineIn = replyItems s (pend ++ [u]) ++ line) :
    ∃ z t, KlExchanged s p n ws (pend ++ [u]) (replyReads (pend ++ [u])) line z ∧ Concluded z t
      ∧ exec .kwpExec s = .next t
      ∧ (kwpClassify (p.headD 0) u = .positive → t = endOp (releaseTo z.touch (.finish .unit)))
      ∧ ∀ e, kwpClassify (p.headD 0) u = .error e → t = raiseError e z := by
  obtain ⟨y, rest, hy⟩ := List.exists_cons_of_ne_nil (l := (klEncode s.regs.klRxHdr u).map .byte ++ line)
    (by simp [klEncode_eq])
  have hsplit : replyItems s (pend ++ [u]) ++ line = replyItems s pend ++ y :: rest := by
    rw [← hy]
    simp [replyItems]
  obtain ⟨k, w, hk, hw, hrun⟩ := klExchange_stepsTo hs hr hp hl h1 h2 hpdef ha hall (hx.trans hsplit)
  obtain ⟨j, z, t, hj, hz, hc, hend, hgood, hbad⟩ := hw.terminal_stepsTo hu1 hu2 hu hy
  have hreads : replyReads (pend ++ [u]) = replyReads pend ++ frameReads u.length := by simp [replyReads]
  exact ⟨z, t, hreads ▸ hz, hc, exec_of_stepsTo (hrun.trans hend) hc.op (by omega), hgood, hbad⟩

/-- A whole run over pending replies and a receive that fails (R314). -/
theorem exec_kwpExec_klFails {bs : List Byte} {e : Err} (hs : Started .kwpExec s) (hr : s.status.engReady = true)
    (hp : s.regs.ctrl.proto = .kwpKline) (hl : s.lock = .free) (h1 : 1 ≤ s.regs.txLen.toNat)
    (h2 : s.regs.txLen.toNat ≤ 255) (hpdef : p = s.memRead txBuf s.regs.txLen.toNat) (ha : s.env.writeAns = n :: ws)
    (hall : ∀ q ∈ pend, q.length ≤ 255 ∧ kwpClassify (p.headD 0) q = .pending)
    (hx : s.env.lineIn = replyItems s pend ++ (bs.map .byte ++ line))
    (hd : klDecode (.timeout .klRx 0) s.regs.klRxHdr s.regs.ctrl.klChkVerify bs = .error e)
    (ht : e = .timeout .klRx 0 → line.head? = some .gap) :
    ∃ calls rest z, KlExchanged s p n ws pend (replyReads pend ++ calls) rest z ∧ (∀ c ∈ calls, ∃ k, c = .read k)
      ∧ rest <:+ bs.map .byte ++ line ∧ exec .kwpExec s = .next (raiseError e z) := by
  obtain ⟨y, rest, hy⟩ := exists_item (tail := line) (r := s.regs) (bs := bs)
    (fun hd' => ht (Except.error.inj (hd.symm.trans hd')))
  obtain ⟨k, w, hk, hw, hrun⟩ := klExchange_stepsTo hs hr hp hl h1 h2 hpdef ha hall (hx.trans (by rw [hy]))
  obtain ⟨j, more, rest', z, hj, hz, hreads, hleft, hend⟩ := hw.fails_stepsTo hp hy hd ht
  exact ⟨more, rest', z, hz, hreads, hy ▸ hleft.trans (List.suffix_cons _ _),
    exec_of_stepsTo (hrun.trans hend) rfl (by omega)⟩

end

/-- Settles O56: the request, the loop over the pending replies, and the end the next frame brings. -/
theorem kwpExecKline : Obligations.KwpExecKline := by
  intro s pend n ws line hs hr hp hl h1 h2 hpend ha
  obtain ⟨p, hpdef⟩ : ∃ p, p = s.memRead txBuf s.regs.txLen.toNat := ⟨_, rfl⟩
  have hsid : p.headD 0 = s.peek 0x000 := hpdef ▸ memRead_headD s txBuf _ h1
  rw [← hsid] at hpend ⊢
  constructor
  · intro u hu1 hu2 hu hx
    obtain ⟨z, t, hz, hc, hexec, hgood, hbad⟩ :=
      exec_kwpExec_klTerminal hs hr hp hl h1 h2 hpdef ha hpend hu1 hu2 hu hx
    have hlive : liveAfter s p (pend ++ [u]) = pushedAll s.regs.capCfg s.clock.now
        ((.outgoing, p) :: (pend.map fun q => (.incoming, q)) ++ [(.incoming, u)]) s.cap.live := by
      rw [liveAfter, exchange_snoc]
      rfl
    have houts := hz.outs
    have hframe := hz.frame
    rw [frameAfter_snoc] at houts hframe
    rw [show rxLenAfter s (pend ++ [u]) = BitVec.ofNat 9 u.length by simp [rxLenAfter],
      show respAfter s (pend ++ [u]) = u.headD 0 by simp [respAfter]] at houts
    refine ⟨p, _, _, liveAfter s p (pend ++ [u]), t, hpdef, rfl, rfl, hlive, hexec, hc.op, hc.lock,
      hc.regs.trans hz.regs, hz.own.trans hc.own, hc.ka.trans hz.ka, hc.holdsAt (hz.holds u (by simp)),
      hc.holdsAt hframe, fun b hb hb' => (hc.peek b).trans (hz.outside b hb hb'), hc.cap.trans hz.cap,
      hc.env.trans hz.env, hc.port.trans hz.port, fun hv => ?_, fun e hv => ?_⟩
    · rw [hgood hv]
      refine ⟨?_, ?_, houts⟩
      · rw [endOp_status, releaseTo_status, State.touch_status, hz.status]
        rfl
      · rw [endOp_clock, releaseTo_clock, State.touch_clock, hz.clock]
    · rw [hbad e hv]
      refine ⟨?_, hz.clock, ?_⟩
      · rw [raiseError_status, hz.status]
        rfl
      · rw [raiseError_outs, houts]
  · intro bs e hx hd ht
    obtain ⟨calls, rest, z, hz, hreads, hleft, hexec⟩ :=
      exec_kwpExec_klFails hs hr hp hl h1 h2 hpdef ha hpend hx hd ht
    have hc := concluded_raiseError e hz.lock
    have hport := hz.port
    rw [← List.append_assoc] at hport
    refine ⟨p, _, frameAfter s p pend, liveAfter s p pend, _, calls, rest, hpdef, rfl, rfl, rfl, hreads, hleft, hexec,
      ⟨?_, hc.op, hc.lock.trans hl.symm, hc.regs.trans hz.regs, hz.own.trans hc.own⟩, hz.clock, hz.ka,
      fun q hq => hc.holdsAt (hz.holds q hq), hc.holdsAt hz.frame,
      fun b hb hb' => (hc.peek b).trans (hz.outside b hb hb'), ?_, hz.cap, hz.env, hport⟩
    · rw [raiseError_status, hz.status]
      rfl
    · rw [raiseError_outs, hz.outs, rxLenAfter, respAfter]
      cases pend.getLast? <;> rfl

end Sys2Proof.Machine
end

/-! The codec operations CRO_ENC and DTO_DEC (spec/41_ccp_codec.md R170 to R177), each one step that reads a buffer,
writes another and ends. -/

namespace Sys2Proof.Machine

/-! ### The two codecs over buffer RAM -/

/-- The CRO of a command of `n + 1` bytes at `txBuf`: the first byte is the CMD, the others the data (R170, R171). -/
theorem croOf_memRead (s : State) (n : Nat) :
    croOf s (s.memRead txBuf (n + 1)) = [s.peek 0x000, s.outs.ccpCtr] ++ s.memRead 0x001 n ++ List.replicate (6 - n) 0 := by
  simp [croOf, croEncode, State.memRead, txBuf]

/-- The DTO that stands in FRMBUF, field by field (R106, R175). -/
theorem dtoDecode_memRead (s : State) : dtoDecode (s.memRead frmBuf 8) =
    { pid := s.peek 0x200, rc := s.peek 0x201, ctr := s.peek 0x202
      data := [s.peek 0x203, s.peek 0x204, s.peek 0x205, s.peek 0x206, s.peek 0x207] } := rfl

theorem putDto_memRead (d : Dto) (s : State) (h : d.data.length ≤ 255) :
    HoldsAt (putDto d s) rxBuf (d.rc :: d.data) := by
  refine Eq.trans ?_ (State.memRead_memWrite s rxBuf (d.rc :: d.data) ?_)
  · exact State.memRead_congr _ _ _ _ fun i _ => rfl
  · simp only [rxBuf, ramSize, List.length_cons]
    omega

/-- The Response of `d` written to RXBUF, and the end. -/
theorem endOp_putDto (s : State) {d : Dto} (hd : d.data.length ≤ 255) :
    EndsAs s.status.ended s (endOp (putDto d s)) ∧ NoTraffic s (endOp (putDto d s))
      ∧ (endOp (putDto d s)).cap = s.cap
      ∧ (endOp (putDto d s)).outs = { s.outs with rxLen := 6, respStatus := d.rc, dtoInfo := d.info }
      ∧ HoldsAt (endOp (putDto d s)) 0x100 (d.rc :: d.data)
      ∧ SameOutside s (endOp (putDto d s)) 0x100 (d.data.length + 1) := by
  have hmem : HoldsAt (endOp (putDto d s)) 0x100 (d.rc :: d.data) := (putDto_memRead d s hd).congr rfl rfl
  have hout : SameOutside s (endOp (putDto d s)) 0x100 (d.data.length + 1) := putDto_peek d s
  obtain ⟨m, hm, _⟩ := putDto_eq d s
  rw [hm] at hmem hout ⊢
  exact ⟨⟨rfl, rfl, rfl, rfl, ⟨rfl, rfl, rfl, rfl⟩⟩, ⟨rfl, rfl, rfl, rfl, rfl⟩, rfl, rfl, hmem, hout⟩

/-! ### CRO_ENC -/

section
variable {s : State}

theorem ccpCommand_eq_ok (h1 : 1 ≤ s.regs.txLen.toNat) (h7 : s.regs.txLen.toNat ≤ 7) :
    ccpCommand s = .ok (s.memRead txBuf s.regs.txLen.toNat) := if_neg (by omega)

theorem ccpCommand_eq_error (h : s.regs.txLen.toNat = 0 ∨ 7 < s.regs.txLen.toNat) :
    ccpCommand s = .error (.argument .ccpLen (s.regs.txLen.extractLsb' 0 8)) := by
  rw [← lenByte_toNat]
  exact if_pos (by omega)

theorem exec_croEnc {c : List Byte} (hs : Started .croEnc s) (hc : ccpCommand s = .ok c) :
    exec .croEnc s = .next (endOp (putFrame (croOf s c) s)) :=
  exec_of_start hs (by simp only [opStep, stepCroEnc, hc]) rfl

theorem exec_croEnc_error {e : Err} (hs : Started .croEnc s) (he : ccpCommand s = .error e) :
    exec .croEnc s = .next (raiseError e s) :=
  exec_of_start hs (by simp only [opStep, stepCroEnc, he]) rfl

/-- Settles O41: the one step of CRO_ENC, and what its frame write leaves. -/
theorem croEncCompletes : Obligations.CroEncCompletes := by
  refine fun s hs => ⟨fun h1 h7 => ?_,
    fun h => ⟨_, exec_croEnc_error hs (ccpCommand_eq_error h), raiseError_raisedOnly _ s⟩⟩
  have hc := ccpCommand_eq_ok h1 h7
  have hlen := croOf_length (s := s) (ccpCommand_ok hc).2
  have hend := endOp_putFrame s (hlen.trans_le (by decide))
  rw [hlen] at hend
  obtain ⟨n, hn⟩ := Nat.exists_eq_add_of_le' h1
  refine ⟨_, _, ?_, exec_croEnc hs hc, hend⟩
  rw [hn, croOf_memRead, Nat.add_sub_cancel, Nat.add_sub_add_right 6 1 n]

/-! ### DTO_DEC -/

theorem exec_dtoDec (hs : Started .dtoDec s) (h : s.outs.frmLen.toNat = 8) :
    exec .dtoDec s = .next (endOp (putDto (dtoDecode (s.memRead frmBuf 8)) s)) :=
  exec_of_start hs (by simp only [opStep, stepDtoDec, h, gt_iff_lt, Nat.lt_irrefl, if_false]) rfl

theorem exec_dtoDec_short (hs : Started .dtoDec s) (h : s.outs.frmLen.toNat < 8) :
    exec .dtoDec s = .next (raiseError (.timeout .dtoShort (s.outs.frmLen.extractLsb' 0 8)) s) :=
  exec_of_start hs (by simp only [opStep, stepDtoDec, h, if_true, lenByte_toNat]) rfl

theorem exec_dtoDec_tooLong (hs : Started .dtoDec s) (h : 8 < s.outs.frmLen.toNat) :
    exec .dtoDec s = .next (raiseError (.argument .frameLen (s.outs.frmLen.extractLsb' 0 8)) s) :=
  exec_of_start hs
    (by simp only [opStep, stepDtoDec, Nat.lt_asymm h, gt_iff_lt, h, if_false, if_true, lenByte_toNat]) rfl

/-- Settles O42: the one step of DTO_DEC, its two length checks first, and what the write of the Response leaves. -/
theorem dtoDecCompletes : Obligations.DtoDecCompletes := by
  refine fun s hs => ⟨fun h => ⟨_, exec_dtoDec hs (congrArg BitVec.toNat h), ?_⟩,
    fun h => ⟨_, exec_dtoDec_short hs h, raiseError_raisedOnly _ s⟩,
    fun h => ⟨_, exec_dtoDec_tooLong hs h, raiseError_raisedOnly _ s⟩⟩
  rw [dtoDecode_memRead]
  exact endOp_putDto s (by decide : 5 ≤ 255)

end

end Sys2Proof.Machine

/-! The hold windows of the fast-init as the interleaving sees them (spec/42_fast_init.md R191 to R194; log 17): an
atomic step is the only event that moves a fast-init on, and the clock is bounded from the phase's minimum until the
payload is written. -/

namespace Sys2Proof.Machine

/-- The operation whose atomic step is `g` advances its fast-init in its position, and goes on at `k ok` when it is over:
FI_SEQ and KWP_INIT do (R201, R245). -/
def AdvancesFi (g : Pos → State → Micro) (k : Bool → Pos) : Prop :=
  ∀ f q w, g (.fi f q) w = seqFi f q w fun ok u => u.goto (k ok)

section
variable {s t u : State} {e : Event} {c : Byte} {f : List Byte} {q q' : FiPos}

/-! ### One atomic step of a fast-init in progress -/

theorem advancesFi_fiSeq : AdvancesFi stepFiSeq fun ok => .release (.fastInit ok) := fun _ _ _ => rfl

theorem advancesFi_kwpInit : AdvancesFi stepKwpInit fun _ => .tx [] .syncRecv := fun _ _ _ => rfl

theorem exists_advancesFi {i : Instr} (h : posOk i (.fi f q) = true) : ∃ k, AdvancesFi (opStep i) k := by
  cases i with
  | fiSeq => exact ⟨_, advancesFi_fiSeq⟩
  | kwpInit => exact ⟨_, advancesFi_kwpInit⟩
  | _ => cases h

theorem seqAtom_fi (hinv : s.Inv) (ho : s.op = some { code := c, pos := .fi f q }) :
    ∃ (i : Instr) (k : Bool → Pos),
      decodeCode c = .ok i ∧ opStep i (.fi f q) s = seqFi f q s fun ok u => u.goto (k ok) := by
  have hpos := hinv.pos _ ho
  cases hi : decodeCode c with
  | error r =>
    rw [opOk, hi] at hpos
    cases hpos
  | ok i =>
    obtain ⟨k, hk⟩ := exists_advancesFi (Landing.of_inv hinv ho hi).pos
    exact ⟨i, k, rfl, hk f q s⟩

theorem seqAtom_fi_go (hinv : s.Inv) (ho : s.op = some { code := c, pos := .fi f q }) (h : fiStep f q s = .go q' u) :
    seqAtom s = .next (u.goto (.fi f q')) := by
  obtain ⟨i, k, hi, hstep⟩ := seqAtom_fi hinv ho
  simp only [seqAtom, ho, hi, hstep, seqFi, h]

theorem seqAtom_fi_cases (hinv : s.Inv) (ho : s.op = some { code := c, pos := .fi f q }) (h : seqAtom s = .next t) :
    t = s ∨ (∃ q' u, fiStep f q s = .go q' u ∧ t = u.goto (.fi f q')) ∨ ∃ ok u, fiStep f q s = .done ok u := by
  obtain ⟨i, k, hi, hstep⟩ := seqAtom_fi hinv ho
  simp only [seqAtom, ho, hi, hstep, seqFi] at h
  cases hf : fiStep f q s with
  | wait =>
    simp only [hf] at h
    cases h
    exact .inl rfl
  | go q' u =>
    simp only [hf] at h
    cases h
    exact .inr (.inl ⟨q', u, rfl, rfl⟩)
  | done ok u => exact .inr (.inr ⟨ok, u, rfl⟩)

theorem goto_fi_op (ho : s.op = some { code := c, pos := .fi f q }) (h : (fiStep f q s).state? = some u) (p : Pos) :
    (u.goto p).op = some { code := c, pos := p } := by
  rw [State.goto_op, (fiStep_work h).op, ho]
  rfl

/-! ### Every other event -/

/-- A host access leaves the port alone, and, while an operation runs, OP too (R65). -/
theorem hostStep_busy_frame (a : HostAccess) (hb : s.status.busy = true) :
    (hostStep a s).op = s.op ∧ (hostStep a s).port = s.port := by
  cases a with
  | read off =>
    obtain ⟨w, n, c, h⟩ := hostRead_eq off s
    rw [h]
    exact ⟨rfl, rfl⟩
  | write off v =>
    rcases hostWrite_cases off v s with h | h | ⟨r, _, hr, h⟩ <;> rw [h]
    · exact ⟨rfl, rfl⟩
    · exact ⟨rfl, rfl⟩
    · rcases hr with hr | rfl | rfl
      · rw [hb] at hr
        cases hr
      · exact ⟨rfl, rfl⟩
      · exact ⟨rfl, rfl⟩

/-- While the sequencer holds the lock, the task leaves OP and the port alone (R57, R93). -/
theorem taskTurn_locked_frame (hinv : s.Inv) (hl : s.lock = .seq) :
    (taskTurn s).op = s.op ∧ (taskTurn s).port = s.port := by
  have hin : kaInside s = false := eq_false_of_ne_true fun hk => by simp [hinv.lockKa.mpr hk] at hl
  refine ⟨(taskTurn_frame s).op, ?_⟩
  rcases taskTurn_cases s with ht | ht
  · rw [ht]
  · exact (kaStep_cases ht).port hin

/-- What one event can do to a fast-init in progress. -/
theorem eventStep_fi (hinv : s.Inv) (h : eventStep e s = .next t) (hrun : e ≠ .run) (hreset : e ≠ .reset)
    (ho : s.op = some { code := c, pos := .fi f q }) :
    (t.op = s.op ∧ t.port = s.port) ∨ (∃ q' u, fiStep f q s = .go q' u ∧ t = u.goto (.fi f q'))
      ∨ ∃ ok u, fiStep f q s = .done ok u := by
  have hb : s.status.busy = true := by
    rw [hinv.busy, ho]
    rfl
  have hl : s.lock = .seq := hinv.lockSeq.mpr (by rw [seqInside, ho]; rfl)
  rcases eventStep_cases h hrun hreset with ⟨a, _, rfl⟩ | ⟨_, rfl⟩ | ⟨x, rfl⟩ | ⟨x, rfl⟩ | ⟨rfl, _⟩
  · exact .inl (hostStep_busy_frame a hb)
  · exact .inl (taskTurn_locked_frame hinv hl)
  · exact .inl ⟨rfl, rfl⟩
  · exact .inl ⟨rfl, rfl⟩
  · rcases seqAtom_fi_cases hinv ho h with rfl | hmove | hdone
    · exact .inl ⟨rfl, rfl⟩
    · exact .inr (.inl hmove)
    · exact .inr (.inr hdone)

/-! ### The phases -/

/-- A hold phase is left by its own step only, for the next phase, at or after its minimum and less than 1 ms over. -/
theorem hold_left {d : Nat} {after : FiPos} (hinv : s.Inv) (h : eventStep e s = .next t) (hrun : e ≠ .run)
    (hreset : e ≠ .reset) (ho : s.op = some { code := c, pos := .fi f q })
    (hq : fiStep f q s = holdStep d q after s) (hlim : q.limit = holdLimit d) (hne : t.op ≠ s.op) :
    t.op = some { code := c, pos := .fi f after } ∧ d ≤ t.nowUs ∧ t.nowUs < d + 1000 := by
  have hprecise : s.nowUs ≤ holdLimit d := by
    have hp := hinv.precise
    rwa [clockLimit_eq ho, Pos.limit, hlim] at hp
  rcases eventStep_fi hinv h hrun hreset ho with ⟨hop, _⟩ | ⟨q', u, hgo, rfl⟩ | ⟨ok, u, hdone⟩
  · exact absurd hop hne
  · have hop := goto_fi_op (p := .fi f q') ho (by rw [hgo]; rfl)
    obtain ⟨rfl | ⟨rfl, hd⟩, _, hle⟩ := holdStep_go (hq.symm.trans hgo)
    · exact absurd (hop.trans ho.symm) hne
    · have hend : u.nowUs ≤ d + 999 := hle hprecise
      exact ⟨hop, hd, Nat.lt_succ_of_le hend⟩
  · rw [hq, holdStep] at hdone
    split at hdone
    · cases hdone
    · split at hdone <;> cases hdone

/-- The payload goes out by the step of the `send` position alone. -/
theorem send_logged {st : Strategy} {d : Nat} (hinv : s.Inv) (h : eventStep e s = .next t) (hrun : e ≠ .run)
    (hreset : e ≠ .reset) (ho : s.op = some { code := c, pos := .fi f (.send st d) })
    (hne : t.port.log ≠ s.port.log) :
    t.port.log = { agent := .seq, time := s.clock.now, call := .write f } :: s.port.log := by
  rcases eventStep_fi hinv h hrun hreset ho with ⟨_, hp⟩ | ⟨q', u, hgo, rfl⟩ | ⟨ok, u, hdone⟩
  · exact absurd (congrArg Port.log hp) hne
  · unfold fiStep portWrite at hgo
    cases hans : s.env.writeAns with
    | nil => simp only [hans, reduceCtorEq] at hgo
    | cons n rest =>
      simp only [hans] at hgo
      cases hgo
      rfl
  · have hrank : st.rank + 7 = 5 := (fiStep_done_rank hdone).1
    omega

/-- At a position whose phase minimum is `d` the clock is less than 1 ms over it (R191, R192). -/
theorem nowUs_lt_of_limit {d : Nat} (hinv : s.Inv) (ho : s.op = some { code := c, pos := .fi f q })
    (hlim : q.limit = holdLimit d) : s.nowUs < d + 1000 := by
  have hp : s.nowUs ≤ d + 999 := by
    have hp := hinv.precise
    rwa [clockLimit_eq ho, Pos.limit, hlim] at hp
  omega

end

/-- Settles O30: the two steps that change the line level start a window from the clock as it is, a window is left by its
own step, and the payload's step is bounded by the clock's limit. -/
theorem holdPrecision : Obligations.HoldPrecision := by
  intro s t e c f st d hinv h hrun hreset
  refine ⟨fun ho he => ?_, fun ho hne => ?_, fun ho he => ?_, fun ho hne => ?_, fun ho hne => ?_⟩
  · subst he
    cases (seqAtom_fi_go hinv ho rfl).symm.trans h
    exact ⟨goto_fi_op ho rfl _, by cases st <;> rfl⟩
  · exact hold_left hinv h hrun hreset ho rfl rfl hne
  · subst he
    cases (seqAtom_fi_go hinv ho rfl).symm.trans h
    exact ⟨nowUs_lt_of_limit hinv ho rfl, goto_fi_op ho rfl _, by cases st <;> rfl⟩
  · cases st with
    | native => exact hold_left hinv h hrun hreset ho rfl rfl hne
    | alternate => exact hold_left hinv h hrun hreset ho rfl rfl hne
  · exact ⟨send_logged hinv h hrun hreset ho hne, nowUs_lt_of_limit hinv ho rfl⟩

end Sys2Proof.Machine

/-! Whole runs of FI_SEQ and of KWP_INIT over the K-Line (spec/42_fast_init.md R190 to R201; spec/44_kwp_engine.md R245):
FastInit strategy by strategy, each its waveform, its payload and its response window, as counted steps between states
written out in full. -/

namespace Sys2Proof.Machine

/-! ### The state while FastInit runs -/

/-- What FastInit writes: the clock's value, the environment's queues, the port, the output registers, FI_RESULT, and the
response bytes that stand in FRMBUF. -/
structure FiWork where
  now : Time
  env : Env
  port : Port
  outs : Outs
  result : FiResult
  stored : List Byte

/-- Nothing is written yet. -/
def FiWork.init (s : State) : FiWork :=
  { now := s.clock.now, env := s.env, port := s.port, outs := s.outs, result := s.status.fiResult, stored := [] }

/-- `s` with its operation at `p`, the lock held and FastInit's work `x` done. -/
def fiState (s : State) (c : Byte) (x : FiWork) (p : Pos) : State :=
  { s with
    status := { s.status with fiResult := x.result }
    outs := x.outs
    ram := (s.memWrite frmBuf x.stored).ram
    clock := { s.clock with now := x.now }
    port := x.port
    op := some { code := c, pos := p }
    lock := .seq
    env := x.env }

section
variable {g : Pos → State → Micro} {k : Bool → Pos} {s v : State} {c : Byte} {x x' : FiWork} {f : List Byte}
  {q q' : FiPos}

/-- The lock is taken and FastInit begins. -/
theorem acquired_fiState (ho : s.op = some { code := c, pos := .start }) (p : Pos) :
    (s.setLock .seq).goto p = fiState s c (.init s) p := by
  rw [State.goto, State.setLock_op, ho]
  rfl

/-- One step of FastInit that does not end it. -/
theorem fi_stepsTo (hg : AdvancesFi g k) (h : fiStep f q (fiState s c x (.fi f q)) = .go q' v)
    (hv : v.goto (.fi f q') = fiState s c x' (.fi f q')) :
    StepsTo g 1 (fiState s c x (.fi f q)) (fiState s c x' (.fi f q')) := by
  have hgo : g (.fi f q) (fiState s c x (.fi f q)) = .go (fiState s c x' (.fi f q')) := by
    rw [hg, seqFi, h, ← hv]
  exact .head rfl hgo (.refl _ _)

/-! ### The bytes of a response -/

theorem memWrite_epoch (a : Nat) (bs : List Byte) : (s.memWrite a bs).epoch = s.epoch := by
  obtain ⟨m, hm⟩ := State.memWrite_eq s a bs
  rw [hm]
  rfl

theorem memWrite_snoc (a : Nat) (bs : List Byte) (b : Byte) :
    s.memWrite a (bs ++ [b]) = (s.memWrite a bs).poke (a + bs.length) b := by
  induction bs generalizing s a with
  | nil => rfl
  | cons d bs ih =>
    rw [List.cons_append, State.memWrite, ih, State.memWrite, List.length_cons, Nat.add_assoc, Nat.add_comm 1]

/-- The bytes `bs` of a response are read: all of them stand in FRMBUF, or all but the last one, which the next primitive
stores (R90, R196; log 13). -/
def LastPending (bs stored : List Byte) (last : Option Byte) : Prop :=
  stored = bs ∧ last = none ∨ stored = bs.dropLast ∧ last = bs.getLast?

theorem LastPending.nil {stored : List Byte} {last : Option Byte} (h : LastPending [] stored last) :
    stored = [] ∧ last = none := by
  rcases h with h | h <;> exact h

theorem lastPending_snoc (bs : List Byte) (b : Byte) : LastPending (bs ++ [b]) bs (some b) :=
  .inr ⟨by simp, by simp⟩

/-- A poke depends on buffer RAM only. -/
theorem poke_ram_congr {w : State} (h : v.ram = w.ram) (a : Nat) (b : Byte) : (v.poke a b).ram = (w.poke a b).ram := by
  unfold State.poke
  split
  · rw [State.setRam_ram, State.setRam_ram, h]
  · exact h

theorem setRam_fiState (p : Pos) (bs : List Byte) :
    (fiState s c x p).setRam (s.memWrite frmBuf bs).ram = fiState s c { x with stored := bs } p := rfl

/-- The step after a read stores what is pending. -/
theorem LastPending.store {bs : List Byte} {last : Option Byte} (h : LastPending bs x.stored last) (p : Pos) :
    fiStore bs.length last (fiState s c x p) = fiState s c { x with stored := bs } p := by
  rcases h with ⟨rfl, rfl⟩ | ⟨hs, rfl⟩
  · rfl
  · rcases List.eq_nil_or_concat' bs with rfl | ⟨ds, b, rfl⟩
    · cases x
      cases hs
      rfl
    · rw [List.dropLast_concat] at hs
      have hram : ((fiState s c x p).poke (frmBuf + ds.length) b).ram = (s.memWrite frmBuf (ds ++ [b])).ram := by
        rw [memWrite_snoc, ← hs]
        exact poke_ram_congr (v := fiState s c x p) (w := s.memWrite frmBuf x.stored) rfl _ _
      obtain ⟨m, hm⟩ := State.poke_eq (fiState s c x p) (frmBuf + ds.length) b
      rw [hm, State.setRam_ram] at hram
      rw [List.getLast?_concat, fiStore, List.length_append, List.length_singleton, Nat.add_sub_cancel, hm, hram,
        setRam_fiState]

/-! ### The waveform and the payload -/

/-- The primitive that begins the low window (R193, R194). -/
def Strategy.down : Strategy → PortCall
  | .native => .brk true
  | .alternate => .lineSet .low

/-- The primitive that begins the high window. -/
def Strategy.up : Strategy → PortCall
  | .native => .brk false
  | .alternate => .lineSet .high

/-- What stands between the high window and the payload (R194; log 18). -/
def Strategy.lead : Strategy → List PortCall
  | .native => []
  | .alternate => [.lineSet .release]

/-- FRMLEN when the waveform begins: a silent native window left no byte (R197, R198). -/
def Strategy.frmLen : Strategy → BitVec 10 → BitVec 10
  | .native, n => n
  | .alternate, _ => 0

/-- `x` with the primitive `call` performed, which puts the line in state `l`. -/
def FiWork.levelled (call : PortCall) (l : Line) (x : FiWork) : FiWork :=
  { x with port := { x.port with line := l, log := madeCalls x.now [call] x.port.log } }

/-- `x` with a window ended at `stop`, the clock readings `cs` still to come. -/
def FiWork.held (stop : Time) (cs : List Time) (x : FiWork) : FiWork :=
  { x with now := stop, env := { x.env with clockIn := cs } }

/-- `x` with FRMLEN as a strategy's waveform leaves it. -/
def FiWork.counted (st : Strategy) (x : FiWork) : FiWork :=
  { x with outs := { x.outs with frmLen := st.frmLen x.outs.frmLen } }

/-- `x` with the payload `f` written and PortWrite answered `n`. -/
def FiWork.written (f : List Byte) (n : Int) (ws : List Int) (x : FiWork) : FiWork :=
  { x with
    env := { x.env with writeAns := ws }
    outs := { x.outs with txWritten := BitVec.ofInt 16 n }
    port := { x.port with log := madeCalls x.now [.write f] x.port.log } }

/-- What the environment does during one strategy: the clock values that end the two windows, the answer to PortWrite and
the bytes of the response; and what it has ready after that. -/
structure FiAnswers where
  lowEnd : Time
  highEnd : Time
  clockIn : List Time
  written : Int
  writeAns : List Int
  bytes : List Byte
  lineIn : List LineItem

/-- These answers stand ready when the strategy begins, with the holds as R191 has them (log 17) and no more bytes than
FI_READ_MAX. -/
structure FiAnswers.Ready (r : FiAnswers) (s : State) (x : FiWork) : Prop where
  low : Held s.regs.tFiLow x.now r.lowEnd
  high : Held s.regs.tFiHigh r.lowEnd r.highEnd
  clock : x.env.clockIn = holdReads s.regs.tFiLow r.lowEnd ++ (holdReads s.regs.tFiHigh r.highEnd ++ r.clockIn)
  write : x.env.writeAns = r.written :: r.writeAns
  limit : r.bytes.length ≤ s.regs.fiReadMax.toNat
  line : x.env.lineIn = windowItems s.regs.fiReadMax.toNat r.bytes ++ r.lineIn

/-- `x` with the waveform and the payload of strategy `st` done. -/
def FiWork.tried (st : Strategy) (f : List Byte) (r : FiAnswers) (x : FiWork) : FiWork :=
  { x with
    now := r.highEnd
    env := { x.env with clockIn := r.clockIn, writeAns := r.writeAns }
    outs := { x.outs with frmLen := st.frmLen x.outs.frmLen, txWritten := BitVec.ofInt 16 r.written }
    port :=
      { timeout := x.port.timeout
        line := .uart
        log := madeCalls r.highEnd (st.lead ++ [.write f])
          (madeCalls r.lowEnd [st.up] (madeCalls x.now [st.down] x.port.log)) } }

/-- A window whose end the clock reads on time takes one step, and no reading if it is empty (R191). -/
theorem holdStep_held {w : Word} {stop : Time} {rest : List Time} {self after : FiPos}
    (h : Held w v.clock.now stop) (hc : v.env.clockIn = holdReads w stop ++ rest) :
    holdStep (v.nowUs + w.toNat) self after v =
      .go after ((v.setEnv { v.env with clockIn := rest }).setClock { v.clock with now := stop }) := by
  obtain ⟨hmin, hmax, hzero⟩ := h
  by_cases hw : w = 0
  · subst hw
    obtain rfl := hzero rfl
    obtain rfl : v.env.clockIn = rest := hc
    exact if_pos (Nat.le_refl _)
  · have hpos : 0 < w.toNat := Nat.pos_of_ne_zero fun h0 => hw (BitVec.eq_of_toNat_eq h0)
    have hclock : v.env.clockIn = stop :: rest := by rw [hc, holdReads, if_neg hw]; rfl
    have hnow : v.clock.now.toNat ≤ stop.toNat := by omega
    have hlim : stop.toNat ≤ holdLimit (v.nowUs + w.toNat) := by rw [holdLimit, State.nowUs]; omega
    have hmove : (v.setEnv { v.env with clockIn := rest }).moveClock (holdLimit (v.nowUs + w.toNat)) stop =
        (v.setEnv { v.env with clockIn := rest }).setClock { v.clock with now := stop } := by
      simp only [State.moveClock, hlim, if_true, State.setEnv_clock, hnow]
    have hearly : ¬ v.nowUs + w.toNat ≤ v.nowUs := by omega
    have hdone : v.nowUs + w.toNat ≤
        ((v.setEnv { v.env with clockIn := rest }).setClock { v.clock with now := stop }).nowUs := hmin
    simp only [holdStep, if_neg hearly, hclock, hmove, if_pos hdone]

/-- The low window begins at once, and so does the high one (R193, R194). -/
theorem low_stepsTo (hg : AdvancesFi g k) (st : Strategy) :
    StepsTo g 1 (fiState s c x (.fi f (.low st)))
      (fiState s c ((x.counted st).levelled st.down (FiPos.holdLow st 0).line)
        (.fi f (.holdLow st (x.now.toNat + s.regs.tFiLow.toNat)))) :=
  fi_stepsTo hg rfl (by cases st <;> rfl)

theorem high_stepsTo (hg : AdvancesFi g k) (st : Strategy) (d : Nat) :
    StepsTo g 1 (fiState s c x (.fi f (.high st d)))
      (fiState s c (x.levelled st.up (FiPos.holdHigh st 0).line)
        (.fi f (.holdHigh st (x.now.toNat + s.regs.tFiHigh.toNat)))) :=
  fi_stepsTo hg rfl (by cases st <;> rfl)

theorem held_stepsTo (hg : AdvancesFi g k) {w : Word} {stop : Time} {cs : List Time}
    (hq : ∀ v, fiStep f q v = holdStep (x.now.toNat + w.toNat) q q' v) (h : Held w x.now stop)
    (hc : x.env.clockIn = holdReads w stop ++ cs) :
    StepsTo g 1 (fiState s c x (.fi f q)) (fiState s c (x.held stop cs) (.fi f q')) :=
  fi_stepsTo hg ((hq _).trans (holdStep_held (v := fiState s c x (.fi f q)) h hc)) rfl

theorem release_stepsTo (hg : AdvancesFi g k) (d : Nat) :
    StepsTo g 1 (fiState s c x (.fi f (.release d)))
      (fiState s c (x.levelled (.lineSet .release) .uart) (.fi f (.send .alternate d))) :=
  fi_stepsTo hg rfl rfl

theorem payload_stepsTo (hg : AdvancesFi g k) (st : Strategy) (d : Nat) {n : Int} {ws : List Int}
    (hw : x.env.writeAns = n :: ws) :
    StepsTo g 1 (fiState s c x (.fi f (.send st d)))
      (fiState s c (x.written f n ws) (.fi f (fiWindow st 0 none s))) := by
  have hans : (fiState s c x (.fi f (.send st d))).env.writeAns = n :: ws := hw
  exact fi_stepsTo hg (by simp only [fiStep, portWrite, hans]; rfl) rfl

/-- The low window and the beginning of the high one. -/
def FiWork.waved (st : Strategy) (a : Time) (cs : List Time) (x : FiWork) : FiWork :=
  (((x.counted st).levelled st.down (FiPos.holdLow st 0).line).held a cs).levelled st.up (FiPos.holdHigh st 0).line

theorem waved_stepsTo (hg : AdvancesFi g k) (st : Strategy) {a : Time} {cs : List Time}
    (ha : Held s.regs.tFiLow x.now a) (hc : x.env.clockIn = holdReads s.regs.tFiLow a ++ cs) :
    StepsTo g 3 (fiState s c x (.fi f (.low st)))
      (fiState s c (x.waved st a cs) (.fi f (.holdHigh st (a.toNat + s.regs.tFiHigh.toNat)))) := by
  have hhold := held_stepsTo (s := s) (c := c) (x := (x.counted st).levelled st.down (FiPos.holdLow st 0).line)
    (f := f) (q := .holdLow st _) hg (fun _ => rfl) ha hc
  exact (low_stepsTo hg st).trans (hhold.trans (high_stepsTo hg st _))

/-- The low window, the high window and the payload of a strategy (R192 to R195), to its response window. -/
theorem tried_stepsTo (hg : AdvancesFi g k) (st : Strategy) {r : FiAnswers} (h : r.Ready s x) :
    ∃ j ≤ 6, StepsTo g j (fiState s c x (.fi f (.low st)))
      (fiState s c (x.tried st f r) (.fi f (fiWindow st 0 none s))) := by
  have hwave := waved_stepsTo (c := c) (f := f) hg st h.low h.clock
  cases st with
  | native =>
    refine ⟨5, by omega, hwave.trans (StepsTo.trans (held_stepsTo hg (fun _ => rfl) h.high rfl) ?_)⟩
    exact payload_stepsTo hg _ _ h.write
  | alternate =>
    refine ⟨6, by omega, hwave.trans (StepsTo.trans (held_stepsTo hg (fun _ => rfl) h.high rfl) ?_)⟩
    exact StepsTo.trans (release_stepsTo hg _) (payload_stepsTo hg _ _ h.write)

/-! ### The response window -/

/-- `x` with `n` more single-byte reads performed, `line` still to come, and the bytes `stored` in FRMBUF. -/
def FiWork.heard (n : Nat) (line : List LineItem) (stored : List Byte) (x : FiWork) : FiWork :=
  { x with
    env := { x.env with lineIn := line }
    port := { x.port with log := madeCalls x.now (List.replicate n (.read 1)) x.port.log }
    stored := stored }

theorem FiWork.heard_heard (m n : Nat) (line line' : List LineItem) (ds ds' : List Byte) :
    (x.heard m line ds).heard n line' ds' = x.heard (m + n) line' ds' := by
  simp only [FiWork.heard, ← madeCalls_append, List.replicate_append_replicate]

section
variable {bs ds : List Byte} {last : Option Byte} {b : Byte} {line : List LineItem} {st : Strategy}

theorem portRead_gap (a : Agent) (h : v.env.lineIn = .gap :: line) :
    portRead a 1 v = .timeout ((logCall a (.read 1) v).setEnv { v.env with lineIn := line }) := by
  simp only [portRead, h, lineTake]

/-- A read that a byte answers (R196). -/
theorem read_byte_stepsTo (hg : AdvancesFi g k) (hp : LastPending ds x.stored last)
    (hl : x.env.lineIn = .byte b :: line) :
    StepsTo g 1 (fiState s c x (.fi f (.read st ds.length last)))
      (fiState s c (x.heard 1 line ds) (.fi f (fiWindow st (ds.length + 1) (some b) s))) := by
  have hread := portRead_of_bytes .seq [b] line (fiState s c { x with stored := ds } (.fi f (.read st ds.length last))) 1
    rfl hl
  exact fi_stepsTo hg (by simp only [fiStep, hp.store, hread]; rfl) rfl

/-- A silence ends the window (R196). -/
theorem read_gap_stepsTo (hg : AdvancesFi g k) (hp : LastPending ds x.stored last) (hl : x.env.lineIn = .gap :: line) :
    StepsTo g 1 (fiState s c x (.fi f (.read st ds.length last)))
      (fiState s c (x.heard 1 line ds) (.fi f (fiWindowEnd st ds.length none))) := by
  have hread := portRead_gap (v := fiState s c { x with stored := ds } (.fi f (.read st ds.length last))) .seq hl
  exact fi_stepsTo hg (by simp only [fiStep, hp.store, hread]; rfl) rfl

/-- What ends a window of `n` bytes: a silence, unless the limit is reached. -/
def windowTail (readMax n : Nat) : List LineItem := if n < readMax then [.gap] else []

/-- A response window, the bytes `ds` read and the bytes `rs` still to come: one read for each item of the line. -/
theorem window_stepsTo (hg : AdvancesFi g k) (st : Strategy) (rs : List Byte) :
    ∀ {ds : List Byte} {x : FiWork} {last : Option Byte}, LastPending ds x.stored last → bs = ds ++ rs →
      bs.length ≤ s.regs.fiReadMax.toNat →
      x.env.lineIn = rs.map .byte ++ (windowTail s.regs.fiReadMax.toNat bs.length ++ line) →
      ∃ stored last', LastPending bs stored last'
        ∧ StepsTo g (rs.length + (windowTail s.regs.fiReadMax.toNat bs.length).length)
          (fiState s c x (.fi f (fiWindow st ds.length last s)))
          (fiState s c (x.heard (rs.length + (windowTail s.regs.fiReadMax.toNat bs.length).length) line stored)
            (.fi f (fiWindowEnd st bs.length last'))) := by
  induction rs with
  | nil =>
    intro ds x last hp hbs _ hl
    obtain rfl : bs = ds := by rw [hbs, List.append_nil]
    rcases fiWindow_cases st bs.length last s with ⟨hlt, hpos⟩ | ⟨hle, hpos⟩ <;> rw [hpos]
    · rw [windowTail, if_pos hlt] at hl ⊢
      exact ⟨bs, none, .inl ⟨rfl, rfl⟩, read_gap_stepsTo hg hp hl⟩
    · rw [windowTail, if_neg (Nat.not_lt.mpr hle)] at hl ⊢
      obtain rfl : x.env.lineIn = line := hl
      exact ⟨x.stored, last, hp, .refl _ _⟩
  | cons b rs ih =>
    intro ds x last hp hbs hmax hl
    have hlt : ds.length < s.regs.fiReadMax.toNat := by
      rw [hbs, List.length_append, List.length_cons] at hmax
      omega
    obtain ⟨stored, last', hp', hrest⟩ := ih (ds := ds ++ [b]) (last := some b)
      (x := x.heard 1 (rs.map .byte ++ (windowTail s.regs.fiReadMax.toNat bs.length ++ line)) ds)
      (lastPending_snoc ds b) (by rw [hbs, List.append_assoc]; rfl) hmax rfl
    rw [FiWork.heard_heard, List.length_append, List.length_singleton] at hrest
    have hread := read_byte_stepsTo (s := s) (c := c) (f := f) (st := st) hg hp hl
    rw [fiWindow, if_pos hlt, List.length_cons, Nat.add_right_comm]
    rw [Nat.add_comm 1] at hrest
    exact ⟨stored, last', hp', hread.trans hrest⟩

end

/-- How many reads the response window of a strategy makes (R196). -/
def FiAnswers.reads (r : FiAnswers) (s : State) : Nat := (windowItems s.regs.fiReadMax.toNat r.bytes).length

theorem FiAnswers.Ready.reads_eq {r : FiAnswers} (h : r.Ready s x) :
    x.env.lineIn.length = r.reads s + r.lineIn.length := by
  rw [h.line, List.length_append, FiAnswers.reads]

theorem FiAnswers.Ready.bytes_le {r : FiAnswers} (h : r.Ready s x) : r.bytes.length ≤ 255 :=
  h.limit.trans (Nat.le_of_lt_succ s.regs.fiReadMax.isLt)

theorem runBudget_line (s : State) : 2 * s.env.lineIn.length + 64 ≤ runBudget s := by
  rw [runBudget, Env.pending]
  omega

/-- `x` with the whole strategy `st` done, and the bytes of its response in FRMBUF. -/
def FiWork.played (s : State) (st : Strategy) (f : List Byte) (r : FiAnswers) (x : FiWork) : FiWork :=
  (x.tried st f r).heard (r.reads s) r.lineIn r.bytes

/-- `x` with FastInit over: the count in FRMLEN, the outcome in FI_RESULT, the steady timeout back (R197, R199, R200). -/
def FiWork.closed (s : State) (res : FiResult) (x : FiWork) : FiWork :=
  { x with
    outs := { x.outs with frmLen := BitVec.ofNat 10 x.stored.length }
    port :=
      { x.port with timeout := s.regs.tRxTimeout, log := madeCalls x.now [.setTimeout s.regs.tRxTimeout] x.port.log }
    result := res }

section
variable {st : Strategy} {r r' : FiAnswers} {stored : List Byte} {last : Option Byte} {res : FiResult}

/-- One whole strategy: waveform, payload, response window (R192 to R197); its last byte may still be pending. -/
theorem strategy_stepsTo (hg : AdvancesFi g k) (st : Strategy) (h : r.Ready s x) (hx : x.stored = []) :
    ∃ j stored last, j ≤ 6 + r.reads s ∧ LastPending r.bytes stored last
      ∧ StepsTo g j (fiState s c x (.fi f (.low st)))
        (fiState s c { x.played s st f r with stored := stored } (.fi f (fiWindowEnd st r.bytes.length last))) := by
  obtain ⟨j, hj, htried⟩ := tried_stepsTo (c := c) (f := f) hg st h
  have hreads : r.reads s = r.bytes.length + (windowTail s.regs.fiReadMax.toNat r.bytes.length).length := by
    rw [FiAnswers.reads, windowItems, List.length_append, List.length_map, windowTail]
  have hline := h.line
  rw [windowItems, List.append_assoc] at hline
  obtain ⟨stored, last, hp, hwin⟩ := window_stepsTo (s := s) (c := c) (f := f) (bs := r.bytes) (line := r.lineIn)
    (ds := []) (last := none) (x := x.tried st f r) hg st r.bytes (.inl ⟨hx, rfl⟩) rfl h.limit hline
  rw [← hreads] at hwin
  exact ⟨_, stored, last, by omega, hp, htried.trans hwin⟩

/-! ### The end of FastInit -/

theorem close_stepsTo (hg : AdvancesFi g k) (hp : LastPending x.stored stored last) :
    StepsTo g 1 (fiState s c { x with stored := stored } (.fi f (.close res x.stored.length last)))
      (fiState s c (x.closed s res) (k (res != .noResponse))) := by
  have hdone : fiStep f (.close res x.stored.length last)
      (fiState s c { x with stored := stored } (.fi f (.close res x.stored.length last))) =
      .done (res != .noResponse) (fiState s c (x.closed s res) (.fi f (.close res x.stored.length last))) := by
    simp only [fiStep, LastPending.store (x := { x with stored := stored }) hp]
    rfl
  refine .head rfl ?_ (.refl _ _)
  rw [hg, seqFi, hdone]
  rfl

/-- The strategy whose response, or silence, ends FastInit. -/
theorem lastStrategy_stepsTo (hg : AdvancesFi g k) (h : r.Ready s x) (hx : x.stored = [])
    (hend : ∀ stored last, LastPending r.bytes stored last →
      fiWindowEnd st r.bytes.length last = .close res r.bytes.length last) :
    ∃ j ≤ 7 + r.reads s, StepsTo g j (fiState s c x (.fi f (.low st)))
      (fiState s c ((x.played s st f r).closed s res) (k (res != .noResponse))) := by
  obtain ⟨j, stored, last, hj, hp, hrun⟩ := strategy_stepsTo (c := c) (f := f) hg st h hx
  rw [hend stored last hp] at hrun
  exact ⟨_, by omega, hrun.trans (close_stepsTo (x := x.played s st f r) hg hp)⟩

/-- PORT_TO is set for the response windows (R200). -/
def FiWork.begun (s : State) : FiWork :=
  { FiWork.init s with port :=
    { s.port with
      timeout := s.regs.tFiTimeout, log := madeCalls s.clock.now [.setTimeout s.regs.tFiTimeout] s.port.log } }

theorem begun_stepsTo (hg : AdvancesFi g k) :
    StepsTo g 1 (fiState s c (.init s) (.fi f .setTimeout)) (fiState s c (.begun s) (.fi f (.low .native))) :=
  fi_stepsTo hg rfl rfl

/-- The work of a FastInit that the native strategy settles. -/
def nativeWork (s : State) (r : FiAnswers) : FiWork :=
  ((FiWork.begun s).played s .native (startFrame s) r).closed s .native

/-- FastInit answered by the native strategy (R197). -/
theorem native_stepsTo (hg : AdvancesFi g k) (h : r.Ready s (.begun s)) (hr : 1 ≤ r.bytes.length) :
    ∃ j ≤ 8 + r.reads s, StepsTo g j (fiState s c (.init s) (.fi (startFrame s) .setTimeout))
      (fiState s c (nativeWork s r) (k true)) := by
  obtain ⟨j, hj, hrun⟩ := lastStrategy_stepsTo (c := c) (f := startFrame s) (st := .native) (res := .native) hg h rfl
    fun _ _ _ => if_pos hr
  exact ⟨_, by omega, (begun_stepsTo hg).trans hrun⟩

/-- The primitives of a native FastInit, in order. -/
theorem nativeWork_port : (nativeWork s r).port =
    { timeout := s.regs.tRxTimeout
      line := .uart
      log := madeCalls r.highEnd
        ([.write (startFrame s)] ++ List.replicate (r.reads s) (.read 1) ++ [.setTimeout s.regs.tRxTimeout])
        (madeCalls r.lowEnd [.brk false]
          (madeCalls s.clock.now [.setTimeout s.regs.tFiTimeout, .brk true] s.port.log)) } := by
  rw [madeCalls_append, madeCalls_append]
  rfl

/-- The same with the one read of KWP_INIT's blind receive after it (R245). -/
theorem nativeWork_blind_log : madeCalls r.highEnd [.read 1] (nativeWork s r).port.log =
    madeCalls r.highEnd
      ([.write (startFrame s)] ++ List.replicate (r.reads s) (.read 1) ++ [.setTimeout s.regs.tRxTimeout, .read 1])
      (madeCalls r.lowEnd [.brk false]
        (madeCalls s.clock.now [.setTimeout s.regs.tFiTimeout, .brk true] s.port.log)) := by
  rw [nativeWork_port, ← madeCalls_append, List.append_assoc]
  rfl

/-- The outcome of the alternate strategy (R197, R199). -/
def alternateResult (bs : List Byte) : FiResult := if bs = [] then .noResponse else .alternate

theorem fiWindowEnd_alternate {bs : List Byte} (hp : LastPending bs stored last) :
    fiWindowEnd .alternate bs.length last = .close (alternateResult bs) bs.length last := by
  cases bs with
  | nil =>
    obtain ⟨_, rfl⟩ := hp.nil
    rfl
  | cons b bs => exact if_pos (Nat.succ_pos _)

/-- The work of a FastInit that goes on to the alternate strategy. -/
def fallbackWork (s : State) (r r' : FiAnswers) : FiWork :=
  (((FiWork.begun s).played s .native (startFrame s) r).played s .alternate (startFrame s) r').closed s
    (alternateResult r'.bytes)

/-- FastInit with a silent native strategy: the alternate one follows at once and settles the outcome (R198, R199). -/
theorem fallback_stepsTo (hg : AdvancesFi g k) (h : r.Ready s (.begun s)) (hr : r.bytes = [])
    (h' : r'.Ready s ((FiWork.begun s).played s .native (startFrame s) r)) :
    ∃ j ≤ 14 + r.reads s + r'.reads s, StepsTo g j (fiState s c (.init s) (.fi (startFrame s) .setTimeout))
      (fiState s c (fallbackWork s r r') (k (alternateResult r'.bytes != .noResponse))) := by
  obtain ⟨j, stored, last, hj, hp, hnative⟩ := strategy_stepsTo (c := c) (f := startFrame s) hg .native h rfl
  rw [hr] at hp hnative
  obtain ⟨rfl, rfl⟩ := hp.nil
  obtain ⟨j', hj', halt⟩ := lastStrategy_stepsTo (c := c) (f := startFrame s) (st := .alternate) hg h' hr
    fun _ _ hp => fiWindowEnd_alternate hp
  have hsilent : { (FiWork.begun s).played s .native (startFrame s) r with stored := [] } =
      (FiWork.begun s).played s .native (startFrame s) r := by
    rw [← hr]
    rfl
  rw [hsilent] at hnative
  exact ⟨_, by omega, (begun_stepsTo hg).trans (hnative.trans halt)⟩

/-- The primitives of a FastInit that tries both strategies, in order. -/
theorem fallbackWork_port : (fallbackWork s r r').port =
    { timeout := s.regs.tRxTimeout
      line := .uart
      log := madeCalls r'.highEnd
        ([.lineSet .release, .write (startFrame s)] ++ List.replicate (r'.reads s) (.read 1)
          ++ [.setTimeout s.regs.tRxTimeout])
        (madeCalls r'.lowEnd [.lineSet .high]
          (madeCalls r.highEnd
            ([.write (startFrame s)] ++ List.replicate (r.reads s) (.read 1) ++ [.lineSet .low])
            (madeCalls r.lowEnd [.brk false]
              (madeCalls s.clock.now [.setTimeout s.regs.tFiTimeout, .brk true] s.port.log)))) } := by
  simp only [madeCalls_append]
  rfl

/-! ### The state FastInit leaves -/

/-- The bytes stored, in any state with FastInit's buffer RAM. -/
theorem stored_holdsAt (hr : v.ram = (s.memWrite frmBuf bs).ram) (he : v.epoch = s.epoch) (hbs : bs.length ≤ 512) :
    HoldsAt v 0x200 bs ∧ SameOutside s v 0x200 bs.length := by
  have he' : v.epoch = (s.memWrite frmBuf bs).epoch := he.trans (memWrite_epoch _ _).symm
  refine ⟨HoldsAt.congr (State.memRead_memWrite s frmBuf bs ?_) hr he', fun b hb => ?_⟩
  · simp only [frmBuf, ramSize]
    omega
  · rw [peek_congr hr he' b]
    exact State.peek_memWrite_other s frmBuf b bs hb

/-- The lock given back, and the successful end (R331). -/
theorem endOp_fiState (hl : s.lock = .free) (hx : x.stored.length ≤ 512) {t : State} {p : Pos}
    (ht : t = endOp ((fiState s c x p).setLock .free)) :
    EndsAs { s.status.ended with fiResult := x.result } s t ∧ HoldsAt t 0x200 x.stored
      ∧ SameOutside s t 0x200 x.stored.length ∧ t.outs = x.outs ∧ t.cap = s.cap ∧ t.ka = s.ka
      ∧ t.clock = { s.clock with now := x.now } ∧ t.env = x.env ∧ t.port = x.port := by
  subst ht
  obtain ⟨hmem, hout⟩ := stored_holdsAt (s := s) (v := endOp ((fiState s c x p).setLock .free)) rfl rfl hx
  exact ⟨⟨rfl, rfl, hl.symm, rfl, rfl, rfl, rfl, rfl⟩, hmem, hout, rfl, rfl, rfl, rfl, rfl, rfl⟩

/-- The lock given back, and error entry (R330). -/
theorem raiseError_fiState (e : Err) (hl : s.lock = .free) (hx : x.stored.length ≤ 512) {t : State} {p : Pos}
    (ht : t = raiseError e ((fiState s c x p).setLock .free)) :
    EndsAs { s.status.failed with fiResult := x.result } s t ∧ HoldsAt t 0x200 x.stored
      ∧ SameOutside s t 0x200 x.stored.length ∧ t.outs = { x.outs with errCode := e.codeWord, errInfo := e.infoWord }
      ∧ t.cap = s.cap ∧ t.ka = s.ka
      ∧ t.clock = { s.clock with now := x.now } ∧ t.env = x.env ∧ t.port = x.port := by
  subst ht
  obtain ⟨hmem, hout⟩ := stored_holdsAt (s := s) (v := raiseError e ((fiState s c x p).setLock .free)) rfl rfl hx
  exact ⟨⟨rfl, rfl, hl.symm, rfl, rfl, rfl, rfl, rfl⟩, hmem, hout, rfl, rfl, rfl, rfl, rfl, rfl⟩

/-! ### FI_SEQ -/

theorem startPdu_ok (h1 : 1 ≤ s.regs.startLen.toNat) (h2 : s.regs.startLen.toNat ≤ 255) :
    startPdu s = .ok (s.memRead startBuf s.regs.startLen.toNat) := if_neg (by omega)

/-- FI_SEQ's first step, its checks passed and the lock free (R201). -/
theorem stepFiSeq_start (hs : Started .fiSeq s) (hp : s.regs.ctrl.proto = .kwpKline) (hup : s.status.portOpen = true)
    (hl : s.lock = .free) (h1 : 1 ≤ s.regs.startLen.toNat) (h2 : s.regs.startLen.toNat ≤ 255) :
    stepFiSeq .start s = .go (fiState s (opcode .fiSeq) (.init s) (.fi (startFrame s) .setTimeout)) := by
  rw [← acquired_fiState hs]
  simp only [stepFiSeq, hp, ne_eq, not_true, if_false, hup, Bool.not_true, Bool.false_eq_true, startPdu_ok h1 h2,
    acquireThen, hl, if_true]
  rfl

/-- FI_SEQ's last step (R201). -/
def fiSeqEnd (ok : Bool) (w : State) : State := if ok then endOp w else raiseError (.timeout .fi 0) w

theorem fiSeq_end_stepsTo (ok : Bool) :
    StepsTo stepFiSeq 2 (fiState s c x (.release (.fastInit ok)))
      (fiSeqEnd ok ((fiState s c x (.finish (.fastInit ok))).setLock .free)) := by
  cases ok <;> exact .head rfl rfl (.head rfl rfl (.refl _ _))

/-- A whole run of FI_SEQ: acquire, FastInit, release, end (R201). -/
theorem exec_fiSeq {j : Nat} {ok : Bool} (hs : Started .fiSeq s) (hp : s.regs.ctrl.proto = .kwpKline)
    (hup : s.status.portOpen = true) (hl : s.lock = .free) (h1 : 1 ≤ s.regs.startLen.toNat)
    (h2 : s.regs.startLen.toNat ≤ 255)
    (hrun : StepsTo stepFiSeq j (fiState s (opcode .fiSeq) (.init s) (.fi (startFrame s) .setTimeout))
      (fiState s (opcode .fiSeq) x (.release (.fastInit ok)))) (hj : j + 3 ≤ runBudget s) :
    exec .fiSeq s =
      .next (fiSeqEnd ok ((fiState s (opcode .fiSeq) x (.finish (.fastInit ok))).setLock .free)) :=
  exec_of_stepsTo (.head hs (stepFiSeq_start hs hp hup hl h1 h2) (hrun.trans (fiSeq_end_stepsTo ok)))
    (by cases ok <;> rfl) (by omega)

/-- FI_SEQ whose native strategy is answered (R197, R201). -/
theorem exec_fiSeq_native {r : FiAnswers} (hs : Started .fiSeq s) (hp : s.regs.ctrl.proto = .kwpKline)
    (hup : s.status.portOpen = true) (hl : s.lock = .free) (h1 : 1 ≤ s.regs.startLen.toNat)
    (h2 : s.regs.startLen.toNat ≤ 255) (h : r.Ready s (.begun s)) (hr : 1 ≤ r.bytes.length) :
    ∃ t, exec .fiSeq s = .next t ∧ EndsAs { s.status.ended with fiResult := .native } s t ∧ HoldsAt t 0x200 r.bytes
      ∧ SameOutside s t 0x200 r.bytes.length ∧ t.outs = (nativeWork s r).outs ∧ t.cap = s.cap ∧ t.ka = s.ka
      ∧ t.clock = { s.clock with now := r.highEnd } ∧ t.env = (nativeWork s r).env ∧ t.port = (nativeWork s r).port := by
  obtain ⟨j, hj, hrun⟩ := native_stepsTo (c := opcode .fiSeq) advancesFi_fiSeq h hr
  have hline : s.env.lineIn.length = r.reads s + r.lineIn.length := h.reads_eq
  have hbudget := runBudget_line s
  exact ⟨_, exec_fiSeq hs hp hup hl h1 h2 hrun (by omega),
    endOp_fiState (x := nativeWork s r) hl (h.bytes_le.trans (by decide)) rfl⟩

/-- FI_SEQ whose native strategy is not answered (R198, R199, R201). -/
theorem exec_fiSeq_fallback {r r' : FiAnswers} (hs : Started .fiSeq s) (hp : s.regs.ctrl.proto = .kwpKline)
    (hup : s.status.portOpen = true) (hl : s.lock = .free) (h1 : 1 ≤ s.regs.startLen.toNat)
    (h2 : s.regs.startLen.toNat ≤ 255) (h : r.Ready s (.begun s)) (hr : r.bytes = [])
    (h' : r'.Ready s ((FiWork.begun s).played s .native (startFrame s) r)) :
    ∃ t, exec .fiSeq s = .next t
      ∧ EndsAs (if r'.bytes = [] then { s.status.failed with fiResult := .noResponse }
          else { s.status.ended with fiResult := .alternate }) s t
      ∧ HoldsAt t 0x200 r'.bytes ∧ SameOutside s t 0x200 r'.bytes.length
      ∧ t.outs = { (fallbackWork s r r').outs with
          errCode := if r'.bytes = [] then (Err.timeout .fi 0).codeWord else s.outs.errCode
          errInfo := if r'.bytes = [] then (Err.timeout .fi 0).infoWord else s.outs.errInfo }
      ∧ t.cap = s.cap ∧ t.ka = s.ka ∧ t.clock = { s.clock with now := r'.highEnd }
      ∧ t.env = (fallbackWork s r r').env ∧ t.port = (fallbackWork s r r').port := by
  obtain ⟨j, hj, hrun⟩ := fallback_stepsTo (c := opcode .fiSeq) advancesFi_fiSeq h hr h'
  have hline : s.env.lineIn.length = r.reads s + r.lineIn.length := h.reads_eq
  have hline' : r.lineIn.length = r'.reads s + r'.lineIn.length := h'.reads_eq
  have hbudget := runBudget_line s
  have hexec := exec_fiSeq hs hp hup hl h1 h2 hrun (by omega)
  have hlen : (fallbackWork s r r').stored.length ≤ 512 := h'.bytes_le.trans (by decide)
  refine ⟨_, hexec, ?_⟩
  by_cases hbs : r'.bytes = []
  · have hres : alternateResult r'.bytes = .noResponse := if_pos hbs
    have hend := raiseError_fiState (c := opcode .fiSeq) (p := .finish (.fastInit false)) (.timeout .fi 0) hl hlen rfl
    rw [show (fallbackWork s r r').result = .noResponse from hres] at hend
    simp only [hres, if_pos hbs]
    exact hend
  · have hres : alternateResult r'.bytes = .alternate := if_neg hbs
    have hend := endOp_fiState (c := opcode .fiSeq) (p := .finish (.fastInit true)) hl hlen rfl
    rw [show (fallbackWork s r r').result = .alternate from hres] at hend
    simp only [hres, if_neg hbs]
    exact hend

/-! ### KWP_INIT over the K-Line -/

theorem initChecks_kline (hp : s.regs.ctrl.proto = .kwpKline) (h1 : 1 ≤ s.regs.startLen.toNat)
    (h2 : s.regs.startLen.toNat ≤ 255)
    (hk : s.regs.ctrl.kaEn = true → 1 ≤ s.regs.kaLen.toNat ∧ s.regs.kaLen.toNat ≤ 255) : initChecks s = .ok () := by
  simp only [initChecks, hp, reduceCtorEq, if_false, if_true, startPdu_ok h1 h2]
  cases hen : s.regs.ctrl.kaEn with
  | false => rfl
  | true =>
    have hka : kaPdu s = .ok (s.memRead kaBuf s.regs.kaLen.toNat) := by
      obtain ⟨hmin, hmax⟩ := hk hen
      exact if_neg (by omega)
    simp only [if_true, hka]

/-- KWP_INIT's first step on an open port, its checks passed, no task running and the lock free (R245). -/
theorem stepKwpInit_start (hs : Started .kwpInit s) (hp : s.regs.ctrl.proto = .kwpKline)
    (hup : s.status.portOpen = true) (hl : s.lock = .free) (hoff : s.ka.phase = .off) (hc : initChecks s = .ok ()) :
    stepKwpInit .start s = .go (fiState s (opcode .kwpInit) (.init s) (.fi (startFrame s) .setTimeout)) := by
  rw [← acquired_fiState hs]
  simp only [stepKwpInit, hc, stopThen, hoff, if_true, initOpen, hup, initBody, hp, acquireThen, hl]

/-- The blind read meets a silence, which is swallowed (R245): the receive, the release, the end. -/
theorem blind_stepsTo {line : List LineItem} (hp : s.regs.ctrl.proto = .kwpKline)
    (ht : x.port.timeout = s.regs.tRxTimeout) (hx : x.env.lineIn = .gap :: line) :
    StepsTo stepKwpInit 3 (fiState s c x (.tx [] .syncRecv))
      (initEnd ((fiState s c (x.heard 1 line x.stored) (.finish .unit)).setLock .free)) := by
  have hrecv : txStep .seq false [] .syncRecv (fiState s c x (.tx [] .syncRecv)) =
      .go (.raise (.timeout .klRx 0)) (readsDone [.read 1] line (fiState s c x (.tx [] .syncRecv))) :=
    (if_neg (not_not.mpr ht)).trans (recvStep_item (w := fiState s c x (.tx [] .syncRecv)) hp hx)
  have hstep : stepKwpInit (.tx [] .syncRecv) (fiState s c x (.tx [] .syncRecv)) =
      .go (fiState s c (x.heard 1 line x.stored) (.tx [] (.raise (.timeout .klRx 0)))) := by
    simp only [stepKwpInit, seqTxWith, hrecv]
    rfl
  exact .head rfl hstep (.head rfl rfl (.head rfl rfl (.refl _ _)))

/-- A whole run of KWP_INIT over the K-Line whose blind read meets a silence (R245). -/
theorem exec_kwpInit_kline {j : Nat} {line : List LineItem} (hs : Started .kwpInit s)
    (hp : s.regs.ctrl.proto = .kwpKline) (hup : s.status.portOpen = true) (hl : s.lock = .free)
    (hoff : s.ka.phase = .off) (hc : initChecks s = .ok ())
    (hrun : StepsTo stepKwpInit j (fiState s (opcode .kwpInit) (.init s) (.fi (startFrame s) .setTimeout))
      (fiState s (opcode .kwpInit) x (.tx [] .syncRecv))) (hj : j + 4 ≤ runBudget s)
    (ht : x.port.timeout = s.regs.tRxTimeout) (hx : x.env.lineIn = .gap :: line) :
    exec .kwpInit s = .next (initEnd
      ((fiState s (opcode .kwpInit) (x.heard 1 line x.stored) (.finish .unit)).setLock .free)) := by
  obtain ⟨hop, _⟩ := initEnd_status
    ((fiState s (opcode .kwpInit) (x.heard 1 line x.stored) (.finish .unit)).setLock .free)
  exact exec_of_stepsTo (.head hs (stepKwpInit_start hs hp hup hl hoff hc) (hrun.trans (blind_stepsTo hp ht hx))) hop
    (by omega)

/-- The end of KWP_INIT changes STATUS, OP and, if KA_EN = 1, the task (R245, R260). -/
theorem initEnd_eq (w : State) :
    initEnd w = endOp ((w.setStatus
        { w.status with engReady := true, kaRun := if w.regs.ctrl.kaEn then true else w.status.kaRun }).setKa
      (if w.regs.ctrl.kaEn then
        { phase := .wait (kaWake w), stopReq := false, pdu := w.memRead kaBuf w.regs.kaLen.toNat }
      else w.ka)) := by
  unfold initEnd
  split
  · rfl
  · rfl

/-- The lock given back, and Ready: a task that is started takes its command from KABUF, which FastInit does not reach
(R245, R260). -/
theorem initEnd_fiState (hl : s.lock = .free) (hx : x.stored.length ≤ 512) {t : State} {p : Pos}
    (ht : t = initEnd ((fiState s c x p).setLock .free)) :
    EndsAs { s.status.ended with
        fiResult := x.result, engReady := true, kaRun := if s.regs.ctrl.kaEn then true else s.status.kaRun } s t
      ∧ HoldsAt t 0x200 x.stored ∧ SameOutside s t 0x200 x.stored.length ∧ t.outs = x.outs ∧ t.cap = s.cap
      ∧ t.clock = { s.clock with now := x.now }
      ∧ t.ka = (if s.regs.ctrl.kaEn then
          { phase := .wait (x.now.toNat + s.regs.kaPoll.toNat * 1000), stopReq := false
            pdu := s.memRead 0x500 s.regs.kaLen.toNat }
        else s.ka)
      ∧ t.env = x.env ∧ t.port = x.port := by
  have hkabuf : ((fiState s c x p).setLock .free).memRead kaBuf s.regs.kaLen.toNat =
      s.memRead 0x500 s.regs.kaLen.toNat := by
    obtain ⟨_, hout⟩ := stored_holdsAt (s := s) (v := (fiState s c x p).setLock .free) rfl rfl hx
    exact State.memRead_congr _ _ _ _ fun i _ => hout _ (.inr (by simp only [kaBuf]; omega))
  rw [initEnd_eq] at ht
  obtain ⟨hmem, hout⟩ := stored_holdsAt (s := s) (v := t) (by rw [ht]; rfl) (by rw [ht]; rfl) hx
  subst ht
  refine ⟨⟨rfl, rfl, hl.symm, rfl, rfl, rfl, rfl, rfl⟩, hmem, hout, rfl, rfl, rfl, ?_, rfl, rfl⟩
  rw [← hkabuf]
  rfl

/-- KWP_INIT whose native strategy is answered and whose blind read meets a silence (R200, R245). -/
theorem exec_kwpInit_native {r : FiAnswers} {line : List LineItem} (hs : Started .kwpInit s)
    (hp : s.regs.ctrl.proto = .kwpKline) (hup : s.status.portOpen = true) (hl : s.lock = .free)
    (hoff : s.ka.phase = .off) (hc : initChecks s = .ok ()) (h : r.Ready s (.begun s)) (hr : 1 ≤ r.bytes.length)
    (hblind : r.lineIn = .gap :: line) :
    ∃ t, exec .kwpInit s = .next t
      ∧ EndsAs { s.status.ended with
          fiResult := .native, engReady := true, kaRun := if s.regs.ctrl.kaEn then true else s.status.kaRun } s t
      ∧ HoldsAt t 0x200 r.bytes ∧ SameOutside s t 0x200 r.bytes.length ∧ t.outs = (nativeWork s r).outs
      ∧ t.cap = s.cap ∧ t.clock = { s.clock with now := r.highEnd }
      ∧ t.ka = (if s.regs.ctrl.kaEn then
          { phase := .wait (r.highEnd.toNat + s.regs.kaPoll.toNat * 1000), stopReq := false
            pdu := s.memRead 0x500 s.regs.kaLen.toNat }
        else s.ka)
      ∧ t.env = { (nativeWork s r).env with lineIn := line }
      ∧ t.port =
        { timeout := s.regs.tRxTimeout, line := .uart
          log := madeCalls r.highEnd [.read 1] (nativeWork s r).port.log } := by
  obtain ⟨j, hj, hrun⟩ := native_stepsTo (c := opcode .kwpInit) advancesFi_kwpInit h hr
  have hline : s.env.lineIn.length = r.reads s + r.lineIn.length := h.reads_eq
  have hbudget := runBudget_line s
  exact ⟨_, exec_kwpInit_kline hs hp hup hl hoff hc hrun (by omega) rfl hblind,
    initEnd_fiState (x := (nativeWork s r).heard 1 line r.bytes) hl (h.bytes_le.trans (by decide)) rfl⟩

end

end

/-- Settles O46: the native strategy, and FI_SEQ's successful end. -/
theorem fiSeqNative : Obligations.FiSeqNative := by
  intro s a b cs n ws bs line hs hp hup hl h1 h2 ha hb hc hw hbs hmax hx
  have hready : FiAnswers.Ready ⟨a, b, cs, n, ws, bs, line⟩ s (.begun s) := ⟨ha, hb, hc, hw, hmax, hx⟩
  obtain ⟨t, hexec, hends⟩ := exec_fiSeq_native hs hp hup hl h1 h2 hready hbs
  rw [nativeWork_port] at hends
  exact ⟨_, t, rfl, hexec, hends⟩

/-- Settles O47: both strategies, and the end the second one's response brings. -/
theorem fiSeqFallback : Obligations.FiSeqFallback := by
  intro s c1 c2 c3 c4 cs n1 n2 ws bs line hs hp hup hl h1 h2 ha hb hc hd hclk hw hmax hx
  have hready : FiAnswers.Ready ⟨c1, c2, holdReads s.regs.tFiLow c3 ++ (holdReads s.regs.tFiHigh c4 ++ cs), n1, n2 :: ws,
    [], windowItems s.regs.fiReadMax.toNat bs ++ line⟩ s (.begun s) := ⟨ha, hb, hclk, hw, Nat.zero_le _, hx⟩
  obtain ⟨t, hexec, hends⟩ := exec_fiSeq_fallback (r' := ⟨c3, c4, cs, n2, ws, bs, line⟩) hs hp hup hl h1 h2 hready rfl
    ⟨hc, hd, rfl, rfl, hmax, rfl⟩
  rw [fallbackWork_port] at hends
  exact ⟨_, t, rfl, hexec, hends⟩

/-- Settles O53: the native strategy, the blind read's silence, and KWP_INIT's end. -/
theorem kwpInitKline : Obligations.KwpInitKline := by
  intro s a b cs n ws bs line hs hp hup hl hoff h1 h2 hk ha hb hc hw hbs hmax hx
  have hready : FiAnswers.Ready ⟨a, b, cs, n, ws, bs, .gap :: line⟩ s (.begun s) := ⟨ha, hb, hc, hw, hmax, hx⟩
  obtain ⟨t, hexec, hends⟩ := exec_kwpInit_native hs hp hup hl hoff (initChecks_kline hp h1 h2 hk) hready hbs rfl
  rw [nativeWork_blind_log] at hends
  exact ⟨_, t, rfl, hexec, hends⟩

end Sys2Proof.Machine

/-! The capture buffer and the ways to open the port (spec/43_transport.md R218, R221, R225, R236; spec/44_kwp_engine.md
R245, R260): what a sequence of captures leaves, CAP_DUMP, OPEN, and KWP_INIT over CAN. -/

namespace Sys2Proof.Machine

/-! ### Captures, one after the other -/

/-- The oldest records leave in one go as they do one capture at a time (R218). -/
theorem evict_append (k : Nat) (xs ys : List Record) : evict k (evict k xs ++ ys) = evict k (xs ++ ys) := by
  unfold evict
  split
  · rfl
  · rcases Nat.le_total xs.length k with h | h
    · rw [Nat.sub_eq_zero_of_le h, List.drop_zero]
    · rw [← List.drop_append_of_le_length (Nat.sub_le _ _), List.drop_drop]
      congr 1
      simp only [List.length_drop, List.length_append]
      omega

section
variable {s : State} {cfg : Word} {us : List (Dir × List Byte)}

theorem pushed_enabled (h : cfg.getLsbD 31 = false) (now : Time) (d : Dir) (bs : List Byte) (live : List Record) :
    pushed cfg now d bs live = evict (capCapacity cfg) (live ++ [{ dir := d, bytes := bs, ts := now / 1000 }]) :=
  if_neg (by rw [h]; exact Bool.false_ne_true)

theorem pushed_length_le (h : cfg.getLsbD 31 = false) (hk : 0 < capCapacity cfg) (now : Time) (d : Dir)
    (bs : List Byte) (live : List Record) : (pushed cfg now d bs live).length ≤ capCapacity cfg := by
  rw [pushed_enabled h, evict_length _ _ hk.ne']
  exact Nat.min_le_left _ _

/-- Units captured into a buffer within its capacity: the newest records of all that came in (R218). -/
theorem pushedAll_enabled (h : cfg.getLsbD 31 = false) (hk : 0 < capCapacity cfg) (now : Time) :
    ∀ live : List Record, live.length ≤ capCapacity cfg → pushedAll cfg now us live =
      evict (capCapacity cfg) (live ++ us.map fun u => { dir := u.1, bytes := u.2, ts := now / 1000 }) := by
  induction us with
  | nil =>
    intro live hlen
    rw [pushedAll, List.map_nil, List.append_nil, evict, if_neg hk.ne', Nat.sub_eq_zero_of_le hlen, List.drop_zero]
  | cons u us ih =>
    intro live _
    rw [pushedAll, ih _ (pushed_length_le h hk _ _ _ _), pushed_enabled h, evict_append, List.append_assoc]
    rfl

/-- CapPush of several units in the words of R218. -/
theorem foldl_capPush_live : (us.foldl (fun s u => capPush u.1 u.2 s) s).cap.live =
    pushedAll s.regs.capCfg s.clock.now us s.cap.live := by
  induction us generalizing s with
  | nil => rfl
  | cons u us ih =>
    rw [List.foldl_cons, ih, (capPush_frame _ _ _).regs, (capPush_frame _ _ _).clock, capPush_pushed]
    rfl

theorem foldl_capPush_regs : (us.foldl (fun s u => capPush u.1 u.2 s) s).regs = s.regs := by
  induction us generalizing s with
  | nil => rfl
  | cons u us ih => rw [List.foldl_cons, ih, (capPush_frame _ _ _).regs]

/-- CAP_COUNT counts CAP_LIVE after every capture (R51, R218). -/
theorem capPush_count (h : s.regs.capCfg.getLsbD 31 = false) (d : Dir) (bs : List Byte) :
    (capPush d bs s).outs.capCount = BitVec.ofNat 32 (capPush d bs s).cap.live.length := by
  rw [capPush_pushed]
  exact if_neg (by rw [h]; exact Bool.false_ne_true)

theorem foldl_capPush_count (h : s.regs.capCfg.getLsbD 31 = false) (hus : us ≠ []) :
    (us.foldl (fun s u => capPush u.1 u.2 s) s).outs.capCount =
      BitVec.ofNat 32 (us.foldl (fun s u => capPush u.1 u.2 s) s).cap.live.length := by
  rw [← List.dropLast_append_getLast hus, List.foldl_append]
  exact capPush_count (by rw [foldl_capPush_regs]; exact h) _ _

end

/-- Settles O37: one capture is `pushed`, and a sequence of them keeps the newest records of all. -/
theorem captureBound : Obligations.CaptureBound := by
  refine ⟨fun s d bs => ⟨fun h => if_pos h, fun h => ⟨?_, capPush_count h d bs, fun hk => ?_⟩⟩, ?_⟩
  · rw [capPush_pushed]
    rfl
  · rw [capPush_pushed]
    exact pushed_length_le h hk _ _ _ _
  · intro s us k hlive h hk hpos hlt
    have hcap : capCapacity s.regs.capCfg = k := hk
    have hkept : (us.foldl (fun s u => capPush u.1 u.2 s) s).cap.live =
        (us.map fun u => { dir := u.1, bytes := u.2, ts := s.clock.now / 1000 }).drop (us.length - k) := by
      rw [foldl_capPush_live, hlive, pushedAll_enabled h (hcap ▸ hpos) _ _ (Nat.zero_le _), hcap, List.nil_append, evict,
        if_neg hpos.ne', List.length_map]
    refine ⟨hkept, ?_, rfl⟩
    rw [foldl_capPush_count h (List.ne_nil_of_length_pos (by omega)), hkept, List.length_drop, List.length_map]
    congr 1
    omega

/-! ### CAP_DUMP -/

/-- An operation's first step as an event of the interleaving (R90). -/
theorem eventStep_atom_of_start {i : Instr} {s t : State} (hs : Started i s) (h : opStep i .start s = .go t) :
    eventStep .atom s = .next t := by
  rw [Started] at hs
  simp only [eventStep, seqAtom, hs, decodeCode_opcode, h]

/-- Settles O43: the one step of CAP_DUMP, as an event and as a run. -/
theorem capDumpCompletes : Obligations.CapDumpCompletes := fun s hs =>
  ⟨endOp (dumpCapture s), eventStep_atom_of_start hs rfl, exec_of_start hs rfl rfl, rfl, rfl, ⟨rfl, rfl, rfl, rfl⟩,
    ⟨rfl, rfl, rfl, rfl, rfl⟩, fun _ => rfl, rfl, rfl, rfl⟩

/-! ### Opening the port -/

/-- A closed port after `PortOpen` answered `ok`, with `rest` still to be answered (R216, R225). -/
def openAnswered (ok : Bool) (rest : List Bool) (s : State) : State :=
  (((logCall .seq .openPort s).setEnv { s.env with openAns := rest }).setStatus { s.status with portOpen := ok }).goto
    (if ok then .opened else .raise .openingPort)

/-- An opened port with its timeout set, OP going on at `q` (R225, R245). -/
def timeoutSet (rest : List Bool) (q : Pos) (s : State) : State :=
  (portSetTimeout .seq s.regs.tRxTimeout (openAnswered true rest s)).goto q

/-- An opened port with its timeout and, on CAN, its one filter set, OP going on at `q` (R225, R245). -/
def filterSet (rest : List Bool) (q : Pos) (s : State) : State := (canSetFilters .seq (timeoutSet rest .filter s)).goto q

section
variable {s w : State} {ok : Bool} {rest : List Bool} {o : Op} {q : Pos}

theorem openStep_answered (h : s.status.portOpen = false) (ha : s.env.openAns = ok :: rest) :
    openStep s = .go (openAnswered ok rest s) := by
  cases hgo : openStep s with
  | go t =>
    obtain ⟨_, _, ha', rfl⟩ := openStep_go hgo h
    obtain ⟨rfl, rfl⟩ := List.cons.inj (ha.symm.trans ha')
    rfl
  | _ => simp [openStep, portOpen, ha] at hgo

theorem openAnswered_op (ho : s.op = some o) :
    (openAnswered ok rest s).op = some { o with pos := if ok then .opened else .raise .openingPort } := by
  rw [openAnswered, State.goto_op, State.setStatus_op, State.setEnv_op, logCall_op, ho]
  rfl

theorem timeoutSet_op (ho : s.op = some o) : (timeoutSet rest q s).op = some { o with pos := q } := by
  rw [timeoutSet, State.goto_op, portSetTimeout_op, openAnswered_op ho]
  rfl

theorem filterSet_op (ho : s.op = some o) : (filterSet rest q s).op = some { o with pos := q } := by
  rw [filterSet, State.goto_op, canSetFilters_op, timeoutSet_op ho]
  rfl

/-! ### OPEN -/

theorem stepOpen_start (h : s.status.portOpen = false) : stepOpen .start s = openStep s := by
  simp only [stepOpen, h, Bool.false_eq_true, if_false]

/-- OPEN on an open port (R225). -/
theorem exec_open_already (hs : Started .openPort s) (h : s.status.portOpen = true) :
    exec .openPort s = .next (endOp s) :=
  exec_of_start hs (if_pos h) rfl

/-- OPEN before the environment has answered (log 3). -/
theorem exec_open_waits (hs : Started .openPort s) (h : s.status.portOpen = false) (ha : s.env.openAns = []) :
    exec .openPort s = .next s := by
  rw [exec_eq]
  refine runOp_wait _ _ _ _ hs ((stepOpen_start h).trans ?_)
  simp only [openStep, portOpen, ha]

/-- The first step of OPEN on a closed port. -/
theorem open_stepsTo {k : Nat} {t : State} (hs : Started .openPort s) (h : s.status.portOpen = false)
    (ha : s.env.openAns = ok :: rest) (hrun : StepsTo stepOpen k (openAnswered ok rest s) t) :
    StepsTo stepOpen (k + 1) s t :=
  .head hs ((stepOpen_start h).trans (openStep_answered h ha)) hrun

theorem exec_open_fails (hs : Started .openPort s) (h : s.status.portOpen = false)
    (ha : s.env.openAns = false :: rest) :
    exec .openPort s = .next (raiseError .openingPort (openAnswered false rest s)) :=
  exec_of_stepsTo (open_stepsTo hs h ha (.head (openAnswered_op hs) rfl (.refl _ _))) rfl (by rw [runBudget]; omega)

/-- OPEN of the K-Line: no filter (R225). -/
theorem exec_open_kline (hs : Started .openPort s) (h : s.status.portOpen = false) (ha : s.env.openAns = true :: rest)
    (hp : s.regs.ctrl.proto = .kwpKline) :
    exec .openPort s = .next (endOp (timeoutSet rest (.finish .unit) s)) := by
  have hset : stepOpen .opened (openAnswered true rest s) = .go (timeoutSet rest (.finish .unit) s) :=
    congrArg (fun q => Micro.go (timeoutSet rest q s)) (if_pos hp)
  exact exec_of_stepsTo (open_stepsTo hs h ha (.head (openAnswered_op hs) hset (.head (timeoutSet_op hs) rfl (.refl _ _))))
    rfl (by rw [runBudget]; omega)

/-- OPEN of a CAN port (R225). -/
theorem exec_open_can (hs : Started .openPort s) (h : s.status.portOpen = false) (ha : s.env.openAns = true :: rest)
    (hp : s.regs.ctrl.proto ≠ .kwpKline) :
    exec .openPort s = .next (endOp (filterSet rest (.finish .unit) s)) := by
  have hset : stepOpen .opened (openAnswered true rest s) = .go (timeoutSet rest .filter s) :=
    congrArg (fun q => Micro.go (timeoutSet rest q s)) (if_neg hp)
  exact exec_of_stepsTo (open_stepsTo hs h ha (.head (openAnswered_op hs) hset (.head (timeoutSet_op hs) rfl
    (.head (filterSet_op hs) rfl (.refl _ _))))) rfl (by rw [runBudget]; omega)

end

/-- Settles O44: an open port, the two answers of `PortOpen`, and no answer. -/
theorem openCompletes : Obligations.OpenCompletes := by
  intro s hs hl
  refine ⟨fun h => ?_, fun h ok rest ha => ?_, exec_open_waits hs⟩
  · exact ⟨_, exec_open_already hs h, ⟨rfl, rfl, rfl, rfl, rfl, rfl, rfl, rfl⟩, ⟨rfl, rfl, rfl, rfl, rfl⟩, fun _ => rfl,
      rfl, rfl⟩
  · cases ok with
    | false =>
      have hclosed : { s.status with portOpen := false } = s.status := by rw [← h]
      refine ⟨_, exec_open_fails hs h ha, ⟨?_, rfl, if_neg hl, rfl, rfl, rfl, rfl, rfl⟩, fun _ => rfl, rfl, rfl, rfl, rfl,
        rfl, rfl⟩
      exact congrArg Status.failed hclosed
    | true =>
      by_cases hp : s.regs.ctrl.proto = .kwpKline
      · refine ⟨_, exec_open_kline hs h ha hp, ⟨rfl, rfl, rfl, rfl, rfl, rfl, rfl, rfl⟩, fun _ => rfl, rfl, rfl, rfl, rfl,
          rfl, ?_⟩
        rw [if_pos hp]
        rfl
      · refine ⟨_, exec_open_can hs h ha hp, ⟨rfl, rfl, rfl, rfl, rfl, rfl, rfl, rfl⟩, fun _ => rfl, rfl, rfl, rfl, rfl,
          rfl, ?_⟩
        rw [if_neg hp]
        rfl

/-! ### KWP_INIT over CAN -/

/-- A step of the keep-alive task, while the sequencer waits for it, counts as one of the run (R264; log 28). -/
theorem StepsTo.task {f : Pos → State → Micro} {k : Nat} {s u t : State} {o : Op} (ho : s.op = some o)
    (hf : f o.pos s = .waitTask) (hk : kaStep s = some u) (h : StepsTo f k u t) : StepsTo f (k + 1) s t := fun n =>
  (runOp_task f (n + k) s u o ho hf hk).trans (h n)

/-- No keep-alive task exists any more: one that was there has left with the reason STOPPED (R260, R264). -/
def halted (s : State) (p : Pos) : State :=
  ((s.setStatus { s.status with
      kaRun := if s.ka.phase = .off then s.status.kaRun else false
      kaActive := if s.ka.phase = .off then s.status.kaActive else false
      kaExit := if s.ka.phase = .off then s.status.kaExit else .stopped }).setKa
    (if s.ka.phase = .off then s.ka else { phase := .off, stopReq := false, pdu := s.ka.pdu })).goto p

/-- The port is open: as it was found, or opened with timeout and filter (R245). -/
def canOpened (rest : List Bool) (w : State) : State := if w.status.portOpen then w else filterSet rest .body w

section
variable {s w : State} {rest : List Bool} {o : Op} {d : Nat}

theorem initChecks_can (hp : s.regs.ctrl.proto = .kwpCan)
    (hk : s.regs.ctrl.kaEn = true → 1 ≤ s.regs.kaLen.toNat ∧ s.regs.kaLen.toNat ≤ 255) : initChecks s = .ok () := by
  simp only [initChecks, hp, reduceCtorEq, if_false]
  cases hen : s.regs.ctrl.kaEn with
  | false => rfl
  | true =>
    have hka : kaPdu s = .ok (s.memRead kaBuf s.regs.kaLen.toNat) := by
      obtain ⟨hmin, hmax⟩ := hk hen
      exact if_neg (by omega)
    simp only [if_true, hka]

theorem stepKwpInit_checked (hc : initChecks s = .ok ()) : stepKwpInit .start s = stopThen s (initOpen s) := by
  simp only [stepKwpInit, hc]

theorem halted_phase (p : Pos) : (halted s p).ka.phase = .off := by
  rw [halted, State.goto_ka, State.setKa_ka]
  split
  · assumption
  · rfl

theorem goto_of_op {c : Byte} {p : Pos} (h : s.op = some { code := c, pos := p }) : s.goto p = s := by
  rw [State.goto, h, Option.map_some, ← h]
  rfl

theorem halted_of_off (hs : Started .kwpInit s) (h : s.ka.phase = .off) : halted s .start = s := by
  simp only [halted, h, if_true]
  exact goto_of_op hs

/-- KWP_INIT stops a task that waits, and is then where one without a task starts (R245, R264). -/
theorem halted_stepsTo (hs : Started .kwpInit s) (hc : initChecks s = .ok ())
    (hka : s.ka.phase = .off ∨ ∃ d, s.ka.phase = .wait d) :
    ∃ k ≤ 2, ∃ p, StepsTo stepKwpInit k s (halted s p) ∧ stepKwpInit p (halted s p) = initOpen (halted s p) := by
  rcases hka with hoff | ⟨d, hwait⟩
  · have hstart : stepKwpInit .start s = initOpen s := (stepKwpInit_checked hc).trans (if_pos hoff)
    refine ⟨0, by omega, .start, ?_⟩
    rw [halted_of_off hs hoff]
    exact ⟨.refl _ _, hstart⟩
  · have hne : s.ka.phase ≠ .off := by rw [hwait]; nofun
    obtain ⟨u, hu⟩ : ∃ u, u = (s.setKa { s.ka with stopReq := true }).goto .stopped := ⟨_, rfl⟩
    have hstart : stepKwpInit .start s = .go u := (stepKwpInit_checked hc).trans (hu ▸ if_neg hne)
    have hop : u.op = some { code := opcode .kwpInit, pos := .stopped } := by
      rw [hu, State.goto_op, State.setKa_op, hs]
      rfl
    have hphase : u.ka.phase = .wait d := by rw [hu]; exact hwait
    have hstop : stepKwpInit .stopped u = .waitTask := if_neg (by rw [hphase]; nofun)
    have hleave : kaStep u = some (halted s .stopped) := by
      have hreq : u.ka.stopReq = true := by rw [hu]; rfl
      simp only [kaStep, hphase, hreq, if_true]
      rw [hu, halted]
      simp only [hne, if_false]
      rfl
    exact ⟨2, le_rfl, .stopped, .head hs hstart (.task hop hstop hleave (.refl _ _)), if_pos (halted_phase _)⟩

theorem initBody_can (hp : w.regs.ctrl.proto = .kwpCan) : initBody w = .go (initEnd w) := if_neg (by rw [hp]; nofun)

/-- KWP_INIT over CAN once no task exists (R245). -/
theorem initOpen_stepsTo (ho : w.op = some o) (hstep : stepKwpInit o.pos w = initOpen w)
    (hp : w.regs.ctrl.proto = .kwpCan) (ha : w.status.portOpen = false → w.env.openAns = true :: rest) :
    ∃ k ≤ 4, StepsTo stepKwpInit k w (initEnd (canOpened rest w)) := by
  cases hup : w.status.portOpen with
  | true =>
    rw [canOpened, if_pos hup]
    exact ⟨1, by omega, .head ho (hstep.trans ((if_pos hup).trans (initBody_can hp))) (.refl _ _)⟩
  | false =>
    have hclosed : ¬ w.status.portOpen = true := by rw [hup]; exact Bool.false_ne_true
    have hopen : stepKwpInit o.pos w = .go (openAnswered true rest w) :=
      hstep.trans ((if_neg hclosed).trans (openStep_answered hup (ha hup)))
    have hset : stepKwpInit .opened (openAnswered true rest w) = .go (timeoutSet rest .filter w) :=
      congrArg (fun q => Micro.go (timeoutSet rest q w)) (if_pos hp)
    have hbody : stepKwpInit .body (filterSet rest .body w) = .go (initEnd (filterSet rest .body w)) := initBody_can hp
    rw [canOpened, if_neg hclosed]
    exact ⟨4, le_rfl, .head ho hopen (.head (openAnswered_op ho) hset (.head (timeoutSet_op ho) rfl
      (.head (filterSet_op ho) hbody (.refl _ _))))⟩

/-- An opening changes PORT_OPEN, the answers to come, the port and OP. -/
theorem canOpened_eq (rest : List Bool) (w : State) :
    ∃ o, canOpened rest w = (((w.setStatus { w.status with portOpen := true }).setEnv
        (if w.status.portOpen then w.env else { w.env with openAns := rest })).setPort
      (if w.status.portOpen then w.port
        else
          { timeout := w.regs.tRxTimeout, line := w.port.line
            log := madeCalls w.clock.now
              [.openPort, .setTimeout w.regs.tRxTimeout, .setFilters [(w.regs.canRxId, w.regs.canRxMask)]]
              w.port.log })).setOp o := by
  cases hup : w.status.portOpen with
  | true =>
    refine ⟨w.op, ?_⟩
    have hst : { w.status with portOpen := true } = w.status := by rw [← hup]
    rw [canOpened, if_pos hup, hst]
    rfl
  | false =>
    refine ⟨(filterSet rest .body w).op, ?_⟩
    rw [canOpened, hup]
    rfl

/-- A whole run of KWP_INIT over CAN (R245). -/
theorem exec_kwpInit_can (hs : Started .kwpInit s) (hp : s.regs.ctrl.proto = .kwpCan)
    (hk : s.regs.ctrl.kaEn = true → 1 ≤ s.regs.kaLen.toNat ∧ s.regs.kaLen.toNat ≤ 255)
    (hka : s.ka.phase = .off ∨ ∃ d, s.ka.phase = .wait d)
    (ha : s.status.portOpen = false → s.env.openAns = true :: rest) :
    ∃ p, exec .kwpInit s = .next (initEnd (canOpened rest (halted s p))) := by
  obtain ⟨j, hj, p, hhalt, hstep⟩ := halted_stepsTo hs (initChecks_can hp hk) hka
  have hop : (halted s p).op = some { code := opcode .kwpInit, pos := p } := by
    rw [halted, State.goto_op, State.setKa_op, State.setStatus_op, hs]
    rfl
  obtain ⟨k, hk, hrun⟩ := initOpen_stepsTo (w := halted s p) (rest := rest) hop hstep hp ha
  obtain ⟨hend, _⟩ := initEnd_status (canOpened rest (halted s p))
  exact ⟨p, exec_of_stepsTo (hhalt.trans hrun) hend (by rw [runBudget]; omega)⟩

end

/-- Settles O52: the stop of a task of before, the opening of a closed port, and KWP_INIT's end. -/
theorem kwpInitCan : Obligations.KwpInitCan := by
  intro s hs hp hk hka rest ha
  obtain ⟨p, hexec⟩ := exec_kwpInit_can hs hp hk hka ha
  obtain ⟨w, hw⟩ : ∃ w, w = canOpened rest (halted s p) := ⟨_, rfl⟩
  obtain ⟨o, heq⟩ := canOpened_eq rest (halted s p)
  rw [← hw] at hexec heq
  have hregs : w.regs = s.regs := by rw [heq]; rfl
  have hkabuf : w.memRead kaBuf w.regs.kaLen.toNat = s.memRead 0x500 s.regs.kaLen.toNat := by
    rw [hregs]
    exact memRead_same (by rw [heq]; rfl) (by rw [heq]; rfl) _ _
  rw [initEnd_eq, hkabuf] at hexec
  refine ⟨_, hexec, ?_⟩
  rw [heq]
  exact ⟨⟨rfl, rfl, rfl, rfl, rfl, rfl, rfl, rfl⟩, fun _ => rfl, rfl, rfl, rfl, rfl, rfl, rfl⟩

end Sys2Proof.Machine

/-! Whole runs of TP_SR (spec/43_transport.md R217, R222, R223, R226 to R228): the send, the receive that starts where the
send ended, and the lock, which is held from the one to the end of the other. -/

namespace Sys2Proof.Machine

/-! ### A receive from any state -/

section
variable {s w z v : State} {req p u : List Byte} {c : PortCall} {cs calls : List PortCall} {env : Env} {q q' : TxPos}
  {o : Op} {code : Byte} {f : Pos → State → Micro} {x : LineItem} {line line' : List LineItem} {e : Err}

/-- A receive does not look at the request (R223). -/
theorem txStep_receive {a : Agent} {wr : Bool} (h : q.sends = false) :
    txStep a wr req q s = txStep a wr [] q s := by
  cases q with
  | syncSend => cases h
  | send => cases h
  | capOut => cases h
  | _ => rfl

/-- PORT_TO, LINE and the log of `s` once PORT_TO is in step and the sequencer has performed `cs` (R217). -/
def portExchanged (s : State) (cs : List PortCall) : Port :=
  { timeout := s.regs.tRxTimeout, line := s.port.line, log := madeCalls s.clock.now cs s.port.log }

/-- The receive that starts in `w` has performed `cs`, after SyncTimeout if that was due (R217), leaves the answers `env`,
and stands at `q`. -/
def receiving (req : List Byte) (w : State) (cs : List PortCall) (env : Env) (q : TxPos) : State :=
  ((w.setPort (portExchanged w (syncCalls w ++ cs))).setEnv env).goto (.tx req q)

theorem receiving_op (ho : w.op = some o) : (receiving req w cs env q).op = some { o with pos := .tx req q } := by
  rw [receiving, State.goto_op, State.setEnv_op, State.setPort_op, ho]
  rfl

theorem reading_receiving : reading req (receiving req w cs env q) calls line q' =
    receiving req w (cs ++ calls) { env with lineIn := line } q' := by
  simp only [reading, readsDone, receiving, portExchanged, ← List.append_assoc,
    madeCalls_append _ (syncCalls w ++ cs) calls, State.goto, State.setEnv, State.setPort, State.setOp, Option.map_map]
  rfl

/-- From the start of a receive to its primitive's answer: SyncTimeout where PORT_TO is out of step, the primitive. -/
theorem syncRecv_stepsTo (hf : CarriesTx f true req) (ho : w.op = some { code := code, pos := .tx req .syncRecv })
    (h : Hears w c env q) : ∃ k ≤ 2, StepsTo f k w (receiving req w [c] env q) := by
  by_cases ht : w.port.timeout = w.regs.tRxTimeout
  · have hrecv : txStep .seq true req .syncRecv w = .go q ((logCall .seq c w).setEnv env) :=
      (if_neg (not_not.mpr ht)).trans (h w rfl rfl)
    have hend : ((logCall .seq c w).setEnv env).goto (.tx req q) = receiving req w [c] env q := by
      have hport : (logCall .seq c w).port = portExchanged w (syncCalls w ++ [c]) := portHeard_synced ht
      rw [receiving, ← hport]
      rfl
    exact ⟨1, by omega, .head ho (hend ▸ hf _ _ _ _ hrecv) (.refl _ _)⟩
  · obtain ⟨w', hw'⟩ : ∃ w', w' = (portSetTimeout .seq w.regs.tRxTimeout w).goto (.tx req .recv) := ⟨_, rfl⟩
    have hsync : txStep .seq true req .syncRecv w = .go .recv (portSetTimeout .seq w.regs.tRxTimeout w) := if_pos ht
    have hrecv : txStep .seq true req .recv w' = .go q ((logCall .seq c w').setEnv env) :=
      h w' (by rw [hw']; rfl) (by rw [hw']; rfl)
    have hend : ((logCall .seq c w').setEnv env).goto (.tx req q) = receiving req w [c] env q := by
      have hport : (logCall .seq c w').port = portExchanged w (syncCalls w ++ [c]) := by
        rw [hw']
        exact portHeard_sync ht
      rw [receiving, ← hport, hw']
      simp only [portSetTimeout, logCall, State.goto, State.setEnv, State.setPort, State.setOp, Option.map_map]
      rfl
    have hop : w'.op = some { code := code, pos := .tx req .recv } := by
      rw [hw', State.goto_op, portSetTimeout_op, ho]
      rfl
    exact ⟨2, le_rfl, .head ho (hw' ▸ hf _ _ _ _ hsync) (.head hop (hend ▸ hf _ _ _ _ hrecv) (.refl _ _))⟩

/-- The further reads of a receive over the K-Line, its first item `x` read. -/
theorem receiving_lineSteps (h : LineSteps f req (receiving req w [.read 1] { env with lineIn := line } (afterLine x))
    calls line (afterLine x) line' q') :
    StepsTo f calls.length (receiving req w [.read 1] { env with lineIn := line } (afterLine x))
      (receiving req w (.read 1 :: calls) { env with lineIn := line' } q') := by
  have hsteps := h.steps []
  rwa [reading_receiving, reading_receiving] at hsteps

/-! ### TP_SR's steps -/

theorem carriesTx_tpSr : CarriesTx stepTpSr true req := fun _ _ _ _ h => by
  simp only [stepTpSr, seqTx, seqTxWith, h]

/-- TP_SR's send is over and captured; the receive begins (R228). -/
def srSent (p : List Byte) (v : State) : State :=
  (capPush .outgoing p (canWritten (v.goto (.tx p .capOut)))).goto (.tx p .syncRecv)

/-- TP_SR past its checks, the lock free, and its send primitive answered: acquire, send, CapPush. -/
theorem srSent_stepsTo (hs : Started .tpSr s) (hu : sendUnit s = .ok p) (hl : s.lock = .free)
    (hv : sendStep .seq true p ((s.setLock .seq).goto (.tx p .send)) = .go .capOut v) :
    StepsTo stepTpSr 3 s (srSent p v) ∧ (srSent p v).op = some { code := opcode .tpSr, pos := .tx p .syncRecv }
      ∧ (srSent p v).lock = .seq := by
  obtain ⟨s', hs'⟩ : ∃ s', s' = (s.setLock .seq).goto (.tx p .send) := ⟨_, rfl⟩
  have hop : s'.op = some { code := opcode .tpSr, pos := .tx p .send } := by
    rw [hs', State.goto_op, State.setLock_op, hs]
    rfl
  obtain ⟨hframe, _⟩ := sendStep_frame .seq true p s' v (by rw [hs', hv]; rfl)
  have hsent : (v.goto (.tx p .capOut)).op = some { code := opcode .tpSr, pos := .tx p .capOut } := by
    rw [State.goto_op, hframe.op, hop]
    rfl
  have hstart : stepTpSr .start s = .go s' := by
    simp only [stepTpSr, hu, acquireThen, hl, if_true, hs']
  have hsend : stepTpSr (.tx p .send) s' = .go (v.goto (.tx p .capOut)) := carriesTx_tpSr _ _ _ _ (hs' ▸ hv)
  refine ⟨.head hs hstart (.head hop hsend (.head hsent rfl (.refl _ _))), ?_, ?_⟩
  · rw [srSent, State.goto_op, (capPush_frame _ _ _).op, (canWritten_frame _).op, hsent]
    rfl
  · rw [srSent, State.goto_lock, (capPush_frame _ _ _).lock, (canWritten_frame _).lock, State.goto_lock, hframe.lock, hs']
    rfl

/-- TP_SR once the unit `u` is received and captured: release, outputs, end. -/
theorem srGot_stepsTo (hop : z.op = some { code := opcode .tpSr, pos := .tx p q })
    (h : txStep .seq true p q z = .got u v) : StepsTo stepTpSr 3 z (recvRest u v) := by
  have hv : v.op = some { code := opcode .tpSr, pos := .tx p q } := (txStep_work (t := v) (by rw [h]; rfl)).op.trans hop
  have hgot : stepTpSr (.tx p q) z = .go (v.goto (.release (.data u))) := by
    simp only [stepTpSr, seqTx, seqTxWith, h]
  have hrel : (v.goto (.release (.data u))).op = some { code := opcode .tpSr, pos := .release (.data u) } := by
    rw [State.goto_op, hv]
    rfl
  have hfin : (releaseTo (v.goto (.release (.data u))) (.finish (.data u))).op =
      some { code := opcode .tpSr, pos := .finish (.data u) } := by
    rw [releaseTo_op, hrel]
    rfl
  exact .head hop hgot (.head hrel rfl (.head hfin rfl (.refl _ _)))

/-- A receive of TP_SR that fails is reported by its next step (R314). -/
theorem srFail_stepsTo (hop : z.op = some { code := opcode .tpSr, pos := .tx p q })
    (h : txStep .seq true p q z = .fail e z) : StepsTo stepTpSr 1 z (raiseError e z) :=
  .head hop (by simp only [stepTpSr, seqTx, seqTxWith, h]) (.refl _ _)

end

/-! ### The state between send and receive -/

/-- CAP_LIVE once the unit `p` that was sent is captured (R220). -/
def sentLive (s : State) (p : List Byte) : List Record := pushed s.regs.capCfg s.clock.now .outgoing p s.cap.live

/-- `w` is `s` with `p` sent by TP_SR through the one primitive `c`, and captured: the outputs are then `o` but for
CAP_COUNT, the answers `env`. -/
structure SentFrom (s : State) (p : List Byte) (c : PortCall) (o : Outs) (env : Env) (w : State) : Prop where
  steps : StepsTo stepTpSr 3 s w
  op : w.op = some { code := opcode .tpSr, pos := .tx p .syncRecv }
  lock : w.lock = .seq
  status : w.status = s.status
  regs : w.regs = s.regs
  own : SameOwn s w
  cap : w.cap = { s.cap with live := sentLive s p }
  outs : w.outs = { o with capCount := countOf s (sentLive s p) }
  clock : w.clock = s.clock
  ka : w.ka = s.ka
  env : w.env = env
  port : w.port = { s.port with log := madeCalls s.clock.now [c] s.port.log }

section
variable {s v w t : State} {p u : List Byte} {c : PortCall} {cs : List PortCall} {o : Outs} {env env' : Env} {q : TxPos}
  {e : Err} {n : Int} {ws : List Int}

/-- TX_WRITTEN of a CAN write does not look at OP. -/
theorem canWritten_eq_setOuts (v : State) (x : Pos) :
    canWritten (v.goto x) = (v.goto x).setOuts (canWritten v).outs := by
  cases hp : v.regs.ctrl.proto <;> simp only [canWritten, State.goto_regs, hp] <;> rfl

/-- What CapPush and the line after `CanWrite` change. -/
theorem srSent_eq (p : List Byte) (v : State) :
    ∃ op, srSent p v = ((v.setCap { v.cap with live := sentLive v p }).setOuts
      { (canWritten v).outs with
        capCount := countOf (v.setOuts (canWritten v).outs) (sentLive v p) }).setOp op := by
  refine ⟨(srSent p v).op, ?_⟩
  rw [srSent, capPush_pushed, canWritten_eq_setOuts]
  rfl

/-- Between send and receive: `v` is the state the send primitive left. -/
theorem sentFrom_of_send (hs : Started .tpSr s) (hu : sendUnit s = .ok p) (hl : s.lock = .free)
    (hv : sendStep .seq true p ((s.setLock .seq).goto (.tx p .send)) = .go .capOut v) (hstatus : v.status = s.status)
    (hregs : v.regs = s.regs) (hown : SameOwn s v) (hcap : v.cap = s.cap) (hclock : v.clock = s.clock)
    (hka : v.ka = s.ka) (henv : v.env = env) (hport : v.port = { s.port with log := madeCalls s.clock.now [c] s.port.log })
    (houts : (canWritten v).outs = o) (hcount : o.capCount = s.outs.capCount) :
    SentFrom s p c o env (srSent p v) ∧ ∀ b, (srSent p v).peek b = v.peek b := by
  obtain ⟨hsteps, hop, hlock⟩ := srSent_stepsTo hs hu hl hv
  obtain ⟨op, heq⟩ := srSent_eq p v
  have hlive : sentLive v p = sentLive s p := by rw [sentLive, sentLive, hregs, hclock, hcap]
  have hcount' : countOf (v.setOuts o) (sentLive s p) = countOf s (sentLive s p) := by
    simp only [countOf, State.setOuts_regs, State.setOuts_outs, hregs, hcount]
  rw [hlive, houts, hcount', hcap] at heq
  refine ⟨⟨hsteps, hop, hlock, ?_, ?_, ?_, ?_, ?_, ?_, ?_, ?_, ?_⟩, fun b => ?_⟩ <;> rw [heq]
  · exact hstatus
  · exact hregs
  · exact hown
  · exact rfl
  · exact rfl
  · exact hclock
  · exact hka
  · exact henv
  · exact hport
  · exact rfl

/-- A send primitive that returns at once and writes no buffer: ISO-TP or a CAN frame (R222). -/
theorem sentFrom_can (hs : Started .tpSr s) (hu : sendUnit s = .ok p) (hl : s.lock = .free)
    (hv : sendStep .seq true p ((s.setLock .seq).goto (.tx p .send)) =
      .go .capOut (logCall .seq c ((s.setLock .seq).goto (.tx p .send)))) :
    ∃ w, SentFrom s p c (canWritten s).outs s.env w ∧ SameRam s w := by
  have houts : (canWritten (logCall .seq c ((s.setLock .seq).goto (.tx p .send)))).outs = (canWritten s).outs := by
    cases hp : s.regs.ctrl.proto <;> simp [canWritten, hp]
  have hcount : (canWritten s).outs.capCount = s.outs.capCount := by
    cases hp : s.regs.ctrl.proto <;> simp [canWritten, hp]
  obtain ⟨v, hvdef⟩ : ∃ v, v = logCall .seq c ((s.setLock .seq).goto (.tx p .send)) := ⟨_, rfl⟩
  rw [← hvdef] at hv houts
  have hsent := sentFrom_of_send (c := c) (o := (canWritten s).outs) (env := s.env) hs hu hl hv
  subst hvdef
  exact ⟨_, hsent rfl rfl ⟨rfl, rfl, rfl, rfl⟩ rfl rfl rfl rfl rfl houts hcount⟩

/-- The K-Line send, answered `n` (R222). -/
theorem sentFrom_kline {f : List Byte} (hs : Started .tpSr s) (hup : s.status.portOpen = true) (hl : s.lock = .free)
    (hp : s.regs.ctrl.proto = .kwpKline) (h1 : 1 ≤ s.regs.txLen.toNat) (h2 : s.regs.txLen.toNat ≤ 255)
    (ha : s.env.writeAns = n :: ws) (hpdef : p = s.memRead txBuf s.regs.txLen.toNat)
    (hf : f = klEncode s.regs.klTxHdr p) :
    ∃ w, SentFrom s p (.write f)
        { s.outs with frmLen := BitVec.ofNat 10 f.length, txWritten := BitVec.ofInt 16 n }
        { s.env with writeAns := ws } w
      ∧ HoldsAt w 0x200 f ∧ SameOutside s w 0x200 f.length := by
  obtain ⟨s', hs'⟩ : ∃ s', s' = (s.setLock .seq).goto (.tx p .send) := ⟨_, rfl⟩
  have hlen : f.length ≤ 260 := by rw [hf]; exact klEncode_length _ _ (by rw [hpdef, State.memRead_length]; exact h2)
  have hu : sendUnit s = .ok p := by rw [hpdef]; exact sendUnit_pdu hup (by rw [hp]; decide) h1 h2
  have hsend : sendStep .seq true p s' = .go .capOut (klineSent f n ws s') := by
    rw [hf, hs']
    exact sendStep_kline p hp ha
  obtain ⟨hstatus, _, hregs, hown, houts, hcap, hclock, hka, henv, hport⟩ := klineSent_fields f n ws s'
  have hmem := klineSent_memRead f n ws s' (by omega)
  have hout := klineSent_peek f n ws s'
  have hcan : canWritten (klineSent f n ws s') = klineSent f n ws s' :=
    canWritten_other (by rw [hregs, hs', State.goto_regs, State.setLock_regs, hp]; decide)
  subst hs'
  obtain ⟨hw, hpeek⟩ := sentFrom_of_send (c := .write f) hs hu hl hsend hstatus hregs hown hcap hclock hka henv hport
    ((congrArg State.outs hcan).trans houts) rfl
  exact ⟨_, hw, (State.memRead_congr _ _ _ _ fun i _ => hpeek _).trans hmem, fun b hb => (hpeek b).trans (hout b hb)⟩

/-! ### The state after the receive -/

theorem SentFrom.port_receiving (h : SentFrom s p c o env w) :
    (receiving p w cs env' q).port = portExchanged s ([c] ++ syncCalls s ++ cs) := by
  have hsync : syncCalls w = syncCalls s := by rw [syncCalls, h.port, h.regs]; rfl
  rw [receiving, State.goto_port, State.setEnv_port, State.setPort_port, portExchanged, hsync, h.regs, h.port, h.clock,
    ← madeCalls_append, ← List.append_assoc]
  rfl

theorem SentFrom.outs_receiving (h : SentFrom s p c o env w) :
    (receiving p w cs env' q).outs = { o with capCount := countOf s (sentLive s p) } := h.outs

theorem SentFrom.count_receiving (h : SentFrom s p c o env w) (live : List Record) :
    countOf (receiving p w cs env' q) live = countOf s live :=
  countOf_next (s := s) (w := receiving p w cs env' q) h.regs (congrArg Outs.capCount h.outs) live

/-- A successful end of TP_SR: the received unit is captured after the sent one. -/
theorem SentFrom.closes {live : List Record} (h : SentFrom s p c o env w) (hl : s.lock = .free)
    (ht : Closes (receiving p w cs env' q) t)
    (hlive : live = pushed (receiving p w cs env' q).regs.capCfg (receiving p w cs env' q).clock.now .incoming u
      (receiving p w cs env' q).cap.live)
    (hcap : t.cap = { (receiving p w cs env' q).cap with live := live }) :
    live = pushedAll s.regs.capCfg s.clock.now [(.outgoing, p), (.incoming, u)] s.cap.live ∧ EndsAs s.status.ended s t
      ∧ t.cap = { s.cap with live := live } ∧ t.clock = s.clock ∧ t.ka = s.ka ∧ t.env = env'
      ∧ t.port = portExchanged s ([c] ++ syncCalls s ++ cs) := by
  have hzcap : (receiving p w cs env' q).cap = { s.cap with live := sentLive s p } := h.cap
  have hzregs : (receiving p w cs env' q).regs = s.regs := h.regs
  have hzclock : (receiving p w cs env' q).clock = s.clock := h.clock
  rw [hzcap, hzregs, hzclock] at hlive
  rw [hzcap] at hcap
  exact ⟨hlive, ⟨ht.status.trans (congrArg Status.ended h.status), ht.op, ht.lock.trans hl.symm, ht.regs.trans h.regs,
    h.own.trans ht.own⟩, hcap, ht.clock.trans h.clock, ht.ka.trans h.ka, ht.env, ht.port.trans h.port_receiving⟩

/-- A failed receive keeps the effects of the send (R228). -/
theorem SentFrom.fails (h : SentFrom s p c o env w) (hl : s.lock = .free)
    (ht : t = raiseError e (receiving p w cs env' q)) :
    EndsAs s.status.failed s t ∧ t.outs = { o with
        errCode := e.codeWord, errInfo := e.infoWord, capCount := countOf s (sentLive s p) }
      ∧ t.cap = { s.cap with live := sentLive s p } ∧ t.clock = s.clock ∧ t.ka = s.ka ∧ t.env = env'
      ∧ t.port = portExchanged s ([c] ++ syncCalls s ++ cs) ∧ ∀ b, t.peek b = w.peek b := by
  have hlock : (receiving p w cs env' q).lock = .seq := h.lock
  subst ht
  refine ⟨⟨congrArg Status.failed h.status, rfl, ?_, h.regs, h.own⟩, ?_, h.cap, h.clock, h.ka, rfl,
    h.port_receiving (env' := env') (q := q), fun _ => rfl⟩
  · rw [raiseError_lock, if_pos hlock, hl]
  · show { w.outs with errCode := e.codeWord, errInfo := e.infoWord } = _
    rw [h.outs]

/-! ### Over CAN -/

theorem SentFrom.receiving_op (h : SentFrom s p c o env w) :
    (receiving p w cs env' q).op = some { code := opcode .tpSr, pos := .tx p q } := Machine.receiving_op h.op

/-- The receive primitive's answer, and the end it brings. -/
theorem SentFrom.exec_heard {j : Nat} {c' : PortCall} (h : SentFrom s p c o s.env w) (hx : Hears s c' env' q)
    (hend : StepsTo stepTpSr j (receiving p w [c'] env' q) t) (ht : t.op = none) (hj : j ≤ 3) :
    exec .tpSr s = .next t := by
  have hw : Hears w c' env' q := fun v hr he => hx v (hr.trans h.regs) (he.trans h.env)
  obtain ⟨k, hk, hheard⟩ := syncRecv_stepsTo carriesTx_tpSr h.op hw
  exact exec_of_stepsTo (h.steps.trans (hheard.trans hend)) ht (by rw [runBudget]; omega)

theorem SentFrom.exec_got {c' : PortCall} (h : SentFrom s p c o s.env w) (hx : Hears s c' env' q)
    (hg : txStep .seq true p q (receiving p w [c'] env' q) = .got u v) : exec .tpSr s = .next (recvRest u v) :=
  h.exec_heard hx (srGot_stepsTo h.receiving_op hg) rfl le_rfl

/-- A receive over CAN that fails. -/
theorem SentFrom.exec_fails {c' : PortCall} (h : SentFrom s p c o s.env w) (hram : SameRam s w) (hl : s.lock = .free)
    (hx : Hears s c' env' q) (hq : q.sends = false) (hf : ∀ z : State, txStep .seq true [] q z = .fail e z) :
    ∃ live t, live = pushed s.regs.capCfg s.clock.now .outgoing p s.cap.live
      ∧ exec .tpSr s = .next t ∧ EndsAs s.status.failed s t ∧ SameRam s t
      ∧ t.outs = { o with errCode := e.codeWord, errInfo := e.infoWord, capCount := countOf s live }
      ∧ t.cap = { s.cap with live := live } ∧ t.clock = s.clock ∧ t.ka = s.ka ∧ t.env = env'
      ∧ t.port = portExchanged s ([c] ++ syncCalls s ++ [c']) := by
  have hexec := h.exec_heard hx (srFail_stepsTo h.receiving_op ((txStep_receive hq).trans (hf _))) rfl (by omega)
  obtain ⟨hends, houts, hcap, hclock, hka, henv, hport, hpeek⟩ := h.fails hl rfl
  exact ⟨_, _, rfl, hexec, hends, fun b => (hpeek b).trans (hram b), houts, hcap, hclock, hka, henv, hport⟩

theorem sentFrom_iso (hs : Started .tpSr s) (hup : s.status.portOpen = true) (hl : s.lock = .free)
    (hp : s.regs.ctrl.proto = .kwpCan) (h1 : 1 ≤ s.regs.txLen.toNat) (h2 : s.regs.txLen.toNat ≤ 255) :
    ∃ w, SentFrom s (s.memRead txBuf s.regs.txLen.toNat)
      (.isoTpSend s.regs.canTxId (s.memRead txBuf s.regs.txLen.toNat)) s.outs s.env w ∧ SameRam s w := by
  have hsent := sentFrom_can (c := .isoTpSend s.regs.canTxId (s.memRead txBuf s.regs.txLen.toNat)) hs
    (sendUnit_pdu hup (by rw [hp]; decide) h1 h2) hl (by simp [sendStep, hp, isoTpSend])
  rwa [canWritten_other (by rw [hp]; decide)] at hsent

theorem sentFrom_frame (hs : Started .tpSr s) (hup : s.status.portOpen = true) (hl : s.lock = .free)
    (hp : s.regs.ctrl.proto = .ccpCan) (hm : s.outs.frmLen = 8) :
    ∃ w, SentFrom s (s.memRead frmBuf 8) (.canWrite s.regs.canTxId (s.memRead frmBuf 8))
      { s.outs with txWritten := 8 } s.env w ∧ SameRam s w := by
  have hsent := sentFrom_can (c := .canWrite s.regs.canTxId (s.memRead frmBuf 8)) hs (sendUnit_frame hup hp hm) hl
    (by simp [sendStep, hp, canWrite])
  rwa [canWritten_can hp] at hsent

/-- The PDU received over ISO-TP lands in RXBUF (R227, R228). -/
theorem SentFrom.exec_iso {d : List Byte} {rest : List RxItem} (h : SentFrom s p c o s.env w) (hram : SameRam s w)
    (hl : s.lock = .free) (hp : s.regs.ctrl.proto = .kwpCan) (hx : s.env.isoIn = .data d :: rest) (h1 : 1 ≤ d.length)
    (h2 : d.length ≤ 255) :
    ∃ live t, live = pushedAll s.regs.capCfg s.clock.now [(.outgoing, p), (.incoming, d)] s.cap.live
      ∧ exec .tpSr s = .next t ∧ EndsAs s.status.ended s t ∧ HoldsAt t 0x100 d ∧ SameOutside s t 0x100 d.length
      ∧ t.outs = { o with
          rxLen := BitVec.ofNat 9 d.length, respStatus := d.headD 0, capCount := countOf s live }
      ∧ t.cap = { s.cap with live := live } ∧ t.clock = s.clock ∧ t.ka = s.ka
      ∧ t.env = { s.env with isoIn := rest }
      ∧ t.port = portExchanged s ([c] ++ syncCalls s ++ [.isoTpRecv]) := by
  have hlen : ¬(d.length = 0 ∨ d.length > 255) := by omega
  have hproto : (receiving p w [.isoTpRecv] { s.env with isoIn := rest } (.isoGot d)).regs.ctrl.proto = .kwpCan :=
    (congrArg (·.ctrl.proto) h.regs).trans hp
  have hexec := h.exec_got (hears_iso hp hx) (if_neg hlen)
  obtain ⟨live, hlive, hmem, hout, houts, hcap⟩ := recvRest_iso (u := d) hproto (by omega)
  obtain ⟨hlive, hends, hcap, hframe⟩ := h.closes hl (closes_recvRest d _) hlive hcap
  rw [h.outs_receiving, h.count_receiving] at houts
  exact ⟨live, _, hlive, hexec, hends, hmem, fun b hb => (hout b hb).trans (hram b), houts, hcap, hframe⟩

/-- What TP_SR's end leaves of a CCP frame `u` (R223, R227). -/
theorem recvRest_frame {y : State} (hp : y.regs.ctrl.proto = .ccpCan) (h8 : u.length = 8) :
    ∃ t live, t = recvRest u (capPush .incoming u (putFrame u y))
      ∧ live = pushed y.regs.capCfg y.clock.now .incoming u y.cap.live ∧ Closes y t
      ∧ HoldsAt t 0x200 u ∧ SameOutside y t 0x200 8
      ∧ t.outs = { y.outs with frmLen := 8, capCount := countOf y live } ∧ t.cap = { y.cap with live := live } := by
  obtain ⟨live, hlive, hpeek, houts, hcap⟩ := recvRest_can (u := u) (v := putFrame u y)
    (by rw [(putFrame_frame u y).regs]; exact hp)
  have hmem : HoldsAt (recvRest u (capPush .incoming u (putFrame u y))) 0x200 u :=
    (State.memRead_congr _ _ _ _ fun i _ => hpeek _).trans (putFrame_memRead u y (by omega))
  have hout : SameOutside y (recvRest u (capPush .incoming u (putFrame u y))) 0x200 8 := fun b hb =>
    (hpeek b).trans (putFrame_peek u y b (h8 ▸ hb))
  obtain ⟨m, hm, _⟩ := putFrame_eq u y
  refine ⟨_, live, rfl, ?_, (closes_recvRest u _).of_putFrame, hmem, hout, houts.trans ?_, hcap.trans ?_⟩
  · rw [hlive, hm]
    rfl
  · rw [hm, h8]
    rfl
  · rw [hm]
    rfl

/-- The CCP frame received lands in FRMBUF (R223, R228). -/
theorem SentFrom.exec_frame {d : List Byte} {rest : List RxItem} (h : SentFrom s p c o s.env w) (hram : SameRam s w)
    (hl : s.lock = .free) (hp : s.regs.ctrl.proto = .ccpCan) (hx : s.env.canIn = .data d :: rest) (h8 : d.length = 8) :
    ∃ live t, live = pushedAll s.regs.capCfg s.clock.now [(.outgoing, p), (.incoming, d)] s.cap.live
      ∧ exec .tpSr s = .next t ∧ EndsAs s.status.ended s t ∧ HoldsAt t 0x200 d ∧ SameOutside s t 0x200 8
      ∧ t.outs = { o with frmLen := 8, capCount := countOf s live }
      ∧ t.cap = { s.cap with live := live } ∧ t.clock = s.clock ∧ t.ka = s.ka
      ∧ t.env = { s.env with canIn := rest }
      ∧ t.port = portExchanged s ([c] ++ syncCalls s ++ [.canRead]) := by
  have hhear := hears_can hp hx
  rw [afterCan, List.take_of_length_le h8.le] at hhear
  have hlen : ¬d.length < 8 := by omega
  have hproto : (receiving p w [.canRead] { s.env with canIn := rest } (.canGot d)).regs.ctrl.proto = .ccpCan :=
    (congrArg (·.ctrl.proto) h.regs).trans hp
  have hexec := h.exec_got hhear (if_neg hlen)
  obtain ⟨t, live, ht, hlive, hclose, hmem, hout, houts, hcap⟩ := recvRest_frame hproto h8
  obtain ⟨hlive, hends, hcap, hframe⟩ := h.closes hl hclose hlive hcap
  rw [h.outs_receiving, h.count_receiving] at houts
  exact ⟨live, t, hlive, hexec.trans (congrArg _ ht.symm), hends, hmem, fun b hb => (hout b hb).trans (hram b), houts, hcap,
    hframe⟩

/-! ### Over the K-Line -/

/-- The first read of the receive. -/
theorem SentFrom.first_stepsTo {x : LineItem} {line : List LineItem} (h : SentFrom s p c o env w)
    (hp : s.regs.ctrl.proto = .kwpKline) (hx : env.lineIn = x :: line) :
    ∃ k ≤ 5, StepsTo stepTpSr k s (receiving p w [.read 1] { env with lineIn := line } (afterLine x)) := by
  have hhear := hears_kline (s := w) (by rw [h.regs, hp]) (by rw [h.env, hx])
  rw [h.env] at hhear
  obtain ⟨k, hk, hrun⟩ := syncRecv_stepsTo carriesTx_tpSr h.op hhear
  exact ⟨k + 3, by omega, h.steps.trans hrun⟩

/-- From TP_SR's start to the judgement on an encoded frame, by the reads R145 gives it. -/
theorem SentFrom.judge_stepsTo {d : List Byte} {line : List LineItem} (h : SentFrom s p c o env w)
    (hp : s.regs.ctrl.proto = .kwpKline) (h1 : 1 ≤ d.length) (h2 : d.length ≤ 255)
    (hx : env.lineIn = (klEncode s.regs.klRxHdr d).map .byte ++ line) :
    ∃ k ≤ 9, StepsTo stepTpSr k s (receiving p w (frameReads d.length) { env with lineIn := line }
      (.klJudge (klHead s.regs.klRxHdr d.length) d (klChecksum (klHead s.regs.klRxHdr d.length ++ d)))) := by
  obtain ⟨x, rest, hitem⟩ := List.exists_cons_of_ne_nil (l := (klEncode s.regs.klRxHdr d).map .byte ++ line)
    (by simp [klEncode_eq])
  obtain ⟨k, hk, hfirst⟩ := h.first_stepsTo hp (hx.trans hitem)
  obtain ⟨calls, hreads, hlen, hline⟩ := klEncode_lineSteps (req := p) carriesTx_tpSr h.receiving_op h1 h2 hitem
  rw [hreads]
  exact ⟨calls.length + k, by omega, hfirst.trans (receiving_lineSteps hline)⟩

/-- The frame received over the K-Line lands in FRMBUF and its PDU in RXBUF (R223, R227, R228). -/
theorem SentFrom.exec_kline {d f g : List Byte} {line : List LineItem} (h : SentFrom s p c o env w)
    (hram : SameOutside s w 0x200 f.length) (hl : s.lock = .free) (hp : s.regs.ctrl.proto = .kwpKline)
    (h1 : 1 ≤ d.length) (h2 : d.length ≤ 255) (hg : g = klEncode s.regs.klRxHdr d)
    (hx : env.lineIn = g.map .byte ++ line) :
    ∃ live t, live = pushedAll s.regs.capCfg s.clock.now [(.outgoing, p), (.incoming, d)] s.cap.live
      ∧ exec .tpSr s = .next t ∧ EndsAs s.status.ended s t ∧ HoldsAt t 0x200 g ∧ HoldsAt t 0x100 d
      ∧ SameOutside2 s t 0x200 (max f.length g.length) 0x100 d.length
      ∧ t.outs = { o with
          frmLen := BitVec.ofNat 10 g.length, rxLen := BitVec.ofNat 9 d.length, respStatus := d.headD 0
          capCount := countOf s live }
      ∧ t.cap = { s.cap with live := live } ∧ t.clock = s.clock ∧ t.ka = s.ka
      ∧ t.env = { env with lineIn := line }
      ∧ t.port = portExchanged s ([c] ++ syncCalls s ++ frameReads d.length) := by
  obtain ⟨k, hk, hrun⟩ := h.judge_stepsTo hp h1 h2 (hg ▸ hx)
  obtain ⟨z, hz⟩ : ∃ z, z = receiving p w (frameReads d.length) { env with lineIn := line }
    (.klJudge (klHead s.regs.klRxHdr d.length) d (klChecksum (klHead s.regs.klRxHdr d.length ++ d))) := ⟨_, rfl⟩
  have hregs : z.regs = s.regs := by rw [hz]; exact h.regs
  have hverdict := klVerdict_klEncode z.regs.klRxHdr z.regs.ctrl.klChkVerify d
  have hjudge : txStep .seq true p (.klJudge (klHead s.regs.klRxHdr d.length) d
      (klChecksum (klHead s.regs.klRxHdr d.length ++ d))) z = .got d (capPush .incoming d (putFrame g z)) := by
    rw [hg, ← hregs]
    exact (txStep_receive rfl).trans (txStep_accept hverdict)
  have hlen : g.length ≤ 260 := hg ▸ klEncode_length _ _ h2
  obtain ⟨t, live, ht, hlive, hclose, hframe, hpdu, hout, houts, hcap⟩ := recvRest_kline (y := z) (f := g) (d := d)
    (by rw [hregs, hp]) (by omega) (by omega)
  subst hz
  have hend := hrun.trans (srGot_stepsTo h.receiving_op hjudge)
  rw [← ht] at hend
  obtain ⟨hlive, hends, hcap, hrest⟩ := h.closes hl hclose hlive hcap
  rw [h.outs_receiving, h.count_receiving] at houts
  have hsame : SameOutside2 s t 0x200 (max f.length g.length) 0x100 d.length := fun b hb hb' =>
    (hout b (by omega) hb').trans (hram b (by omega))
  exact ⟨live, t, hlive, exec_of_stepsTo hend hclose.op (by rw [runBudget]; omega), hends, hframe, hpdu, hsame, houts,
    hcap, hrest⟩

/-- A receive over the K-Line that fails, foreign frames before it dropped (R149, R314). -/
theorem SentFrom.exec_klineFails {f bs : List Byte} {tail : List LineItem} (h : SentFrom s p c o env w)
    (hmem : HoldsAt w 0x200 f) (hram : SameOutside s w 0x200 f.length) (hl : s.lock = .free)
    (hp : s.regs.ctrl.proto = .kwpKline) (henv : env.lineIn = s.env.lineIn) (hx : s.env.lineIn = bs.map .byte ++ tail)
    (hd : klDecode (.timeout .klRx 0) s.regs.klRxHdr s.regs.ctrl.klChkVerify bs = .error e)
    (ht : e = .timeout .klRx 0 → tail.head? = some .gap) :
    ∃ live t calls rest, live = pushed s.regs.capCfg s.clock.now .outgoing p s.cap.live ∧ (∀ c ∈ calls, ∃ n, c = .read n)
      ∧ rest <:+ s.env.lineIn ∧ exec .tpSr s = .next t ∧ EndsAs s.status.failed s t ∧ HoldsAt t 0x200 f
      ∧ SameOutside s t 0x200 f.length
      ∧ t.outs = { o with errCode := e.codeWord, errInfo := e.infoWord, capCount := countOf s live }
      ∧ t.cap = { s.cap with live := live } ∧ t.clock = s.clock ∧ t.ka = s.ka
      ∧ t.env = { env with lineIn := rest }
      ∧ t.port = portExchanged s ([c] ++ syncCalls s ++ calls) := by
  have ht' : klDecode (.timeout .klRx 0) s.regs.klRxHdr s.regs.ctrl.klChkVerify bs = .error (.timeout .klRx 0) →
      tail.head? = some .gap := fun h => ht (Except.error.inj (hd.symm.trans h))
  obtain ⟨x, line, hitem⟩ := exists_item ht'
  obtain ⟨k, hk, hfirst⟩ := h.first_stepsTo hp (henv.trans (hx.trans hitem))
  obtain ⟨z, hz⟩ : ∃ z, z = receiving p w [.read 1] { env with lineIn := line } (afterLine x) := ⟨_, rfl⟩
  have hregs : z.regs = s.regs := by rw [hz]; exact h.regs
  have hop : z.op = some { code := opcode .tpSr, pos := .tx p (afterLine x) } := hz ▸ h.receiving_op
  obtain ⟨calls, rest, q, hread, hj⟩ := decode_lineSteps (req := p) carriesTx_tpSr hop (hregs.symm ▸ hp) hitem (hregs.symm ▸ ht')
  rw [hregs] at hj
  cases hj with
  | accepted head d cs pre post hh hv hd' hbs => rw [hd] at hd'; cases hd'
  | refused _ _ e' hq hd' =>
    obtain rfl : e = e' := Except.error.inj (hd.symm.trans hd')
    have htakes := hread.takes
    have hreads : ∀ c ∈ .read 1 :: calls, ∃ n, c = .read n := by simpa using hread.reads
    have hleft : rest <:+ s.env.lineIn := by
      rw [hx, hitem]
      exact hread.left.trans (List.suffix_cons _ _)
    have hbudget : 2 * (line.length + 1) + 64 ≤ runBudget s := by
      rw [runBudget, Env.pending, hx, hitem, List.length_cons]
      omega
    subst hz
    have hend := (hfirst.trans (receiving_lineSteps hread)).trans (srFail_stepsTo h.receiving_op (hq _ h.regs))
    obtain ⟨hends, houts, hcap, hclock, hka, hrest, hport, hpeek⟩ := h.fails hl rfl
    exact ⟨_, _, _, rest, rfl, hreads, hleft, exec_of_stepsTo hend rfl (by omega), hends,
      (State.memRead_congr _ _ _ _ fun i _ => hpeek _).trans hmem, fun b hb => (hpeek b).trans (hram b hb), houts, hcap,
      hclock, hka, hrest, hport⟩

end

/-! ### One holding of the lock -/

section
variable {s t : State} {c : Byte} {i : Instr} {p : Pos} {req : List Byte} {q : TxPos} {e : Event}

/-- An atomic step of a known operation: it waits, or it moves. -/
theorem eventStep_atom_of_op (ho : s.op = some { code := c, pos := p }) (hi : decodeCode c = .ok i)
    (h : eventStep .atom s = .next t) : t = s ∨ opStep i p s = .go t := by
  simp only [eventStep, seqAtom, ho, hi] at h
  cases hm : opStep i p s with
  | go u => rw [hm] at h; cases h; exact .inr rfl
  | waitEnv => rw [hm] at h; cases h; exact .inl rfl
  | waitTask => rw [hm] at h; cases h; exact .inl rfl
  | lost => rw [hm] at h; cases h

/-- TP_SR's first step reports a failed check, or takes the lock for its send (R226, R228). -/
theorem stepTpSr_start (ho : s.op = some { code := c, pos := .start }) (hl : s.lock ≠ .seq)
    (h : stepTpSr .start s = .go t) :
    t.op = none ∧ t.lock = s.lock
      ∨ s.lock = .free ∧ t.lock = .seq ∧ ∃ req, t.op = some { code := c, pos := .tx req .send } := by
  simp only [stepTpSr] at h
  cases hu : sendUnit s with
  | error e =>
    simp only [hu] at h
    cases h
    exact .inl ⟨rfl, if_neg hl⟩
  | ok u =>
    simp only [hu] at h
    obtain ⟨hfree, rfl⟩ := acquireThen_go h
    refine .inr ⟨hfree, rfl, u, ?_⟩
    rw [State.goto_op, State.setLock_op, ho]
    rfl

/-- What an event that leaves TP_SR inside its transport work, or ends that work, comes to. -/
def HoldsOn (c : Byte) (req : List Byte) (t : State) : Prop :=
  t.lock = .seq ∧ ((∃ q', t.op = some { code := c, pos := .tx req q' })
      ∨ ∃ u, t.op = some { code := c, pos := .release (.data u) })
    ∨ t.lock = .free ∧ t.op = none ∧ t.status.err = true

theorem HoldsOn.of_kept (ho : s.op = some { code := c, pos := .tx req q }) (hl : s.lock = .seq) (hop : t.op = s.op)
    (hlock : t.lock = s.lock) : HoldsOn c req t :=
  .inl ⟨hlock.trans hl, .inl ⟨q, hop.trans ho⟩⟩

/-- TP_SR's transport work keeps the lock until the unit is received or the error is reported (R228). -/
theorem stepTpSr_tx (ho : s.op = some { code := c, pos := .tx req q }) (hl : s.lock = .seq)
    (h : stepTpSr (.tx req q) s = .go t) : HoldsOn c req t := by
  have moved : ∀ {u : State} {p' : Pos} {q : TxPos}, (txStep .seq true req q s).state? = some u →
      (u.goto p').lock = .seq ∧ (u.goto p').op = some { code := c, pos := p' } := fun hu => by
    have hwork := txStep_work hu
    refine ⟨hwork.lock.trans hl, ?_⟩
    rw [State.goto_op, hwork.op, ho]
    rfl
  rcases seqTxWith_go h with ⟨q', u, hx, rfl⟩ | ⟨u, _, hx, h⟩ | ⟨x, u, hx, h⟩ | ⟨e, h⟩
  · obtain ⟨hlock, hop⟩ := moved (p' := .tx req q') (by rw [hx]; rfl)
    exact .inl ⟨hlock, .inl ⟨q', hop⟩⟩
  · cases h
    obtain ⟨hlock, hop⟩ := moved (p' := .tx req .syncRecv) (by rw [hx]; rfl)
    exact .inl ⟨hlock, .inl ⟨_, hop⟩⟩
  · cases h
    obtain ⟨hlock, hop⟩ := moved (p' := .release (.data x)) (by rw [hx]; rfl)
    exact .inl ⟨hlock, .inr ⟨x, hop⟩⟩
  · cases h
    exact .inr ⟨if_pos hl, rfl, rfl⟩

/-- A task outside its transaction leaves a lock that is taken as it is (R57). -/
theorem KaMove.lock_of_outside (h : KaMove s t) (hin : kaInside s = false) (hl : s.lock ≠ .free) : t.lock = s.lock := by
  cases h with
  | left => rfl
  | woke => rfl
  | acquired _ hfree => exact absurd hfree hl
  | slept => rfl
  | tx _ _ _ hf => rw [hf.inside] at hin; cases hin
  | sent _ _ hf => rw [hf.inside] at hin; cases hin
  | got _ _ _ hf => rw [hf.inside] at hin; cases hin
  | failed _ h => rw [h] at hin; cases hin
  | answered x hp => rw [kaInside, hp] at hin; cases hin

theorem taskTurn_lock (hinv : s.Inv) (hl : s.lock = .seq) : (taskTurn s).lock = s.lock := by
  have hin : kaInside s = false := eq_false_of_ne_true fun hk => by simp [hinv.lockKa.mpr hk] at hl
  rcases taskTurn_cases s with ht | ht
  · rw [ht]
  · exact (kaStep_cases ht).lock_of_outside hin (by rw [hl]; nofun)

/-- No agent takes the lock from TP_SR's transport work (R57, R93, R228). -/
theorem eventStep_tpSr_tx (hinv : s.Inv) (hi : decodeCode c = .ok .tpSr)
    (ho : s.op = some { code := c, pos := .tx req q }) (hl : s.lock = .seq) (h : eventStep e s = .next t)
    (hrun : e ≠ .run) (hreset : e ≠ .reset) : HoldsOn c req t := by
  have hb : s.status.busy = true := by
    rw [hinv.busy, ho]
    rfl
  rcases eventStep_cases h hrun hreset with ⟨a, _, rfl⟩ | ⟨_, rfl⟩ | ⟨x, rfl⟩ | ⟨x, rfl⟩ | ⟨rfl, _⟩
  · exact .of_kept ho hl (hostStep_busy_frame a hb).1 (hostStep_lock a s)
  · exact .of_kept ho hl (taskTurn_frame s).op (taskTurn_lock hinv hl)
  · exact .of_kept ho hl rfl rfl
  · exact .of_kept ho hl rfl rfl
  · rcases eventStep_atom_of_op ho hi h with rfl | hstep
    · exact .of_kept ho hl rfl rfl
    · exact stepTpSr_tx ho hl hstep

end

/-- Settles O51: the send, the receive of each transport and its failure, and the lock over the events between them. -/
theorem tpSrCompletes : Obligations.TpSrCompletes := by
  refine ⟨fun s hs hup hl => ⟨?_, ?_, ?_, ?_, ?_, ?_⟩, fun s t c hinv hi => ⟨fun ho h => ?_, ?_⟩⟩
  · intro hp h1 h2 n ws d line ha hd1 hd2 hx
    obtain ⟨w, hw, _, hram⟩ := sentFrom_kline hs hup hl hp h1 h2 ha rfl rfl
    obtain ⟨live, t, ht⟩ := hw.exec_kline hram hl hp hd1 hd2 rfl hx
    exact ⟨_, _, _, live, t, rfl, rfl, rfl, ht⟩
  · intro hp h1 h2 d rest hx hd1 hd2
    obtain ⟨w, hw, hram⟩ := sentFrom_iso hs hup hl hp h1 h2
    obtain ⟨live, t, ht⟩ := hw.exec_iso hram hl hp hx hd1 hd2
    exact ⟨_, live, t, rfl, ht⟩
  · intro hp hm d rest hx h8
    obtain ⟨w, hw, hram⟩ := sentFrom_frame hs hup hl hp hm
    obtain ⟨live, t, ht⟩ := hw.exec_frame hram hl hp hx h8
    rw [← hm] at ht
    exact ⟨_, live, t, rfl, ht⟩
  · intro hp h1 h2 n ws bs tail e ha hx hd ht
    obtain ⟨w, hw, hmem, hram⟩ := sentFrom_kline hs hup hl hp h1 h2 ha rfl rfl
    obtain ⟨live, t, calls, rest, hlive, ht⟩ := hw.exec_klineFails hmem hram hl hp rfl hx hd ht
    exact ⟨_, _, live, t, calls, rest, rfl, rfl, hlive, ht⟩
  · intro hp h1 h2 x rest e hx he
    obtain ⟨w, hw, hram⟩ := sentFrom_iso hs hup hl hp h1 h2
    obtain ⟨live, t, ht⟩ := hw.exec_fails hram hl (hears_iso hp hx) (by cases x <;> rfl) fun _ => txStep_iso_fails he
    exact ⟨_, live, t, rfl, ht⟩
  · intro hp hm x rest e hx he
    obtain ⟨w, hw, hram⟩ := sentFrom_frame hs hup hl hp hm
    obtain ⟨live, t, ht⟩ := hw.exec_fails hram hl (hears_can hp hx) (by cases x <;> rfl) fun _ => txStep_can_fails he
    exact ⟨_, live, t, rfl, ht⟩
  · have hlock : s.lock ≠ .seq := fun hl => by
      have hin := hinv.lockSeq.mp hl
      rw [seqInside, ho] at hin
      cases hin
    exact (eventStep_atom_of_op ho hi h).imp id (stepTpSr_start ho hlock)
  · intro e req q ho h hrun hreset
    have hl : s.lock = .seq := hinv.lockSeq.mpr (by rw [seqInside, ho]; rfl)
    exact ⟨hl, eventStep_tpSr_tx hinv hi ho hl h hrun hreset⟩

end Sys2Proof.Machine

/-! The replies of the KWP2000 engine (spec/44_kwp_engine.md R241, R247, R268): how one is classified, and the steps of the
two agents that write LAST_ACT_US. -/

namespace Sys2Proof.Machine

/-! ### Classification -/

section
variable {sid b st : Byte} {u : List Byte}

theorem kwpClassify_positive (hu : u.head? = some st) (h : st.toNat = sid.toNat + 0x40) :
    kwpClassify sid u = .positive := by
  rw [kwpClassify, List.headD_eq_head?_getD, hu]
  exact if_pos h

/-- No other status is positive (R241). -/
theorem kwpClassify_of_not_positive (hu : u.head? = some st) (h : st.toNat ≠ sid.toNat + 0x40) :
    kwpClassify sid u =
      if st = 0x7F then
        if u.length < 3 then .error (.violation .malformedNeg 0x7F)
        else if u.getD 2 0 = 0x78 then .pending
        else .error (.negativeKwp (u.getD 2 0) (u.getD 1 0))
      else .error (.violation .unexpectedStatus st) := by
  rw [kwpClassify, List.headD_eq_head?_getD, hu]
  exact if_neg h

/-- The reason a refused reply leaves for KA_EXIT (R262): NEGATIVE for a negative response, OTHER for a violation. -/
theorem kaExit_of_classified {e : Err} :
    kwpClassify sid u = .error e → e.kaExit = match e with | .negativeKwp _ _ => .negative | _ => .other := by
  intro h
  unfold kwpClassify at h
  dsimp only at h
  split_ifs at h <;> cases h <;> rfl

end

/-- Settles O35: the positive test is the first branch; a byte plus 0x40 is above every status when sid is 0xC0 or more. -/
theorem classification : Obligations.Classification := by
  intro sid u st hu
  refine ⟨kwpClassify_positive hu, fun hn h7f hlen => ?_, fun hn h7f b1 b2 h1 h2 => ?_, fun hn h7f => ?_, fun hsid hpos => ?_⟩
  · rw [kwpClassify_of_not_positive hu hn, if_pos h7f, if_pos hlen]
  · have hlen : ¬ u.length < 3 := by
      have := (List.getElem?_eq_some_iff.mp h2).1
      omega
    rw [kwpClassify_of_not_positive hu hn, if_pos h7f, if_neg hlen, List.getD_eq_getElem?_getD, List.getD_eq_getElem?_getD,
      h1, h2]
    rfl
  · rw [kwpClassify_of_not_positive hu hn, if_neg h7f]
  · have hn : st.toNat ≠ sid.toNat + 0x40 := by
      have := st.isLt
      omega
    rw [kwpClassify_of_not_positive hu hn] at hpos
    split_ifs at hpos

/-! ### LAST_ACT_US -/

section
variable {i : Instr} {p : Pos} {s t u v : State}

theorem TxFrom.clock {wr : Bool} {req : List Byte} {q : TxPos} (h : TxFrom i p s wr req q v) : v.clock = s.clock := by
  cases h with
  | plain => rfl
  | ccp => exact (ccpBuffer_frame req q s).clock
  | pending _ x =>
    obtain ⟨m, hm, _⟩ := putPdu_eq x s
    rw [hm]
    rfl

theorem txStep_clock {a : Agent} {wr : Bool} {req : List Byte} {q : TxPos} (h : (txStep a wr req q s).state? = some t) :
    t.clock = s.clock :=
  (txStep_frame a wr req q s t h).1.clock

theorem putPdu_clock (x : List Byte) (s : State) : (putPdu x s).clock = s.clock := by
  obtain ⟨m, hm, _⟩ := putPdu_eq x s
  rw [hm]
  rfl

theorem EndWork.clock (h : EndWork i p s u) : u.clock = s.clock := by
  cases h with
  | framed f => exact (putFrame_frame f s).clock
  | parsed x => exact putPdu_clock x s
  | received x => exact putPdu_clock x s
  | response f =>
    obtain ⟨m, hm, _⟩ := putDto_eq (dtoDecode f) s
    rw [hm]
    rfl
  | _ => rfl

/-- The sequencer writes LAST_ACT_US where KWP_EXEC's reply is positive, and at no other move (R247). -/
theorem SeqMove.lastAct (h : SeqMove i p s t) :
    t.clock.lastAct = s.clock.lastAct
      ∨ t.clock.lastAct = s.clock.now ∧ i = .kwpExec
        ∧ ∃ req x, p = .got req x ∧ kwpClassify (req.headD 0) x = .positive := by
  cases h with
  | ended u hp hw => exact .inl (congrArg Clock.lastAct hw.clock)
  | ccpFailed f e =>
    obtain ⟨m, hm, _⟩ := putDto_eq (dtoDecode f) s
    rw [hm]
    exact .inl rfl
  | inited =>
    rw [initEnd_eq]
    exact .inl rfl
  | answered req x hi hp hc =>
    refine .inr ⟨?_, hi, req, x, hp, hc⟩
    rw [releaseTo_clock, State.touch_clock, putPdu_clock]
  | rejected req x e => exact .inl (congrArg Clock.lastAct (putPdu_clock x s))
  | fi f q q' u hi hp hf => exact .inl (fiStep_frame f q s u (by rw [hf]; rfl)).lastAct
  | fiDone f q ok u q' hp hf => exact .inl (fiStep_frame f q s u (by rw [hf]; rfl)).lastAct
  | tx wr req q q' v u hv hx =>
    exact .inl (congrArg Clock.lastAct ((txStep_clock (t := u) (by rw [hx]; rfl)).trans hv.clock))
  | sent req u hi hp hx =>
    have hu := congrArg Clock.lastAct (txStep_clock (t := u) (by rw [hx]; rfl))
    unfold countSent
    split <;> exact .inl hu
  | got wr req x q v u hi hv hx =>
    exact .inl (congrArg Clock.lastAct ((txStep_clock (t := u) (by rw [hx]; rfl)).trans hv.clock))
  | failed wr req q v e hi hv => exact .inl (congrArg Clock.lastAct hv.clock)
  | _ => exact .inl rfl

/-- The keep-alive task writes LAST_ACT_US where its reply is positive, and at no other move (R247, R262). -/
theorem KaMove.lastAct (h : KaMove s t) :
    t.clock.lastAct = s.clock.lastAct
      ∨ t.clock.lastAct = s.clock.now ∧ ∃ x, s.ka.phase = .tick (.got x) ∧ kwpClassify (s.ka.pdu.headD 0) x = .positive := by
  cases h with
  | tx q q' u hf h => exact .inl (congrArg Clock.lastAct (txStep_clock (t := u) (by rw [h]; rfl)))
  | sent q u hf h => exact .inl (congrArg Clock.lastAct (txStep_clock (t := u) (by rw [h]; rfl)))
  | got q x u hf h => exact .inl (congrArg Clock.lastAct (txStep_clock (t := u) (by rw [h]; rfl)))
  | answered x hp hc => exact .inr ⟨rfl, x, hp, hc⟩
  | _ => exact .inl rfl

theorem hostStep_lastAct (a : HostAccess) (s : State) : (hostStep a s).clock.lastAct = s.clock.lastAct := by
  rcases hostStep_clock a s with h | ⟨_, h⟩ | ⟨_, h⟩ <;> rw [h]

theorem clockStep_lastAct (c : Time) (s : State) : (clockStep c s).clock.lastAct = s.clock.lastAct := by
  obtain ⟨x, hx, hl⟩ := moveClock_eq s (clockLimit s) c
  rw [clockStep, hx]
  exact hl

theorem stepKwpExec_positive {req x : List Byte} (hc : kwpClassify (req.headD 0) x = .positive) :
    stepKwpExec (.got req x) s = .go (releaseTo (putPdu x s).touch (.finish .unit)) := by
  simp only [stepKwpExec, hc]

theorem kaStep_positive {x : List Byte} (hp : s.ka.phase = .tick (.got x))
    (hc : kwpClassify (s.ka.pdu.headD 0) x = .positive) : kaStep s = some (kaRelease s.touch .ended) := by
  simp only [kaStep, hp, tickStep, hc]

end

/-- Settles O26: the two moves that write LAST_ACT_US, and the frame of every other event. -/
theorem lastActivity : Obligations.LastActivity := by
  refine ⟨fun s t e h hrun hreset hne => ?_, fun s c req x ho hi hc => ?_, fun s x hp hc => ?_⟩
  · cases e with
    | host a => cases h; exact absurd (hostStep_lastAct a s) hne
    | run => exact absurd rfl hrun
    | atom =>
      rcases seqAtom_cases h with rfl | ⟨o, r, _, _, rfl⟩ | ⟨⟨c, p⟩, i, ho, hi, hm⟩
      · exact absurd rfl hne
      · cases r; exact absurd rfl hne
      · obtain ⟨hnow, rfl, req, x, rfl, hc⟩ := hm.lastAct.resolve_left hne
        exact ⟨hnow, .inl ⟨rfl, c, req, x, ho, hi, hc⟩⟩
    | task =>
      cases h
      rcases taskTurn_cases s with ht | ht
      · rw [ht] at hne; exact absurd rfl hne
      · obtain ⟨hnow, x, hp, hc⟩ := (kaStep_cases ht).lastAct.resolve_left hne
        exact ⟨hnow, .inr ⟨rfl, x, hp, hc⟩⟩
    | clock c => cases h; exact absurd (clockStep_lastAct c s) hne
    | env a =>
      cases h
      obtain ⟨x, hx⟩ := deliver_eq a s
      rw [hx] at hne
      exact absurd rfl hne
    | reset => exact absurd rfl hreset
  · refine ⟨_, eventStep_atom ho hi (stepKwpExec_positive hc), ?_⟩
    rw [releaseTo_clock, State.touch_clock, putPdu_clock]
  · exact ⟨_, eventStep_task (kaStep_positive hp hc), rfl⟩

end Sys2Proof.Machine

/-! Whole runs of CLOSE (spec/44_kwp_engine.md R255, R264): the stop of a keep-alive task, the release of the port, and the
wait for a task whose transaction cannot go on. -/

namespace Sys2Proof.Machine

/-! ### A task whose transaction cannot go on -/

section
variable {s t : State} {a : Agent} {wr : Bool} {req : List Byte} {q : TxPos}

theorem portRead_wait_congr {n : Nat} (he : t.env = s.env) (h : portRead a n s = .wait) : portRead a n t = .wait := by
  unfold portRead at h ⊢
  rw [he]
  cases hl : lineTake n s.env.lineIn with
  | wait => rfl
  | timeout rest => rw [hl] at h; cases h
  | bytes bs rest => rw [hl] at h; cases h

theorem sendStep_wait_congr (he : t.env = s.env) (hr : t.regs = s.regs) (h : sendStep a wr req s = .wait) :
    sendStep a wr req t = .wait := by
  unfold sendStep portWrite at h ⊢
  rw [he, hr]
  cases hp : s.regs.ctrl.proto with
  | kwpKline =>
    cases hw : s.env.writeAns with
    | nil => rfl
    | cons n ws => simp only [hp, hw] at h; cases h
  | kwpCan => simp only [hp] at h; cases h
  | ccpCan => simp only [hp] at h; cases h

theorem recvStep_wait_congr (he : t.env = s.env) (hr : t.regs = s.regs) (h : recvStep a s = .wait) :
    recvStep a t = .wait := by
  unfold recvStep at h ⊢
  rw [hr]
  cases hp : s.regs.ctrl.proto with
  | kwpKline =>
    simp only [hp] at h ⊢
    cases hread : portRead a 1 s with
    | wait => simp only [portRead_wait_congr he hread]
    | timeout u => simp only [hread] at h; cases h
    | bytes bs u => simp only [hread] at h; split at h <;> cases h
  | kwpCan =>
    simp only [hp, isoTpRecv, he] at h ⊢
    cases hin : s.env.isoIn with
    | nil => rfl
    | cons x rest => cases x <;> simp only [hin] at h <;> cases h
  | ccpCan =>
    simp only [hp, canRead, he] at h ⊢
    cases hin : s.env.canIn with
    | nil => rfl
    | cons x rest => cases x <;> simp only [hin] at h <;> cases h

theorem klReadStep_wait_congr {n : Nat} {next : List Byte → TxPos} (he : t.env = s.env)
    (h : klReadStep a n s next = .wait) : klReadStep a n t next = .wait := by
  unfold klReadStep at h ⊢
  cases hread : portRead a n s with
  | wait => rw [portRead_wait_congr he hread]
  | timeout u => rw [hread] at h; cases h
  | bytes bs u => rw [hread] at h; cases h

/-- A wait for the environment depends on its answers, the registers and PORT_TO only. -/
theorem txStep_wait_congr (he : t.env = s.env) (hr : t.regs = s.regs) (hp : t.port = s.port)
    (h : txStep a wr req q s = .wait) : txStep a wr req q t = .wait := by
  have hsync : ∀ {after : TxPos} {other other' : TxRes}, (other = .wait → other' = .wait) →
      syncStep a s after other = .wait → syncStep a t after other' = .wait := by
    intro after other other' hother hs
    unfold syncStep at hs ⊢
    rw [hp, hr]
    split at hs
    · cases hs
    · rw [if_neg ‹_›]
      exact hother hs
  cases q with
  | syncSend => exact hsync (sendStep_wait_congr he hr) h
  | send => exact sendStep_wait_congr he hr h
  | capOut => cases h
  | syncRecv => exact hsync (recvStep_wait_congr he hr) h
  | recv => exact recvStep_wait_congr he hr h
  | klId c => exact klReadStep_wait_congr he h
  | klLen c i0 i1 => exact klReadStep_wait_congr he h
  | klBody head n => exact klReadStep_wait_congr he h
  | klSum head pdu => exact klReadStep_wait_congr he h
  | klJudge head pdu cs =>
    simp only [txStep, hr] at h ⊢
    cases hv : klVerdict s.regs.klRxHdr s.regs.ctrl.klChkVerify head pdu cs with
    | foreign => rw [hv] at h; exact recvStep_wait_congr he hr h
    | refuse e => rw [hv] at h; cases h
    | accept => rw [hv] at h; cases h
  | isoGot pdu => simp only [txStep] at h; split at h <;> cases h
  | canGot frame => simp only [txStep] at h; split at h <;> cases h
  | raise e => cases h

theorem kaStep_tx (hp : s.ka.phase = .tick (.tx q)) : kaStep s = kaTx q s := by simp only [kaStep, hp, tickStep]

theorem kaTx_eq_none_iff : kaTx q s = none ↔ txStep .ka false s.ka.pdu q s = .wait := by
  unfold kaTx
  split <;> simp [*]

end

/-! ### The stop of a task that waits -/

section
variable {s w : State} {i : Instr} {f : Pos → State → Micro} {k : State → Micro} {d : Nat} {o : Op}

/-- The first step of StopKeepAlive (R264; log 33). -/
def stopAsked (s : State) : State := (s.setKa { s.ka with stopReq := true }).goto .stopped

theorem stopAsked_op (hs : Started i s) : (stopAsked s).op = some { code := opcode i, pos := .stopped } := by
  rw [stopAsked, State.goto_op, State.setKa_op, hs]
  rfl

/-- The stop request does not help a transaction that waits for the environment (R264, R265). -/
theorem kaStep_stopAsked_tx {q : TxPos} (hp : s.ka.phase = .tick (.tx q)) (h : kaStep s = none) :
    kaStep (stopAsked s) = none := by
  rw [kaStep_tx hp, kaTx_eq_none_iff] at h
  rw [kaStep_tx (s := stopAsked s) hp, kaTx_eq_none_iff]
  exact txStep_wait_congr (s := s) rfl rfl rfl h

/-- A task in its wait leaves with the reason STOPPED (R260, R264). -/
theorem kaStep_stopAsked (hwait : s.ka.phase = .wait d) : kaStep (stopAsked s) = some (halted s .stopped) := by
  have hphase : (stopAsked s).ka.phase = .wait d := hwait
  have hreq : (stopAsked s).ka.stopReq = true := rfl
  rw [kaStep_wait_stop hphase hreq, halted]
  simp only [hwait, reduceCtorEq, if_false]
  rfl

/-- An operation that begins with StopKeepAlive stops a task in its wait in two steps, one of them the task's. -/
theorem stopKeepAlive_stepsTo (hs : Started i s) (hstart : f .start s = stopThen s (k s))
    (hstopped : ∀ w, f .stopped w = stoppedThen w (k w)) (hwait : s.ka.phase = .wait d) :
    StepsTo f 2 s (halted s .stopped) := by
  have hne : s.ka.phase ≠ .off := by rw [hwait]; nofun
  have hstop : f .stopped (stopAsked s) = .waitTask := (hstopped _).trans (if_neg hne)
  exact .head hs (hstart.trans (if_neg hne)) (.task (stopAsked_op hs) hstop (kaStep_stopAsked hwait) (.refl _ _))

/-! ### The release of the port -/

/-- CLOSE at its end, no task left: the port released if it was open, the engine Uninitialized (R255). -/
def closedDown (w : State) : State :=
  endOp (unready (if w.status.portOpen then (unready (portClose .seq w)).goto (.finish .unit) else w))

theorem closedDown_eq (w : State) :
    closedDown w = ((w.setStatus { w.status.ended with portOpen := false, engReady := false }).setPort
      { w.port with log := madeCalls w.clock.now (if w.status.portOpen then [.closePort] else []) w.port.log }).setOp
        none := by
  cases hup : w.status.portOpen with
  | true =>
    rw [closedDown, if_pos hup]
    rfl
  | false =>
    have hst : { w.status with portOpen := false } = w.status := by rw [← hup]
    rw [closedDown, hup, if_neg Bool.false_ne_true]
    show endOp (unready w) = ((w.setStatus { ({ w.status with portOpen := false } : Status).ended with
      engReady := false }).setPort w.port).setOp none
    rw [hst]
    rfl

theorem closeBody_stepsTo (ho : w.op = some o) (hstep : stepClose o.pos w = closeBody w) :
    ∃ j ≤ 2, StepsTo stepClose j w (closedDown w) := by
  cases hup : w.status.portOpen with
  | true =>
    rw [closedDown, if_pos hup]
    have hop : ((unready (portClose .seq w)).goto (.finish .unit)).op = some { o with pos := .finish .unit } := by
      rw [State.goto_op, show (unready (portClose .seq w)).op = w.op from rfl, ho]
      rfl
    exact ⟨2, le_rfl, .head ho (hstep.trans (if_pos hup)) (.head hop rfl (.refl _ _))⟩
  | false =>
    have hclosed : ¬ w.status.portOpen = true := by rw [hup]; exact Bool.false_ne_true
    rw [closedDown, if_neg hclosed]
    exact ⟨1, by omega, .head ho (hstep.trans (if_neg hclosed)) (.refl _ _)⟩

/-- CLOSE with no keep-alive task. -/
theorem exec_close_alone (hs : Started .closePort s) (hoff : s.ka.phase = .off) :
    exec .closePort s = .next (closedDown s) := by
  obtain ⟨j, hj, hrun⟩ := closeBody_stepsTo hs (if_pos hoff)
  exact exec_of_stepsTo hrun rfl (by rw [runBudget]; omega)

/-- CLOSE with a task in its wait. -/
theorem exec_close_waiting (hs : Started .closePort s) (hwait : s.ka.phase = .wait d) :
    exec .closePort s = .next (closedDown (halted s .stopped)) := by
  have hop : (halted s .stopped).op = some { code := opcode .closePort, pos := .stopped } := by
    rw [halted, State.goto_op, State.setKa_op, State.setStatus_op, hs]
    rfl
  obtain ⟨j, hj, hrun⟩ := closeBody_stepsTo (w := halted s .stopped) hop (if_pos (halted_phase _))
  have hstop : StepsTo stepClose 2 s (halted s .stopped) :=
    stopKeepAlive_stepsTo (k := closeBody) hs rfl (fun _ => rfl) hwait
  exact exec_of_stepsTo (hstop.trans hrun) rfl (by rw [runBudget]; omega)

/-- CLOSE with a task inside a transaction that cannot go on (R264, R265). -/
theorem exec_close_blocked {q : TxPos} (hs : Started .closePort s) (hp : s.ka.phase = .tick (.tx q))
    (hk : kaStep s = none) : exec .closePort s = .next (stopAsked s) := by
  have hne : s.ka.phase ≠ .off := by rw [hp]; nofun
  obtain ⟨n, hn⟩ := runBudget_pos s
  rw [exec_eq, hn]
  calc runOp stepClose (n + 1) s
      = runOp stepClose n (stopAsked s) := runOp_go _ _ _ _ _ hs (if_neg hne)
    _ = .next (stopAsked s) := runOp_blocked _ _ _ _ (stopAsked_op hs) (if_neg hne) (kaStep_stopAsked_tx hp hk)

end

/-- Settles O45: no task, a task in its wait, and a task that cannot go on. -/
theorem closeCompletes : Obligations.CloseCompletes := by
  intro s hs
  refine ⟨fun hoff => ⟨_, exec_close_alone hs hoff, ?_⟩, fun d hwait => ⟨_, exec_close_waiting hs hwait, ?_⟩,
    fun q hp hk => (exec_close_blocked hs hp hk).trans ?_⟩
  · rw [closedDown_eq]
    exact ⟨⟨rfl, rfl, rfl, rfl, rfl, rfl, rfl, rfl⟩, fun _ => rfl, rfl, rfl, rfl, rfl, rfl, rfl⟩
  · rw [closedDown_eq, halted]
    simp only [hwait, reduceCtorEq, if_false]
    exact ⟨⟨rfl, rfl, rfl, rfl, rfl, rfl, rfl, rfl⟩, fun _ => rfl, rfl, rfl, rfl, rfl, rfl, rfl⟩
  · rw [stopAsked, State.goto, State.setKa_op, hs]
    rfl

end Sys2Proof.Machine

/-! A whole tick of the keep-alive task (spec/44_kwp_engine.md R260 to R267): counted steps of the task, the request it
sends, the replies it receives over ISO-TP and over the K-Line, and the ends of the tick. -/

namespace Sys2Proof.Machine

/-! ### Counted steps of the task -/

/-- After `k` turns of the keep-alive task `s` has become `t`, whatever events follow. -/
def TaskSteps (k : Nat) (s t : State) : Prop :=
  ∀ es : List Event, runEvents (List.replicate k .task ++ es) s = runEvents es t

theorem TaskSteps.refl (s : State) : TaskSteps 0 s s := fun _ => rfl

theorem TaskSteps.head {k : Nat} {s u t : State} (hk : kaStep s = some u) (h : TaskSteps k u t) :
    TaskSteps (k + 1) s t := fun es => by
  rw [List.replicate_succ, List.cons_append, runEvents, eventStep_task hk]
  exact h es

theorem TaskSteps.single {s t : State} (hk : kaStep s = some t) : TaskSteps 1 s t := .head hk (.refl t)

theorem TaskSteps.trans {j k : Nat} {s u t : State} (h : TaskSteps j s u) (h' : TaskSteps k u t) :
    TaskSteps (j + k) s t := fun es => by
  rw [List.replicate_add, List.append_assoc, h, h']

theorem TaskSteps.run {k n : Nat} {s t : State} (h : TaskSteps k s t) (hn : n = k) :
    runEvents (List.replicate n .task) s = .next t := by
  rw [hn, ← List.append_nil (List.replicate k _), h]
  rfl

theorem taskCalls_snoc (now : Time) (cs : List PortCall) (c : PortCall) (log : List PortEvent) :
    taskCalls now (cs ++ [c]) log = { agent := .ka, time := now, call := c } :: taskCalls now cs log := by
  simp [taskCalls]

/-! ### The state inside a tick -/

/-- `s` inside a tick at `p`, the lock held: PORT_TO in step, the calls `cs` made and the answers `env` to come, nothing
captured yet. -/
def asking (s : State) (cs : List PortCall) (env : Env) (p : TickPos) : State :=
  ((((s.setStatus { s.status with kaActive := true }).setLock .ka).setPhase (.tick p)).setPort
    { timeout := s.regs.tRxTimeout, line := s.port.line, log := taskCalls s.clock.now cs s.port.log }).setEnv env

/-- The same with the task's command and the replies `qs` captured. -/
def asked (s : State) (qs : List (List Byte)) (cs : List PortCall) (env : Env) (p : TickPos) : State :=
  ((asking s cs env p).setCap { s.cap with live := liveAfter s s.ka.pdu qs }).setOuts
    { s.outs with capCount := countOf s (liveAfter s s.ka.pdu qs) }

section
variable {s t : State} {d : Nat} {qs pend : List (List Byte)} {cs cs' calls calls' : List PortCall} {c : PortCall}
  {env env' : Env} {p p' : TickPos} {q q' q'' : TxPos} {u : List Byte} {e : Err}

/-- One more call, at the same clock value. -/
theorem logCall_asking : (logCall .ka c (asking s cs env p)).setEnv env' = asking s (cs ++ [c]) env' p := by
  simp only [asking, taskCalls_snoc]
  rfl

theorem logCall_asked : (logCall .ka c (asked s qs cs env p)).setEnv env' = asked s qs (cs ++ [c]) env' p := by
  simp only [asked, asking, taskCalls_snoc]
  rfl

/-- The command is captured when it was sent (R220). -/
theorem capPush_asking : (capPush .outgoing s.ka.pdu (asking s cs env p)).setPhase (.tick p') = asked s [] cs env p' := by
  rw [capPush_pushed]
  rfl

/-- A reply is captured when it is accepted (R223). -/
theorem capPush_asked :
    (capPush .incoming u (asked s qs cs env p)).setPhase (.tick p') = asked s (qs ++ [u]) cs env p' := by
  have hcount (live : List Record) : countOf (asked s qs cs env p) live = countOf s live :=
    countOf_next (s := s) (w := asked s qs cs env p) (live := liveAfter s s.ka.pdu qs) rfl rfl live
  rw [capPush_pushed, hcount, asked, asked, liveAfter, liveAfter, exchange_snoc, pushedAll_snoc]
  rfl

/-! ### The start of a tick -/

/-- The wait of the task of `s` is over, and the tick will send: the port is open, the idle threshold strictly exceeded, the
lock free (R261, R262). -/
structure TickDue (s : State) (d : Nat) : Prop where
  phase : s.ka.phase = .wait d
  stopReq : s.ka.stopReq = false
  woken : d ≤ s.nowUs
  portOpen : s.status.portOpen = true
  idle : s.clock.lastAct.toNat + s.regs.kaIdle.toNat * 1000 < s.nowUs
  lock : s.lock = .free

/-- The wait is over: the tick begins (R261). -/
theorem kaStep_woken (hp : s.ka.phase = .wait d) (hstop : s.ka.stopReq = false) (hd : d ≤ s.nowUs) :
    kaStep s = some ((s.setStatus { s.status with kaActive := true }).setPhase (.tick .enter)) := by
  simp [kaStep, hp, hstop, hd]

/-- A tick with the idle threshold not exceeded waits again (R262). -/
theorem quiet_taskSteps (hp : s.ka.phase = .wait d) (hstop : s.ka.stopReq = false) (hd : d ≤ s.nowUs)
    (hup : s.status.portOpen = true) (hidle : s.nowUs ≤ s.clock.lastAct.toNat + s.regs.kaIdle.toNat * 1000) :
    TaskSteps 2 s { s with
      status := { s.status with kaActive := false }
      ka := { s.ka with phase := .wait (s.nowUs + s.regs.kaPoll.toNat * 1000) } } := by
  obtain ⟨w, hw⟩ : ∃ w, w = (s.setStatus { s.status with kaActive := true }).setPhase (.tick .enter) := ⟨_, rfl⟩
  have hquiet : kaIdle w = false := decide_eq_false (by
    rw [hw]
    show ¬ s.regs.kaIdle.toNat * 1000 < s.nowUs - s.clock.lastAct.toNat
    omega)
  have hopen : w.status.portOpen = true := by rw [hw]; exact hup
  have hreq : w.ka.stopReq = false := by rw [hw]; exact hstop
  have hphase : w.ka.phase = .tick .enter := by rw [hw]; rfl
  have hend : kaStep w = some ((w.setStatus { w.status with kaActive := false }).setPhase (.wait (kaWake w))) := by
    simp [kaStep, hphase, tickStep, hopen, hquiet, kaEndTick, hreq]
  rw [hw] at hend
  exact .head (kaStep_woken hp hstop hd) (.single hend)

/-- A tick with the idle threshold exceeded takes the lock (R262). -/
theorem begun_taskSteps (hdue : TickDue s d) :
    TaskSteps 2 s (((s.setStatus { s.status with kaActive := true }).setLock .ka).setPhase (.tick (.tx .syncSend))) := by
  obtain ⟨w, hw⟩ : ∃ w, w = (s.setStatus { s.status with kaActive := true }).setPhase (.tick .enter) := ⟨_, rfl⟩
  have hbusy : kaIdle w = true := decide_eq_true (by
    rw [hw]
    show s.regs.kaIdle.toNat * 1000 < s.nowUs - s.clock.lastAct.toNat
    have := hdue.idle
    omega)
  have hopen : w.status.portOpen = true := by rw [hw]; exact hdue.portOpen
  have hfree : w.lock = .free := by rw [hw]; exact hdue.lock
  have hphase : w.ka.phase = .tick .enter := by rw [hw]; rfl
  have henter : kaStep w = some ((w.setLock .ka).setPhase (.tick (.tx .syncSend))) := by
    simp [kaStep, hphase, tickStep, hopen, hbusy, hfree]
  rw [hw] at henter
  exact .head (kaStep_woken hdue.phase hdue.stopReq hdue.woken) (.single henter)

/-- SyncTimeout in the tick: PORT_TO is in step, and the send comes next (R217). -/
theorem synced_taskSteps (hdue : TickDue s d) :
    ∃ q, (q = .syncSend ∨ q = .send)
      ∧ TaskSteps (2 + (syncCalls s).length) s (asking s (syncCalls s) s.env (.tx q)) := by
  have hbegun := begun_taskSteps hdue
  by_cases ht : s.port.timeout = s.regs.tRxTimeout
  · refine ⟨.syncSend, .inl rfl, ?_⟩
    rw [asking, syncCalls, if_pos ht, ← ht]
    exact hbegun
  · refine ⟨.send, .inr rfl, ?_⟩
    rw [asking, syncCalls, if_neg ht]
    refine hbegun.trans (.single ?_)
    rw [kaStep_tx rfl, kaTx]
    simp only [txStep, syncStep, State.setPhase_port, State.setLock_port, State.setStatus_port, State.setPhase_regs,
      State.setLock_regs, State.setStatus_regs, ht, ne_eq, not_false_eq_true, if_true]
    rfl

/-- The primitive `c` sends the command and leaves the answers `env` (R222). -/
def Sends (s : State) (c : PortCall) (env : Env) : Prop :=
  ∀ p, sendStep .ka false s.ka.pdu (asking s (syncCalls s) s.env p) = .go .capOut (asking s (syncCalls s ++ [c]) env p)

theorem sends_iso (hp : s.regs.ctrl.proto = .kwpCan) : Sends s (.isoTpSend s.regs.canTxId s.ka.pdu) s.env := fun p => by
  have hpr : (asking s (syncCalls s) s.env p).regs.ctrl.proto = .kwpCan := hp
  simp only [sendStep, hpr]
  exact congrArg (TxRes.go .capOut) logCall_asking

theorem sends_kline {n : Int} {ws : List Int} (hp : s.regs.ctrl.proto = .kwpKline) (ha : s.env.writeAns = n :: ws) :
    Sends s (.write (klEncode s.regs.klTxHdr s.ka.pdu)) { s.env with writeAns := ws } := fun p => by
  have hpr : (asking s (syncCalls s) s.env p).regs.ctrl.proto = .kwpKline := hp
  have hans : (asking s (syncCalls s) s.env p).env.writeAns = n :: ws := ha
  simp only [sendStep, hpr, portWrite, hans, Bool.false_eq_true, if_false]
  exact congrArg (TxRes.go .capOut) logCall_asking

/-- The command is sent and captured; the receive comes next (R262). -/
theorem asked_taskSteps (hdue : TickDue s d) (hsend : Sends s c env) :
    TaskSteps (4 + (syncCalls s).length) s (asked s [] (syncCalls s ++ [c]) env (.tx .recv)) := by
  obtain ⟨q, hq, hsync⟩ := synced_taskSteps hdue
  have htx : txStep .ka false s.ka.pdu q (asking s (syncCalls s) s.env (.tx q)) =
      .go .capOut (asking s (syncCalls s ++ [c]) env (.tx q)) := by
    rcases hq with rfl | rfl
    · exact (if_neg (not_not.mpr rfl)).trans (hsend _)
    · exact hsend _
  have hgo : kaStep (asking s (syncCalls s) s.env (.tx q)) = some (asking s (syncCalls s ++ [c]) env (.tx .capOut)) := by
    rw [kaStep_tx rfl, kaTx, show (asking s (syncCalls s) s.env (.tx q)).ka.pdu = s.ka.pdu from rfl, htx]
    rfl
  have hpush : kaStep (asking s (syncCalls s ++ [c]) env (.tx .capOut)) =
      some (asked s [] (syncCalls s ++ [c]) env (.tx .recv)) := by
    rw [← capPush_asking, kaStep_tx rfl]
    rfl
  rw [show 4 + (syncCalls s).length = 2 + (syncCalls s).length + 2 by omega]
  exact hsync.trans (.head hgo (.single hpush))

/-! ### The ends of a tick -/

/-- What a tick with a terminal reply `u` comes to: `live` captured, the calls `cs` made, the answers `env` left; waiting
again if `u` is positive, gone with its reason if it is not (R262, R266). -/
def TickAnswered (s : State) (u : List Byte) (live : List Record) (env : Env) (cs : List PortCall) (t : State) : Prop :=
  t.op = s.op ∧ t.lock = .free ∧ t.regs = s.regs ∧ SameRam s t ∧ SameOwn s t
    ∧ t.cap = { s.cap with live := live } ∧ t.outs = { s.outs with capCount := countOf s live } ∧ t.env = env
    ∧ t.port = { timeout := s.regs.tRxTimeout, line := s.port.line, log := taskCalls s.clock.now cs s.port.log }
    ∧ (kwpClassify (s.ka.pdu.headD 0) u = .positive →
      t.status = { s.status with kaActive := false } ∧ t.clock = { s.clock with lastAct := s.clock.now }
        ∧ t.ka = { s.ka with phase := .wait (s.nowUs + s.regs.kaPoll.toNat * 1000) })
    ∧ ∀ e, kwpClassify (s.ka.pdu.headD 0) u = .error e →
      t.status = { s.status with
          kaRun := false, kaActive := false
          kaExit := (match e with | .negativeKwp _ _ => .negative | _ => .other) }
        ∧ t.clock = s.clock ∧ t.ka = { s.ka with phase := .off, stopReq := false }

/-- What a tick whose receive fails comes to: the task gone with the reason `code` (R262, R266). -/
def TickFailed (s : State) (code : KaExit) (live : List Record) (env : Env) (cs : List PortCall) (t : State) : Prop :=
  t.op = s.op ∧ t.lock = .free ∧ t.regs = s.regs ∧ SameRam s t ∧ SameOwn s t
    ∧ t.cap = { s.cap with live := live } ∧ t.outs = { s.outs with capCount := countOf s live } ∧ t.env = env
    ∧ t.clock = s.clock ∧ t.status = { s.status with kaRun := false, kaActive := false, kaExit := code }
    ∧ t.ka = { s.ka with phase := .off, stopReq := false }
    ∧ t.port = { timeout := s.regs.tRxTimeout, line := s.port.line, log := taskCalls s.clock.now cs s.port.log }

/-- A positive reply: LAST_ACT_US is written, the lock given back, and the task waits again. -/
theorem positive_taskSteps (hstop : s.ka.stopReq = false) (hc : kwpClassify (s.ka.pdu.headD 0) u = .positive) :
    TaskSteps 2 (asked s qs cs env (.got u))
      (((kaRelease (asked s qs cs env (.got u)).touch .ended).setStatus { s.status with kaActive := false }).setPhase
        (.wait (kaWake s))) := by
  have hend : kaStep (kaRelease (asked s qs cs env (.got u)).touch .ended) =
      some (kaEndTick (kaRelease (asked s qs cs env (.got u)).touch .ended)) := rfl
  rw [kaEndTick, if_neg (by rw [kaRelease_ka]; exact Bool.not_eq_true _ ▸ hstop)] at hend
  exact .head (kaStep_positive rfl hc) (.single hend)

/-- A task that is to leave gives back the lock and leaves. -/
theorem leave_taskSteps {w : State} {code : KaExit} (h : kaStep w = some (kaRelease w (.leave code))) :
    TaskSteps 2 w (kaLeave code (kaRelease w (.leave code))) := .head h (.single rfl)

/-- A terminal reply ends the tick in two steps (R241, R262). -/
theorem answered_taskSteps (hstop : s.ka.stopReq = false) (hc : kwpClassify (s.ka.pdu.headD 0) u ≠ .pending) :
    ∃ t, TaskSteps 2 (asked s qs cs env (.got u)) t ∧ TickAnswered s u (liveAfter s s.ka.pdu qs) env cs t := by
  cases hv : kwpClassify (s.ka.pdu.headD 0) u with
  | positive =>
    refine ⟨_, positive_taskSteps hstop hv, rfl, rfl, rfl, fun _ => rfl, ⟨rfl, rfl, rfl, rfl⟩, rfl, rfl, rfl, rfl,
      fun _ => ⟨rfl, rfl, rfl⟩, fun e he => ?_⟩
    rw [hv] at he
    cases he
  | pending => exact absurd hv hc
  | error e =>
    have hgot : kaStep (asked s qs cs env (.got u)) =
        some (kaRelease (asked s qs cs env (.got u)) (.leave e.kaExit)) := by
      have hv' : kwpClassify ((asked s qs cs env (.got u)).ka.pdu.headD 0) u = .error e := hv
      have hphase : (asked s qs cs env (.got u)).ka.phase = .tick (.got u) := rfl
      simp only [kaStep, hphase, tickStep, hv']
    refine ⟨_, leave_taskSteps hgot, rfl, rfl, rfl, fun _ => rfl, ⟨rfl, rfl, rfl, rfl⟩, rfl, rfl, rfl, rfl,
      fun hp => ?_, fun e' he => ?_⟩
    · rw [hv] at hp
      cases hp
    · obtain rfl : e = e' := Verdict.error.inj (hv.symm.trans he)
      refine ⟨?_, rfl, rfl⟩
      rw [kaLeave_status, kaRelease_status, kaExit_of_classified hv]
      rfl

/-- A receive that fails ends the tick in two steps (R262). -/
theorem failed_taskSteps (h : txStep .ka false s.ka.pdu q (asked s qs cs env (.tx q)) = .fail e (asked s qs cs env (.tx q))) :
    ∃ t, TaskSteps 2 (asked s qs cs env (.tx q)) t ∧ TickFailed s e.kaExit (liveAfter s s.ka.pdu qs) env cs t := by
  have hstep : kaStep (asked s qs cs env (.tx q)) = some (kaRelease (asked s qs cs env (.tx q)) (.leave e.kaExit)) := by
    rw [kaStep_tx rfl, kaTx, show (asked s qs cs env (.tx q)).ka.pdu = s.ka.pdu from rfl, h]
  exact ⟨_, leave_taskSteps hstep, rfl, rfl, rfl, fun _ => rfl, ⟨rfl, rfl, rfl, rfl⟩, rfl, rfl, rfl, rfl, rfl, rfl, rfl⟩

/-! ### Over ISO-TP -/

section
variable {x : RxItem} {rest : List RxItem}

theorem recvStep_isoItem {a : Agent} {w : State} (hp : w.regs.ctrl.proto = .kwpCan) (hx : w.env.isoIn = x :: rest) :
    recvStep a w = .go (afterIso x) ((logCall a .isoTpRecv w).setEnv { w.env with isoIn := rest }) := by
  cases x <;> simp [recvStep, hp, isoTpRecv, hx, afterIso]

/-- A receive over ISO-TP, after the send or after a pending reply (R242). -/
theorem kaTx_recv_iso (hp : s.regs.ctrl.proto = .kwpCan) (hx : env.isoIn = x :: rest) :
    kaTx .recv (asked s qs cs env p) =
      some (asked s qs (cs ++ [.isoTpRecv]) { env with isoIn := rest } (.tx (afterIso x))) := by
  have hrecv : txStep .ka false s.ka.pdu .recv (asked s qs cs env p) =
      .go (afterIso x) (asked s qs (cs ++ [.isoTpRecv]) { env with isoIn := rest } p) := by
    rw [← logCall_asked]
    exact recvStep_isoItem (w := asked s qs cs env p) hp hx
  rw [kaTx, show (asked s qs cs env p).ka.pdu = s.ka.pdu from rfl, hrecv]
  rfl

/-- A PDU of 1 to 255 bytes is captured. -/
theorem kaStep_isoGot (h1 : 1 ≤ u.length) (h2 : u.length ≤ 255) :
    kaStep (asked s qs cs env (.tx (.isoGot u))) = some (asked s (qs ++ [u]) cs env (.got u)) := by
  have hlen : ¬(u.length = 0 ∨ u.length > 255) := by omega
  rw [← capPush_asked (p := .tx (.isoGot u)), kaStep_tx rfl, kaTx]
  simp only [txStep, hlen, if_false]

theorem kaStep_pending (hc : kwpClassify (s.ka.pdu.headD 0) u = .pending) :
    kaStep (asked s qs cs env (.got u)) = kaTx .recv (asked s qs cs env (.got u)) := by
  have hv : kwpClassify ((asked s qs cs env (.got u)).ka.pdu.headD 0) u = .pending := hc
  have hphase : (asked s qs cs env (.got u)).ka.phase = .tick (.got u) := rfl
  simp only [kaStep, hphase, tickStep, hv]

/-- The receives of the pending replies, and of the answer `x` after them (R242). -/
theorem pendings_taskSteps (hp : s.regs.ctrl.proto = .kwpCan) (pend : List (List Byte)) :
    ∀ (qs : List (List Byte)) (cs : List PortCall) (env : Env) (p : TickPos),
      kaStep (asked s qs cs env p) = kaTx .recv (asked s qs cs env p) →
      env.isoIn = pend.map .data ++ x :: rest →
      (∀ u ∈ pend, u.length ≤ 255 ∧ kwpClassify (s.ka.pdu.headD 0) u = .pending) →
      TaskSteps (2 * pend.length + 1) (asked s qs cs env p)
        (asked s (qs ++ pend) (cs ++ List.replicate (pend.length + 1) .isoTpRecv) { env with isoIn := rest }
          (.tx (afterIso x))) := by
  induction pend with
  | nil =>
    intro qs cs env p hstart hx _
    rw [List.append_nil]
    exact .single (hstart.trans (kaTx_recv_iso hp hx))
  | cons u pend ih =>
    intro qs cs env p hstart hx hall
    obtain ⟨hu, hc⟩ := hall u (by simp)
    have hgot := kaStep_isoGot (s := s) (qs := qs) (cs := cs ++ [.isoTpRecv])
      (env := { env with isoIn := pend.map .data ++ x :: rest }) (by have := length_of_pending hc; omega) hu
    have hloop := ih (qs ++ [u]) (cs ++ [.isoTpRecv]) { env with isoIn := pend.map .data ++ x :: rest } (.got u)
      (kaStep_pending hc) rfl fun v hv => hall v (by simp [hv])
    rw [List.append_assoc, List.append_assoc] at hloop
    exact .head (hstart.trans (kaTx_recv_iso hp hx)) (.head hgot hloop)

/-- A tick over ISO-TP up to the answer `x` that is no pending reply. -/
theorem isoAnswer_taskSteps (hdue : TickDue s d) (hpr : s.regs.ctrl.proto = .kwpCan)
    (hall : ∀ u ∈ pend, u.length ≤ 255 ∧ kwpClassify (s.ka.pdu.headD 0) u = .pending)
    (hx : s.env.isoIn = pend.map .data ++ x :: rest) :
    TaskSteps (5 + 2 * pend.length + (syncCalls s).length) s
      (asked s pend (syncCalls s ++ [.isoTpSend s.regs.canTxId s.ka.pdu] ++ List.replicate (pend.length + 1) .isoTpRecv)
        { s.env with isoIn := rest } (.tx (afterIso x))) := by
  have hloop := pendings_taskSteps hpr pend [] (syncCalls s ++ [.isoTpSend s.regs.canTxId s.ka.pdu]) s.env (.tx .recv)
    (kaStep_tx rfl) hx hall
  rw [show 5 + 2 * pend.length + (syncCalls s).length = 4 + (syncCalls s).length + (2 * pend.length + 1) by omega]
  exact (asked_taskSteps hdue (sends_iso hpr)).trans hloop

end

/-! ### Over the K-Line -/

section
variable {n : Nat} {bs head : List Byte} {line line' line'' : List LineItem} {next : List Byte → TxPos}
  {b c i0 i1 l : Byte}

theorem klReadStep_asked (hn : bs.length = n) :
    klReadStep .ka n (asked s qs cs { env with lineIn := bs.map .byte ++ line } p) next =
      .go (next bs) (asked s qs (cs ++ [.read n]) { env with lineIn := line } p) := by
  rw [klReadStep, portRead_of_bytes .ka bs line _ n hn rfl, ← logCall_asked]
  rfl

/-- Over the K-Line the task's receive begins with a read like the others (R148). -/
theorem txStep_recv_kline {w : State} {req : List Byte} (hp : w.regs.ctrl.proto = .kwpKline) :
    txStep .ka false req .recv w = klReadStep .ka 1 w fun bs => afterCounter (bs.headD 0) := by
  simp only [txStep, recvStep, hp, klReadStep, afterCounter]
  cases portRead .ka 1 w with
  | wait => rfl
  | timeout s => rfl
  | bytes bs s => exact (apply_ite (TxRes.go · s) _ _ _).symm

/-- A primitive of the tick's transaction that goes on. -/
theorem kaStep_asked_go (h : txStep .ka false s.ka.pdu q (asked s qs cs env (.tx q)) = .go q' (asked s qs cs' env' p)) :
    kaStep (asked s qs cs env (.tx q)) = some (asked s qs cs' env' (.tx q')) := by
  rw [kaStep_tx rfl, kaTx, show (asked s qs cs env (.tx q)).ka.pdu = s.ka.pdu from rfl, h]
  rfl

/-- The reads `calls` take the tick's transaction from `q`, with `line` to come, to `q'`, with `line'` to come. -/
structure TickReads (s : State) (calls : List PortCall) (line : List LineItem) (q : TxPos) (line' : List LineItem)
    (q' : TxPos) : Prop where
  steps : ∀ (qs : List (List Byte)) (cs : List PortCall) (env : Env),
    TaskSteps calls.length (asked s qs cs { env with lineIn := line } (.tx q))
      (asked s qs (cs ++ calls) { env with lineIn := line' } (.tx q'))

theorem TickReads.trans (h : TickReads s calls line q line' q') (h' : TickReads s calls' line' q' line'' q'') :
    TickReads s (calls ++ calls') line q line'' q'' where
  steps qs cs env := by
    rw [List.length_append, ← List.append_assoc]
    exact (h.steps qs cs env).trans (h'.steps qs (cs ++ calls) env)

/-- A read whose bytes are there. -/
theorem TickReads.bytes (hn : bs.length = n)
    (h : ∀ w : State, w.regs = s.regs → txStep .ka false s.ka.pdu q w = klReadStep .ka n w next) :
    TickReads s [.read n] (bs.map .byte ++ line) q line (next bs) where
  steps qs cs env := by
    have hread := h (asked s qs cs { env with lineIn := bs.map .byte ++ line } (.tx q)) rfl
    exact .single (kaStep_asked_go (hread.trans (klReadStep_asked hn)))

/-- The counter byte. -/
theorem counter_tickReads (hp : s.regs.ctrl.proto = .kwpKline) (c : Byte) (line : List LineItem) :
    TickReads s [.read 1] (.byte c :: line) .recv line (afterCounter c) :=
  .bytes (bs := [c]) rfl fun _ hr => txStep_recv_kline (by rw [hr, hp])

/-- The id of a counted frame. -/
theorem counted_tickReads (h : 0x81 ≤ c.toNat) :
    TickReads s [.read 2] (.byte i0 :: .byte i1 :: line) (afterCounter c) line (.klBody [c, i0, i1] (c.toNat - 0x80)) := by
  have hne : c ≠ 0x80 := fun hc => by simp [hc] at h
  have hread := TickReads.bytes (s := s) (line := line) (q := .klId c) (bs := [i0, i1]) (n := 2) rfl fun _ _ => rfl
  rw [if_neg hne] at hread
  rw [afterCounter_klId (by omega)]
  exact hread

/-- The id and the length byte of a long-form frame. -/
theorem long_tickReads (h : l ≠ 0) :
    TickReads s [.read 2, .read 1] (.byte i0 :: .byte i1 :: .byte l :: line) (afterCounter 0x80) line
      (.klBody [0x80, i0, i1, l] l.toNat) := by
  have hid : TickReads s [.read 2] (.byte i0 :: .byte i1 :: .byte l :: line) (afterCounter 0x80) (.byte l :: line)
      (.klLen 0x80 i0 i1) := TickReads.bytes (q := .klId 0x80) (n := 2) (bs := [i0, i1]) rfl fun _ _ => rfl
  have hlen := TickReads.bytes (s := s) (line := line) (q := .klLen 0x80 i0 i1) (n := 1) (bs := [l]) rfl fun _ _ => rfl
  rw [List.headD_cons, if_neg h] at hlen
  exact hid.trans hlen

/-- The PDU and the checksum. -/
theorem body_tickReads (hn : u.length = n) :
    TickReads s [.read n, .read 1] ((u ++ [b]).map .byte ++ line) (.klBody head n) line (.klJudge head u b) := by
  have hread := TickReads.bytes (s := s) (line := .byte b :: line) (q := .klBody head n) hn fun _ _ => rfl
  have hsum := TickReads.bytes (s := s) (line := line) (q := .klSum head u) (bs := [b]) rfl fun _ _ => rfl
  rw [List.map_append, List.append_assoc]
  exact hread.trans hsum

/-- A whole frame on the line is read by the reads R145 gives it, to the judgement on it. -/
theorem frame_tickReads (hp : s.regs.ctrl.proto = .kwpKline) (hh : klHeadFor head u.length) :
    TickReads s (.read 1 :: furtherReads head u.length) ((head ++ u ++ [b]).map .byte ++ line) .recv line
      (.klJudge head u b) := by
  rw [List.append_assoc, List.map_append, List.append_assoc]
  rcases hh with ⟨c, i0, i1, rfl, hc, hn⟩ | ⟨i0, i1, l, rfl, hl, hn⟩
  · exact (counter_tickReads hp c _).trans ((counted_tickReads hc).trans (hn ▸ body_tickReads rfl))
  · have hlong := long_tickReads (s := s) (i0 := i0) (i1 := i1) (line := (u ++ [b]).map .byte ++ line)
      fun h : l = 0 => by simp [h] at hl
    rw [← hn] at hlong
    exact (counter_tickReads hp 0x80 _).trans (hlong.trans (body_tickReads rfl))

/-- An encoded frame of the expected id is accepted and captured. -/
theorem kaStep_klJudge :
    kaStep (asked s qs cs env (.tx (.klJudge (klHead s.regs.klRxHdr u.length) u
        (klChecksum (klHead s.regs.klRxHdr u.length ++ u))))) = some (asked s (qs ++ [u]) cs env (.got u)) := by
  have hv := klVerdict_klEncode s.regs.klRxHdr s.regs.ctrl.klChkVerify u
  generalize klChecksum (klHead s.regs.klRxHdr u.length ++ u) = b at hv ⊢
  generalize klHead s.regs.klRxHdr u.length = head at hv ⊢
  have hjudge : ∀ w : State, w.regs = s.regs →
      txStep .ka false s.ka.pdu (.klJudge head u b) w = .got u (capPush .incoming u w) := fun w hr => by
    simp only [txStep, hr, hv, Bool.false_eq_true, if_false]
  have hgot := hjudge (asked s qs cs env (.tx (.klJudge head u b))) rfl
  rw [← capPush_asked (p := .tx (.klJudge head u b)), kaStep_tx rfl, kaTx,
    show (asked s qs cs env (.tx (.klJudge head u b))).ka.pdu = s.ka.pdu from rfl, hgot]

/-- An encoded reply on the line is received by the reads R145 gives it and one step more. -/
theorem klEncode_taskSteps (hp : s.regs.ctrl.proto = .kwpKline) (h1 : 1 ≤ u.length) (h2 : u.length ≤ 255)
    (hl : env.lineIn = (klEncode s.regs.klRxHdr u).map .byte ++ line) :
    TaskSteps ((frameReads u.length).length + 1) (asked s qs cs env (.tx .recv))
      (asked s (qs ++ [u]) (cs ++ frameReads u.length) { env with lineIn := line } (.got u)) := by
  have hframe := (frame_tickReads (b := klChecksum (klHead s.regs.klRxHdr u.length ++ u)) (line := line) hp
    (klHeadFor_klHead (hdr := s.regs.klRxHdr) h1 h2)).steps qs cs env
  rw [← klEncode_eq, ← hl, ← frameReads_eq] at hframe
  exact hframe.trans (.single kaStep_klJudge)

/-- A silence on the line: the receive fails at its first read (R15). -/
theorem gap_taskSteps (hp : s.regs.ctrl.proto = .kwpKline) (hl : env.lineIn = .gap :: line) :
    TaskSteps 1 (asked s qs cs env (.tx .recv))
      (asked s qs (cs ++ [.read 1]) { env with lineIn := line } (.tx (.raise (.timeout .klRx 0)))) := by
  have hread : txStep .ka false s.ka.pdu .recv (asked s qs cs env (.tx .recv)) =
      .go (.raise (.timeout .klRx 0)) (asked s qs (cs ++ [.read 1]) { env with lineIn := line } (.tx .recv)) := by
    rw [txStep_recv_kline (w := asked s qs cs env (.tx .recv)) hp, klReadStep,
      portRead_gap (v := asked s qs cs env (.tx .recv)) .ka hl, ← logCall_asked]
    rfl
  exact .single (kaStep_asked_go hread)

end

/-! ### Whole ticks -/

section
variable {rest : List RxItem}

/-- Over ISO-TP, a terminal reply after any pending ones. -/
theorem isoAnswered_taskSteps (hdue : TickDue s d) (hpr : s.regs.ctrl.proto = .kwpCan)
    (hall : ∀ u ∈ pend, u.length ≤ 255 ∧ kwpClassify (s.ka.pdu.headD 0) u = .pending)
    (hx : s.env.isoIn = pend.map .data ++ .data u :: rest) (h1 : 1 ≤ u.length) (h2 : u.length ≤ 255)
    (hc : kwpClassify (s.ka.pdu.headD 0) u ≠ .pending) :
    ∃ t, TaskSteps (8 + 2 * pend.length + (syncCalls s).length) s t
      ∧ TickAnswered s u (liveAfter s s.ka.pdu (pend ++ [u])) { s.env with isoIn := rest }
        (syncCalls s ++ [.isoTpSend s.regs.canTxId s.ka.pdu] ++ List.replicate (pend.length + 1) .isoTpRecv) t := by
  have hrun := isoAnswer_taskSteps hdue hpr hall hx
  obtain ⟨t, hend, ht⟩ := answered_taskSteps (s := s) (qs := pend ++ [u]) hdue.stopReq hc
  rw [show 8 + 2 * pend.length + (syncCalls s).length = 5 + 2 * pend.length + (syncCalls s).length + 1 + 2 by omega]
  exact ⟨t, (hrun.trans (.single (kaStep_isoGot h1 h2))).trans hend, ht⟩

/-- Over ISO-TP, a receive that fails after any pending replies. -/
theorem isoFailed_taskSteps {x : RxItem} {code : KaExit} (hdue : TickDue s d) (hpr : s.regs.ctrl.proto = .kwpCan)
    (hall : ∀ u ∈ pend, u.length ≤ 255 ∧ kwpClassify (s.ka.pdu.headD 0) u = .pending)
    (hx : s.env.isoIn = pend.map .data ++ x :: rest)
    (hcode : x = .timeout ∧ code = .timeout ∨ ∃ u, x = .data u ∧ (u.length = 0 ∨ 255 < u.length) ∧ code = .other) :
    ∃ t, TaskSteps (7 + 2 * pend.length + (syncCalls s).length) s t
      ∧ TickFailed s code (liveAfter s s.ka.pdu pend) { s.env with isoIn := rest }
        (syncCalls s ++ [.isoTpSend s.regs.canTxId s.ka.pdu] ++ List.replicate (pend.length + 1) .isoTpRecv) t := by
  have hrun := isoAnswer_taskSteps hdue hpr hall hx
  obtain ⟨e, rfl, he⟩ : ∃ e : Err, e.kaExit = code ∧ ∀ w, txStep .ka false s.ka.pdu (afterIso x) w = .fail e w := by
    rcases hcode with ⟨rfl, rfl⟩ | ⟨u, rfl, hu, rfl⟩
    · exact ⟨.timeout .isotpRx 0, rfl, fun _ => rfl⟩
    · exact ⟨.violation .badFormat 0, rfl, fun _ => if_pos hu⟩
  obtain ⟨t, hend, ht⟩ := failed_taskSteps (s := s) (qs := pend) (he _)
  rw [show 7 + 2 * pend.length + (syncCalls s).length = 5 + 2 * pend.length + (syncCalls s).length + 2 by omega]
  exact ⟨t, hrun.trans hend, ht⟩

end

section
variable {n : Int} {ws : List Int} {line : List LineItem}

/-- Over the K-Line, one terminal reply. -/
theorem klineAnswered_taskSteps (hdue : TickDue s d) (hpr : s.regs.ctrl.proto = .kwpKline) (ha : s.env.writeAns = n :: ws)
    (h1 : 1 ≤ u.length) (h2 : u.length ≤ 255)
    (hline : s.env.lineIn = (klEncode s.regs.klRxHdr u).map .byte ++ line)
    (hc : kwpClassify (s.ka.pdu.headD 0) u ≠ .pending) :
    ∃ t, TaskSteps (7 + (frameReads u.length).length + (syncCalls s).length) s t
      ∧ TickAnswered s u (liveAfter s s.ka.pdu [u]) { s.env with writeAns := ws, lineIn := line }
        (syncCalls s ++ [.write (klEncode s.regs.klTxHdr s.ka.pdu)] ++ frameReads u.length) t := by
  have hsent := asked_taskSteps hdue (sends_kline hpr ha)
  have hreply := klEncode_taskSteps (s := s) (qs := []) (cs := syncCalls s ++ [.write (klEncode s.regs.klTxHdr s.ka.pdu)])
    (env := { s.env with writeAns := ws }) hpr h1 h2 hline
  obtain ⟨t, hend, ht⟩ := answered_taskSteps (s := s) (qs := [u]) hdue.stopReq hc
  rw [show 7 + (frameReads u.length).length + (syncCalls s).length =
    4 + (syncCalls s).length + ((frameReads u.length).length + 1) + 2 by omega]
  exact ⟨t, (hsent.trans hreply).trans hend, ht⟩

/-- Over the K-Line, no reply. -/
theorem klineFailed_taskSteps (hdue : TickDue s d) (hpr : s.regs.ctrl.proto = .kwpKline) (ha : s.env.writeAns = n :: ws)
    (hline : s.env.lineIn = .gap :: line) :
    ∃ t, TaskSteps (7 + (syncCalls s).length) s t
      ∧ TickFailed s .timeout (liveAfter s s.ka.pdu []) { s.env with writeAns := ws, lineIn := line }
        (syncCalls s ++ [.write (klEncode s.regs.klTxHdr s.ka.pdu)] ++ [.read 1]) t := by
  have hsent := asked_taskSteps hdue (sends_kline hpr ha)
  have hgap := gap_taskSteps (s := s) (qs := []) (cs := syncCalls s ++ [.write (klEncode s.regs.klTxHdr s.ka.pdu)])
    (env := { s.env with writeAns := ws }) hpr hline
  obtain ⟨t, hend, ht⟩ := failed_taskSteps (s := s) (qs := []) (q := .raise (.timeout .klRx 0)) rfl
  rw [show 7 + (syncCalls s).length = 4 + (syncCalls s).length + 1 + 2 by omega]
  exact ⟨t, (hsent.trans hgap).trans hend, ht⟩

end

end

/-- Settles O60: the tick is counted steps of the task, to the request sent, over its replies, and to its end. -/
theorem kaTick : Obligations.KaTick := by
  intro s d hp hstop hd hup
  refine ⟨(quiet_taskSteps hp hstop hd hup · |>.run rfl), ?_, ?_⟩
  · intro hidle hl hpr pend rest hall
    have hdue : TickDue s d := ⟨hp, hstop, hd, hup, hidle, hl⟩
    refine ⟨fun u hx h1 h2 hc => ?_, fun x code hx hcode => ?_⟩
    · obtain ⟨t, hrun, ht⟩ := isoAnswered_taskSteps hdue hpr hall hx h1 h2 hc
      exact ⟨_, t, by rw [liveAfter, exchange_snoc]; rfl, hrun.run rfl, ht⟩
    · obtain ⟨t, hrun, ht⟩ := isoFailed_taskSteps hdue hpr hall hx hcode
      exact ⟨_, t, rfl, hrun.run rfl, ht⟩
  · intro hidle hl hpr n ws line ha
    have hdue : TickDue s d := ⟨hp, hstop, hd, hup, hidle, hl⟩
    refine ⟨fun u h1 h2 hline hc => ?_, fun hline => ?_⟩
    · obtain ⟨t, hrun, ht⟩ := klineAnswered_taskSteps hdue hpr ha h1 h2 hline hc
      exact ⟨_, t, rfl, hrun.run rfl, ht⟩
    · obtain ⟨t, hrun, ht⟩ := klineFailed_taskSteps hdue hpr ha hline
      rw [List.append_assoc] at ht
      exact ⟨_, t, rfl, hrun.run rfl, ht⟩

end Sys2Proof.Machine

/-! The end of KWP_INIT (spec/44_kwp_engine.md R240, R245): where its moves lead, what its last step is, and what stands at
every step before that one. -/

namespace Sys2Proof.Machine

/-! ### The last step of a run -/

/-- A run that ends its operation ends it by a step of the operation, at a state with every property the earlier steps
keep. -/
theorem runOp_last (f : Pos → State → Micro) (P : State → Prop)
    (hf : ∀ s t o, P s → s.op = some o → f o.pos s = .go t → P t)
    (hk : ∀ s t, P s → kaStep s = some t → P t) :
    ∀ n s t, P s → s.op ≠ none → runOp f n s = .next t → t.op = none →
      ∃ u o, P u ∧ u.op = some o ∧ f o.pos u = .go t := by
  intro n
  induction n with
  | zero =>
    intro s t _ hop h ht
    cases h
    exact absurd ht hop
  | succ n ih =>
    intro s t hs hop h ht
    obtain ⟨o, ho⟩ := Option.ne_none_iff_exists'.mp hop
    simp only [runOp, ho] at h
    cases hm : f o.pos s with
    | go u =>
      simp only [hm] at h
      cases hu : u.op with
      | none =>
        rw [runOp_idle f n u hu] at h
        cases h
        exact ⟨s, o, hs, ho, hm⟩
      | some o' => exact ih u t (hf s u o hs ho hm) (by rw [hu]; simp) h ht
    | waitEnv =>
      rw [hm] at h
      cases h
      exact absurd ht hop
    | waitTask =>
      rw [hm] at h
      cases hka : kaStep s with
      | none =>
        rw [hka] at h
        cases h
        exact absurd ht hop
      | some u =>
        rw [hka] at h
        exact ih u t (hk s u hs hka) (by rw [(kaStep_cases hka).frame.op]; exact hop) h ht
    | lost =>
      rw [hm] at h
      cases h

section
variable {s t u : State} {p q : Pos} {o : Op}

/-! ### The checks of KWP_INIT -/

theorem pduAt_of_lenCheck {n base : Nat} {c : ArgumentCause} (h : lenCheck 1 255 n c = none) :
    pduAt s base n c = .ok (s.memRead base n) := by
  unfold lenCheck at h
  split at h
  · cases h
  · exact if_neg ‹_›

theorem initChecks_of_firstCheck (h : firstCheck .kwpInit s = none) : initChecks s = .ok () := by
  unfold firstCheck at h
  split at h
  · cases h
  · rename_i hallowed
    have hproto : s.regs.ctrl.proto ≠ .ccpCan := fun hp => hallowed (by rw [hp]; rfl)
    simp only at h
    split at h
    · cases h
    · rename_i hstart
      have hstart : ∃ x, (if s.regs.ctrl.proto = .kwpKline then startPdu s else .ok []) = .ok x := by
        split at hstart
        · exact ⟨_, (if_pos ‹_›).trans (pduAt_of_lenCheck hstart)⟩
        · exact ⟨_, if_neg ‹_›⟩
      have hkeep : ∃ x, (if s.regs.ctrl.kaEn then kaPdu s else .ok []) = .ok x := by
        split at h
        · exact ⟨_, (if_pos ‹_›).trans (pduAt_of_lenCheck h)⟩
        · exact ⟨_, if_neg ‹_›⟩
      obtain ⟨x, hx⟩ := hstart
      obtain ⟨y, hy⟩ := hkeep
      simp only [initChecks, hproto, if_false, hx, hy]

/-- The checks read the host's registers only, and these stand still while the operation runs. -/
theorem BlockFrame.firstCheck_kwpInit (h : BlockFrame s u) : firstCheck .kwpInit u = firstCheck .kwpInit s := by
  obtain ⟨c, hr⟩ : ∃ c, u.regs = { s.regs with capdSel := c } := ⟨_, h.regs⟩
  simp only [firstCheck, hr]

/-! ### Where the moves of KWP_INIT lead -/

/-- What the positions of KWP_INIT before its work say of the port: it is as it was when the operation started, and the
error to report is that it stayed closed. -/
def InitPort (up : Bool) (p : Pos) (s : State) : Prop :=
  match p with
  | .start => s.status.portOpen = up
  | .stopped => s.status.portOpen = up
  | .raise e => e = .openingPort ∧ up = false ∧ s.status.portOpen = false
  | _ => True

/-- A move of KWP_INIT ends it, or leads to a position whose word on the port is true. -/
theorem SeqMove.initPort {up : Bool} (hm : SeqMove .kwpInit p s t) (h : InitPort up p s) :
    ∀ o, t.op = some o → InitPort up o.pos t := by
  have moved (u : State) (q : Pos) (hq : InitPort up q (u.goto q)) :
      ∀ o, (u.goto q).op = some o → InitPort up o.pos (u.goto q) := by
    intro o ho
    rw [State.goto_op, Option.map_eq_some_iff] at ho
    obtain ⟨o', -, rfl⟩ := ho
    exact hq
  cases hm with
  | refused => nofun
  | ended => nofun
  | ccpFailed _ _ hi => cases hi
  | inited =>
    intro o ho
    rw [(initEnd_status s).1] at ho
    cases ho
  | stopping hi hp =>
    subst hp
    exact moved _ _ h
  | opening ok rest hi hc hup =>
    have hup : up = false := by
      rcases hi with ⟨hi, _⟩ | ⟨_, rfl | rfl, _⟩
      · cases hi
      · exact h.symm.trans hup
      · exact h.symm.trans hup
    cases ok with
    | true => exact moved _ _ trivial
    | false => exact moved _ _ ⟨rfl, hup, rfl⟩
  | installed q hi hp hq => rcases hq with rfl | rfl | rfl <;> exact moved _ _ trivial
  | filtered q hi hp hq => rcases hq with rfl | rfl <;> exact moved _ _ trivial
  | closed hi => cases hi
  | acquired q hp hl hc hup hk hq => rcases hq with ⟨f, rfl⟩ | ⟨req, x, rfl⟩ <;> exact moved _ _ trivial
  | released => exact moved _ _ trivial
  | swallowed => exact moved _ _ trivial
  | answered _ _ hi => cases hi
  | rejected _ _ _ hi => cases hi
  | fi => exact moved _ _ trivial
  | fiDone f q ok u q' hp hf hq => rcases hq with ⟨_, rfl⟩ | ⟨_, rfl⟩ <;> exact moved _ _ trivial
  | tx => exact moved _ _ trivial
  | sent req u hi => simp at hi
  | got => exact moved _ _ trivial
  | failed _ _ _ _ _ hi => exact absurd rfl hi

/-! ### The last step of KWP_INIT -/

/-- A step to another position does not end the operation. -/
theorem goto_op_ne_none (hu : u.op = some o) : (u.goto q).op ≠ none := by
  rw [State.goto_op, hu]
  nofun

/-- A task runs afterwards if one is started or one is left (R260). -/
theorem initEnd_kaRun (w : State) : (initEnd w).status.kaRun = (w.regs.ctrl.kaEn || w.status.kaRun) := by
  unfold initEnd
  split <;> rename_i hen <;> simp [hen, endOp]

theorem initBody_ends (ho : s.op = some o) (h : initBody s = .go t) (ht : t.op = none) : t = initEnd s := by
  unfold initBody at h
  split at h
  · obtain ⟨-, rfl⟩ := acquireThen_go h
    exact absurd ht (goto_op_ne_none ho)
  · cases h
    rfl

theorem initOpen_ends (ho : s.op = some o) (h : initOpen s = .go t) (ht : t.op = none) : t = initEnd s := by
  unfold initOpen at h
  split at h
  · exact initBody_ends ho h ht
  · rename_i hup
    obtain ⟨ok, rest, -, rfl⟩ := openStep_go h (eq_false_of_ne_true hup)
    exact absurd ht (goto_op_ne_none ho)

/-- KWP_INIT past its checks ends Ready with no task left, or by reporting the error its position carries. -/
theorem stepKwpInit_ends (hc : initChecks s = .ok ()) (ho : s.op = some o) (h : stepKwpInit p s = .go t)
    (ht : t.op = none) : Alone .kwpInit p s ∧ t = initEnd s ∨ ∃ e, p = .raise e ∧ t = raiseError e s := by
  cases p with
  | start =>
    simp only [stepKwpInit, hc] at h
    rcases stopThen_go h with ⟨hk, h⟩ | ⟨-, rfl⟩
    · exact .inl ⟨.inl hk, initOpen_ends ho h ht⟩
    · exact absurd ht (goto_op_ne_none ho)
  | stopped =>
    obtain ⟨hk, h⟩ := stoppedThen_go h
    exact .inl ⟨.inl hk, initOpen_ends ho h ht⟩
  | opened => cases h; exact absurd ht (goto_op_ne_none ho)
  | filter => cases h; exact absurd ht (goto_op_ne_none ho)
  | body => exact .inl ⟨.inr rfl, initBody_ends ho h ht⟩
  | fi f q =>
    rcases seqFi_go h with ⟨q', u, hf, rfl⟩ | ⟨ok, u, hf, rfl⟩ <;>
      exact absurd ht (goto_op_ne_none ((fiStep_work (t := u) (by rw [hf]; rfl)).op.trans ho))
  | tx req q =>
    rcases seqTxWith_go h with ⟨q', u, hx, rfl⟩ | ⟨u, -, -, h⟩ | ⟨x, u, hx, h⟩ | ⟨e, h⟩
    · exact absurd ht (goto_op_ne_none ((txStep_work (t := u) (by rw [hx]; rfl)).op.trans ho))
    · cases h
    · cases h; exact absurd ht (goto_op_ne_none ((txStep_work (t := u) (by rw [hx]; rfl)).op.trans ho))
    · cases h; exact absurd ht (goto_op_ne_none (u := s.setLock .free) ho)
  | release r => cases h; exact absurd ht (goto_op_ne_none (u := s.setLock .free) ho)
  | finish r => cases h; exact .inl ⟨.inr rfl, rfl⟩
  | raise e => cases h; exact .inr ⟨e, rfl, rfl⟩
  | _ => cases h

/-! ### The run -/

/-- What stands at every step of a KWP_INIT that started at `s`. -/
structure Initing (s u : State) : Prop where
  inv : u.Inv
  runs : Runs .kwpInit u
  frame : BlockFrame s u
  port : ∀ o, u.op = some o → InitPort s.status.portOpen o.pos u

theorem Started.initing (hs : Started .kwpInit s) (h : s.Inv) : Initing s s where
  inv := h
  runs := .of_op hs (decodeCode_opcode .kwpInit)
  frame := .refl s
  port o ho := by
    obtain rfl := Option.some.inj (hs.symm.trans ho)
    rfl

theorem Initing.step (h : Initing s u) (ho : u.op = some o) (hm : SeqMove .kwpInit o.pos u t) : Initing s t where
  inv := hm.inv h.inv ho (h.runs o ho)
  runs := hm.runs h.runs
  frame := h.frame.trans hm.block
  port := hm.initPort (h.port o ho)

theorem Initing.task (h : Initing s u) (hm : KaMove u t) : Initing s t where
  inv := hm.inv h.inv
  runs := h.runs.congr hm.frame.op
  frame := h.frame.trans hm.frame.block
  port o ho := by
    have hp := h.port o (hm.frame.op ▸ ho)
    have hup : t.status.portOpen = u.status.portOpen := by rw [hm.frame.status]
    unfold InitPort at hp ⊢
    rwa [hup]

/-- KWP_INIT ends Ready, with no task left of an earlier engine, or by reporting that the port stayed closed. -/
theorem exec_kwpInit_last (h : s.Inv) (hs : Started .kwpInit s) (hc : firstCheck .kwpInit s = none)
    (he : exec .kwpInit s = .next t) (ht : t.op = none) :
    ∃ u, Initing s u ∧ (u.ka.phase = .off ∧ t = initEnd u
      ∨ s.status.portOpen = false ∧ u.status.portOpen = false ∧ t = raiseError .openingPort u) := by
  rw [exec_eq] at he
  obtain ⟨u, o, hu, ho, hlast⟩ := runOp_last (opStep .kwpInit) (Initing s)
    (fun _ _ _ hu ho hm => hu.step ho (opStep_cases hm)) (fun _ _ hu hk => hu.task (kaStep_cases hk)) _ s t
    (hs.initing h) (by rw [hs]; nofun) he ht
  refine ⟨u, hu, ?_⟩
  have hchecks := initChecks_of_firstCheck (hu.frame.firstCheck_kwpInit.trans hc)
  rcases stepKwpInit_ends hchecks ho hlast ht with ⟨hk, rfl⟩ | ⟨e, hp, rfl⟩
  · exact .inl ⟨hk.holds (Landing.of_inv hu.inv ho (hu.runs o ho)), rfl⟩
  · have hport := hu.port o ho
    rw [hp] at hport
    obtain ⟨rfl, hup, hup'⟩ := hport
    exact .inr ⟨hup, hup', rfl⟩

/-- KWP_INIT reports no reply (R66, R245). -/
theorem exec_kwpInit_response (h : s.Inv) (hs : Started .kwpInit s) (he : exec .kwpInit s = .next t) :
    t.outs.rxLen = s.outs.rxLen ∧ t.outs.respStatus = s.outs.respStatus := by
  have hval {r : HostReg} (ho : openOutput r = true) (hf : isFrameOut r = false) (hw : r ≠ .txWritten) :
      regValue r t = regValue r s :=
    exec_regValue h hs (decodeCode_opcode .kwpInit) he ho (by simp [mayWrite, hf, hw])
  have hrx : t.outs.rxLen.setWidth 32 = s.outs.rxLen.setWidth 32 := hval (r := .rxLen) rfl rfl nofun
  have hst : t.outs.respStatus.setWidth 32 = s.outs.respStatus.setWidth 32 := hval (r := .respStatus) rfl rfl nofun
  exact ⟨by simpa using congrArg (BitVec.setWidth 9) hrx, setWidth_code_inj.mp hst⟩

end

/-- Settles O54: the last step of KWP_INIT is its end Ready, or the report of the port it could not open. -/
theorem kwpInitReady : Obligations.KwpInitReady := by
  intro s t h hs hc he ht
  obtain ⟨u, hu, ⟨hoff, rfl⟩ | ⟨hup, hup', rfl⟩⟩ := exec_kwpInit_last h hs hc he ht
  · obtain ⟨-, herr, -, hready⟩ := initEnd_status u
    obtain ⟨hrx, hst⟩ := exec_kwpInit_response h hs he
    have hrun : (initEnd u).status.kaRun = s.regs.ctrl.kaEn := by
      have hgone : u.status.kaRun = false := by rw [hu.inv.kaRun, hoff]; rfl
      rw [initEnd_kaRun, hgone, hu.frame.regs, Bool.or_false]
    exact .inl ⟨herr, hready, (exec_inv h hs (decodeCode_opcode .kwpInit) he).ready hready, hrun, hrx, hst⟩
  · have hready : u.status.engReady = false := by
      cases hr : u.status.engReady with
      | false => rfl
      | true => exact absurd (hu.inv.ready hr) (by rw [hup']; decide)
    exact .inr ⟨rfl, hup, hup', hready⟩

end Sys2Proof.Machine

/-! Whole runs of CCP_EXEC (spec/45_ccp_engine.md R280 to R285): the CRO written and counted, the receive's answer, and the
end that the return code or the missing reply brings. -/

namespace Sys2Proof.Machine

/-! ### The CRO on its way -/

/-- The lock is taken; the buffer write of the CRO belongs to the next step (R280; log 13). -/
def begunCcp (s : State) (cro : List Byte) : State := (s.setLock .seq).goto (.tx cro .syncSend)

/-- The CRO is in FRMBUF and on the bus, and not yet captured or counted. -/
def croWritten (s : State) (cro : List Byte) : State :=
  ((putFrame cro (begunCcp s cro)).setPort
    (portExchanged s (syncCalls s ++ [.canWrite s.regs.canTxId cro]))).setOp
      (some { code := opcode .ccpExec, pos := .tx cro .capOut })

/-- The CRO is captured and CCP_CTR advanced: the receive comes next (R282; log 34). -/
def croCounted (s : State) (cro : List Byte) : State :=
  (bumpCtr (capPush .outgoing cro (canWritten (croWritten s cro)))).goto (.tx cro .recv)

section
variable {s w v : State} {cro c : List Byte} {q q' : TxPos}

theorem begunCcp_op (hs : Started .ccpExec s) :
    (begunCcp s cro).op = some { code := opcode .ccpExec, pos := .tx cro .syncSend } := by
  rw [begunCcp, State.goto_op, State.setLock_op, hs]
  rfl

theorem stepCcpExec_start (hp : s.regs.ctrl.proto = .ccpCan) (hup : s.status.portOpen = true) (hl : s.lock = .free)
    (hc : ccpCommand s = .ok c) : stepCcpExec .start s = .go (begunCcp s (croOf s c)) := by
  simp [stepCcpExec, hp, hup, hc, acquireThen, hl, begunCcp]

/-- A transport step of CCP_EXEC that goes on, with the buffer write before it. -/
theorem stepCcpExec_go (h : txStep .seq true cro q (ccpBuffer cro q w) = .go q' v) :
    stepCcpExec (.tx cro q) w = .go (v.goto (.tx cro q')) := by
  simp only [stepCcpExec, seqTx, seqTxWith, h]

theorem sendStep_can (hp : w.regs.ctrl.proto = .ccpCan) :
    sendStep .seq true cro w = .go .capOut (canWrite .seq cro w) := by
  simp only [sendStep, hp]

/-- The CRO goes out in one step, or in two with SyncTimeout (R217, R222). -/
theorem croWritten_stepsTo (hs : Started .ccpExec s) (hp : s.regs.ctrl.proto = .ccpCan) :
    ∃ k ≤ 2, StepsTo stepCcpExec k (begunCcp s cro) (croWritten s cro) := by
  obtain ⟨b, hb⟩ : ∃ b, b = putFrame cro (begunCcp s cro) := ⟨_, rfl⟩
  have hframe : PortFrame (begunCcp s cro) b := hb ▸ putFrame_frame cro _
  have hregs : b.regs = s.regs := hframe.regs
  have hport : b.port = s.port := hb ▸ (putFrame_port cro _).1
  have hclock : b.clock = s.clock := hframe.clock
  have hbop : b.op = some { code := opcode .ccpExec, pos := .tx cro .syncSend } := hframe.op.trans (begunCcp_op hs)
  have hop := begunCcp_op (cro := cro) hs
  by_cases ht : s.port.timeout = s.regs.tRxTimeout
  · have hsend : txStep .seq true cro .syncSend b = .go .capOut (canWrite .seq cro b) :=
      (if_neg (by rw [hport, hregs]; exact not_not.mpr ht)).trans (sendStep_can (hregs ▸ hp))
    have hend : (canWrite .seq cro b).goto (.tx cro .capOut) = croWritten s cro := by
      rw [croWritten, ← hb, portExchanged, syncCalls, if_pos ht, ← ht]
      simp only [canWrite, logCall, State.goto, State.setPort, State.setOp, hbop, hport, hregs, hclock]
      rfl
    exact ⟨1, by omega, .head hop (hend ▸ stepCcpExec_go (hb ▸ hsend)) (.refl _ _)⟩
  · obtain ⟨b', hb'⟩ : ∃ b', b' = (portSetTimeout .seq b.regs.tRxTimeout b).goto (.tx cro .send) := ⟨_, rfl⟩
    have hsync : txStep .seq true cro .syncSend b = .go .send (portSetTimeout .seq b.regs.tRxTimeout b) :=
      if_pos (by rw [hport, hregs]; exact ht)
    have hsend : txStep .seq true cro .send b' = .go .capOut (canWrite .seq cro b') :=
      sendStep_can (by rw [hb', State.goto_regs, (portSetTimeout_frame _ _ _).regs, hregs, hp])
    have hop' : b'.op = some { code := opcode .ccpExec, pos := .tx cro .send } := by
      rw [hb', State.goto_op, portSetTimeout_op, hbop]
      rfl
    have hend : (canWrite .seq cro b').goto (.tx cro .capOut) = croWritten s cro := by
      rw [croWritten, ← hb, portExchanged, syncCalls, if_neg ht, hb']
      simp only [canWrite, portSetTimeout, logCall, State.goto, State.setPort, State.setOp, hbop, hport, hregs, hclock]
      rfl
    exact ⟨2, le_rfl, .head hop (hb' ▸ stepCcpExec_go (hb ▸ hsync))
      (.head hop' (hend ▸ stepCcpExec_go ((ccpBuffer_other cro .send b' nofun).symm ▸ hsend)) (.refl _ _))⟩

theorem croCounted_stepsTo : StepsTo stepCcpExec 1 (croWritten s cro) (croCounted s cro) :=
  .head rfl rfl (.refl _ _)

end

/-! ### The state once the CRO is sent -/

/-- CAP_LIVE once CCP_EXEC has captured the frames `us`. -/
def ccpLive (s : State) (us : List (Dir × List Byte)) : List Record :=
  pushedAll s.regs.capCfg s.clock.now us s.cap.live

/-- `w` is `s` with CCP_EXEC at `p`, its CRO sent and counted: the primitives `cs` are made after SyncTimeout and leave the
answers `env`, the frames `us` are captured, and `f` is the last frame written to FRMBUF. -/
structure CcpSent (s : State) (l : Lock) (p : Pos) (f : List Byte) (us : List (Dir × List Byte)) (cs : List PortCall)
    (env : Env) (w : State) : Prop where
  op : w.op = some { code := opcode .ccpExec, pos := p }
  lock : w.lock = l
  status : w.status = s.status
  regs : w.regs = s.regs
  own : SameOwn s w
  outs : w.outs = { s.outs with
    frmLen := 8, txWritten := 8, ccpCtr := s.outs.ccpCtr + 1, capCount := countOf s (ccpLive s us) }
  cap : w.cap = { s.cap with live := ccpLive s us }
  clock : w.clock = s.clock
  ka : w.ka = s.ka
  env : w.env = env
  port : w.port = portExchanged s (syncCalls s ++ cs)
  holds : HoldsAt w 0x200 f
  outside : SameOutside s w 0x200 8

section
variable {s w : State} {l : Lock} {p : Pos} {q : TxPos} {f u cro c : List Byte} {us : List (Dir × List Byte)}
  {cs : List PortCall} {call : PortCall} {env : Env} {x : RxItem} {rest : List RxItem} {e : Err}

/-- What the CapPush step writes of the state `b` with the CRO in FRMBUF: the capture, TX_WRITTEN and CCP_CTR. -/
theorem croCounted_eq {b : State} (hb : b = putFrame cro (begunCcp s cro)) (hp : b.regs.ctrl.proto = .ccpCan) :
    croCounted s cro = (((b.setPort (portExchanged s (syncCalls s ++ [.canWrite s.regs.canTxId cro]))).setCap
      { b.cap with live := sentLive b cro }).setOuts { b.outs with
        txWritten := 8, ccpCtr := b.outs.ccpCtr + 1, capCount := countOf b (sentLive b cro) }).setOp
          (some { code := opcode .ccpExec, pos := .tx cro .recv }) := by
  rw [croCounted, croWritten, ← hb, canWritten_can (by rw [State.setOp_regs, State.setPort_regs, hp]), capPush_pushed]
  rfl

theorem croCounted_sent (hp : s.regs.ctrl.proto = .ccpCan) (h8 : cro.length = 8) :
    CcpSent s .seq (.tx cro .recv) cro [(.outgoing, cro)] [.canWrite s.regs.canTxId cro] s.env (croCounted s cro) := by
  have hmem := putFrame_memRead cro (begunCcp s cro) (by omega)
  have hout := putFrame_peek cro (begunCcp s cro)
  obtain ⟨m, hm, -⟩ := putFrame_eq cro (begunCcp s cro)
  obtain ⟨b, hb⟩ : ∃ b, b = putFrame cro (begunCcp s cro) := ⟨_, rfl⟩
  have hframe : PortFrame (begunCcp s cro) b := hb ▸ putFrame_frame cro _
  have hregs : b.regs = s.regs := hframe.regs
  have hcap : b.cap = s.cap := by rw [hb, hm]; rfl
  have houts : b.outs = { s.outs with frmLen := 8 } := by rw [hb, hm, h8]; rfl
  have hlive : sentLive b cro = ccpLive s [(.outgoing, cro)] := by
    rw [sentLive, hregs, hframe.clock, hcap]
    rfl
  have hcount : countOf b (ccpLive s [(.outgoing, cro)]) = countOf s (ccpLive s [(.outgoing, cro)]) := by
    simp only [countOf, hregs, houts]
  rw [croCounted_eq hb (hregs ▸ hp), hlive, hcount, houts, hcap]
  rw [← hb] at hmem hout
  rw [h8] at hout
  exact ⟨rfl, hframe.lock, hframe.status, hregs, ⟨hframe.hostData, hframe.sched, hframe.draws, hframe.epoch⟩, rfl, rfl,
    hframe.clock, hframe.ka, hb ▸ putFrame_env cro _, rfl, HoldsAt.congr hmem rfl rfl, hout⟩

/-- A step that moves OP and the lock alone. -/
theorem CcpSent.moved (h : CcpSent s l p f us cs env w) (l' : Lock) (p' : Pos) :
    CcpSent s l' p' f us cs env ((w.setLock l').goto p') :=
  { h with
    op := by rw [State.goto_op, State.setLock_op, h.op]; rfl
    lock := rfl
    holds := h.holds.congr rfl rfl }

/-- One more primitive, with its answer. -/
theorem CcpSent.called (h : CcpSent s l p f us cs s.env w) :
    CcpSent s l p f us (cs ++ [call]) env ((logCall .seq call w).setEnv env) :=
  { h with
    env := rfl
    port := by
      rw [portExchanged, ← List.append_assoc, madeCalls_snoc, State.setEnv_port, logCall, State.setPort_port, h.port,
        h.clock]
      rfl
    holds := h.holds.congr rfl rfl }

/-- A frame received, in FRMBUF (R223). -/
theorem CcpSent.framed (h : CcpSent s l p f us cs env w) (h8 : u.length = 8) :
    CcpSent s l p u us cs env (putFrame u w) := by
  have hmem : HoldsAt (putFrame u w) 0x200 u := putFrame_memRead u w (by omega)
  have hout : SameOutside s (putFrame u w) 0x200 8 := fun b hb =>
    (putFrame_peek u w b (h8 ▸ hb)).trans (h.outside b hb)
  obtain ⟨m, hm, -⟩ := putFrame_eq u w
  rw [hm] at hmem hout ⊢
  refine { h with outs := ?_, holds := hmem, outside := hout }
  rw [State.setFrmLen_outs, State.setRam_outs, h.outs, h8]
  rfl

/-- A frame received is captured (R223). -/
theorem CcpSent.captured (h : CcpSent s l p f us cs env w) :
    CcpSent s l p f (us ++ [(.incoming, u)]) cs env (capPush .incoming u w) := by
  have hlive : pushed w.regs.capCfg w.clock.now .incoming u w.cap.live = ccpLive s (us ++ [(.incoming, u)]) := by
    rw [ccpLive, pushedAll_snoc, h.regs, h.clock, h.cap]
    rfl
  rw [capPush_pushed, hlive, countOf_next h.regs (by rw [h.outs])]
  refine { h with outs := ?_, cap := ?_, holds := h.holds.congr rfl rfl }
  · rw [State.setOuts_outs, h.outs]
  · rw [State.setOuts_cap, State.setCap_cap, h.cap]

/-! ### The receive -/

/-- The state in which `CanRead` has answered. -/
def ccpHeard (s : State) (cro : List Byte) (env : Env) (q : TxPos) : State :=
  ((logCall .seq .canRead (croCounted s cro)).setEnv env).goto (.tx cro q)

theorem ccpHeard_sent (hp : s.regs.ctrl.proto = .ccpCan) (h8 : cro.length = 8) :
    CcpSent s .seq (.tx cro q) cro [(.outgoing, cro)] [.canWrite s.regs.canTxId cro, .canRead] env
      (ccpHeard s cro env q) := by
  have h := (croCounted_sent hp h8).called (call := .canRead) (env := env)
  exact { h with
    op := by rw [ccpHeard, State.goto_op, h.op]; rfl
    holds := h.holds.congr rfl rfl }

/-- From the start of CCP_EXEC, past its checks, to the answer of `CanRead`. -/
theorem ccpHeard_stepsTo (hs : Started .ccpExec s) (hp : s.regs.ctrl.proto = .ccpCan) (hup : s.status.portOpen = true)
    (hl : s.lock = .free) (hc : ccpCommand s = .ok c) (hx : s.env.canIn = x :: rest) :
    ∃ k ≤ 5, StepsTo stepCcpExec k s (ccpHeard s (croOf s c) { s.env with canIn := rest } (afterCan x)) := by
  have hsent := croCounted_sent hp (croOf_length (s := s) (ccpCommand_ok hc).2)
  have hrecv : txStep .seq true (croOf s c) .recv (croCounted s (croOf s c)) =
      .go (afterCan x) ((logCall .seq .canRead (croCounted s (croOf s c))).setEnv { s.env with canIn := rest }) :=
    hears_can hp hx _ hsent.regs hsent.env
  rw [← ccpBuffer_other (croOf s c) .recv (croCounted s (croOf s c)) nofun] at hrecv
  obtain ⟨k, hk, hsend⟩ := croWritten_stepsTo (cro := croOf s c) hs hp
  refine ⟨1 + 1 + k + 1, by omega, .head hs (stepCcpExec_start hp hup hl hc) (hsend.trans ?_)⟩
  exact croCounted_stepsTo.trans (.head hsent.op (stepCcpExec_go hrecv) (.refl _ _))

end

/-! ### The two ends of a reply -/

section
variable {s v z : State} {f u cro c : List Byte} {rest : List RxItem} {env : Env} {q : TxPos} {cs : List PortCall}
  {us : List (Dir × List Byte)} {l : Lock} {p : Pos} {e : Err}

/-- The Response of `d` written to RXBUF, and the error after it (R283, R330). -/
theorem raiseError_putDto {d : Dto} (hd : d.data.length ≤ 255) (hl : s.lock = .free) :
    EndsAs s.status.failed s (raiseError e (putDto d s)) ∧ NoTraffic s (raiseError e (putDto d s))
      ∧ (raiseError e (putDto d s)).cap = s.cap
      ∧ (raiseError e (putDto d s)).outs = { s.outs with
          rxLen := 6, respStatus := d.rc, dtoInfo := d.info, errCode := e.codeWord, errInfo := e.infoWord }
      ∧ HoldsAt (raiseError e (putDto d s)) 0x100 (d.rc :: d.data)
      ∧ SameOutside s (raiseError e (putDto d s)) 0x100 (d.data.length + 1) := by
  have hmem : HoldsAt (raiseError e (putDto d s)) 0x100 (d.rc :: d.data) := (putDto_memRead d s hd).congr rfl rfl
  have hout : SameOutside s (raiseError e (putDto d s)) 0x100 (d.data.length + 1) := putDto_peek d s
  have hlock : (raiseError e (putDto d s)).lock = s.lock := by
    rw [raiseError_lock, (putDto_port d s).2, hl]
    rfl
  obtain ⟨m, hm, -⟩ := putDto_eq d s
  rw [hm] at hmem hout hlock ⊢
  exact ⟨⟨rfl, rfl, hlock, rfl, ⟨rfl, rfl, rfl, rfl⟩⟩, ⟨rfl, rfl, rfl, hlock, rfl⟩, rfl, rfl, hmem, hout⟩

theorem codeWord_negativeCcp (rc ctr : Byte) (k : BitVec 3) : (Err.negativeCcp rc ctr k).codeWord = 0x0004 := by
  simp [Err.codeWord, Err.sub, Err.cls]

theorem infoWord_negativeCcp (rc ctr : Byte) (k : BitVec 3) :
    (Err.negativeCcp rc ctr k).infoWord = BitVec.ofNat 32 (k.toNat * 65536 + ctr.toNat * 256 + rc.toNat) := rfl

theorem codeWord_canRx (b : Byte) : (Err.timeout .canRx b).codeWord = 0x0302 := by
  simp [Err.codeWord, Err.sub, Err.cls]

/-- ERR_INFO of TIMEOUT is its byte alone (R313). -/
theorem infoWord_timeout (x : TimeoutCause) (b : Byte) : (Err.timeout x b).infoWord = b.setWidth 32 := by
  simp [Err.infoWord, Err.cat, Err.aux, Err.code, BitVec.ofNat_toNat]

/-- The end of CCP_EXEC by the return code, the lock given back (R283, R303). -/
theorem ccpEnd_holds {f0 f1 f2 f3 f4 f5 f6 f7 : Byte} (hf : f = [f0, f1, f2, f3, f4, f5, f6, f7])
    (hl : v.lock = .free) :
    EndsAs (if f1 = 0x00 then v.status.ended else v.status.failed) v (ccpEnd f v) ∧ NoTraffic v (ccpEnd f v)
      ∧ (ccpEnd f v).cap = v.cap
      ∧ (ccpEnd f v).outs = { v.outs with
          rxLen := 6, respStatus := f1, dtoInfo := BitVec.ofNat 16 (f2.toNat * 256 + f0.toNat)
          errCode := if f1 = 0x00 then v.outs.errCode else 0x0004
          errInfo := if f1 = 0x00 then v.outs.errInfo
            else BitVec.ofNat 32 ((ccpCategory f1).toNat * 65536 + f2.toNat * 256 + f1.toNat) }
      ∧ HoldsAt (ccpEnd f v) 0x100 [f1, f3, f4, f5, f6, f7] ∧ SameOutside v (ccpEnd f v) 0x100 6 := by
  have hd : dtoDecode f = { pid := f0, rc := f1, ctr := f2, data := [f3, f4, f5, f6, f7] } := by rw [hf]; rfl
  by_cases h : f1 = 0x00
  · have hend : ccpEnd f v = endOp (putDto (dtoDecode f) v) := if_neg (by rw [hd]; exact not_not.mpr h)
    simp only [h, if_true] at hd ⊢
    rw [hend, hd]
    exact endOp_putDto v (by decide : 5 ≤ 255)
  · have hend : ccpEnd f v = raiseError (.negativeCcp f1 f2 (ccpCategory f1)) (putDto (dtoDecode f) v) := by
      rw [ccpEnd, hd]
      exact if_pos h
    simp only [h, if_false]
    rw [hend, hd, ← codeWord_negativeCcp f1 f2 (ccpCategory f1), ← infoWord_negativeCcp]
    exact raiseError_putDto (by decide : 5 ≤ 255) hl

/-- The reply in FRMBUF and captured, the lock given back. -/
def ccpLanded (u : List Byte) (z : State) : State :=
  releaseTo ((capPush .incoming u (putFrame u z)).goto (.release (.data u))) (.finish (.data u))

theorem CcpSent.landed (h : CcpSent s l p f us cs env z) (h8 : u.length = 8) :
    CcpSent s .free (.finish (.data u)) u (us ++ [(.incoming, u)]) cs env (ccpLanded u z) :=
  ((h.framed h8).captured.moved l (.release (.data u))).moved .free _

/-- A whole reply: accepted, the lock released, and the end its return code brings (R223, R283). -/
theorem ccpEnd_stepsTo (hop : z.op = some { code := opcode .ccpExec, pos := .tx cro (.canGot u) }) (h8 : u.length = 8) :
    StepsTo stepCcpExec 3 z (ccpEnd u (ccpLanded u z)) := by
  have htx : txStep .seq true cro (.canGot u) z = .got u (capPush .incoming u (putFrame u z)) := if_neg (by omega)
  have hgot : stepCcpExec (.tx cro (.canGot u)) z =
      .go ((capPush .incoming u (putFrame u z)).goto (.release (.data u))) := by
    simp only [stepCcpExec, seqTx, seqTxWith, ccpBuffer_other cro (.canGot u) z nofun, htx]
  have hrel : ((capPush .incoming u (putFrame u z)).goto (.release (.data u))).op =
      some { code := opcode .ccpExec, pos := .release (.data u) } := by
    rw [State.goto_op, (capPush_frame _ _ _).op, (putFrame_frame _ _).op, hop]
    rfl
  have hfin : (ccpLanded u z).op = some { code := opcode .ccpExec, pos := .finish (.data u) } := by
    rw [ccpLanded, releaseTo_op, hrel]
    rfl
  exact .head hop hgot (.head hrel rfl (.head hfin rfl (.refl _ _)))

/-- A receive that fails is reported in the step after it (R314). -/
theorem ccpFail_stepsTo (hop : z.op = some { code := opcode .ccpExec, pos := .tx cro q })
    (h : txStep .seq true cro q z = .fail e z) (hq : q.sends = false) : StepsTo stepCcpExec 1 z (raiseError e z) := by
  have hbuf : ccpBuffer cro q z = z := ccpBuffer_other cro q z fun hq' => by rw [hq'] at hq; cases hq
  exact .head hop (by simp only [stepCcpExec, seqTx, seqTxWith, hbuf, h]) (.refl _ _)

/-- What a failed receive leaves: the effects of the send (R282, R330). -/
theorem CcpSent.failed (h : CcpSent s .seq p f us cs env z) (hl : s.lock = .free) :
    EndsAs s.status.failed s (raiseError e z) ∧ HoldsAt (raiseError e z) 0x200 f
      ∧ SameOutside s (raiseError e z) 0x200 8
      ∧ (raiseError e z).outs = { s.outs with
          frmLen := 8, txWritten := 8, ccpCtr := s.outs.ccpCtr + 1, capCount := countOf s (ccpLive s us)
          errCode := e.codeWord, errInfo := e.infoWord }
      ∧ (raiseError e z).cap = { s.cap with live := ccpLive s us } ∧ (raiseError e z).clock = s.clock
      ∧ (raiseError e z).ka = s.ka ∧ (raiseError e z).env = env
      ∧ (raiseError e z).port = portExchanged s (syncCalls s ++ cs) := by
  refine ⟨⟨congrArg Status.failed h.status, rfl, ?_, h.regs, h.own⟩, h.holds.congr rfl rfl, h.outside, ?_, h.cap, h.clock,
    h.ka, h.env, h.port⟩
  · rw [raiseError_lock, if_pos h.lock, hl]
  · rw [raiseError_outs, h.outs]

end

/-! ### Whole runs -/

section
variable {s : State} {x : RxItem} {rest : List RxItem}

/-- The CRO of a command of `t` bytes in TXBUF, in the words of R280. -/
theorem croOf_memRead_txLen (s : State) {t : Nat} (h1 : 1 ≤ t) :
    croOf s (s.memRead txBuf t) =
      [s.peek 0x000, s.outs.ccpCtr] ++ s.memRead 0x001 (t - 1) ++ List.replicate (7 - t) 0x00 := by
  obtain ⟨n, rfl⟩ := Nat.exists_eq_add_of_le' h1
  rw [croOf_memRead, Nat.add_sub_cancel, Nat.add_sub_add_right 6 1 n]

/-- CCP_EXEC past its checks, the lock free: `CanRead` is answered in `z`, and three more steps are within the bound. -/
theorem exec_ccpExec_heard (hs : Started .ccpExec s) (hp : s.regs.ctrl.proto = .ccpCan)
    (hup : s.status.portOpen = true) (hl : s.lock = .free) (h1 : 1 ≤ s.regs.txLen.toNat) (h7 : s.regs.txLen.toNat ≤ 7)
    (hx : s.env.canIn = x :: rest) :
    ∃ cro z, cro = [s.peek 0x000, s.outs.ccpCtr] ++ s.memRead 0x001 (s.regs.txLen.toNat - 1)
          ++ List.replicate (7 - s.regs.txLen.toNat) 0x00
      ∧ CcpSent s .seq (.tx cro (afterCan x)) cro [(.outgoing, cro)] [.canWrite s.regs.canTxId cro, .canRead]
          { s.env with canIn := rest } z
      ∧ ∀ j t, j ≤ 3 → StepsTo stepCcpExec j z t → t.op = none → exec .ccpExec s = .next t := by
  have hc := ccpCommand_eq_ok h1 h7
  obtain ⟨k, hk, hrun⟩ := ccpHeard_stepsTo hs hp hup hl hc hx
  refine ⟨_, _, croOf_memRead_txLen s h1, ccpHeard_sent hp (croOf_length (s := s) (ccpCommand_ok hc).2),
    fun j t hj ht hop => exec_of_stepsTo (hrun.trans ht) hop ?_⟩
  rw [runBudget]
  omega

end

/-- Settles O57: the CRO sent and counted, the reply landed, and the end its return code brings. -/
theorem ccpExecCompletes : Obligations.CcpExecCompletes := by
  intro s f0 f1 f2 f3 f4 f5 f6 f7 rest hs hp hup hl h1 h7 hx
  obtain ⟨u, hu⟩ : ∃ u, u = [f0, f1, f2, f3, f4, f5, f6, f7] := ⟨_, rfl⟩
  have h8 : u.length = 8 := by rw [hu]; rfl
  rw [← hu] at hx ⊢
  obtain ⟨cro, z, hcro, hz, hexec⟩ := exec_ccpExec_heard hs hp hup hl h1 h7 hx
  rw [afterCan, List.take_of_length_le h8.le] at hz
  have hv := hz.landed h8
  obtain ⟨⟨hstatus, hop, hlock, hregs, hown⟩, ⟨hclock, hport, henv, -, hka⟩, hcap, houts, hmem, hout⟩ :=
    ccpEnd_holds hu hv.lock
  have hframe : HoldsAt (ccpEnd u (ccpLanded u z)) 0x200 u :=
    (State.memRead_congr _ _ _ _ fun i _ => hout _ (.inr (by omega))).trans hv.holds
  rw [hv.status] at hstatus
  rw [hv.outs] at houts
  exact ⟨cro, _, _, hcro, rfl, hexec 3 _ le_rfl (ccpEnd_stepsTo hz.op h8) hop,
    ⟨hstatus, hop, (hlock.trans hv.lock).trans hl.symm, hregs.trans hv.regs, hv.own.trans hown⟩, hframe, hmem,
    fun b hb hb' => (hout b hb').trans (hv.outside b hb), houts, hcap.trans hv.cap, hclock.trans hv.clock,
    hka.trans hv.ka, henv.trans hv.env, hport.trans hv.port⟩

/-- Settles O58: the CRO sent and counted, and the error of the receive that fails. -/
theorem ccpExecTimeout : Obligations.CcpExecTimeout := by
  intro s x code rest hs hp hup hl h1 h7 hx hcode
  obtain ⟨cro, z, hcro, hz, hexec⟩ := exec_ccpExec_heard hs hp hup hl h1 h7 hx
  have hrecv : (afterCan x).sends = false := by cases x <;> rfl
  have hfail : txStep .seq true cro (afterCan x) z = .fail (.timeout .canRx code) z := by
    refine (txStep_receive hrecv).trans (txStep_can_fails ?_)
    rcases hcode with ⟨hx, rfl⟩ | ⟨g, hx, hg, rfl⟩
    · exact .inl ⟨hx, rfl⟩
    · exact .inr ⟨g, hx, hg, rfl⟩
  have hends := hz.failed (e := .timeout .canRx code) hl
  rw [codeWord_canRx, infoWord_timeout] at hends
  exact ⟨cro, _, _, hcro, rfl, hexec 1 _ (by decide) (ccpFail_stepsTo hz.op hfail hrecv) rfl, hends⟩

end Sys2Proof.Machine

/-! What the operations leave of the host's commands: TXBUF, STARTBUF, KABUF and the RAM without a block use
(spec/20_memory.md R82; spec/46_command_model.md R297), and the category of a CCP return code (R303). -/

namespace Sys2Proof.Machine

/-! ### The category of a CCP return code -/

/-- R303's numbers: what the free value is cut down to, for each of the eight it can have. -/
theorem freeCategory_mem (k : BitVec 3) : (if k = 5 || k = 6 then 7 else k).toNat ∈ [0, 1, 2, 3, 4, 7] := by
  revert k
  decide

/-- Settles O36: the two fixed points, and the free value elsewhere. -/
theorem categoryBounds : Obligations.CategoryBounds := by
  refine ⟨fun rc => ?_, rfl, rfl⟩
  unfold ccpCategory
  split
  · decide
  · split
    · decide
    · exact freeCategory_mem _

/-! ### The bytes no operation writes -/

/-- Every byte outside RXBUF and FRMBUF is as before (R82). -/
def KeepsCommands (s t : State) : Prop := ∀ b, b < rxBuf ∨ startBuf ≤ b → t.peek b = s.peek b

theorem KeepsCommands.refl (s : State) : KeepsCommands s s := fun _ _ => rfl

theorem KeepsCommands.trans {s t u : State} (h : KeepsCommands s t) (k : KeepsCommands t u) : KeepsCommands s u :=
  fun b hb => (k b hb).trans (h b hb)

theorem KeepsCommands.of_ram {s t : State} (hr : t.ram = s.ram) (he : t.epoch = s.epoch) : KeepsCommands s t :=
  fun b _ => peek_congr hr he b

theorem KeepsCommands.of_outputs {s t : State} (h : SameOutputs s t) : KeepsCommands s t := by
  obtain ⟨hr, he, _⟩ := h
  exact .of_ram hr he

theorem KeepsCommands.of_read {s t : State} (h : PortFrame s t ∧ t.ram = s.ram ∧ t.outs = s.outs) : KeepsCommands s t :=
  .of_outputs (.of_read h)

/-- A write that stays inside RXBUF and FRMBUF. -/
theorem KeepsCommands.of_outside {s t : State} {a n : Nat} (h : SameOutside s t a n) (ha : rxBuf ≤ a)
    (hn : a + n ≤ startBuf) : KeepsCommands s t :=
  fun b hb => h b (by omega)

theorem putFrame_keepsCommands {f : List Byte} (hf : f.length ≤ 512) (s : State) : KeepsCommands s (putFrame f s) :=
  .of_outside (putFrame_peek f s) (by decide) (by simp only [frmBuf, startBuf]; omega)

theorem putPdu_keepsCommands {u : List Byte} (hu : u.length ≤ 256) (s : State) : KeepsCommands s (putPdu u s) :=
  .of_outside (putPdu_peek u s) (by decide) (by simp only [rxBuf, startBuf]; omega)

theorem putDto_keepsCommands (f : List Byte) (s : State) : KeepsCommands s (putDto (dtoDecode f) s) := by
  have hd : (dtoDecode f).data.length ≤ 5 := by simp [dtoDecode]
  exact .of_outside (putDto_peek (dtoDecode f) s) (by decide) (by simp only [rxBuf, startBuf]; omega)

theorem fiStore_keepsCommands {k : Nat} (last : Option Byte) (hk : k ≤ 255) (s : State) :
    KeepsCommands s (fiStore k last s) := by
  cases last with
  | none => exact .refl s
  | some x => exact fun b hb => fiStore_peek k x s b (by simp only [rxBuf, frmBuf, startBuf] at hb ⊢; omega)

theorem capPush_keepsCommands (d : Dir) (bs : List Byte) (s : State) : KeepsCommands s (capPush d bs s) :=
  .of_ram (capPush_ram d bs s) (capPush_frame d bs s).epoch

theorem countSent_keepsCommands (i : Instr) (s : State) : KeepsCommands s (countSent i s) := by
  unfold countSent
  split <;> exact fun _ _ => rfl

/-! ### One atomic step of the transport -/

theorem sendStep_keepsCommands {a : Agent} {req : List Byte} {s t : State} (hreq : pduLenOk req.length = true)
    (h : (sendStep a true req s).state? = some t) : KeepsCommands s t := by
  simp only [pduLenOk, Bool.and_eq_true, decide_eq_true_eq] at hreq
  unfold sendStep at h
  split at h
  · cases hw : portWrite a (klEncode s.regs.klTxHdr req) s with
    | none => simp [hw, TxRes.state?] at h
    | some x =>
      simp only [hw] at h
      cases h
      have hlen := klEncode_length s.regs.klTxHdr req hreq.2
      exact (KeepsCommands.of_read (portWrite_frame _ _ _ _ _ hw)).trans (putFrame_keepsCommands (by omega) x.2)
  · cases h; exact fun _ _ => rfl
  · cases h; exact fun _ _ => rfl

/-- A transport step that writes the outputs: the frames it stores are of the formats, and so end inside FRMBUF. -/
theorem txStep_true_keepsCommands {a : Agent} {req : List Byte} {q : TxPos} {s t : State} (hz : q.sized = true)
    (hreq : q.sends = true → pduLenOk req.length = true) (h : (txStep a true req q s).state? = some t) :
    KeepsCommands s t := by
  cases q with
  | syncSend =>
    rcases syncStep_frame a s t .send _ h with h | h
    · exact .of_read h
    · exact sendStep_keepsCommands (hreq rfl) h
  | send => exact sendStep_keepsCommands (hreq rfl) h
  | capOut =>
    cases h
    refine KeepsCommands.trans ?_ (capPush_keepsCommands _ _ _)
    rcases canWritten_eq s with hc | ⟨_, hc⟩ <;> rw [if_pos rfl, hc]
    · exact .refl s
    · exact fun _ _ => rfl
  | syncRecv =>
    rcases syncStep_frame a s t .recv _ h with h | h
    · exact .of_read h
    · exact .of_read (recvStep_frame a s t h)
  | recv => exact .of_read (recvStep_frame a s t h)
  | klId c => exact .of_read (klReadStep_frame _ _ _ _ _ h)
  | klLen c i0 i1 => exact .of_read (klReadStep_frame _ _ _ _ _ h)
  | klBody head n => exact .of_read (klReadStep_frame _ _ _ _ _ h)
  | klSum head pdu => exact .of_read (klReadStep_frame _ _ _ _ _ h)
  | klJudge head pdu cs =>
    simp only [TxPos.sized, pduLenOk, Bool.and_eq_true, decide_eq_true_eq] at hz
    have hlen : (head ++ pdu ++ [cs]).length ≤ 512 := by
      simp only [List.length_append, List.length_cons, List.length_nil]
      omega
    simp only [txStep] at h
    split at h
    · exact .of_read (recvStep_frame a s t h)
    · cases h; exact .refl s
    · cases h; exact (putFrame_keepsCommands hlen s).trans (capPush_keepsCommands _ _ _)
  | isoGot pdu =>
    simp only [txStep] at h
    split at h
    · cases h; exact .refl s
    · cases h; exact capPush_keepsCommands _ _ s
  | canGot frame =>
    simp only [TxPos.sized, canDataOk, decide_eq_true_eq] at hz
    simp only [txStep] at h
    split at h
    · cases h; exact .refl s
    · cases h; exact (putFrame_keepsCommands (by omega) s).trans (capPush_keepsCommands _ _ _)
  | raise e => cases h; exact .refl s

theorem txStep_keepsCommands {a : Agent} {wr : Bool} {req : List Byte} {q : TxPos} {s t : State} (hz : q.sized = true)
    (hreq : q.sends = true → pduLenOk req.length = true) (h : (txStep a wr req q s).state? = some t) :
    KeepsCommands s t := by
  cases wr with
  | true => exact txStep_true_keepsCommands hz hreq h
  | false =>
    obtain ⟨hf, hw⟩ := txStep_frame a false req q s t h
    obtain ⟨hr, _⟩ := hw rfl
    exact .of_ram hr hf.epoch

/-! ### One step of FastInit -/

theorem fiStep_keepsCommands {f : List Byte} {q : FiPos} {s t : State} (hz : (Pos.fi f q).sized = true)
    (h : (fiStep f q s).state? = some t) : KeepsCommands s t := by
  have held : ∀ {n : Nat} {self after : FiPos}, (holdStep n self after s).state? = some t → KeepsCommands s t :=
    fun h => .of_outputs (holdStep_outputs h)
  cases q with
  | setTimeout => cases h; exact fun _ _ => rfl
  | low st => cases h; cases st <;> exact fun _ _ => rfl
  | holdLow st n => exact held h
  | high st n => cases h; cases st <;> exact fun _ _ => rfl
  | holdHigh st n => exact held h
  | release n => cases h; exact fun _ _ => rfl
  | send st n =>
    simp only [fiStep] at h
    cases hw : portWrite .seq f s with
    | none => rw [hw] at h; cases h
    | some x =>
      rw [hw] at h
      cases h
      exact (KeepsCommands.of_read (portWrite_frame _ _ _ _ _ hw)).trans fun _ _ => rfl
  | read st k last =>
    simp only [Pos.sized, decide_eq_true_eq] at hz
    have hs := fiStore_keepsCommands last hz.le s
    simp only [fiStep] at h
    cases hr : portRead .seq 1 (fiStore k last s) with
    | wait => rw [hr] at h; cases h
    | timeout u =>
      rw [hr] at h
      cases h
      exact hs.trans (.of_read (portRead_frame _ _ _ _ (by rw [hr]; rfl)))
    | bytes bs u =>
      rw [hr] at h
      cases h
      exact hs.trans (.of_read (portRead_frame _ _ _ _ (by rw [hr]; rfl)))
  | close x k last =>
    simp only [Pos.sized, decide_eq_true_eq] at hz
    cases h
    exact (fiStore_keepsCommands last hz s).trans fun _ _ => rfl

/-! ### Every move -/

theorem EndWork.keepsCommands {i : Instr} {p : Pos} {s u : State} (hw : EndWork i p s u) (hl : Landing i p s) :
    KeepsCommands s u := by
  cases hw with
  | nothing => exact .refl s
  | unreadied => exact fun _ _ => rfl
  | dumped => exact fun _ _ => rfl
  | framed f hi hf => exact putFrame_keepsCommands (by omega) s
  | parsed u hi hu => exact putPdu_keepsCommands (by omega) s
  | received u hi hp =>
    subst hp
    have hz := hl.sized
    simp only [Pos.sized, Ret.sized, pduLenOk, Bool.and_eq_true, decide_eq_true_eq] at hz
    exact putPdu_keepsCommands (by omega) s
  | response f => exact putDto_keepsCommands f s

/-- A reply KWP_EXEC classifies fits RXBUF (R82). -/
theorem Landing.got_keepsCommands {i : Instr} {req x : List Byte} {s : State} (hl : Landing i (.got req x) s) :
    KeepsCommands s (putPdu x s) := by
  have hz := hl.sized
  simp only [Pos.sized, pduLenOk, Bool.and_eq_true, decide_eq_true_eq] at hz
  exact putPdu_keepsCommands (by omega) s

theorem TxFrom.keepsCommands {i : Instr} {p : Pos} {s v : State} {wr : Bool} {req : List Byte} {q : TxPos}
    (hv : TxFrom i p s wr req q v) (hl : Landing i p s) : KeepsCommands s v := by
  obtain ⟨_, _, _, _, hreq, _⟩ := hv.lands hl
  cases hv with
  | plain => exact .refl s
  | ccp =>
    by_cases hq : q = .syncSend
    · have hlen := hreq (by rw [hq]; rfl)
      simp only [pduLenOk, Bool.and_eq_true, decide_eq_true_eq] at hlen
      rw [ccpBuffer, if_pos hq]
      exact putFrame_keepsCommands (by omega) s
    · rw [ccpBuffer_other req q s hq]
      exact .refl s
  | pending => exact hl.got_keepsCommands

theorem TxFrom.step_keepsCommands {i : Instr} {p : Pos} {s v t : State} {wr : Bool} {req : List Byte} {q : TxPos}
    (hv : TxFrom i p s wr req q v) (hl : Landing i p s) (h : (txStep .seq wr req q v).state? = some t) :
    KeepsCommands s t := by
  obtain ⟨_, _, hz, _, hreq, _⟩ := hv.lands hl
  exact (hv.keepsCommands hl).trans (txStep_keepsCommands hz hreq h)

theorem SeqMove.keepsCommands {i : Instr} {p : Pos} {s t : State} (h : SeqMove i p s t) (hl : Landing i p s) :
    KeepsCommands s t := by
  have raised : ∀ {u : State} (e : Err), KeepsCommands s u → KeepsCommands s (raiseError e u) :=
    fun _ hu => hu.trans fun _ _ => rfl
  have moved : ∀ {u : State} (q : Pos), KeepsCommands s u → KeepsCommands s (u.goto q) :=
    fun _ hu => hu.trans fun _ _ => rfl
  cases h with
  | refused e => exact raised e (.refl s)
  | ended u hp hw => exact (hw.keepsCommands hl).trans fun _ _ => rfl
  | ccpFailed f e => exact raised e (putDto_keepsCommands f s)
  | inited =>
    unfold initEnd
    split <;> exact fun _ _ => rfl
  | stopping => exact fun _ _ => rfl
  | opening => exact fun _ _ => rfl
  | installed => exact fun _ _ => rfl
  | filtered => exact fun _ _ => rfl
  | closed => exact fun _ _ => rfl
  | acquired => exact fun _ _ => rfl
  | released => exact fun _ _ => rfl
  | swallowed => exact fun _ _ => rfl
  | answered req x hi hp =>
    subst hp
    exact hl.got_keepsCommands.trans fun _ _ => rfl
  | rejected req x e hi hp =>
    subst hp
    exact raised e hl.got_keepsCommands
  | fi f q q' u hi hp hf =>
    subst hp
    exact moved _ (fiStep_keepsCommands hl.sized (by rw [hf]; rfl))
  | fiDone f q ok u q' hp hf =>
    subst hp
    exact moved _ (fiStep_keepsCommands hl.sized (by rw [hf]; rfl))
  | tx wr req q q' v u hv hx => exact moved _ (hv.step_keepsCommands hl (by rw [hx]; rfl))
  | sent req u hi hp hx =>
    subst hp
    have hu := (TxFrom.of_sent hi req s).step_keepsCommands hl (t := u) (by rw [hx]; rfl)
    exact moved _ (hu.trans (countSent_keepsCommands i u))
  | got wr req x q v u hi hv hx => exact moved _ (hv.step_keepsCommands hl (by rw [hx]; rfl))
  | failed wr req q v e hi hv => exact raised e (hv.keepsCommands hl)

/-! ### Every step but a host write and the block reset -/

theorem taskTurn_keepsCommands (s : State) : KeepsCommands s (taskTurn s) :=
  .of_outputs (taskTurn_frame s).outputs

theorem illegalOp_keepsCommands (r : DecodeRefusal) (s : State) : KeepsCommands s (illegalOp r s) := by
  obtain ⟨e, he⟩ := illegalOp_eq r s
  rw [he]
  exact fun _ _ => rfl

theorem exec_keepsCommands {i : Instr} {o : Op} {s t : State} (h : s.Inv) (ho : s.op = some o)
    (hi : decodeCode o.code = .ok i) (he : exec i s = .next t) : KeepsCommands s t := by
  have key : (t.Inv ∧ Runs i t) ∧ KeepsCommands s t := by
    refine exec_keeps (fun u => (u.Inv ∧ Runs i u) ∧ KeepsCommands s u) ?_ ?_ ⟨⟨h, .of_op ho hi⟩, .refl s⟩ he
    · rintro u v o' ⟨⟨hu, hruns⟩, hkeep⟩ ho' hmove
      have hi' := hruns o' ho'
      exact ⟨⟨hmove.inv hu ho' hi', hmove.runs hruns⟩, hkeep.trans (hmove.keepsCommands (.of_inv hu ho' hi'))⟩
    · rintro u v ⟨⟨hu, hruns⟩, hkeep⟩ hk
      have hmove := kaStep_cases hk
      exact ⟨⟨hmove.inv hu, hruns.congr hmove.frame.op⟩, hkeep.trans (.of_outputs hmove.frame.outputs)⟩
  exact key.2

theorem seqRun_keepsCommands {s t : State} (hinv : s.Inv) (h : seqRun s = .next t) : KeepsCommands s t := by
  rcases seqRun_cases h with rfl | ⟨o, r, _, _, rfl⟩ | ⟨o, i, ho, hi, he⟩
  · exact .refl _
  · exact illegalOp_keepsCommands r s
  · exact exec_keepsCommands hinv ho hi he

theorem seqAtom_keepsCommands {s t : State} (hinv : s.Inv) (h : seqAtom s = .next t) : KeepsCommands s t := by
  rcases seqAtom_cases h with rfl | ⟨o, r, _, _, rfl⟩ | ⟨o, i, ho, hi, hm⟩
  · exact .refl _
  · exact illegalOp_keepsCommands r s
  · exact hm.keepsCommands (.of_inv hinv ho hi)

theorem eventStep_keepsCommands {e : Event} {s t : State} (hinv : s.Inv) (h : eventStep e s = .next t)
    (hwrite : ∀ off v, e ≠ .host (.write off v)) (hreset : e ≠ .reset) : KeepsCommands s t := by
  cases e with
  | host a =>
    cases h
    cases a with
    | read off =>
      obtain ⟨w, n, c, hr⟩ := hostRead_eq off s
      rw [hr]
      exact fun _ _ => rfl
    | write off v => exact absurd rfl (hwrite off v)
  | run => exact seqRun_keepsCommands hinv h
  | atom => exact seqAtom_keepsCommands hinv h
  | task => cases h; exact taskTurn_keepsCommands s
  | clock c =>
    cases h
    obtain ⟨k, hk⟩ := clockStep_eq c s
    rw [hk]
    exact fun _ _ => rfl
  | env a =>
    cases h
    obtain ⟨x, hx⟩ := deliver_eq a s
    rw [hx]
    exact fun _ _ => rfl
  | reset => exact absurd rfl hreset

/-- Settles O29: a step is an event of the schedule or the default agent's, and each keeps the bytes outside RXBUF and
FRMBUF. -/
theorem commandsUntouched : Obligations.CommandsUntouched := by
  intro s t hinv h hwrite hreset
  show KeepsCommands s t
  unfold step at h
  split at h
  · rename_i e rest hs
    have hkeep : KeepsCommands (s.setSched rest) t :=
      eventStep_keepsCommands (hinv.setSched rest) h (fun off v he => hwrite off v rest (by rw [hs, he]))
        fun he => hreset rest (by rw [hs, he])
    exact hkeep
  · split at h
    · exact seqRun_keepsCommands hinv h
    · cases h; exact taskTurn_keepsCommands s

end Sys2Proof.Machine

/-! How an operation stops, and that nothing else does (spec/60_exceptions.md R298, R311 to R314, R320, R330): what error
entry writes, the checks at an operation's first line, and that every position the invariant allows has its step. -/

namespace Sys2Proof.Machine

/-! ### Error entry -/

/-- R311, R312: the classes and the sub-causes each of them has. -/
theorem Err.cls_sub_listed (e : Err) :
    (e.cls, e.sub) ∈ [(0x01, 0x00), (0x02, 0x01), (0x02, 0x02), (0x02, 0x03), (0x02, 0x04), (0x02, 0x05), (0x02, 0x06),
      (0x03, 0x00), (0x04, 0x00), (0x05, 0x01), (0x05, 0x02), (0x05, 0x03), (0x06, 0x01), (0x06, 0x02), (0x06, 0x03),
      (0x06, 0x04), (0x06, 0x05), (0x07, 0x01), (0x08, 0x00), (0x09, 0x00), (0x0A, 0x01), (0x0A, 0x02)] := by
  cases e with
  | timeout c b => cases c <;> simp [Err.sub, Err.cls]
  | violation c b => cases c <;> simp [Err.sub, Err.cls]
  | argument c b => cases c <;> simp [Err.sub, Err.cls]
  | illegal c b => cases c <;> simp [Err.sub, Err.cls]
  | _ => simp [Err.sub, Err.cls]

/-- CODE, AUX and CAT fit beside each other in ERR_INFO (R33). -/
theorem Err.infoWord_toNat_eq (e : Err) :
    e.infoWord.toNat = e.cat.toNat * 65536 + e.aux.toNat * 256 + e.code.toNat := by
  have := e.cat.isLt
  have := e.aux.isLt
  have := e.code.isLt
  rw [Err.infoWord, BitVec.toNat_ofNat]
  omega

/-- R313: the fields of ERR_INFO are those of the error. -/
theorem Err.infoWord_fields (e : Err) :
    e.infoWord.extractLsb' 0 8 = e.code ∧ e.infoWord.extractLsb' 8 8 = e.aux ∧ e.infoWord.extractLsb' 16 3 = e.cat := by
  have := e.cat.isLt
  have := e.aux.isLt
  have := e.code.isLt
  refine ⟨BitVec.eq_of_toNat_eq ?_, BitVec.eq_of_toNat_eq ?_, BitVec.eq_of_toNat_eq ?_⟩ <;>
    rw [BitVec.extractLsb'_toNat, e.infoWord_toNat_eq, Nat.shiftRight_eq_div_pow] <;>
    omega

/-- Settles O23: error entry is these writes by definition, and its two words hold the error's class, sub-cause and
fields. -/
theorem errorEntry : Obligations.ErrorEntry := fun e _ =>
  ⟨rfl, rfl, e.cls_sub_listed, e.infoWord_fields⟩

/-! ### The checks at the first line -/

section
variable {s : State} {e : Err}

theorem lenCheck_some {lo hi n : Nat} {c : ArgumentCause} (h : lenCheck lo hi n c = some e) :
    (n < lo ∨ hi < n) ∧ e = .argument c (lenByte n) := by
  unfold lenCheck at h
  split at h
  · cases h; exact ⟨‹_›, rfl⟩
  · cases h

/-- R320: the port is checked before what follows it. -/
theorem portCheck_some {next : Option Err} (h : portCheck s next = some e) :
    s.status.portOpen = false ∧ e = .portClosed ∨ s.status.portOpen = true ∧ next = some e := by
  unfold portCheck at h
  split at h
  · exact .inr ⟨‹_›, h⟩
  · cases h; exact .inl ⟨eq_false_of_ne_true ‹_›, rfl⟩

theorem pduAt_of_lenCheck_some {n base : Nat} {c : ArgumentCause} (h : lenCheck 1 255 n c = some e) :
    pduAt s base n c = .error e := by
  obtain ⟨hn, rfl⟩ := lenCheck_some h
  exact if_pos hn

theorem ccpCommand_of_lenCheck (h : lenCheck 1 7 s.regs.txLen.toNat .ccpLen = some e) : ccpCommand s = .error e := by
  obtain ⟨hn, rfl⟩ := lenCheck_some h
  exact if_pos hn

theorem ccpFrame_of_lenCheck (h : lenCheck 8 8 s.outs.frmLen.toNat .frameLen = some e) : ccpFrame s = .error e := by
  obtain ⟨hn, rfl⟩ := lenCheck_some h
  exact if_pos (by omega)

/-- The checks of TP_SEND and TP_SR: the port, then the length of the unit PROTO sends (R226). -/
theorem sendUnit_of_check (h : portCheck s (if s.regs.ctrl.proto = .ccpCan then
      lenCheck 8 8 s.outs.frmLen.toNat .frameLen else lenCheck 1 255 s.regs.txLen.toNat .klLen) = some e) :
    sendUnit s = .error e := by
  rcases portCheck_some h with ⟨hp, rfl⟩ | ⟨hp, h⟩
  · simp [sendUnit, hp]
  · cases hpr : s.regs.ctrl.proto with
    | ccpCan =>
      rw [if_pos hpr] at h
      simp [sendUnit, hp, hpr, ccpFrame_of_lenCheck h]
    | _ =>
      rw [if_neg (by rw [hpr]; decide)] at h
      simp [sendUnit, hp, hpr, txPdu, pduAt_of_lenCheck_some h]

/-- The checks of KWP_INIT: PROTO, the start command of the K-Line, the keep-alive command (R245). -/
theorem initChecks_of_firstCheck_some (h : firstCheck .kwpInit s = some e) : initChecks s = .error e := by
  unfold firstCheck at h
  split at h
  · rename_i hp
    cases h
    exact if_pos (by simpa [allowedUnder_eq_false_iff] using hp)
  rename_i hallowed
  have hp : s.regs.ctrl.proto ≠ .ccpCan := fun hp => hallowed (by rw [hp]; rfl)
  simp only at h
  split at h
  · rename_i hstart
    cases h
    split at hstart
    · rename_i hkl
      simp [initChecks, hkl, startPdu, pduAt_of_lenCheck_some hstart]
    · cases hstart
  · rename_i hstart
    split at h
    · rename_i hen
      split at hstart
      · rename_i hkl
        simp [initChecks, hkl, hen, startPdu, kaPdu, pduAt_of_lenCheck hstart, pduAt_of_lenCheck_some h]
      · rename_i hcan
        simp [initChecks, hp, hcan, hen, kaPdu, pduAt_of_lenCheck_some h]
    · cases h

/-- R320: the first line of an operation whose checks fail reports the first that does, and does nothing else. -/
theorem opStep_start_refused {i : Instr} (h : firstCheck i s = some e) : opStep i .start s = .go (raiseError e s) := by
  have hfirst := h
  unfold firstCheck at h
  split at h
  · cases h; exact opStep_start_wrongProto ‹_›
  rename_i hallowed
  cases i with
  | openPort => cases h
  | closePort => cases h
  | capDump => cases h
  | klEnc => simp only [opStep, stepKlEnc, txPdu, pduAt_of_lenCheck_some h]
  | klParse =>
    obtain ⟨hn, rfl⟩ := lenCheck_some h
    exact if_pos (by omega)
  | croEnc => simp only [opStep, stepCroEnc, ccpCommand_of_lenCheck h]
  | dtoDec =>
    simp only at h
    split at h
    · cases h; exact if_pos ‹_›
    · rename_i hshort
      obtain ⟨hn, rfl⟩ := lenCheck_some h
      exact (if_neg hshort).trans (if_pos (by omega))
  | fiSeq =>
    have hp : s.regs.ctrl.proto = .kwpKline := by simpa [Instr.allowedUnder] using hallowed
    rcases portCheck_some h with ⟨hup, rfl⟩ | ⟨hup, h⟩
    · simp [opStep, stepFiSeq, hp, hup]
    · simp [opStep, stepFiSeq, hp, hup, startPdu, pduAt_of_lenCheck_some h]
  | tpSend => simp only [opStep, stepTpSend, sendUnit_of_check h]
  | tpRecv =>
    rcases portCheck_some h with ⟨hup, rfl⟩ | ⟨_, h⟩
    · simp [opStep, stepTpRecv, hup]
    · cases h
  | tpSr => simp only [opStep, stepTpSr, sendUnit_of_check h]
  | kwpInit => simp only [opStep, stepKwpInit, initChecks_of_firstCheck_some hfirst]
  | kwpExec =>
    have hp : s.regs.ctrl.proto ≠ .ccpCan := fun hp => hallowed (by rw [hp]; rfl)
    simp only at h
    split at h
    · rename_i hr
      simp [opStep, stepKwpExec, hp, hr, txPdu, pduAt_of_lenCheck_some h]
    · rename_i hr
      cases h
      simp [opStep, stepKwpExec, hp, hr]
  | ccpExec =>
    have hp : s.regs.ctrl.proto = .ccpCan := by simpa [Instr.allowedUnder] using hallowed
    rcases portCheck_some h with ⟨hup, rfl⟩ | ⟨hup, h⟩
    · simp [opStep, stepCcpExec, hp, hup]
    · simp [opStep, stepCcpExec, hp, hup, ccpCommand_of_lenCheck h]

end

/-- Settles O5: a failed check is error entry in the operation's first step, which ends its run. -/
theorem checksInOrder : Obligations.ChecksInOrder := fun _ s e hs h =>
  ⟨_, exec_of_start hs (opStep_start_refused h) rfl, raiseError_raisedOnly e s⟩

/-! ### No position is lost -/

section
variable {s : State}

theorem acquireThen_ne_lost (s : State) (p : Pos) : acquireThen s p ≠ .lost := by
  unfold acquireThen
  split <;> nofun

theorem openStep_ne_lost (s : State) : openStep s ≠ .lost := by
  unfold openStep
  split <;> nofun

theorem stopThen_ne_lost {k : Micro} (s : State) (hk : k ≠ .lost) : stopThen s k ≠ .lost := by
  unfold stopThen
  split
  · exact hk
  · nofun

theorem stoppedThen_ne_lost {k : Micro} (s : State) (hk : k ≠ .lost) : stoppedThen s k ≠ .lost := by
  unfold stoppedThen
  split
  · exact hk
  · nofun

theorem seqFi_ne_lost (f : List Byte) (q : FiPos) (s : State) (k : Bool → State → State) : seqFi f q s k ≠ .lost := by
  unfold seqFi
  split <;> nofun

/-- The transport's work is lost only where the operation has no position after the end of the send or of the receive
that the step reaches. -/
theorem seqTxWith_ne_lost {wr : Bool} {req : List Byte} {q : TxPos} {onSent : State → Micro}
    {onGot : List Byte → State → Micro} {onFail : Err → State → Micro}
    (hs : ∀ u, txStep .seq wr req q s = .sent u → onSent u ≠ .lost)
    (hg : ∀ x u, txStep .seq wr req q s = .got x u → onGot x u ≠ .lost)
    (hf : ∀ e u, onFail e u ≠ .lost) : seqTxWith wr req q s onSent onGot onFail ≠ .lost := by
  unfold seqTxWith
  split
  · nofun
  · nofun
  · exact hs _ ‹_›
  · exact hg _ _ ‹_›
  · exact hf _ _

theorem txStep_not_sent {a : Agent} {wr : Bool} {req : List Byte} {q : TxPos} {u : State} (hq : q.sends = false) :
    txStep a wr req q s ≠ .sent u := fun h => by
  rw [txStep_sent h] at hq
  cases hq

theorem txStep_not_got {a : Agent} {wr : Bool} {req x : List Byte} {q : TxPos} {u : State} (hq : q.sends = true) :
    txStep a wr req q s ≠ .got x u := fun h => by
  rw [(txStep_got h).1] at hq
  cases hq

/-- The first primitive of a receive does not end it. -/
theorem txStep_recv_not_got {a : Agent} {wr : Bool} {req x : List Byte} {u : State} :
    txStep a wr req .recv s ≠ .got x u := fun h => by
  rcases recvStep_cases a s with hr | ⟨q, v, hr, _⟩ <;> cases hr.symm.trans h

theorem closeBody_ne_lost (s : State) : closeBody s ≠ .lost := by
  unfold closeBody
  split <;> nofun

theorem initBody_ne_lost (s : State) : initBody s ≠ .lost := by
  unfold initBody
  split
  · exact acquireThen_ne_lost _ _
  · nofun

theorem initOpen_ne_lost (s : State) : initOpen s ≠ .lost := by
  unfold initOpen
  split
  · exact initBody_ne_lost s
  · exact openStep_ne_lost s

/-- R320: past its PROTO, state and ARGUMENT checks the first line of an operation acquires the lock, goes on or ends. -/
theorem opStep_start_ne_lost (i : Instr) (s : State) : opStep i .start s ≠ .lost := by
  cases i with
  | openPort =>
    simp only [opStep, stepOpen]
    split
    · nofun
    · exact openStep_ne_lost s
  | closePort => exact stopThen_ne_lost s (closeBody_ne_lost s)
  | capDump => nofun
  | klEnc | croEnc =>
    simp only [opStep, stepKlEnc, stepCroEnc]
    split <;> nofun
  | klParse | dtoDec =>
    simp only [opStep, stepKlParse, stepDtoDec]
    split
    · nofun
    · split <;> nofun
  | tpSend | tpRecv | tpSr =>
    simp only [opStep, stepTpSend, stepTpRecv, stepTpSr]
    split
    · nofun
    · exact acquireThen_ne_lost _ _
  | fiSeq | kwpExec | ccpExec =>
    simp only [opStep, stepFiSeq, stepKwpExec, stepCcpExec]
    split
    · nofun
    · split
      · nofun
      · split
        · nofun
        · exact acquireThen_ne_lost _ _
  | kwpInit =>
    simp only [opStep, stepKwpInit]
    split
    · nofun
    · exact stopThen_ne_lost s (initOpen_ne_lost s)

/-- An operation inside the transport has a position for each end of it that its half of the transport can reach. -/
theorem opStep_tx_ne_lost {i : Instr} {req : List Byte} {q : TxPos} (h : posOk i (.tx req q) = true) :
    opStep i (.tx req q) s ≠ .lost := by
  cases i with
  | tpSend => exact seqTxWith_ne_lost (fun _ _ => nofun) (fun _ _ hg => absurd hg (txStep_not_got h)) fun _ _ => nofun
  | tpRecv =>
    have hq : q.sends = false := by simpa [posOk] using h
    exact seqTxWith_ne_lost (fun _ hs => absurd hs (txStep_not_sent hq)) (fun _ _ _ => nofun) fun _ _ => nofun
  | kwpInit =>
    have hq : q.sends = false := by simpa [posOk] using h
    exact seqTxWith_ne_lost (fun _ hs => absurd hs (txStep_not_sent hq)) (fun _ _ _ => nofun) fun _ _ => nofun
  | tpSr => exact seqTxWith_ne_lost (fun _ _ => nofun) (fun _ _ _ => nofun) fun _ _ => nofun
  | kwpExec => exact seqTxWith_ne_lost (fun _ _ => nofun) (fun _ _ _ => nofun) fun _ _ => nofun
  | ccpExec => exact seqTxWith_ne_lost (fun _ _ => nofun) (fun _ _ _ => nofun) fun _ _ => nofun
  | _ => cases h

/-- A stored reply is judged: positive, refused, or read past with a new receive (R241 to R243). -/
theorem stepKwpExec_got_ne_lost (req u : List Byte) (s : State) : stepKwpExec (.got req u) s ≠ .lost := by
  simp only [stepKwpExec]
  split
  · nofun
  · exact seqTxWith_ne_lost (fun _ hs => absurd hs (txStep_not_sent rfl))
      (fun _ _ hg => absurd hg txStep_recv_not_got) fun _ _ => nofun
  · nofun

/-- R314: an operation has a step, or waits, at each of its positions. -/
theorem opStep_ne_lost {i : Instr} {p : Pos} (h : posOk i p = true) : opStep i p s ≠ .lost := by
  cases p with
  | start => exact opStep_start_ne_lost i s
  | tx req q => exact opStep_tx_ne_lost h
  | stopped =>
    cases i with
    | closePort => exact stoppedThen_ne_lost s (closeBody_ne_lost s)
    | kwpInit => exact stoppedThen_ne_lost s (initOpen_ne_lost s)
    | _ => cases h
  | body =>
    cases i with
    | kwpInit => exact initBody_ne_lost s
    | _ => cases h
  | fi f q =>
    cases i with
    | fiSeq | kwpInit => exact seqFi_ne_lost _ _ _ _
    | _ => cases h
  | got req u =>
    cases i with
    | kwpExec => exact stepKwpExec_got_ne_lost req u s
    | _ => cases h
  | finish r =>
    cases i with
    | openPort | closePort | tpSend | tpRecv | tpSr | kwpInit | kwpExec => nofun
    | fiSeq =>
      cases r with
      | fastInit ok => cases ok <;> nofun
      | _ => cases h
    | ccpExec =>
      cases r with
      | data f => nofun
      | _ => cases h
    | _ => cases h
  | opened | filter | raise e =>
    cases i with
    | openPort | kwpInit => nofun
    | _ => cases h
  | release r =>
    cases i with
    | fiSeq | tpSend | tpRecv | tpSr | kwpInit | ccpExec => nofun
    | _ => simp [posOk] at h

end

/-! ### Every step has a next state -/

section
variable {s : State} {o : Op} {i : Instr}

theorem opStep_ne_lost_of_inv (h : s.Inv) (ho : s.op = some o) (hi : decodeCode o.code = .ok i) :
    opStep i o.pos s ≠ .lost :=
  opStep_ne_lost (Landing.of_inv h ho hi).pos

/-- A run never leaves the invariant, so it reaches no position that its operation does not have. -/
theorem exec_next (h : s.Inv) (ho : s.op = some o) (hi : decodeCode o.code = .ok i) : ∃ t, exec i s = .next t := by
  rw [exec_eq]
  cases hr : runOp (opStep i) (runBudget s) s with
  | next t => exact ⟨t, rfl⟩
  | refused r => exact absurd hr (runOp_not_refused _ _ _ _)
  | fault r =>
    refine absurd hr (runOp_no_fault (opStep i) (fun u => u.Inv ∧ Runs i u) ?_ ?_ ?_ _ s r ⟨h, .of_op ho hi⟩)
    · rintro u o' ⟨hu, hruns⟩ ho'
      exact opStep_ne_lost_of_inv hu ho' (hruns o' ho')
    · rintro u v o' ⟨hu, hruns⟩ ho' hv
      have hmove := opStep_cases hv
      exact ⟨hmove.inv hu ho' (hruns o' ho'), hmove.runs hruns⟩
    · rintro u v ⟨hu, hruns⟩ hv
      have hmove := kaStep_cases hv
      exact ⟨hmove.inv hu, hruns.congr hmove.frame.op⟩

theorem seqRun_next (h : s.Inv) : ∃ t, seqRun s = .next t := by
  unfold seqRun
  split
  · exact ⟨_, rfl⟩
  · exact ⟨_, rfl⟩
  · rename_i i hf
    obtain ⟨o, ho, hi⟩ := Option.map_eq_some_iff.mp hf
    exact exec_next h ho hi

theorem seqAtom_next (h : s.Inv) : ∃ t, seqAtom s = .next t := by
  unfold seqAtom
  split
  · exact ⟨_, rfl⟩
  · split
    · exact ⟨_, rfl⟩
    · split
      · exact ⟨_, rfl⟩
      · exact ⟨_, rfl⟩
      · exact ⟨_, rfl⟩
      · exact absurd ‹_› (opStep_ne_lost_of_inv h ‹_› ‹_›)

theorem eventStep_next (e : Event) (h : s.Inv) : ∃ t, eventStep e s = .next t := by
  cases e with
  | run => exact seqRun_next h
  | atom => exact seqAtom_next h
  | _ => exact ⟨_, rfl⟩

end

/-- Settles O20: only the sequencer could stop, at a position its operation does not have, and the invariant excludes
those. -/
theorem stepNeverStops : Obligations.StepNeverStops := by
  intro s h
  unfold step
  split
  · exact eventStep_next _ (h.setSched _)
  · split
    · exact seqRun_next h
    · exact ⟨_, rfl⟩

end Sys2Proof.Machine

/-! The block reset (spec/70_reset_and_hazards.md R350 to R352): what it sets part by part, what the host reads after it,
and the invariant in the state it leaves. -/

namespace Sys2Proof.Machine

/-! ### The state after the block reset -/

section
variable (s : State)

theorem eventStep_reset : eventStep .reset s = .next (blockReset s) := rfl

@[simp] theorem blockReset_status : (blockReset s).status = .reset := rfl
@[simp] theorem blockReset_outs : (blockReset s).outs = .reset := rfl
@[simp] theorem blockReset_cap : (blockReset s).cap = { live := [], dumped := [] } := rfl
@[simp] theorem blockReset_op : (blockReset s).op = none := rfl
@[simp] theorem blockReset_lock : (blockReset s).lock = .free := rfl
@[simp] theorem blockReset_ka : (blockReset s).ka = { phase := .off, stopReq := false, pdu := [] } := rfl
@[simp] theorem blockReset_clock :
    (blockReset s).clock = { now := s.clock.now, lastAct := s.clock.now, timeHiLatch := 0, lastActHiLatch := 0 } := rfl
@[simp] theorem blockReset_port : (blockReset s).port = { timeout := 2000, line := .uart, log := s.port.log } := rfl
@[simp] theorem blockReset_env : (blockReset s).env = s.env := rfl

/-- Buffer RAM is unspecified anew (R351). -/
theorem peek_blockReset {a : Nat} (h : a < 0x800) : (blockReset s).peek a = Config.ramFree (s.epoch + 1) a :=
  if_pos h

end

/-! ### What the host reads after it -/

/-- The registers to which reset gives a value of their own: all but the two low words of the clock, which R350 takes from
NOW_US, and buffer RAM, which is unspecified (R351). -/
def HostReg.fixedAtReset : HostReg → Bool
  | .timeLo | .lastActLo | .bufram _ => false
  | _ => true

/-- The map has such a register at `off`, and `w` is its value in the reset state. -/
def resetReads (off : BitVec 16) (w : Word) : Bool :=
  (regAt off).any fun r => r.fixedAtReset && regValue r State.reset == w

/-- Such a register does not depend on what the state was before the reset. -/
theorem regValue_blockReset {r : HostReg} (s : State) (h : r.fixedAtReset = true) :
    regValue r (blockReset s) = regValue r State.reset := by
  cases r with
  | timeLo | lastActLo | bufram _ => cases h
  | _ => rfl

/-- Reset leaves no operation running, so a read returns the register's value (R66, R350). -/
theorem hostRead_blockReset {off : BitVec 16} {w : Word} (s : State) (h : resetReads off w = true) :
    (hostStep (.read off) (blockReset s)).hostData = w := by
  obtain ⟨r, hr, hw⟩ := (Option.any_eq_true _ _).mp h
  obtain ⟨hfixed, hw⟩ := Bool.and_eq_true_iff.mp hw
  rw [hostRead_data hr (readIsFree_idle rfl), regValue_blockReset s hfixed]
  exact eq_of_beq hw

/-- Settles O16: the reset state has R350's value at each offset of the table, and the rest are the fields reset sets. -/
theorem resetValues : Obligations.ResetValues := by
  intro s
  refine ⟨_, eventStep_reset s, fun p hp => hostRead_blockReset s ?_, blockReset_op s, blockReset_lock s, blockReset_ka s,
    blockReset_cap s, blockReset_clock s, by rw [blockReset_port], by rw [blockReset_port],
    fun a ha => peek_blockReset s ha⟩
  exact List.all_eq_true (p := fun p => resetReads p.1 p.2).mp (by decide) p hp

/-- Settles O17: error entry and the port's primitives have no part in the reset, which sets each of these fields itself
and keeps the port's log and the environment. -/
theorem resetAbandons : Obligations.ResetAbandons := by
  intro s
  refine ⟨_, eventStep_reset s, blockReset_op s, ?_⟩
  simp [Status.reset, Outs.reset]

/-! ### The invariant after it -/

/-- The invariant says nothing about the number of resets. -/
theorem State.Inv.setEpoch {s : State} (h : s.Inv) (n : Nat) : State.Inv { s with epoch := n } := { h with }

/-- The reset state, at any clock value, is what a block reset leaves of itself, but for the number of resets. -/
theorem reset_inv (env : Env) (sched : List Event) (now : Time) :
    State.Inv { State.reset with
      env := env, sched := sched
      clock := { now := now, lastAct := now, timeHiLatch := 0, lastActHiLatch := 0 } } :=
  (blockReset_inv { State.reset with env := env, sched := sched, clock.now := now }).setEpoch 0

/-- Settles O18: every block reset meets the invariant, and the reset state is one of its outcomes up to the epoch. -/
theorem invAtReset : Obligations.InvAtReset := by
  refine ⟨reset_inv, reset_inv State.reset.env [] 0, fun s t h => ?_⟩
  cases h
  exact blockReset_inv s

end Sys2Proof.Machine
